-- ==== Sys2Proof/Word.lean ====
section
/-! DEFINITION. The word types of the machine and the fields of an encoded instruction.
Only plain data and the plainest arithmetic stand here. -/

namespace Sys2Proof

/-- A 32-bit register (01 R7). -/
abbrev Word := BitVec 32
/-- A byte of memory. -/
abbrev Byte := BitVec 8
/-- A 64-bit pair or address operand (01 R9, R21). -/
abbrev DWord := BitVec 64
/-- A 48-bit packet or virtual address (01 R7, R21). -/
abbrev VAddr := BitVec 48

/-- The extension word of an instruction (03 R60), field by field. -/
structure Ext where
  c     : BitVec 8
  type  : BitVec 5
  rnd   : BitVec 3
  sat   : BitVec 1
  scope : BitVec 3
  order : BitVec 3
  cache : BitVec 3
  space : BitVec 3
  aux   : BitVec 3
deriving DecidableEq, Repr, Inhabited

/-- What an encoded instruction carries: guard, U and STALL of its slot control (03 R49), the D, A and B fields
of its word (R57), its extension word (R60) and its literal (R62). -/
structure Enc where
  guard : BitVec 4
  u     : BitVec 1
  stall : BitVec 3
  d     : BitVec 8
  a     : BitVec 8
  b     : BitVec 8
  ext   : Option Ext
  lit   : Option Word
deriving DecidableEq, Repr, Inhabited

/-- The major forms of 03 R67, with brx.rel, call.x and red.det told apart from brx, call and red. -/
inductive Op where
  | nop | mov | movi | movh | movs | sel | cmp | pops | add | sub | addc | subc | mul | mulh | mad | madw | min
  | max | abs | neg | lea | and | or | xor | andn | not | shl | shr | sra | rotl | bfx | bfi | clz | popc
  | brev | add2 | sub2 | mul2 | mac2 | shrn | pk2 | unpk | sflg | fadd | fsub | fmul | ffma | fmin | fmax
  | fneg | fabs | fcmp | fcls | frnd | frcp | frsq | fsqrt | fdiv | fex2 | flg2 | fsin | fcos | hadd2 | hmul2
  | hfma2 | cvt | cvpk | cvup | bra | brx | brxRel | call | callX | ret | exit | vote | matchOp | elect | sld
  | shfl | lbc | wrdx | wscan | rgn | join | rgp | spawn | ld | st | ldc | ldcinv | prf | fence | atom | cas
  | red | redDet | binit | barr | bexp | bwait | btry | binv | cpy | cpys | cpyw | lrinv | qfence | put | hbld
  | hprb | hlk | mrg | scn | hfree | xenq | xtake | tmm | tmmsp | tgms | tsacc | tzero | tst | tldac | ttr
  | tscl | tflush | trap | tret | brkpt | sysr | sysw | tmark
deriving DecidableEq, Repr

/-- The extension word that an instruction without one has: every field zero (03 R52). -/
def Ext.zero : Ext := ⟨0, 0, 0, 0, 0, 0, 0, 0, 0⟩

/-- The extension fields in force (03 R52). -/
def Enc.x (e : Enc) : Ext := e.ext.getD Ext.zero

/-- The 16-bit immediate in place of A and B (03 R57). -/
def Enc.imm16 (e : Enc) : BitVec 16 := e.a ++ e.b

end Sys2Proof
end

