-- ==== Sys2Proof/Machine/Forms.lean ====
section
/-! DEFINITION. The encoding of every major form as data: pipe, operand kinds, accepted field values and literal
(03 R57 to R62, R68), and the checks that every instruction shares (R70). The chapters' encoding tables stand here
once: 05 R96 to R114, 06 R118 to R139, 07 R141, R149, 10 R196, R203, 15 R265, R266, R275, R284, 21 R368, 22 R380,
28 R455 to R460, 31 R497. -/

namespace Sys2Proof.Machine

/-- The pipes of 03 R63. -/
inductive Pipe where
  | none | A | S | M | C
deriving DecidableEq, Repr

/-- How an instruction uses one of its D, A, B or C fields. -/
inductive OpK where
  /-- Not used: must be zero. -/
  | no
  /-- A plain number: any value. -/
  | any
  /-- A source of `n` registers, any source code of R58. -/
  | src (n : Nat)
  /-- A source of `n` registers, or 0xF0. -/
  | base (n : Nat)
  /-- A source of `n` registers, no special code. -/
  | strict (n : Nat)
  /-- A destination of `n` registers, or 0xF0. -/
  | dst (n : Nat)
  /-- One register both read and written, or 0xF0. -/
  | rdst
  /-- A predicate written: bits [2:0], the others zero. -/
  | pdst
  /-- A predicate read: bits [2:0], negated by bit 3, the others zero. -/
  | psrc
  /-- Carry-in and carry-out predicates of `addc` and `subc` (05 R107). -/
  | carry
  /-- A number up to a limit. -/
  | upTo (n : Nat)
deriving DecidableEq, Repr

/-- How an instruction uses its literal (03 R62). -/
inductive LitK where
  | no | opt | req | asA | asB
deriving DecidableEq, Repr

/-- What a form accepts. The lists hold the accepted values of a field; `extra` is what the description adds. -/
structure Form where
  pipe  : Pipe
  d     : OpK := .no
  a     : OpK := .no
  b     : OpK := .no
  c     : OpK := .no
  types : List Nat := [0]
  rnds  : List Nat := [0]
  sats  : List Nat := [0]
  scopes : List Nat := [0]
  orders : List Nat := [0]
  caches : List Nat := [0]
  spaces : List Nat := [0]
  auxs  : List Nat := [0]
  lit   : LitK := .no
  uni   : Bool := true
  extra : Bool := true

/-- Registers that a type occupies (02 R24). -/
def typeRegs (t : Nat) : Nat := if t = 4 || t = 9 then 2 else if t = 5 then 4 else 1

/-- The type in force: the default where TYPE is 0 (05 R94). -/
def typeOf (dflt : Nat) (e : Enc) : Nat := if e.x.type = 0 then dflt else e.x.type.toNat

/-- INT of chapter 05, with the default code. -/
def intTypes : List Nat := [0, 1, 2, 3, 4, 6, 7, 8, 9]
/-- FLT of chapter 06, with the default code. -/
def fltTypes : List Nat := [0, 0xA, 0xB, 0xC]
/-- The types a scalar conversion accepts (06 R137). -/
def cvtTypes : List Nat := [1, 2, 3, 4, 6, 7, 8, 9, 0xA, 0xB, 0xC, 0xD, 0xE, 0xF]
/-- Integer types among those (06 R137). -/
def isIntType (t : Nat) : Bool := decide (t ≤ 9)

/-- TYPE values of a reduction operation of `wrdx` and `wscan` (10 R203). -/
def foldTypes (op : Nat) : List Nat := if op ≤ 2 then [0, 3, 4, 8, 9, 0xC] else [0, 3, 4]

/-- TYPE values that an atomic operation accepts (15 R275). -/
def atomTypes (op : Nat) : List Nat :=
  if op ≤ 2 then [0, 3, 4, 8, 9, 0xC] else if op ≤ 6 then [0, 3, 4] else if op = 7 then [0, 3] else []

/-- Special registers of 64 bits (01 R19). -/
def specialWide (i : Nat) : Bool := i = 16 || i = 24 || i = 26 || i = 30
/-- Special register indices that are not reserved (01 R19). -/
def specialOk (i : Nat) : Bool := decide (i ≤ 30) && !(i = 15 || i = 17 || i = 25 || i = 27)
/-- Special registers that are variable-latency sources (01 R19). -/
def specialScored (i : Nat) : Bool := i = 23 || i = 24 || i = 26

/-- The form of an instruction: what its fields may hold. -/
def form (op : Op) (e : Enc) : Form :=
  let ty := typeOf 3 e
  let n := typeRegs ty
  let aux := e.x.aux.toNat
  let space := e.x.space.toNat
  let home := if space = 0 then [0, 1, 2, 3, 4] else [0]
  let policy := if space = 0 then [0, 1, 2, 3, 4, 5, 6, 7] else [0]
  let litLow := match e.lit with
    | some l => l.extractLsb' 0 4 == 0#4
    | none => true
  match op with
  | .nop => { pipe := .none }
  | .mov => { pipe := .A, d := .dst n, a := .src n, types := [0, 3, 4, 5], lit := .asA,
              extra := !(e.lit.isSome && ty = 5) }
  | .movi => { pipe := .A, d := .dst 1, a := .any, b := .any, types := [0, 3, 8] }
  | .movh => { pipe := .A, d := .rdst, a := .any, b := .any }
  | .movs => { pipe := .C, d := .dst (if specialWide e.a.toNat then 2 else 1), a := .any, extra := specialOk e.a.toNat }
  | .sel => { pipe := .A, d := .dst n, a := .src n, b := .src n, c := .psrc, types := [0, 3, 4], lit := .asB }
  | .cmp => { pipe := .A, d := .pdst, a := .src n, b := .src n, c := .upTo 9, types := intTypes, lit := .asB }
  | .pops => { pipe := .A, d := .pdst, a := .psrc, b := .psrc, auxs := [0, 1, 2, 3] }
  | .add | .sub | .mul =>
    { pipe := .A, d := .dst n, a := .src n, b := .src n, types := intTypes, sats := [0, 1], lit := .asB }
  | .addc | .subc => { pipe := .A, d := .dst 1, a := .src 1, b := .src 1, c := .carry, types := [0, 3], lit := .asB }
  | .mulh => { pipe := .A, d := .dst n, a := .src n, b := .src n, types := [0, 3, 4, 8, 9], lit := .asB }
  | .mad =>
    { pipe := .A, d := .dst n, a := .src n, b := .src n, c := .src n, types := intTypes, sats := [0, 1], lit := .asB }
  | .madw =>
    { pipe := .A, d := .dst 2, a := .src 1, b := .src 1, c := .src 2, types := [0, 3, 8], sats := [0, 1], lit := .asB }
  | .min | .max => { pipe := .A, d := .dst n, a := .src n, b := .src n, types := intTypes, lit := .asB }
  | .abs => { pipe := .A, d := .dst n, a := .src n, types := [0, 6, 7, 8, 9], sats := [0, 1] }
  | .neg => { pipe := .A, d := .dst n, a := .src n, types := intTypes, sats := [0, 1] }
  | .lea => { pipe := .A, d := .dst 2, a := .src 2, b := .src 1, types := [0, 3, 8], auxs := [0, 1, 2, 3, 4, 5, 6, 7],
              lit := .opt }
  | .and | .or | .xor | .andn => { pipe := .A, d := .dst n, a := .src n, b := .src n, types := [0, 3, 4], lit := .asB }
  | .not | .brev => { pipe := .A, d := .dst n, a := .src n, types := [0, 3, 4] }
  | .shl => { pipe := .A, d := .dst n, a := .src n, b := .src 1, types := [0, 3, 4, 8, 9], sats := [0, 1], lit := .asB }
  | .shr | .rotl => { pipe := .A, d := .dst n, a := .src n, b := .src 1, types := [0, 3, 4], lit := .asB }
  | .sra => { pipe := .A, d := .dst n, a := .src n, b := .src 1, types := [0, 8, 9], lit := .asB }
  | .bfx => { pipe := .A, d := .dst n, a := .src n, b := .src 1, types := [0, 3, 4, 8, 9], lit := .asB }
  | .bfi => { pipe := .A, d := .dst n, a := .src n, b := .src 1, c := .src n, types := [0, 3, 4], lit := .asB }
  | .clz | .popc => { pipe := .A, d := .dst 1, a := .src n, types := [0, 3, 4] }
  | .add2 | .sub2 | .mul2 =>
    { pipe := .A, d := .dst 1, a := .src 1, b := .src 1, types := [0, 0x10, 0x16], sats := [0, 1], auxs := [0, 1],
      lit := .asB }
  | .mac2 => { pipe := .A, d := .dst 1, a := .src 1, b := .src 1, c := .src 1, types := [0, 0x10], lit := .asB }
  | .shrn => { pipe := .A, d := .dst 1, a := .src (if ty = 0x10 then 2 else if ty = 0x16 then 4 else 1), b := .src 1,
               types := [0, 1, 2, 6, 7, 0x10, 0x16], rnds := [0, 1, 2, 3, 4, 5], lit := .asB }
  | .pk2 => { pipe := .A, d := .dst 1, a := .src 1, b := .src 1,
              types := if e.x.sat = 1 then [0, 0x10] else [0, 0x10, 0x11, 0x12], sats := [0, 1],
              auxs := if e.x.sat = 1 then [0] else [0, 1, 2, 3], lit := .asB }
  | .unpk => { pipe := .A, d := .dst 1, a := .src 1, types := [0, 0x10, 0x11, 0x12, 0x13, 0x14, 0x15, 0x16],
               auxs := if ty = 0x15 then [0, 1, 2, 3, 4, 5, 6, 7]
                       else if ty = 0x16 || ty = 0x13 || ty = 0x14 then [0, 1, 2, 3] else [0, 1] }
  | .sflg => { pipe := .C, d := .dst 1, b := if aux = 1 then .src 1 else .no, auxs := [0, 1],
               lit := if aux = 1 then .asB else .no, uni := false }
  | .fadd | .fsub | .fmul =>
    { pipe := .A, d := .dst 1, a := .src 1, b := .src 1, types := fltTypes, rnds := [0, 1, 2, 3, 4], sats := [0, 1],
      lit := .asB }
  | .ffma => { pipe := .A, d := .dst 1, a := .src 1, b := .src 1, c := .src 1, types := fltTypes,
               rnds := [0, 1, 2, 3, 4], sats := [0, 1], lit := .asB }
  | .fmin | .fmax => { pipe := .A, d := .dst 1, a := .src 1, b := .src 1, types := fltTypes, lit := .asB }
  | .fneg | .fabs => { pipe := .A, d := .dst 1, a := .src 1, types := [0, 0xA, 0xB, 0xC, 0x11, 0x12] }
  | .fcmp => { pipe := .A, d := .pdst, a := .src 1, b := .src 1, c := .upTo 7, types := fltTypes, lit := .asB }
  | .fcls => { pipe := .A, d := .dst 1, a := .src 1, types := [0, 0xA, 0xB, 0xC, 0xD, 0xE, 0xF] }
  | .frnd => { pipe := .A, d := .dst 1, a := .src 1, types := fltTypes, rnds := [0, 1, 2, 3, 4] }
  | .frcp | .frsq | .fex2 | .flg2 | .fsin | .fcos =>
    { pipe := .S, d := .dst 1, a := .src 1, types := [0, 0xC], sats := [0, 1] }
  | .fsqrt => { pipe := .S, d := .dst 1, a := .src 1, types := [0, 0xC], rnds := [0, 1, 2, 3, 4], sats := [0, 1] }
  | .fdiv => { pipe := .S, d := .dst 1, a := .src 1, b := .src 1, types := [0, 0xC], rnds := [0, 1, 2, 3, 4],
               sats := [0, 1], lit := .asB }
  | .hadd2 | .hmul2 => { pipe := .A, d := .dst 1, a := .src 1, b := .src 1, types := [0, 0x11, 0x12],
                         rnds := [0, 1, 2, 3, 4], sats := [0, 1], lit := .asB }
  | .hfma2 => { pipe := .A, d := .dst 1, a := .src 1, b := .src 1, c := .src 1, types := [0, 0x11, 0x12],
                rnds := [0, 1, 2, 3, 4], sats := [0, 1], lit := .asB }
  | .cvt =>
    let ts := e.x.c.toNat
    let td := e.x.type.toNat
    { pipe := .A, d := .dst (typeRegs td), a := .src (typeRegs ts), c := .upTo 31, types := cvtTypes,
      rnds := if isIntType td then (if isIntType ts then [0] else [0, 1, 2, 3, 4, 5]) else [0, 1, 2, 3, 4],
      sats := if isIntType td && !isIntType ts then [0] else [0, 1], extra := cvtTypes.contains ts }
  | .cvpk =>
    let k := if ty = 0x13 || ty = 0x14 then 2 else if ty = 0x15 then 4 else 1
    { pipe := .A, d := .dst 1, a := .src k, b := .src k, types := [0, 0x11, 0x12, 0x13, 0x14, 0x15],
      rnds := [0, 1, 2, 3, 4], sats := [0, 1] }
  | .cvup =>
    { pipe := .A, d := .dst (if ty = 0x13 || ty = 0x14 || ty = 0x15 then 4 else 2), a := .src 1,
      types := [0, 0x11, 0x12, 0x13, 0x14, 0x15], auxs := if ty = 0x15 then [0, 1] else [0] }
  | .bra => { pipe := .C, lit := .req, extra := litLow }
  | .brx => { pipe := .C, a := .base 2, lit := .opt, extra := litLow }
  | .brxRel => { pipe := .C, a := .src 1, auxs := [1], lit := .opt, extra := litLow }
  | .call => { pipe := .C, d := .dst 2, lit := .req, extra := litLow }
  | .callX => { pipe := .C, d := .dst 2, a := .base 2, auxs := [1], lit := .opt, extra := litLow }
  | .ret => { pipe := .C, a := .strict 2 }
  | .exit => { pipe := .C }
  | .vote => { pipe := .C, d := if aux ≤ 2 then .pdst else if aux = 3 then .dst 2 else .dst 1, a := .psrc,
               auxs := [0, 1, 2, 3, 4], uni := false }
  | .matchOp => { pipe := .C, d := .dst 2, a := .src n, c := if aux = 1 then .pdst else .no, types := [0, 3, 4],
                  auxs := [0, 1], uni := false }
  | .elect => { pipe := .C, d := .dst 1, a := .pdst, uni := false }
  | .sld => { pipe := .C, d := .dst 1, a := .src 1, b := .src 1, types := [0, 3], auxs := [0, 1, 2, 3], lit := .req,
              uni := false, extra := decide ((e.lit.getD 0).toNat < 256) }
  | .shfl => { pipe := .C, d := .dst n, a := .src n, b := .src 1, types := [0, 3, 4], auxs := [0, 1, 2, 3], lit := .asB,
               uni := false }
  | .lbc => { pipe := .C, d := .dst n, a := .src n, b := .src 1, types := [0, 3, 4], lit := .asB, uni := false }
  | .wrdx => { pipe := .C, d := .dst n, a := .src n, types := foldTypes aux,
               rnds := if aux = 0 && ty = 0xC then [0, 1, 2, 3, 4] else [0], sats := if aux = 0 then [0, 1] else [0],
               auxs := [0, 1, 2, 3, 4, 5], uni := false }
  | .wscan => { pipe := .C, d := .dst n, a := .src n, c := .upTo 1, types := foldTypes aux,
                rnds := if aux = 0 && ty = 0xC then [0, 1, 2, 3, 4] else [0], sats := if aux = 0 then [0, 1] else [0],
                auxs := [0, 1, 2, 3, 4, 5], uni := false }
  | .rgn => { pipe := .C, lit := .req, uni := false, extra := litLow }
  | .join | .rgp => { pipe := .C, uni := false }
  | .spawn => { pipe := .M, d := .dst 1, a := .strict 2, b := .base 1 }
  | .ld =>
    { pipe := .M, d := .dst n, a := .base 2, types := [0, 1, 2, 3, 4, 5, 6, 7], rnds := home, caches := policy,
      spaces := [0, 1, 2, 3], scopes := [0, 1, 2, 3, 4, 5, 6], orders := [0, 1, 4], auxs := [0, 1, 2, 3, 4, 5, 6, 7],
      lit := .opt,
      extra := !(e.x.scope = 0 && e.x.order ≠ 0) && !(e.x.scope ≠ 0 && space = 3) && !(e.x.scope ≠ 0 && ty = 5)
        && !(decide (2 ≤ aux) && space ≠ 2) && !(e.x.scope = 6 && !(e.x.order = 1 && space = 0)) }
  | .st =>
    { pipe := .M, a := .base 2, b := .src n, types := [0, 1, 2, 3, 4, 5], rnds := home, caches := policy,
      spaces := [0, 1, 2, 3], scopes := [0, 1, 2, 3, 4, 5], orders := [0, 2, 4], auxs := [0, 1, 2, 3], lit := .opt,
      extra := !(e.x.scope = 0 && e.x.order ≠ 0) && !(e.x.scope ≠ 0 && ty = 5) && !(aux ≠ 0 && space ≠ 2) }
  | .ldc => { pipe := .M, d := .dst n, a := .base 2, types := [0, 1, 2, 3, 4, 5, 6, 7], rnds := [0, 1, 2, 3, 4],
              caches := [0, 1, 2, 3, 4, 5, 6, 7], lit := .opt }
  | .ldcinv => { pipe := .M }
  | .prf => { pipe := .M, a := .base 2, rnds := [0, 1, 2, 3, 4], caches := [0, 1, 2, 3, 4, 5, 6, 7], auxs := [0, 1, 2],
              lit := .opt }
  | .fence => { pipe := .M, scopes := [1, 2, 3, 4, 5], orders := [1, 2, 3, 4] }
  | .atom =>
    { pipe := .M, d := .dst n, a := .base 2, b := .src n, c := .upTo 7, types := atomTypes e.x.c.toNat, rnds := home,
      spaces := [0, 1, 2, 3], scopes := [1, 2, 3, 4, 5, 6], orders := [0, 1, 2, 3, 4], auxs := [0, 1, 2, 3], lit := .opt,
      extra := !(aux ≠ 0 && space ≠ 2) && !(e.x.scope = 6 && !((e.x.order = 1 || e.x.order = 3) && space = 0)) }
  | .cas =>
    { pipe := .M, d := .dst n, a := .base 2, b := .src n, c := .src n, types := [0, 3, 4], rnds := home,
      spaces := [0, 1, 2, 3], scopes := [1, 2, 3, 4, 5, 6], orders := [0, 1, 2, 3, 4], auxs := [0, 1, 2, 3], lit := .opt,
      extra := !(aux ≠ 0 && space ≠ 2) && !(e.x.scope = 6 && !((e.x.order = 1 || e.x.order = 3) && space = 0)) }
  | .red => { pipe := .M, d := .upTo 5, a := .base 2, b := .src n, types := atomTypes e.d.toNat, rnds := home,
              spaces := [0, 3], scopes := [1, 2, 3, 4, 5], orders := [0, 2], lit := .opt }
  | .redDet => { pipe := .M, d := .upTo 5, a := .base 2, b := .src n, c := .src 2, types := atomTypes e.d.toNat,
                 rnds := home, spaces := [0, 3], scopes := [1, 2, 3, 4, 5], auxs := [1], lit := .opt }
  | .binit => { pipe := .M, d := .dst 1, a := .src 1, b := .src 1, lit := .asB }
  | .barr => { pipe := .M, d := .dst 1, a := .src 1 }
  | .bexp => { pipe := .M, d := if aux = 1 then .dst 1 else .no, a := .src 1, b := .src 1, auxs := [0, 1], lit := .asB }
  | .bwait => { pipe := .M, a := .src 1, b := .src 1, lit := .asB }
  | .btry => { pipe := .M, d := .pdst, a := .src 1, b := .src 1, lit := .asB }
  | .binv => { pipe := .M, a := .src 1 }
  | .cpy => { pipe := .M, d := .src 1, a := .strict 4, b := .strict 4, c := .strict 4, scopes := [1, 2, 3, 4, 5] }
  | .cpys =>
    let rank := (e.x.c.extractLsb' 3 2).toNat
    let dsp := (e.x.c.extractLsb' 0 3).toNat
    { pipe := .M, d := .src 1, a := .strict 4, b := .src 1, c := .upTo 31, scopes := [1, 2, 3, 4, 5],
      spaces := [0, 1, 2, 3], auxs := [0, 1],
      extra := decide (dsp ≤ 2) && !(rank ≠ 0 && space ≠ 2 && dsp ≠ 2) }
  | .cpyw => { pipe := .M, d := .src 1, a := .strict 2, b := .src 1, c := .src 1, scopes := [1, 2, 3, 4, 5],
               spaces := [0, 1, 2], auxs := [0, 1, 2, 3], extra := !(aux ≠ 0 && space ≠ 2) }
  | .lrinv => { pipe := .M, a := .strict 2, lit := .opt }
  | .qfence => { pipe := .M, c := .upTo 15, extra := e.x.c ≠ 0 }
  | .put => { pipe := .M, d := .src 1, a := .src 4, b := .src 1, c := .src 1, scopes := [1, 2, 3, 4, 5],
              spaces := [0, 1] }
  | .hbld | .hprb => { pipe := .M, d := .dst 1, a := .strict 2, b := .src 1, scopes := [1, 2, 3, 4, 5] }
  | .hlk => { pipe := .M, d := .dst 1, a := .strict 2, b := .src 1 }
  | .mrg | .scn => { pipe := .M, a := .strict 2, b := .src 1, scopes := [1, 2, 3, 4, 5] }
  | .hfree => { pipe := .M, a := .src 1, b := .src 1, scopes := [1, 2, 3, 4, 5] }
  | .xenq => { pipe := .M, a := .strict 4, b := .src 1, scopes := [3, 4, 5] }
  | .xtake => { pipe := .M, d := .dst 4, a := .pdst }
  | .tmm | .tgms | .tsacc | .tst | .tldac => { pipe := .M, a := .base 2, lit := .opt }
  | .tmmsp => { pipe := .M, a := .base 2, b := .src 1, auxs := [0, 1, 2, 3], lit := .opt, uni := false }
  | .tzero | .ttr => { pipe := .M, d := .upTo 7 }
  | .tscl => { pipe := .M, d := .upTo 7, b := .src 1, lit := .asB }
  | .tflush => { pipe := .M }
  | .trap => { pipe := .C, a := .any }
  | .tret | .brkpt => { pipe := .C }
  | .sysr => { pipe := .C, d := .dst 2, a := .any }
  | .sysw => { pipe := .C, a := .any, b := .base 2 }
  | .tmark => { pipe := .M, b := .src 2, lit := .asB }

/-- A general register code of `n` registers within a footprint of `regs` registers: aligned (01 R9, 02 R25) and
below the footprint (R8). -/
def regOk (regs n code : Nat) : Bool := code % n == 0 && decide (code + n ≤ regs) && decide (code < 0xF0)

/-- Whether a field holds a value that its use accepts (03 R57, R58). -/
def fieldOk (regs : Nat) (k : OpK) (code : Nat) : Bool :=
  match k with
  | .no => code == 0
  | .any => true
  | .src n => (decide (0xF0 ≤ code) && decide (code ≤ 0xF4)) || regOk regs n code
  | .base n => code == 0xF0 || regOk regs n code
  | .strict n => regOk regs n code
  | .dst n => code == 0xF0 || regOk regs n code
  | .rdst => code == 0xF0 || regOk regs 1 code
  | .pdst => decide (code < 8)
  | .psrc => decide (code < 16)
  | .carry => decide (code < 128)
  | .upTo n => decide (code ≤ n)

/-- The literal is there when it must be and not when it must not (03 R62). -/
def litOk (k : LitK) (lit : Option Word) : Bool :=
  match k with
  | .no => lit.isNone
  | .req => lit.isSome
  | .opt | .asA | .asB => true

/-- The encoding checks of 03 R70 for a thread with `regs` registers: every field holds an accepted value. -/
def encodingOk (regs : Nat) (op : Op) (e : Enc) : Bool :=
  let f := form op e
  let x := e.x
  fieldOk regs f.d e.d.toNat
  && (if f.lit = .asA && e.lit.isSome then e.a == 0 else fieldOk regs f.a e.a.toNat)
  && (if f.lit = .asB && e.lit.isSome then e.b == 0 else fieldOk regs f.b e.b.toNat)
  && fieldOk regs f.c x.c.toNat
  && f.types.contains x.type.toNat && f.rnds.contains x.rnd.toNat && f.sats.contains x.sat.toNat
  && f.scopes.contains x.scope.toNat && f.orders.contains x.order.toNat && f.caches.contains x.cache.toNat
  && f.spaces.contains x.space.toNat && f.auxs.contains x.aux.toNat
  && litOk f.lit e.lit && (f.uni || e.u == 0) && f.extra

/-- The general registers that a field names as sources. -/
def fieldReads (k : OpK) (code : Nat) : List Nat :=
  let regs (n : Nat) := if code < 0xF0 then (List.range n).map (code + ·) else []
  match k with
  | .src n | .base n | .strict n => regs n
  | .rdst => regs 1
  | .no | .any | .dst _ | .pdst | .psrc | .carry | .upTo _ => []

/-- The general registers that a field names as destinations. -/
def fieldWrites (k : OpK) (code : Nat) : List Nat :=
  let regs (n : Nat) := if code < 0xF0 then (List.range n).map (code + ·) else []
  match k with
  | .dst n => regs n
  | .rdst => regs 1
  | .no | .any | .src _ | .base _ | .strict _ | .pdst | .psrc | .carry | .upTo _ => []

/-- The predicates that a field names as sources. -/
def fieldPredReads (k : OpK) (code : Nat) : List Nat :=
  match k with
  | .psrc | .carry => [code % 8]
  | .no | .any | .src _ | .base _ | .strict _ | .dst _ | .rdst | .pdst | .upTo _ => []

/-- The predicates that a field names as destinations. -/
def fieldPredWrites (k : OpK) (code : Nat) : List Nat :=
  match k with
  | .pdst => [code % 8]
  | .carry => [code / 16 % 8]
  | .no | .any | .src _ | .base _ | .strict _ | .dst _ | .rdst | .psrc | .upTo _ => []

/-- The A and B uses in force: a literal takes the place of its field. -/
def Form.aK (f : Form) (e : Enc) : OpK := if f.lit = .asA && e.lit.isSome then .no else f.a
@[inherit_doc Form.aK]
def Form.bK (f : Form) (e : Enc) : OpK := if f.lit = .asB && e.lit.isSome then .no else f.b

/-- Registers an instruction reads (03 R65). -/
def regReads (op : Op) (e : Enc) : List Nat :=
  let f := form op e
  fieldReads f.d e.d.toNat ++ fieldReads (f.aK e) e.a.toNat ++ fieldReads (f.bK e) e.b.toNat ++ fieldReads f.c e.x.c.toNat

/-- Registers an instruction writes. -/
def regWrites (op : Op) (e : Enc) : List Nat := fieldWrites (form op e).d e.d.toNat

/-- Predicates an instruction reads, its guard apart. -/
def predReads (op : Op) (e : Enc) : List Nat :=
  let f := form op e
  (fieldPredReads (f.aK e) e.a.toNat ++ fieldPredReads (f.bK e) e.b.toNat ++ fieldPredReads f.c e.x.c.toNat).filter (· ≠ 7)

/-- Predicates an instruction writes; p7 is discarded (01 R10). -/
def predWrites (op : Op) (e : Enc) : List Nat :=
  let f := form op e
  (fieldPredWrites f.d e.d.toNat ++ fieldPredWrites f.a e.a.toNat ++ fieldPredWrites f.c e.x.c.toNat).filter (· ≠ 7)

/-- The special source codes an instruction names (03 R58), for STRICT_UNI (R56). -/
def specialReads (op : Op) (e : Enc) : List Nat :=
  let f := form op e
  let one (k : OpK) (code : Nat) : List Nat :=
    match k with
    | .src _ | .base _ | .strict _ => if 0xF0 ≤ code then [code] else []
    | .no | .any | .dst _ | .rdst | .pdst | .psrc | .carry | .upTo _ => []
  one f.d e.d.toNat ++ one (f.aK e) e.a.toNat ++ one (f.bK e) e.b.toNat ++ one f.c e.x.c.toNat

/-- Latency of a fixed result by pipe (03 R64); none for a scoreboarded one. -/
def regLatency (op : Op) (e : Enc) : Option Nat :=
  match (form op e).pipe with
  | .S => some 12
  | .M => none
  | .C => if op = .movs && specialScored e.a.toNat then none else some 4
  | .A | .none => some 4

/-- The control transfers of 03 R51 rule 6. -/
def isTransfer (op : Op) : Bool :=
  [Op.bra, .brx, .brxRel, .call, .callX, .ret, .exit, .trap, .tret].contains op

end Sys2Proof.Machine
end

