-- ==== Sys2Proof/Machine/Bits.lean ====
section
/-! DEFINITION. Numbers read from and written to bit patterns: signed and unsigned reading, wrapping, saturation
(02 R26, R40), byte order (02 R28) and fields. -/

namespace Sys2Proof.Machine

/-- Whether a type code is signed: the `i` types (02 R24). -/
def isSigned (t : Nat) : Bool := t = 6 || t = 7 || t = 8 || t = 9

/-- Width of a scalar type (02 R24). -/
def typeWidth (t : Nat) : Nat :=
  if t = 1 || t = 6 || t = 0xD || t = 0xE then 8
  else if t = 2 || t = 7 || t = 0xA || t = 0xB then 16
  else if t = 4 || t = 9 then 64
  else if t = 5 then 128
  else if t = 0xF then 4
  else 32

/-- The low `w` bits of a number. -/
def lowBits (w : Nat) (x : Nat) : Nat := x % 2 ^ w

/-- A `w`-bit pattern read as signed two's complement. -/
def toSigned (w : Nat) (x : Nat) : Int :=
  let y := lowBits w x
  if 2 ^ w ≤ 2 * y then (y : Int) - 2 ^ w else y

/-- A `w`-bit pattern read as `t` says. -/
def readInt (signed : Bool) (w : Nat) (x : Nat) : Int := if signed then toSigned w x else (lowBits w x : Int)

/-- An exact result wrapped to `w` bits (02 R40). -/
def wrapInt (w : Nat) (v : Int) : Nat := (v % (2 ^ w : Int)).toNat

/-- The range of a `w`-bit type. -/
def intMin (signed : Bool) (w : Nat) : Int := if signed then -(2 ^ (w - 1) : Int) else 0
@[inherit_doc intMin]
def intMax (signed : Bool) (w : Nat) : Int := if signed then (2 ^ (w - 1) : Int) - 1 else (2 ^ w : Int) - 1

/-- An exact result clamped to the range of a `w`-bit type (02 R40). -/
def clampInt (signed : Bool) (w : Nat) (v : Int) : Int := max (intMin signed w) (min (intMax signed w) v)

/-- A narrow result extended to 32 bits: `i8` and `i16` by their sign, every other type by zeros (02 R26). -/
def extend32 (signed : Bool) (w : Nat) (x : Nat) : Nat := if signed ∧ w < 32 then wrapInt 32 (toSigned w x) else lowBits w x

/-- The words of a `32 * n`-bit number, lowest first (01 R9, 02 R25). -/
def wordsOf (n : Nat) (x : Nat) : List Word := (List.range n).map (fun k => BitVec.ofNat 32 (x >>> (32 * k)))

/-- The number that words give, lowest first. -/
def ofWords (ws : List Word) : Nat := ws.foldr (fun w n => w.toNat + 2 ^ 32 * n) 0

/-- Bytes of a number, lowest first (01 R21). -/
def bytesOf (n : Nat) (x : Nat) : List Byte := (List.range n).map (fun k => BitVec.ofNat 8 (x >>> (8 * k)))

/-- The number that bytes give, lowest first. -/
def ofBytes (bs : List Byte) : Nat := bs.foldr (fun b n => b.toNat + 256 * n) 0

/-- Bits [hi:lo] of a number. -/
def bitsAt (x : Nat) (hi lo : Nat) : Nat := (x >>> lo) % 2 ^ (hi + 1 - lo)

/-- Bit `i` of a number. -/
def bitAt (x : Nat) (i : Nat) : Bool := Nat.testBit x i

/-- A bit mask from the list of its set bits. -/
def maskOf (bits : List Nat) : Nat := bits.foldl (fun m k => m ||| (1 <<< k)) 0

/-- A signed 40-bit stride (17 R304). -/
def signed40 (x : Nat) : Int := toSigned 40 x

end Sys2Proof.Machine
end

