-- ==== Sys2Proof/Machine/Float.lean ====
section
/-! DEFINITION. Floating-point numbers as exact dyadic values, and the one rounding of 02 R36 to R38 that every
operation ends with. The elementary functions of 06 R133 are summed in fixed point with many guard bits and rounded
once (UNVERIFIED, log entry 9: that the guard bits always decide the rounding). -/

namespace Sys2Proof.Machine

/-- A floating-point format of 02 R29, R30. `top` is the largest finite value in units of `2 ^ (topE)`. -/
structure Fmt where
  ebits : Nat
  mbits : Nat
  bias  : Nat
  inf   : Bool
  nan   : Nat
deriving DecidableEq, Repr

def f32 : Fmt := ⟨8, 23, 127, true, 0x7FC00000⟩
def f16 : Fmt := ⟨5, 10, 15, true, 0x7E00⟩
def bf16 : Fmt := ⟨8, 7, 127, true, 0x7FC0⟩
def e5m2 : Fmt := ⟨5, 2, 15, true, 0x7E⟩
def e4m3 : Fmt := ⟨4, 3, 7, false, 0x7F⟩
def e2m1 : Fmt := ⟨2, 1, 1, false, 0⟩

/-- The format of a type code (02 R24); packed types give their element's. -/
def fmtOf (t : Nat) : Option Fmt :=
  if t = 0xC then some f32
  else if t = 0xA || t = 0x11 then some f16
  else if t = 0xB || t = 0x12 then some bf16
  else if t = 0xD || t = 0x13 then some e4m3
  else if t = 0xE || t = 0x14 then some e5m2
  else if t = 0xF || t = 0x15 then some e2m1
  else none

/-- Width of a format. -/
def Fmt.width (f : Fmt) : Nat := 1 + f.ebits + f.mbits

/-- The sign bit of a format. -/
def Fmt.signBit (f : Fmt) : Nat := 2 ^ (f.width - 1)

/-- The pattern of +∞ (formats that have one). -/
def Fmt.infBits (f : Fmt) : Nat := (2 ^ f.ebits - 1) * 2 ^ f.mbits

/-- The pattern of the largest finite value (02 R29). -/
def Fmt.maxBits (f : Fmt) : Nat := if f.inf then f.infBits - 1 else if f.mbits = 3 then 0x7E else 0x7

/-- A value of a format: a NaN, an infinity, or a finite number `m * 2 ^ e` with its sign. -/
inductive FVal where
  | nan (signalling : Bool)
  | inf (neg : Bool)
  | fin (neg : Bool) (m : Nat) (e : Int)
deriving DecidableEq, Repr

/-- The value of a pattern (02 R29, R30). -/
def Fmt.val (f : Fmt) (bits : Nat) : FVal :=
  let x := lowBits f.width bits
  let neg := decide (f.signBit ≤ x)
  let y := x % f.signBit
  let ex := y / 2 ^ f.mbits
  let m := y % 2 ^ f.mbits
  if f.inf && ex == 2 ^ f.ebits - 1 then
    if m = 0 then .inf neg else .nan (m < 2 ^ (f.mbits - 1))
  else if !f.inf && f.mbits == 3 && y == 0x7F then .nan false
  else if ex = 0 then .fin neg m (1 - (f.bias : Int) - f.mbits)
  else .fin neg (m + 2 ^ f.mbits) ((ex : Int) - f.bias - f.mbits)

/-- The sticky flags of 01 R16. -/
def fNV : BitVec 6 := 1
@[inherit_doc fNV]
def fDZ : BitVec 6 := 2
@[inherit_doc fNV]
def fOF : BitVec 6 := 4
@[inherit_doc fNV]
def fUF : BitVec 6 := 8
@[inherit_doc fNV]
def fNX : BitVec 6 := 16
@[inherit_doc fNV]
def fSAT : BitVec 6 := 32

/-- A result: its bits and the flags raised. -/
abbrev FRes := Nat × BitVec 6

/-- Rounds the magnitude `(m + t) * 2 ^ e` to an integer multiple of `2 ^ q`, where `t` is 0, or strictly between 0
and 1 when `sticky`; returns the multiple and whether it is inexact (02 R36). -/
def roundAt (rnd : Nat) (neg : Bool) (m : Nat) (e : Int) (sticky : Bool) (q : Int) : Nat × Bool :=
  if q ≤ e then
    -- `sticky` never meets this case with bits left over: callers give guard bits
    (m * 2 ^ (e - q).toNat, sticky)
  else
    let k := (q - e).toNat
    let n := m / 2 ^ k
    let r := m % 2 ^ k
    let half := 2 ^ (k - 1)
    let exact := r == 0 && !sticky
    let above := decide (half < r) || (r == half && sticky)
    let tie := r == half && !sticky
    let up :=
      if exact then false
      else if rnd = 0 then above || (tie && n % 2 == 1)
      else if rnd = 1 then false
      else if rnd = 2 then !neg
      else if rnd = 3 then neg
      else if rnd = 4 then above || tie
      else above || (tie && !neg)
    (if up then n + 1 else n, !exact)

/-- The exponent of the leading bit of `m * 2 ^ e`. -/
def topExp (m : Nat) (e : Int) : Int := (Nat.log2 m : Int) + e

/-- The pattern of `n * 2 ^ q` in a format, for a multiple that the format holds or whose precision it holds. -/
def Fmt.pack (f : Fmt) (neg : Bool) (n : Nat) (q : Int) : Nat :=
  let s := if neg then f.signBit else 0
  let (n, q) := if 2 ^ (f.mbits + 1) ≤ n then (n / 2, q + 1) else (n, q)
  if n < 2 ^ f.mbits then s + n
  else s + ((q + f.mbits + f.bias).toNat * 2 ^ f.mbits + (n - 2 ^ f.mbits))

/-- What an overflowed result is delivered as (02 R38). -/
def Fmt.overflow (f : Fmt) (rnd : Nat) (sat neg : Bool) : FRes :=
  let s := if neg then f.signBit else 0
  if !f.inf || sat then (s + f.maxBits, fOF ||| fNX ||| fSAT)
  else
    let toInf := rnd = 0 || rnd = 4 || (rnd = 2 && !neg) || (rnd = 3 && neg)
    (s + (if toInf then f.infBits else f.maxBits), fOF ||| fNX)

/-- Rounds the exact magnitude `(m + t) * 2 ^ e` once to a format (02 R32, R36 to R38). -/
def Fmt.round (f : Fmt) (rnd : Nat) (sat : Bool) (neg : Bool) (m : Nat) (e : Int) (sticky : Bool) : FRes :=
  if m = 0 ∧ !sticky then (if neg then f.signBit else 0, 0)
  else
    let emin : Int := 1 - (f.bias : Int)
    let top := if m = 0 then e - 1 else topExp m e
    let q0 := top - f.mbits
    let q := max q0 (emin - f.mbits)
    let (n, inexact) := roundAt rnd neg m e sticky q
    let (n0, _) := roundAt rnd neg m e sticky q0
    -- the largest finite value as a multiple of `2 ^ q`
    let big :=
      match f.val f.maxBits with
      | .fin _ mm me => decide (emin ≤ q + f.mbits) && decide ((mm : Int) * 2 ^ (me - (emin - f.mbits)).toNat < (n : Int) * 2 ^ (q - (emin - f.mbits)).toNat)
      | _ => false
    if big then f.overflow rnd sat neg
    else
      let tiny := decide (topExp n0 q0 < emin)
      (f.pack neg n q, (if inexact then fNX else 0) ||| (if inexact && tiny then fUF else 0))

/-- An exact dyadic number `z * 2 ^ e`. -/
structure Dy where
  z : Int
  e : Int
deriving DecidableEq, Repr

def Dy.zero : Dy := ⟨0, 0⟩

/-- The exact sum and product. -/
def Dy.add (a b : Dy) : Dy :=
  let e := min a.e b.e
  ⟨a.z * 2 ^ (a.e - e).toNat + b.z * 2 ^ (b.e - e).toNat, e⟩
@[inherit_doc Dy.add]
def Dy.mul (a b : Dy) : Dy := ⟨a.z * b.z, a.e + b.e⟩

/-- The exact comparison. -/
def Dy.lt (a b : Dy) : Bool := decide ((a.add ⟨-b.z, b.e⟩).z < 0)
@[inherit_doc Dy.lt]
def Dy.eq (a b : Dy) : Bool := (a.add ⟨-b.z, b.e⟩).z == 0

/-- A finite value as a dyadic number. -/
def dy (neg : Bool) (m : Nat) (e : Int) : Dy := ⟨if neg then -(m : Int) else m, e⟩

/-- Rounds an exact dyadic number; `zneg` is the sign of an exactly zero one. -/
def Fmt.roundDy (f : Fmt) (rnd : Nat) (sat zneg : Bool) (x : Dy) : FRes :=
  if x.z = 0 then (if zneg then f.signBit else 0, 0)
  else f.round rnd sat (decide (x.z < 0)) x.z.natAbs x.e false

/-- NV for a signalling operand (02 R31). -/
def sigNV (vs : List FVal) : BitVec 6 := if vs.any (fun v => v == .nan true) then fNV else 0

def FVal.isNan : FVal → Bool
  | .nan _ => true
  | _ => false

/-- `a + b` under the zero sign of 02 R45 (06 R126). -/
def Fmt.add (f : Fmt) (rnd : Nat) (sat : Bool) (a b : Nat) : FRes :=
  match f.val a, f.val b with
  | .nan s, v => (f.nan, sigNV [.nan s, v])
  | v, .nan s => (f.nan, sigNV [.nan s, v])
  | .inf x, .inf y => if x = y then ((if x then f.signBit else 0) + f.infBits, 0) else (f.nan, fNV)
  | .inf x, .fin .. => ((if x then f.signBit else 0) + f.infBits, 0)
  | .fin .., .inf y => ((if y then f.signBit else 0) + f.infBits, 0)
  | .fin x m e, .fin y n g => f.roundDy rnd sat (x && y && m == 0 && n == 0) ((dy x m e).add (dy y n g))

/-- The pattern with its sign inverted (06 R128). -/
def Fmt.negBits (f : Fmt) (a : Nat) : Nat := (lowBits f.width a) ^^^ f.signBit

/-- `a - b` is `a + (-b)` (02 R45); a signalling operand raises NV all the same. -/
def Fmt.sub (f : Fmt) (rnd : Nat) (sat : Bool) (a b : Nat) : FRes := f.add rnd sat a (f.negBits b)

/-- `a * b` (06 R126). -/
def Fmt.mul (f : Fmt) (rnd : Nat) (sat : Bool) (a b : Nat) : FRes :=
  let inf (s : Bool) : FRes := ((if s then f.signBit else 0) + f.infBits, 0)
  match f.val a, f.val b with
  | .nan s, v => (f.nan, sigNV [.nan s, v])
  | v, .nan s => (f.nan, sigNV [.nan s, v])
  | .inf x, .inf y => inf (x != y)
  | .inf x, .fin y m _ => if m = 0 then (f.nan, fNV) else inf (x != y)
  | .fin x m _, .inf y => if m = 0 then (f.nan, fNV) else inf (x != y)
  | .fin x m e, .fin y n g => f.roundDy rnd sat (x != y) ((dy x m e).mul (dy y n g))

/-- `a * b + c`, rounded once (02 R41, R45; 06 R126). -/
def Fmt.fma (f : Fmt) (rnd : Nat) (sat : Bool) (a b c : Nat) : FRes :=
  let va := f.val a
  let vb := f.val b
  let vc := f.val c
  let sig := sigNV [va, vb, vc]
  let inf (s : Bool) : FRes := ((if s then f.signBit else 0) + f.infBits, 0)
  let prodInf (s : Bool) : FRes :=
    match vc with
    | .nan _ => (f.nan, sig)
    | .inf z => if s = z then inf s else (f.nan, fNV)
    | .fin .. => inf s
  match va, vb with
  | .nan _, _ => (f.nan, sig)
  | _, .nan _ => (f.nan, sig)
  | .inf x, .inf y => prodInf (x != y)
  | .inf x, .fin y m _ => if m = 0 then (f.nan, fNV) else prodInf (x != y)
  | .fin x m _, .inf y => if m = 0 then (f.nan, fNV) else prodInf (x != y)
  | .fin x m e, .fin y n g =>
    match vc with
    | .nan _ => (f.nan, sig)
    | .inf z => inf z
    | .fin z k h =>
      let p := (dy x m e).mul (dy y n g)
      let ps := x != y
      let zneg := if rnd = 3 then ps != z || (ps && z) else ps && z
      f.roundDy rnd sat zneg (p.add (dy z k h))

/-- The order of two values that are not NaNs: less, with -0 below +0 when `signed`. -/
def FVal.lt (signed : Bool) : FVal → FVal → Bool
  | .nan _, _ => false
  | _, .nan _ => false
  | .inf x, .inf y => x && !y
  | .inf x, .fin .. => x
  | .fin .., .inf y => !y
  | .fin x m e, .fin y n g =>
    if m = 0 ∧ n = 0 then signed && x && !y else (dy x m e).lt (dy y n g)

/-- Numeric equality of two values (06 R129). -/
def FVal.eq : FVal → FVal → Bool
  | .nan _, _ => false
  | _, .nan _ => false
  | .inf x, .inf y => x == y
  | .inf _, .fin .. => false
  | .fin .., .inf _ => false
  | .fin x m e, .fin y n g => (dy x m e).eq (dy y n g)

/-- `fmin` and `fmax` (06 R127). -/
def Fmt.minmax (f : Fmt) (isMax : Bool) (a b : Nat) : FRes :=
  let va := f.val a
  let vb := f.val b
  let fl := sigNV [va, vb]
  let x := lowBits f.width a
  let y := lowBits f.width b
  if va.isNan && vb.isNan then (f.nan, fl)
  else if va.isNan then (y, fl)
  else if vb.isNan then (x, fl)
  else if isMax then (if va.lt true vb then y else x, fl)
  else (if vb.lt true va then y else x, fl)

/-- The truth of a floating comparison and the flags it raises (06 R129). -/
def Fmt.compare (f : Fmt) (cond : Nat) (a b : Nat) : Bool × BitVec 6 :=
  let va := f.val a
  let vb := f.val b
  let un := va.isNan || vb.isNan
  let sig := sigNV [va, vb]
  let any : BitVec 6 := if un then fNV else 0
  if cond = 0 then (va.eq vb, sig)
  else if cond = 1 then (!va.eq vb, sig)
  else if cond = 2 then (va.lt false vb, any)
  else if cond = 3 then (va.lt false vb || va.eq vb, any)
  else if cond = 4 then (vb.lt false va, any)
  else if cond = 5 then (vb.lt false va || va.eq vb, any)
  else if cond = 6 then (!un, sig)
  else (un, sig)

/-- The class word of `fcls` (06 R130). -/
def Fmt.classify (f : Fmt) (a : Nat) : Nat :=
  match f.val a with
  | .nan s => if s then 0x100 else 0x200
  | .inf x => if x then 0x001 else 0x080
  | .fin x m e =>
    if m = 0 then (if x then 0x008 else 0x010)
    else if topExp m e < 1 - (f.bias : Int) then (if x then 0x004 else 0x020)
    else if x then 0x002 else 0x040

/-- `frnd`: rounds to an integral value of the same format (06 R131). -/
def Fmt.integral (f : Fmt) (rnd : Nat) (a : Nat) : FRes :=
  match f.val a with
  | .nan s => (f.nan, sigNV [.nan s])
  | .inf _ => (lowBits f.width a, 0)
  | .fin x m e =>
    if m = 0 then (lowBits f.width a, 0)
    else
      let (n, inexact) := roundAt rnd x m e false 0
      let r := if n = 0 then (if x then f.signBit else 0) else (f.round 0 false x n 0 false).1
      (r, if inexact then fNX else 0)

/-- Rounds the exact value to an integer (02 R36, R37). -/
def roundInt (rnd : Nat) (neg : Bool) (m : Nat) (e : Int) : Int × Bool :=
  let (n, inexact) := roundAt rnd neg m e false (max 0 e)
  let n : Nat := if 0 < e then m * 2 ^ e.toNat else n
  (if neg then -(n : Int) else n, inexact)

/-- Float to integer (02 R39). -/
def Fmt.toInt (f : Fmt) (rnd : Nat) (signed : Bool) (w : Nat) (a : Nat) : Int × BitVec 6 :=
  match f.val a with
  | .nan _ => (0, fNV ||| fSAT)
  | .inf x => (if x then intMin signed w else intMax signed w, fNV ||| fSAT)
  | .fin x m e =>
    let (v, inexact) := roundInt rnd x m e
    let c := clampInt signed w v
    if c ≠ v then (c, fNV ||| fSAT) else (c, if inexact then fNX else 0)

/-- Integer to float (06 R137). -/
def Fmt.ofInt (f : Fmt) (rnd : Nat) (sat : Bool) (v : Int) : FRes := f.roundDy rnd sat false ⟨v, 0⟩

/-- Float to float (02 R38; 06 R137). -/
def Fmt.convert (f g : Fmt) (rnd : Nat) (sat : Bool) (a : Nat) : FRes :=
  match f.val a with
  | .nan s => if g.inf || g.mbits = 3 then (g.nan, sigNV [.nan s]) else (0, fNV ||| fSAT)
  | .inf x =>
    let sg := if x then g.signBit else 0
    if !g.inf || sat then (if f = g ∧ g.inf then sg + g.infBits else sg + g.maxBits, if f = g ∧ g.inf then 0 else fSAT)
    else (sg + g.infBits, 0)
  | .fin x m e => if m = 0 then (if x then g.signBit else 0, 0) else g.round rnd sat x m e false

/-! ### Division and roots -/

/-- The integer square root, bit by bit from bit `k - 1` down. -/
def isqrtFrom (n : Nat) : Nat → Nat → Nat
  | 0, r => r
  | k + 1, r => isqrtFrom n k (if (r + 2 ^ k) * (r + 2 ^ k) ≤ n then r + 2 ^ k else r)

def isqrt (n : Nat) : Nat := isqrtFrom n (Nat.log2 n / 2 + 1) 0

/-- `a / b` (06 R134, R135). -/
def fdivBits (rnd : Nat) (sat : Bool) (a b : Nat) : FRes :=
  let inf (s : Bool) : Nat := (if s then f32.signBit else 0) + f32.infBits
  let zero (s : Bool) : Nat := if s then f32.signBit else 0
  match f32.val a, f32.val b with
  | .nan s, v => (f32.nan, sigNV [.nan s, v])
  | v, .nan s => (f32.nan, sigNV [.nan s, v])
  | .inf _, .inf _ => (f32.nan, fNV)
  | .inf x, .fin y _ _ => (inf (x != y), 0)
  | .fin x _ _, .inf y => (zero (x != y), 0)
  | .fin x m e, .fin y n g =>
    if n = 0 then (if m = 0 then (f32.nan, fNV) else (inf (x != y), fDZ))
    else if m = 0 then (zero (x != y), 0)
    else
      let k := 64 + Nat.log2 n
      let q := m * 2 ^ k / n
      f32.round rnd sat (x != y) q (e - g - k) (m * 2 ^ k % n != 0)

/-- `1 / a` (06 R133, R135). The results for ±2^127 and ±2^-127, which R135 does not list as exact, are representable and raise no
flag, as 02 R32 has it for every operation (DEDUCED, log entry 10). -/
def frcpBits (sat : Bool) (a : Nat) : FRes := fdivBits 0 sat 0x3F800000 a

/-- `√a` (06 R134, R135). -/
def fsqrtBits (rnd : Nat) (sat : Bool) (a : Nat) : FRes :=
  match f32.val a with
  | .nan s => (f32.nan, sigNV [.nan s])
  | .inf x => if x then (f32.nan, fNV) else (f32.infBits, 0)
  | .fin x m e =>
    if m = 0 then (lowBits 32 a, 0)
    else if x then (f32.nan, fNV)
    else
      let (m, e) := if e % 2 = 0 then (m, e) else (2 * m, e - 1)
      let n := m * 2 ^ 128
      let r := isqrt n
      f32.round rnd sat false r (e / 2 - 64) (r * r != n)

/-- `1 / √a` (06 R133, R135). -/
def frsqBits (sat : Bool) (a : Nat) : FRes :=
  match f32.val a with
  | .nan s => (f32.nan, sigNV [.nan s])
  | .inf x => if x then (f32.nan, fNV) else (0, 0)
  | .fin x m e =>
    if m = 0 then ((if x then f32.signBit else 0) + f32.infBits, fDZ)
    else if x then (f32.nan, fNV)
    else
      let (m, e) := if e % 2 = 0 then (m, e) else (2 * m, e - 1)
      let n := 2 ^ 256 / m
      let r := isqrt n
      f32.round 0 sat false r (-(e / 2) - 128) (r * r != n || 2 ^ 256 % m != 0)

/-! ### Elementary functions -/

/-- Fraction bits of the fixed-point sums. -/
def fixBits : Nat := 704

/-- `2 ^ fixBits * atan (1 / n)`, from `k` terms of its series. -/
def atanInv (n : Nat) : Nat → Nat → Int → Int
  | 0, _, acc => acc
  | k + 1, i, acc =>
    let t : Int := 2 ^ fixBits / ((n : Int) ^ (2 * i + 1) * (2 * i + 1))
    atanInv n k (i + 1) (if i % 2 = 0 then acc + t else acc - t)

/-- `2 ^ fixBits * π`. -/
def piFix : Int := 16 * atanInv 5 160 0 0 - 4 * atanInv 239 50 0 0

/-- `2 ^ fixBits * ln 2`, from the series of `1 / (k * 2 ^ k)`. -/
def ln2From : Nat → Nat → Int → Int
  | 0, _, acc => acc
  | k + 1, i, acc => ln2From k (i + 1) (acc + 2 ^ fixBits / ((i : Int) * 2 ^ i))

def ln2Fix : Int := ln2From fixBits 1 0

/-- The sum of `x ^ i / i!` from term `t` of index `i`, `k` more terms, in fixed point. -/
def expFrom (x : Int) : Nat → Int → Int → Int → Int
  | 0, _, _, acc => acc
  | k + 1, i, t, acc =>
    let t' := t * x / (2 ^ fixBits * i)
    expFrom x k (i + 1) t' (acc + t')

/-- `2 ^ fixBits * exp x` for `x` in fixed point from 0 to 1. -/
def expFix (x : Int) : Int := expFrom x 140 1 (2 ^ fixBits) (2 ^ fixBits)

/-- The alternating sum of every second term: sine and cosine. -/
def sinFrom (x2 : Int) : Nat → Int → Int → Int → Int
  | 0, _, _, acc => acc
  | k + 1, i, t, acc =>
    let t' := -(t * x2 / (2 ^ fixBits * ((i + 1) * (i + 2))))
    sinFrom x2 k (i + 2) t' (acc + t')

def sinFix (x : Int) : Int := sinFrom (x * x / 2 ^ fixBits) 80 1 x x
def cosFix (x : Int) : Int := sinFrom (x * x / 2 ^ fixBits) 80 0 (2 ^ fixBits) (2 ^ fixBits)

/-- Rounds an inexact fixed-point value, nearest-even. -/
def roundFix (sat : Bool) (v : Int) : FRes := f32.round 0 sat (decide (v < 0)) v.natAbs (-(fixBits : Int)) true

/-- `2 ^ a` (06 R133, R135). -/
def fex2Bits (sat : Bool) (a : Nat) : FRes :=
  match f32.val a with
  | .nan s => (f32.nan, sigNV [.nan s])
  | .inf x => if x then (0, 0) else (f32.infBits, 0)
  | .fin x m e =>
    if m = 0 then (0x3F800000, 0)
    else if 8 ≤ topExp m e then f32.round 0 sat false 1 (if x then -300 else 300) true
    else
      -- a in fixed point, its floor and its fraction
      let v := (if x then -1 else 1) * ((m : Int) * 2 ^ ((fixBits : Int) + e).toNat)
      let n := v / 2 ^ fixBits
      let r := v - n * 2 ^ fixBits
      if r = 0 then f32.round 0 sat false 1 n false
      else
        let y := expFix (r * ln2Fix / 2 ^ fixBits)
        f32.round 0 sat false y.natAbs (n - fixBits) true

/-- Bits of the fraction of a base-2 logarithm by repeated squaring: `k` bits of `x`, a number in [1, 2) with
`fixBits` fraction bits. -/
def log2From : Nat → Nat → Nat → Nat
  | 0, _, acc => acc
  | k + 1, x, acc =>
    let y := x * x / 2 ^ fixBits
    if 2 ^ (fixBits + 1) ≤ y then log2From k (y / 2) (2 * acc + 1) else log2From k y (2 * acc)

/-- `log2 a` (06 R133, R135). -/
def flg2Bits (sat : Bool) (a : Nat) : FRes :=
  match f32.val a with
  | .nan s => (f32.nan, sigNV [.nan s])
  | .inf x => if x then (f32.nan, fNV) else (f32.infBits, 0)
  | .fin x m e =>
    if m = 0 then (f32.signBit + f32.infBits, fDZ)
    else if x then (f32.nan, fNV)
    else
      let n := topExp m e
      let y := m * 2 ^ (fixBits - Nat.log2 m)
      if y = 2 ^ fixBits then f32.roundDy 0 sat false ⟨n, 0⟩
      else
        let v := n * 2 ^ 200 + (log2From 200 y 0 : Int)
        if v < 0 then f32.round 0 sat true (-v - 1).natAbs (-200) true
        else f32.round 0 sat false v.natAbs (-200) true

/-- The argument reduced to a quarter turn, in fixed point: the quadrant and the remainder. -/
def reduceAngle (x : Bool) (m : Nat) (e : Int) : Nat × Int :=
  let v := (if x then -1 else 1) * ((m : Int) * 2 ^ ((fixBits : Int) + e).toNat)
  let h := piFix / 2
  let q := v / h
  -- the remainder from a quarter turn with as many further bits as the quotient has
  let r := v - q * piFix / 2
  ((q % 4).toNat, r)

/-- `sin a` or `cos a` in quadrant `k` (06 R133). -/
def trigFix (k : Nat) (r : Int) : Int :=
  if k % 4 = 0 then sinFix r else if k % 4 = 1 then cosFix r else if k % 4 = 2 then -sinFix r else -cosFix r

def fsinBits (sat : Bool) (a : Nat) : FRes :=
  match f32.val a with
  | .nan s => (f32.nan, sigNV [.nan s])
  | .inf _ => (f32.nan, fNV)
  | .fin x m e =>
    if m = 0 then (lowBits 32 a, 0)
    else
      let (k, r) := reduceAngle x m e
      roundFix sat (trigFix k r)

def fcosBits (sat : Bool) (a : Nat) : FRes :=
  match f32.val a with
  | .nan s => (f32.nan, sigNV [.nan s])
  | .inf _ => (f32.nan, fNV)
  | .fin x m e =>
    if m = 0 then (0x3F800000, 0)
    else
      let (k, r) := reduceAngle x m e
      roundFix sat (trigFix (k + 1) r)

/-! ### Sums of the tile engine -/

/-- One addend of a chunk: a product of two exact factors (02 R42). -/
def prodVal : FVal → FVal → FVal
  | .nan _, _ => .nan false
  | _, .nan _ => .nan false
  | .inf x, .inf y => .inf (x != y)
  | .inf x, .fin y m _ => if m = 0 then .nan false else .inf (x != y)
  | .fin x m _, .inf y => if m = 0 then .nan false else .inf (x != y)
  | .fin x m e, .fin y n g => .fin (x != y) (m * n) (e + g)

/-- The exact sum of finite terms. -/
def sumFin (ts : List FVal) : Dy :=
  ts.foldl (fun acc t => match t with
    | .fin x m e => acc.add (dy x m e)
    | _ => acc) Dy.zero

/-- One chunk added to an accumulator element: rounded once, nearest-even, with the NaN cases of 02 R42 and the zero
sign of R46. An empty chunk changes nothing. -/
def chunkAdd (acc : Nat) (ts : List FVal) : Nat :=
  if ts.isEmpty then acc
  else
    let all := f32.val acc :: ts
    let infs := all.filterMap (fun t => match t with
      | .inf x => some x
      | _ => none)
    if all.any FVal.isNan then f32.nan
    else match infs with
    | x :: rest => if rest.all (· == x) then (if x then f32.signBit else 0) + f32.infBits else f32.nan
    | [] =>
      let negZero := all.all (fun t => match t with
        | .fin x m _ => x && m == 0
        | _ => false)
      (f32.roundDy 0 false negZero (sumFin all)).1

/-- The unscaled partial of a block: the exact chunk sum rounded once (02 R44). DESIGN CHOICE (log entry 65): an exactly zero sum is -0
only if every term of the block is -0. -/
def chunkSum (ts : List FVal) : Nat :=
  if ts.any FVal.isNan then f32.nan
  else
    let infs := ts.filterMap (fun t => match t with
      | .inf x => some x
      | _ => none)
    match infs with
    | x :: rest => if rest.all (· == x) then (if x then f32.signBit else 0) + f32.infBits else f32.nan
    | [] =>
      let negZero := ts.all (fun t => match t with
        | .fin x m _ => x && m == 0
        | _ => false)
      (f32.roundDy 0 false negZero (sumFin ts)).1

/-- One step of `tsacc` (02 R44): the accumulator plus the partial scaled by two E8M0 scales, rounded once. -/
def scaledAdd (acc part : Nat) (ea eb : Nat) : Nat :=
  if ea = 0xFF ∨ eb = 0xFF then f32.nan
  else match f32.val part with
    | .fin x m e => chunkAdd acc [.fin x m (e + ea - 127 + eb - 127)]
    | v => chunkAdd acc [v]

/-- The FP32 product of two patterns, nearest-even, without flags (19 R333, 22 R390). -/
def mulBits (a b : Nat) : Nat := (f32.mul 0 false a b).1

end Sys2Proof.Machine
end

