-- ==== Sys2Proof/Syntax.lean ====
section
/-! DEFINITION. The instruction set: one constructor per row of spec/opcode_table.json.
The first 133 constructors are the encoded forms of 03 R67: each carries the fields of its instruction word, its
slot control, its extension word and its literal (R49, R57, R60, R62) as they stand, because a field with a wrong
value is no syntax error: the machine takes an illegal-instruction trap on it (R70).
The last 98 are the rows without an encoding: the steps that the machine, its firmware, its host or its
environment takes outside an instruction; their parameters name what the step acts on. -/

namespace Sys2Proof

/-- One step of the Tildar: an instruction of a warp or an event (spec/opcode_table.json). -/
inductive Instr where
  /-- NOP (R97): Has no effect and takes no pipe; only its STALL counts. -/
  | nop (e : Enc)
  /-- MOV (R98): Copies a register, pair, quad or literal to the destination at the width of its type. -/
  | mov (e : Enc)
  /-- MOVI (R99): Writes a 16-bit immediate, zero-extended or sign-extended, to a register. -/
  | movi (e : Enc)
  /-- MOVH (R99): Replaces the upper 16 bits of a register with an immediate and keeps the lower half. -/
  | movh (e : Enc)
  /-- MOVS (R101): Reads a special register by index into a register or pair. -/
  | movs (e : Enc)
  /-- SEL (R100): Picks one of two sources per lane by a predicate. -/
  | sel (e : Enc)
  /-- CMP (R102): Compares two integers under a condition code and writes a predicate. -/
  | cmp (e : Enc)
  /-- POPS (R103): Combines two possibly negated predicates into a destination predicate. -/
  | pops (e : Enc)
  /-- ADD (R104): Integer addition, wrapped or saturated at the type width. -/
  | add (e : Enc)
  /-- SUB (R104): Integer subtraction, wrapped or saturated at the type width. -/
  | sub (e : Enc)
  /-- ADDC (R107): 32-bit addition with carry-in and carry-out predicates. -/
  | addc (e : Enc)
  /-- SUBC (R107): 32-bit subtraction with borrow-in and borrow-out predicates. -/
  | subc (e : Enc)
  /-- MUL (R104): Integer multiplication, wrapped or saturated at the type width. -/
  | mul (e : Enc)
  /-- MULH (R105): Writes the upper half of the exact double-width product. -/
  | mulh (e : Enc)
  /-- MAD (R104): Integer multiply-add formed exactly, then wrapped or saturated once. -/
  | mad (e : Enc)
  /-- MADW (R106): Multiplies two 32-bit sources and adds a 64-bit source into a 64-bit pair. -/
  | madw (e : Enc)
  /-- MIN (R104): Smaller of two integers, signed or unsigned by type. -/
  | min (e : Enc)
  /-- MAX (R104): Larger of two integers, signed or unsigned by type. -/
  | max (e : Enc)
  /-- ABS (R108): Absolute value of a signed integer, wrapped or saturated. -/
  | abs (e : Enc)
  /-- NEG (R108): Negation of an integer, wrapped or saturated. -/
  | neg (e : Enc)
  /-- LEA (R109): Forms a 64-bit address from a base pair, a shifted index and an offset. -/
  | lea (e : Enc)
  /-- AND (R110): Bitwise AND. -/
  | and (e : Enc)
  /-- OR (R110): Bitwise OR. -/
  | or (e : Enc)
  /-- XOR (R110): Bitwise exclusive OR. -/
  | xor (e : Enc)
  /-- ANDN (R110): Bitwise AND with the complement of the second source. -/
  | andn (e : Enc)
  /-- NOT (R110): Bitwise complement. -/
  | not (e : Enc)
  /-- SHL (R111): Left shift, optionally saturating. -/
  | shl (e : Enc)
  /-- SHR (R111): Logical right shift. -/
  | shr (e : Enc)
  /-- SRA (R111): Arithmetic right shift. -/
  | sra (e : Enc)
  /-- ROTL (R111): Rotate left by the shift amount modulo the width. -/
  | rotl (e : Enc)
  /-- BFX (R112): Extracts a bit field by position and length, sign- or zero-extended. -/
  | bfx (e : Enc)
  /-- BFI (R113): Inserts a bit field into a base value. -/
  | bfi (e : Enc)
  /-- CLZ (R114): Counts leading zero bits. -/
  | clz (e : Enc)
  /-- POPC (R114): Counts one bits. -/
  | popc (e : Enc)
  /-- BREV (R114): Reverses the bit order. -/
  | brev (e : Enc)
  /-- ADD2 (R119): Packed 16- or 8-bit element addition. -/
  | add2 (e : Enc)
  /-- SUB2 (R119): Packed 16- or 8-bit element subtraction. -/
  | sub2 (e : Enc)
  /-- MUL2 (R119): Packed 16- or 8-bit element multiplication. -/
  | mul2 (e : Enc)
  /-- MAC2 (R120): Two-way INT16 dot product accumulated into a saturating INT32. -/
  | mac2 (e : Enc)
  /-- SHRN (R121): Rounding right shift of i32 elements narrowed with saturation. -/
  | shrn (e : Enc)
  /-- PK2 (R122): Builds one register from two 16-bit halves, optionally clamping. -/
  | pk2 (e : Enc)
  /-- UNPK (R123): Extracts one element of a packed source. -/
  | unpk (e : Enc)
  /-- SFLG (R124): Reads the sticky flags and optionally clears masked flags in one step. -/
  | sflg (e : Enc)
  /-- FADD (R126): Floating-point addition rounded once. -/
  | fadd (e : Enc)
  /-- FSUB (R126): Floating-point subtraction rounded once. -/
  | fsub (e : Enc)
  /-- FMUL (R126): Floating-point multiplication rounded once. -/
  | fmul (e : Enc)
  /-- FFMA (R126): Fused multiply-add rounded once. -/
  | ffma (e : Enc)
  /-- FMIN (R127): Floating-point minimum. -/
  | fmin (e : Enc)
  /-- FMAX (R127): Floating-point maximum. -/
  | fmax (e : Enc)
  /-- FNEG (R128): Inverts the sign bit of each element. -/
  | fneg (e : Enc)
  /-- FABS (R128): Clears the sign bit of each element. -/
  | fabs (e : Enc)
  /-- FCMP (R129): Floating-point comparison writing a predicate. -/
  | fcmp (e : Enc)
  /-- FCLS (R130): Classifies a floating value into a one-hot class word. -/
  | fcls (e : Enc)
  /-- FRND (R131): Rounds to an integral value in the same format. -/
  | frnd (e : Enc)
  /-- FRCP (R133): Correctly rounded FP32 reciprocal. -/
  | frcp (e : Enc)
  /-- FRSQ (R133): Correctly rounded FP32 reciprocal square root. -/
  | frsq (e : Enc)
  /-- FSQRT (R134): FP32 square root rounded by RND. -/
  | fsqrt (e : Enc)
  /-- FDIV (R134): FP32 division rounded by RND. -/
  | fdiv (e : Enc)
  /-- FEX2 (R133): Correctly rounded FP32 base-2 exponential. -/
  | fex2 (e : Enc)
  /-- FLG2 (R133): Correctly rounded FP32 base-2 logarithm. -/
  | flg2 (e : Enc)
  /-- FSIN (R133): Correctly rounded FP32 sine. -/
  | fsin (e : Enc)
  /-- FCOS (R133): Correctly rounded FP32 cosine. -/
  | fcos (e : Enc)
  /-- HADD2 (R136): Paired half-precision addition. -/
  | hadd2 (e : Enc)
  /-- HMUL2 (R136): Paired half-precision multiplication. -/
  | hmul2 (e : Enc)
  /-- HFMA2 (R136): Paired half-precision fused multiply-add. -/
  | hfma2 (e : Enc)
  /-- CVT (R137): Converts one scalar between integer and floating types. -/
  | cvt (e : Enc)
  /-- CVPK (R138): Rounds FP32 sources and packs them into narrow elements. -/
  | cvpk (e : Enc)
  /-- CVUP (R139): Widens packed elements to FP32. -/
  | cvup (e : Enc)
  /-- BRA (R143): PC-relative branch; a divergent outcome re-forms warps. -/
  | bra (e : Enc)
  /-- BRX (R143): Indirect branch to a pair address plus offset. -/
  | brx (e : Enc)
  /-- BRX_REL (R141): Branch to PC plus sixteen times a register plus offset. -/
  | brxRel (e : Enc)
  /-- CALL (R144): PC-relative call writing the link PC + 16 to a pair. -/
  | call (e : Enc)
  /-- CALL_X (R144): Indirect call through a pair, writing the link. -/
  | callX (e : Enc)
  /-- RET (R144): Returns to the address held in a pair. -/
  | ret (e : Enc)
  /-- EXIT (R145): Ends each active thread. -/
  | exit (e : Enc)
  /-- VOTE (R197): Combines a predicate over the active lanes as all, any, same, mask or count. -/
  | vote (e : Enc)
  /-- MATCH (R198): Finds the lanes holding equal values. -/
  | matchOp (e : Enc)
  /-- ELECT (R199): Sets a predicate true in the lowest active lane only. -/
  | elect (e : Enc)
  /-- SLD (R200): Slides elements across the warp with a fill source. -/
  | sld (e : Enc)
  /-- SHFL (R201): Reads a source from a per-lane chosen lane. -/
  | shfl (e : Enc)
  /-- LBC (R202): Broadcasts one lane's value to every active lane. -/
  | lbc (e : Enc)
  /-- WRDX (R204): Reduces the active lanes to one result in a fixed tree. -/
  | wrdx (e : Enc)
  /-- WSCAN (R205): Inclusive or exclusive prefix scan over the active lanes. -/
  | wscan (e : Enc)
  /-- RGN (R206): Opens a region instance and pushes region stack entries. -/
  | rgn (e : Enc)
  /-- JOIN (R207): Pops the region entry and waits for the instance to complete. -/
  | join (e : Enc)
  /-- RGP (R208): Waits until every thread of the team is at an rgp, then regroups. -/
  | rgp (e : Enc)
  /-- SPAWN (R210): Starts a child launch per active lane from a snapshotted record. -/
  | spawn (e : Enc)
  /-- LD (R151): Loads from a memory space, optionally as a regrouping or atomic load. -/
  | ld (e : Enc)
  /-- ST (R151): Stores to a memory space, plain or atomic. -/
  | st (e : Enc)
  /-- LDC (R271): Plain load through the read-only cache. -/
  | ldc (e : Enc)
  /-- LDCINV (R272): Empties the core's read-only cache. -/
  | ldcinv (e : Enc)
  /-- PRF (R273): Prefetches a line or translation toward the core. -/
  | prf (e : Enc)
  /-- FENCE (R274): Orders accesses at a scope; a release fence at die or wider closes an epoch. -/
  | fence (e : Enc)
  /-- ATOM (R276): Indivisible read-modify-write returning the old value. -/
  | atom (e : Enc)
  /-- CAS (R277): Compare-and-swap returning the old value. -/
  | cas (e : Enc)
  /-- RED (R278): Sends a no-return reduction contribution to the home slice's SAU. -/
  | red (e : Enc)
  /-- RED_DET (R279): Sends a keyed ordered-reduction contribution held until its epoch closes. -/
  | redDet (e : Enc)
  /-- BINIT (R286): Allocates a barrier entry and initialises its object, returning a handle. -/
  | binit (e : Enc)
  /-- BARR (R287): Makes arrivals on a barrier and returns the phase. -/
  | barr (e : Enc)
  /-- BEXP (R288): Adds expected bytes to PENDING, optionally arriving. -/
  | bexp (e : Enc)
  /-- BWAIT (R289): Waits until a barrier phase is complete. -/
  | bwait (e : Enc)
  /-- BTRY (R289): Tests without waiting whether a phase is complete. -/
  | btry (e : Enc)
  /-- BINV (R289): Frees a barrier entry and advances its generation. -/
  | binv (e : Enc)
  /-- CPY (R373): Queues a box copy through two layout records. -/
  | cpy (e : Enc)
  /-- CPYS (R373): Queues a linear copy, optionally decompressing. -/
  | cpys (e : Enc)
  /-- CPYW (R373): Queues a pattern fill. -/
  | cpyw (e : Enc)
  /-- LRINV (R374): Drops a layout record's entry from the cluster's record cache. -/
  | lrinv (e : Enc)
  /-- QFENCE (R375): Orders commands across the named queues. -/
  | qfence (e : Enc)
  /-- PUT (R497): Queues a copy into a registered window of a peer device. -/
  | put (e : Enc)
  /-- HBLD (R376): Queues creation of or insertion into a coordinate hash table. -/
  | hbld (e : Enc)
  /-- HPRB (R376): Queues a neighbour-map probe, hitting or filling the map cache. -/
  | hprb (e : Enc)
  /-- HLK (R377): Queues hash-table lookups of each lane's key. -/
  | hlk (e : Enc)
  /-- MRG (R376): Queues a sorted merge of two lists. -/
  | mrg (e : Enc)
  /-- SCN (R376): Queues a prefix sum. -/
  | scn (e : Enc)
  /-- HFREE (R376): Queues the free of a table or map object. -/
  | hfree (e : Enc)
  /-- XENQ (R378): Enqueues a token per lane into an expert queue. -/
  | xenq (e : Enc)
  /-- XTAKE (R379): Takes tokens of the team's batch, one per lane. -/
  | xtake (e : Enc)
  /-- TMM (R385): Issues a dense tile product command into the rewrite window. -/
  | tmm (e : Enc)
  /-- TMMSP (R386): Issues one 2:4 sparse tile product command with lane metadata. -/
  | tmmsp (e : Enc)
  /-- TGMS (R388): Issues a gather-multiply-scatter command over a neighbour map offset. -/
  | tgms (e : Enc)
  /-- TSACC (R387): Issues a command applying block scales to partials into an accumulator. -/
  | tsacc (e : Enc)
  /-- TZERO (R390): Issues a command zeroing an accumulator tile. -/
  | tzero (e : Enc)
  /-- TST (R389): Issues a command storing a tile corner to memory. -/
  | tst (e : Enc)
  /-- TLDAC (R389): Issues a command loading a tile corner from memory. -/
  | tldac (e : Enc)
  /-- TTR (R390): Issues a command transposing an accumulator tile. -/
  | ttr (e : Enc)
  /-- TSCL (R390): Issues a command scaling an accumulator tile. -/
  | tscl (e : Enc)
  /-- TFLUSH (R391): Flushes the team's rewrite window. -/
  | tflush (e : Enc)
  /-- TRAP (R457): Raises a software trap with a code. -/
  | trap (e : Enc)
  /-- TRET (R412): Returns from a trap handler, acting on ACTION and LANEMAP. -/
  | tret (e : Enc)
  /-- BRKPT (R459): Stops the warp after its group when BRK_EN is set. -/
  | brkpt (e : Enc)
  /-- SYSR (R456): Reads a system register. -/
  | sysr (e : Enc)
  /-- SYSW (R456): Writes a system register after ordering earlier accesses. -/
  | sysw (e : Enc)
  /-- TMARK (R460): Writes a MARK trace record per active lane. -/
  | tmark (e : Enc)
  /-- PACKET_FETCH (R72): A warp's next packet is fetched and decoded, with packet-level checks; warp `warp` of team `team`. -/
  | packetFetch (team warp : Nat)
  /-- MEMORY_ACCESS_RETURN (R229): A pending load or atomic's sectors arrive and its lanes write their results; thread `thread` of team `team`. -/
  | memoryAccessReturn (team thread : Nat)
  /-- Q_WRIDX_WRITE (R177): Software writes a queue's write index, making packets available to the FE. -/
  | qWridxWrite (q : Nat) (v : BitVec 32)
  /-- Q_ENABLE (R176): Writing ENABLE 0 to 1 resets the read index and sequence and starts serving the queue. -/
  | qEnable (q : Nat) (ctl : BitVec 32)
  /-- Q_RESUME (R176): Writing RESUME clears HALTED so the queue accepts packets again. -/
  | qResume (q : Nat)
  /-- PACKET_ACCEPT (R178): The FE reads and snapshots a packet, checks it and assigns its sequence number. -/
  | packetAccept (q : Nat)
  /-- LAUNCH (R180): A LAUNCH packet begins and its grid is split and placed. -/
  | launch (q : Nat)
  /-- BUNDLE (R190): A BUNDLE begins all its members in one FE cycle. -/
  | bundle (q : Nat)
  /-- ENGINE (R181): An ENGINE packet begins and enters an FE engine queue. -/
  | engine (q : Nat)
  /-- WAIT (R191): A WAIT packet begins and evaluates its memory condition. -/
  | wait (q : Nat)
  /-- WAIT_EVALUATE (R191): A blocked WAIT re-evaluates its condition after a completion write, SIGNAL or 1 microsecond. -/
  | waitEvaluate (q : Nat)
  /-- WAIT_TIMEOUT (R182): A WAIT's TIMEOUT expires, writing record 0x0D and halting the queue. -/
  | waitTimeout (q : Nat)
  /-- SIGNAL (R191): A SIGNAL packet stores or adds a value at scope sys and may interrupt. -/
  | signal (q : Nat)
  /-- WSLOAD (R191): A WSLOAD packet copies global memory into the weight stores of its dies. -/
  | wsload (q : Nat)
  /-- XQCFG (R361): An XQCFG packet configures an expert queue. -/
  | xqcfg (q : Nat)
  /-- INVLOG (R489): An INVLOG packet appends a translation invalidation to every live die's log. -/
  | invlog (q : Nat)
  /-- TEAM_PLACE (R184): The FE places a launch's next team on a core that fits. -/
  | teamPlace (die grid : Nat)
  /-- CREW_PLACE (R185): The FE places a whole crew onto distinct cores of one cluster. -/
  | crewPlace (die grid : Nat)
  /-- PLACEMENT_STARVATION (R186): A launch skipped for 100 microseconds blocks later launches from placing. -/
  | placementStarvation (die grid : Nat)
  /-- TEAM_FREE (R173): A team whose threads, commands and side-log entries are done returns its resources. -/
  | teamFree (team : Nat)
  /-- DIE_SHARE_REPORT (R478): A die's FE reports to the master FE that its share has drained. -/
  | dieShareReport (die grid : Nat)
  /-- GRID_COMPLETE (R174): A grid completes, closes its last epoch and releases at scope sys. -/
  | gridComplete (grid : Nat)
  /-- COMPLETION_WRITE (R189): A packet's completion value is stored with release, in sequence order, then its interrupt raised. -/
  | completionWrite (q : Nat)
  /-- COPY_PERFORM (R308): The copy engine performs a box, linear or fill copy command. -/
  | copyPerform (cmd : Nat)
  /-- HBLD_PERFORM (R351): The CDE inserts keys into a hash table in input order. -/
  | hbldPerform (cmd : Nat)
  /-- HPRB_BUILD (R354): The CDE builds a neighbour map at MAPBASE. -/
  | hprbBuild (cmd : Nat)
  /-- HLK_PERFORM (R353): The CDE performs the lookups of one hlk and writes its results. -/
  | hlkPerform (cmd : Nat)
  /-- MRG_PERFORM (R357): The CDE merges two sorted lists with counts. -/
  | mrgPerform (cmd : Nat)
  /-- SCN_PERFORM (R358): The CDE forms the prefix sums of an array. -/
  | scnPerform (cmd : Nat)
  /-- HFREE_EFFECT (R349): An object free takes effect after every command naming it has completed. -/
  | hfreeEffect (cmd : Nat)
  /-- TILE_PRODUCT (R321): The tile engine performs a product command row by row. -/
  | tileProduct (cmd : Nat)
  /-- TGMS_BATCH (R323): The tile engine processes a batch of pairs and sends ordered contributions. -/
  | tgmsBatch (cmd : Nat)
  /-- TSACC_PERFORM (R387): The tile engine applies block scales to partials into the accumulator. -/
  | tsaccPerform (cmd : Nat)
  /-- TILE_MOVE (R389): The tile engine performs a tst or tldac row by row. -/
  | tileMove (cmd : Nat)
  /-- TILE_WHOLE_OP (R390): The tile engine performs tzero, ttr or tscl on a whole tile in one step. -/
  | tileWholeOp (cmd : Nat)
  /-- COMMAND_COMPLETE (R301): An engine command completes and makes its barrier arrival. -/
  | commandComplete (cmd : Nat)
  /-- WINDOW_AGE_EXPIRY (R329): A rewrite-window command reaches age 32 cycles and leaves into the tile queue. -/
  | windowAgeExpiry (team : Nat)
  /-- RW_TABLE_WRITE (R342): A write of RW_TABLE flushes windows and loads the context's rule table. -/
  | rwTableWrite (ctx die : Nat) (v : BitVec 64)
  /-- TILE_PROG_WRITE (R327): A write of PROG sets the held tile command's restart boundary. -/
  | tileProgWrite (team : Nat) (v : BitVec 64)
  /-- RED_ARRIVAL (R235): A reduction contribution reaches its home SAU and is applied, held or spilled. -/
  | redArrival (n : Nat)
  /-- EPOCH_APPLY (R281): A closed epoch's contributions are applied in key order. -/
  | epochApply (grid epoch : Nat)
  /-- TRAP_ENTRY (R409): A trapping warp drains, gets a frame and enters its handler. -/
  | trapEntry (team warp : Nat)
  /-- ASYNC_TRAP_TAKE (R418): The warp of the issuing thread takes a pending asynchronous trap. -/
  | asyncTrapTake (team thread : Nat)
  /-- FAULT_RESOLVE (R414): A FAULT_RESP resolve re-performs held accesses, side-log entries and engine commands. -/
  | faultResolve (ctx die : Nat) (rec : BitVec 32)
  /-- FAULT_DECLINE (R414): A FAULT_RESP decline delivers the page fault or ends the team. -/
  | faultDecline (ctx die : Nat) (rec : BitVec 32)
  /-- SWITCH_REQ (R452): A write of SWITCH_REQ requests a switch to a context slot. -/
  | switchReq (core : Nat) (v : BitVec 64)
  /-- TIME_SLICE_EXPIRY (R423): The active context's time slice ends while another has ready warps. -/
  | timeSliceExpiry (core : Nat)
  /-- CONTEXT_SWITCH (R422): A resident slot is made active after the outgoing context drains. -/
  | contextSwitch (core : Nat)
  /-- CONTEXT_EVICT (R424): A non-active context is saved to memory, freeing its slot. -/
  | contextEvict (core slot : Nat)
  /-- CONTEXT_RESTORE (R425): A saved context is restored into a free slot. -/
  | contextRestore (core ctx : Nat)
  /-- TOKEN_ACCEPT (R363): The XQU accepts one token into its queue or the spill area. -/
  | tokenAccept (cmd : Nat)
  /-- FIRING_SLOT (R364): At a firing slot the XQU fires one eligible queue as a batch. -/
  | firingSlot (die : Nat)
  /-- BATCH_COMPLETE (R365): Every member of a batch's bundle completes and untaken tokens drop. -/
  | batchComplete (xq : Nat)
  /-- STOP (R438): Debug command freezing warps of a scope at group boundaries. -/
  | stop
  /-- RESUME (R438): Debug command lifting stops made under its capability. -/
  | resume
  /-- STEP (R443): Debug command issuing exactly one group of a frozen warp. -/
  | step
  /-- SET_WATCH (R441): Debug command setting a watchpoint. -/
  | setWatch
  /-- CLR_WATCH (R494): Debug command clearing a watchpoint. -/
  | clrWatch
  /-- BRK_EN (R438): Debug command setting or clearing the context's breakpoint enable. -/
  | brkEn
  /-- READ_REG (R494): Debug command reading a thread register, predicate, flags, PC, frame or system register. -/
  | readReg
  /-- READ_MEM (R494): Debug command reading memory, scratchpad, a tile or the weight store into a buffer. -/
  | readMem
  /-- WRITE_REG (R494): Debug command writing a stopped thread's register, predicate, flags, PC or %tcfg. -/
  | writeReg
  /-- TRACE_CFG (R430): Debug command configuring a context's trace ring. -/
  | traceCfg
  /-- REPLAY (R449): Debug command loading recorded rule hits for replay. -/
  | replay
  /-- SAMPLE_CFG (R447): Debug command configuring sampling. -/
  | sampleCfg
  /-- DELEGATE (R436): Debug command creating a capability with a subset of rights. -/
  | delegate
  /-- REVOKE (R437): Debug command invalidating a capability and its descendants. -/
  | revoke
  /-- TRACE_RECORD_WRITE (R431): A trace record is written to its ring, waiting for room in hold mode. -/
  | traceRecordWrite (ctx die : Nat)
  /-- STALL_SAMPLE (R448): Every 2^SLOG cycles a core writes a STALL record for the next warp. -/
  | stallSample (core ctx : Nat)
  /-- PTP_SYNC (R428): A Sync message arrives at a peer port and is timestamped. -/
  | ptpSync (port : Nat)
  /-- PTP_FOLLOW_UP (R428): A Follow_Up message arrives and the servo adjusts the timebase rate. -/
  | ptpFollowUp (port : Nat) (t1 : BitVec 64)
  /-- PTP_DELAY_REQ (R428): A Delay_Req message arrives and is answered. -/
  | ptpDelayReq (port : Nat)
  /-- PTP_DELAY_RESP (R428): A Delay_Resp message arrives and updates the offset. -/
  | ptpDelayResp (port : Nat) (t4 : BitVec 64)
  /-- SYNC_INTERVAL_EXPIRY (R428): The sync interval elapses and the grandmaster sends Sync. -/
  | syncIntervalExpiry
  /-- LINK_IDLE_EXPIRY (R481): A link idle for LINK_IDLE microseconds enters L1. -/
  | linkIdleExpiry (link : Nat)
  /-- LINK_WAKE (R481): A link returns to L0 and waiting messages proceed. -/
  | linkWake (link : Nat)
  /-- WAKE_RETRY (R482): A message waiting 4 microseconds for a wake is retried and logged. -/
  | wakeRetry (link : Nat)
  /-- HEARTBEAT (R483): A sideband heartbeat is exchanged on a link. -/
  | heartbeat (link : Nat)
  /-- HEARTBEAT_LOST (R483): Heartbeats missing for 1 ms fail a link or declare a die dead. -/
  | heartbeatLost (link : Nat)
  /-- DIE_DECLARED_DEAD (R484): A dead die is fenced, its lines poisoned and its grids ended. -/
  | dieDeclaredDead (phys : Nat)
  /-- SNOOP (R479): An invalidating snoop reaches a die holding a near copy. -/
  | snoop (die line : Nat)
  /-- WRITE_BACK_ARRIVE (R487): A write-back reaches the home, is merged and releases waiting requests. -/
  | writeBackArrive (n : Nat)
  /-- PUT_RECEIVE (R498): A put arrives at the peer, is written or rejected, and counted in RXCNT. -/
  | putReceive (port win : Nat) (off : BitVec 64) (data : List (BitVec 8))
  /-- PUT_ACK (R498): The peer's acknowledgment arrives and TXCNT advances; `win` is the outgoing window; `code` 0 acknowledges; 0x14 is a rejection and 0x12 a declined remote page fault. -/
  | putAck (port win : Nat) (code : BitVec 8)
  /-- PEER_PORT_DOWN (R498): A peer port goes down and its unacknowledged puts are aborted. -/
  | peerPortDown (port : Nat)
  /-- HOST_MEMORY_ACCESS (R492): A host read or write through BAR2 reaches device memory; `write` tells a write from a read; a read names as many bytes as `data` is long. -/
  | hostMemoryAccess (write : Bool) (addr : BitVec 64) (data : List (BitVec 8))
  /-- POWER_ON_RESET (R506): VAON rises and the always-on domain is cleared. -/
  | powerOnReset
  /-- PORST_N (R506): Release of PORST_N resets all but the always-on domain and runs boot from step 1. -/
  | porstN
  /-- WRST_N (R506): Warm reset resets the dies and runs boot from step 4. -/
  | wrstN
  /-- PERST_N (R506): Host fundamental reset resets the host function and reruns step 3. -/
  | perstN
  /-- BOOT (R499): Boot runs its nine steps and records each instance's result. -/
  | boot
  /-- BOOT_RECORD_CLEAR (R499): Writing 0x0000_0B07 at 0x01_3000 clears every boot step record. -/
  | bootRecordClear
  /-- RAIL_FAULT (R506): A rail leaves tolerance or a PG input falls, raising alarm class 0. -/
  | railFault (die : Nat)
  /-- TEMPERATURE_ALARM (R501): Junction temperature above 125 C raises alarm class 1. -/
  | temperatureAlarm (die : Nat)
  /-- THERMTRIP (R505): A junction above 135 C drives THERMTRIP_N low and stops the clocks. -/
  | thermtrip (die : Nat)
  /-- TAMPER_N (R505): A rise on the tamper loop raises alarm class 2. -/
  | tamperN
  /-- REGISTER_WRITE (R454): A write to a register with no row of its own takes effect under its field rules; `off` is an offset of BAR0; `wide` tells an 8-byte write from a 4-byte one. -/
  | registerWrite (off : BitVec 32) (wide : Bool) (v : BitVec 64)
  /-- TOKEN_TRANSFER (R372): The expert port performs an accepted xtake, handing batch tokens to its lanes and writing their quads and predicates at completion. -/
  | tokenTransfer (cmd : Nat)
deriving DecidableEq, Repr

end Sys2Proof
end

