-- ==== Sys2Proof/Decode.lean ====
section
/-! DEFINITION. Packets, slots and instruction words (03 R47 to R62, R67): the decoder, total on any packet and
rejecting by name, and after it the encoder written from the same tables. -/

namespace Sys2Proof

open Sys2Proof.Machine (Pipe form isTransfer LitK)

/-- Why a slot of a packet gives no instruction. -/
inductive DecodeError where
  /-- The bytes are not the 16 of a packet (03 R47). -/
  | notPacket
  /-- The slot holds an extension word or a literal, or does not exist (03 R49). -/
  | notInstruction
  /-- OPCODE is reserved (03 R67). -/
  | reservedOpcode
deriving DecidableEq, Repr

/-- OPCODE of a major form (03 R67). -/
def Op.code : Op → BitVec 8
  | .nop => 0x00
  | .mov => 0x01
  | .movi => 0x02
  | .movh => 0x03
  | .movs => 0x04
  | .sel => 0x05
  | .cmp => 0x06
  | .pops => 0x07
  | .add => 0x10
  | .sub => 0x11
  | .addc => 0x12
  | .subc => 0x13
  | .mul => 0x14
  | .mulh => 0x15
  | .mad => 0x16
  | .madw => 0x17
  | .min => 0x18
  | .max => 0x19
  | .abs => 0x1A
  | .neg => 0x1B
  | .lea => 0x1C
  | .and => 0x20
  | .or => 0x21
  | .xor => 0x22
  | .andn => 0x23
  | .not => 0x24
  | .shl => 0x25
  | .shr => 0x26
  | .sra => 0x27
  | .rotl => 0x28
  | .bfx => 0x29
  | .bfi => 0x2A
  | .clz => 0x2B
  | .popc => 0x2C
  | .brev => 0x2D
  | .add2 => 0x30
  | .sub2 => 0x31
  | .mul2 => 0x32
  | .mac2 => 0x33
  | .shrn => 0x34
  | .pk2 => 0x35
  | .unpk => 0x36
  | .sflg => 0x37
  | .fadd => 0x40
  | .fsub => 0x41
  | .fmul => 0x42
  | .ffma => 0x43
  | .fmin => 0x44
  | .fmax => 0x45
  | .fneg => 0x46
  | .fabs => 0x47
  | .fcmp => 0x48
  | .fcls => 0x49
  | .frnd => 0x4A
  | .frcp => 0x50
  | .frsq => 0x51
  | .fsqrt => 0x52
  | .fdiv => 0x53
  | .fex2 => 0x54
  | .flg2 => 0x55
  | .fsin => 0x56
  | .fcos => 0x57
  | .hadd2 => 0x58
  | .hmul2 => 0x59
  | .hfma2 => 0x5A
  | .cvt => 0x5B
  | .cvpk => 0x5C
  | .cvup => 0x5D
  | .bra => 0x60
  | .brx => 0x61
  | .brxRel => 0x61
  | .call => 0x62
  | .callX => 0x62
  | .ret => 0x63
  | .exit => 0x64
  | .vote => 0x70
  | .matchOp => 0x71
  | .elect => 0x72
  | .sld => 0x73
  | .shfl => 0x74
  | .lbc => 0x75
  | .wrdx => 0x76
  | .wscan => 0x77
  | .rgn => 0x78
  | .join => 0x79
  | .rgp => 0x7A
  | .spawn => 0x7B
  | .ld => 0x80
  | .st => 0x81
  | .ldc => 0x82
  | .ldcinv => 0x83
  | .prf => 0x84
  | .fence => 0x85
  | .atom => 0x86
  | .cas => 0x87
  | .red => 0x88
  | .redDet => 0x88
  | .binit => 0x90
  | .barr => 0x91
  | .bexp => 0x92
  | .bwait => 0x93
  | .btry => 0x94
  | .binv => 0x95
  | .cpy => 0xA0
  | .cpys => 0xA1
  | .cpyw => 0xA2
  | .lrinv => 0xA3
  | .qfence => 0xA4
  | .put => 0xA5
  | .hbld => 0xA8
  | .hprb => 0xA9
  | .hlk => 0xAA
  | .mrg => 0xAB
  | .scn => 0xAC
  | .hfree => 0xAD
  | .xenq => 0xAE
  | .xtake => 0xAF
  | .tmm => 0xB0
  | .tmmsp => 0xB1
  | .tgms => 0xB2
  | .tsacc => 0xB3
  | .tzero => 0xB4
  | .tst => 0xB5
  | .tldac => 0xB6
  | .ttr => 0xB7
  | .tscl => 0xB8
  | .tflush => 0xB9
  | .trap => 0xC0
  | .tret => 0xC1
  | .brkpt => 0xC2
  | .sysr => 0xC3
  | .sysw => 0xC4
  | .tmark => 0xC5

/-- Every major form, in the order of the opcode map. -/
def opList : List Op :=
  List.flatten [
    [Op.nop, Op.mov, Op.movi, Op.movh, Op.movs, Op.sel, Op.cmp, Op.pops, Op.add, Op.sub, Op.addc, Op.subc],
    [Op.mul, Op.mulh, Op.mad, Op.madw, Op.min, Op.max, Op.abs, Op.neg, Op.lea, Op.and, Op.or, Op.xor],
    [Op.andn, Op.not, Op.shl, Op.shr, Op.sra, Op.rotl, Op.bfx, Op.bfi, Op.clz, Op.popc, Op.brev, Op.add2],
    [Op.sub2, Op.mul2, Op.mac2, Op.shrn, Op.pk2, Op.unpk, Op.sflg, Op.fadd, Op.fsub, Op.fmul, Op.ffma, Op.fmin],
    [Op.fmax, Op.fneg, Op.fabs, Op.fcmp, Op.fcls, Op.frnd, Op.frcp, Op.frsq, Op.fsqrt, Op.fdiv, Op.fex2, Op.flg2],
    [Op.fsin, Op.fcos, Op.hadd2, Op.hmul2, Op.hfma2, Op.cvt, Op.cvpk, Op.cvup, Op.bra, Op.brx, Op.brxRel, Op.call],
    [Op.callX, Op.ret, Op.exit, Op.vote, Op.matchOp, Op.elect, Op.sld, Op.shfl, Op.lbc, Op.wrdx, Op.wscan, Op.rgn],
    [Op.join, Op.rgp, Op.spawn, Op.ld, Op.st, Op.ldc, Op.ldcinv, Op.prf, Op.fence, Op.atom, Op.cas, Op.red],
    [Op.redDet, Op.binit, Op.barr, Op.bexp, Op.bwait, Op.btry, Op.binv, Op.cpy, Op.cpys, Op.cpyw, Op.lrinv, Op.qfence],
    [Op.put, Op.hbld, Op.hprb, Op.hlk, Op.mrg, Op.scn, Op.hfree, Op.xenq, Op.xtake, Op.tmm, Op.tmmsp, Op.tgms],
    [Op.tsacc, Op.tzero, Op.tst, Op.tldac, Op.ttr, Op.tscl, Op.tflush, Op.trap, Op.tret, Op.brkpt, Op.sysr, Op.sysw],
    [Op.tmark]]

/-- Whether AUX selects this form among those that share its OPCODE: brx.rel, call.x and red.det (07 R141, 15 R265). -/
def Op.variantOk (op : Op) (aux : BitVec 3) : Bool :=
  match op with
  | .brxRel | .callX | .redDet => aux == 1
  | .brx | .call | .red => aux != 1
  | _ => true

/-- The form of an OPCODE and an AUX value. -/
def opOfCode (code : BitVec 8) (aux : BitVec 3) : Option Op :=
  opList.find? (fun op => op.code == code && op.variantOk aux)

/-- The instruction of a form and its fields. -/
def Op.instr (op : Op) (e : Enc) : Instr :=
  match op with
  | .nop => .nop e
  | .mov => .mov e
  | .movi => .movi e
  | .movh => .movh e
  | .movs => .movs e
  | .sel => .sel e
  | .cmp => .cmp e
  | .pops => .pops e
  | .add => .add e
  | .sub => .sub e
  | .addc => .addc e
  | .subc => .subc e
  | .mul => .mul e
  | .mulh => .mulh e
  | .mad => .mad e
  | .madw => .madw e
  | .min => .min e
  | .max => .max e
  | .abs => .abs e
  | .neg => .neg e
  | .lea => .lea e
  | .and => .and e
  | .or => .or e
  | .xor => .xor e
  | .andn => .andn e
  | .not => .not e
  | .shl => .shl e
  | .shr => .shr e
  | .sra => .sra e
  | .rotl => .rotl e
  | .bfx => .bfx e
  | .bfi => .bfi e
  | .clz => .clz e
  | .popc => .popc e
  | .brev => .brev e
  | .add2 => .add2 e
  | .sub2 => .sub2 e
  | .mul2 => .mul2 e
  | .mac2 => .mac2 e
  | .shrn => .shrn e
  | .pk2 => .pk2 e
  | .unpk => .unpk e
  | .sflg => .sflg e
  | .fadd => .fadd e
  | .fsub => .fsub e
  | .fmul => .fmul e
  | .ffma => .ffma e
  | .fmin => .fmin e
  | .fmax => .fmax e
  | .fneg => .fneg e
  | .fabs => .fabs e
  | .fcmp => .fcmp e
  | .fcls => .fcls e
  | .frnd => .frnd e
  | .frcp => .frcp e
  | .frsq => .frsq e
  | .fsqrt => .fsqrt e
  | .fdiv => .fdiv e
  | .fex2 => .fex2 e
  | .flg2 => .flg2 e
  | .fsin => .fsin e
  | .fcos => .fcos e
  | .hadd2 => .hadd2 e
  | .hmul2 => .hmul2 e
  | .hfma2 => .hfma2 e
  | .cvt => .cvt e
  | .cvpk => .cvpk e
  | .cvup => .cvup e
  | .bra => .bra e
  | .brx => .brx e
  | .brxRel => .brxRel e
  | .call => .call e
  | .callX => .callX e
  | .ret => .ret e
  | .exit => .exit e
  | .vote => .vote e
  | .matchOp => .matchOp e
  | .elect => .elect e
  | .sld => .sld e
  | .shfl => .shfl e
  | .lbc => .lbc e
  | .wrdx => .wrdx e
  | .wscan => .wscan e
  | .rgn => .rgn e
  | .join => .join e
  | .rgp => .rgp e
  | .spawn => .spawn e
  | .ld => .ld e
  | .st => .st e
  | .ldc => .ldc e
  | .ldcinv => .ldcinv e
  | .prf => .prf e
  | .fence => .fence e
  | .atom => .atom e
  | .cas => .cas e
  | .red => .red e
  | .redDet => .redDet e
  | .binit => .binit e
  | .barr => .barr e
  | .bexp => .bexp e
  | .bwait => .bwait e
  | .btry => .btry e
  | .binv => .binv e
  | .cpy => .cpy e
  | .cpys => .cpys e
  | .cpyw => .cpyw e
  | .lrinv => .lrinv e
  | .qfence => .qfence e
  | .put => .put e
  | .hbld => .hbld e
  | .hprb => .hprb e
  | .hlk => .hlk e
  | .mrg => .mrg e
  | .scn => .scn e
  | .hfree => .hfree e
  | .xenq => .xenq e
  | .xtake => .xtake e
  | .tmm => .tmm e
  | .tmmsp => .tmmsp e
  | .tgms => .tgms e
  | .tsacc => .tsacc e
  | .tzero => .tzero e
  | .tst => .tst e
  | .tldac => .tldac e
  | .ttr => .ttr e
  | .tscl => .tscl e
  | .tflush => .tflush e
  | .trap => .trap e
  | .tret => .tret e
  | .brkpt => .brkpt e
  | .sysr => .sysr e
  | .sysw => .sysw e
  | .tmark => .tmark e

/-- The form and the fields of an encoded instruction; none for a row without an encoding. -/
def Instr.op? : Instr → Option (Op × Enc)
  | .nop e => some (.nop, e)
  | .mov e => some (.mov, e)
  | .movi e => some (.movi, e)
  | .movh e => some (.movh, e)
  | .movs e => some (.movs, e)
  | .sel e => some (.sel, e)
  | .cmp e => some (.cmp, e)
  | .pops e => some (.pops, e)
  | .add e => some (.add, e)
  | .sub e => some (.sub, e)
  | .addc e => some (.addc, e)
  | .subc e => some (.subc, e)
  | .mul e => some (.mul, e)
  | .mulh e => some (.mulh, e)
  | .mad e => some (.mad, e)
  | .madw e => some (.madw, e)
  | .min e => some (.min, e)
  | .max e => some (.max, e)
  | .abs e => some (.abs, e)
  | .neg e => some (.neg, e)
  | .lea e => some (.lea, e)
  | .and e => some (.and, e)
  | .or e => some (.or, e)
  | .xor e => some (.xor, e)
  | .andn e => some (.andn, e)
  | .not e => some (.not, e)
  | .shl e => some (.shl, e)
  | .shr e => some (.shr, e)
  | .sra e => some (.sra, e)
  | .rotl e => some (.rotl, e)
  | .bfx e => some (.bfx, e)
  | .bfi e => some (.bfi, e)
  | .clz e => some (.clz, e)
  | .popc e => some (.popc, e)
  | .brev e => some (.brev, e)
  | .add2 e => some (.add2, e)
  | .sub2 e => some (.sub2, e)
  | .mul2 e => some (.mul2, e)
  | .mac2 e => some (.mac2, e)
  | .shrn e => some (.shrn, e)
  | .pk2 e => some (.pk2, e)
  | .unpk e => some (.unpk, e)
  | .sflg e => some (.sflg, e)
  | .fadd e => some (.fadd, e)
  | .fsub e => some (.fsub, e)
  | .fmul e => some (.fmul, e)
  | .ffma e => some (.ffma, e)
  | .fmin e => some (.fmin, e)
  | .fmax e => some (.fmax, e)
  | .fneg e => some (.fneg, e)
  | .fabs e => some (.fabs, e)
  | .fcmp e => some (.fcmp, e)
  | .fcls e => some (.fcls, e)
  | .frnd e => some (.frnd, e)
  | .frcp e => some (.frcp, e)
  | .frsq e => some (.frsq, e)
  | .fsqrt e => some (.fsqrt, e)
  | .fdiv e => some (.fdiv, e)
  | .fex2 e => some (.fex2, e)
  | .flg2 e => some (.flg2, e)
  | .fsin e => some (.fsin, e)
  | .fcos e => some (.fcos, e)
  | .hadd2 e => some (.hadd2, e)
  | .hmul2 e => some (.hmul2, e)
  | .hfma2 e => some (.hfma2, e)
  | .cvt e => some (.cvt, e)
  | .cvpk e => some (.cvpk, e)
  | .cvup e => some (.cvup, e)
  | .bra e => some (.bra, e)
  | .brx e => some (.brx, e)
  | .brxRel e => some (.brxRel, e)
  | .call e => some (.call, e)
  | .callX e => some (.callX, e)
  | .ret e => some (.ret, e)
  | .exit e => some (.exit, e)
  | .vote e => some (.vote, e)
  | .matchOp e => some (.matchOp, e)
  | .elect e => some (.elect, e)
  | .sld e => some (.sld, e)
  | .shfl e => some (.shfl, e)
  | .lbc e => some (.lbc, e)
  | .wrdx e => some (.wrdx, e)
  | .wscan e => some (.wscan, e)
  | .rgn e => some (.rgn, e)
  | .join e => some (.join, e)
  | .rgp e => some (.rgp, e)
  | .spawn e => some (.spawn, e)
  | .ld e => some (.ld, e)
  | .st e => some (.st, e)
  | .ldc e => some (.ldc, e)
  | .ldcinv e => some (.ldcinv, e)
  | .prf e => some (.prf, e)
  | .fence e => some (.fence, e)
  | .atom e => some (.atom, e)
  | .cas e => some (.cas, e)
  | .red e => some (.red, e)
  | .redDet e => some (.redDet, e)
  | .binit e => some (.binit, e)
  | .barr e => some (.barr, e)
  | .bexp e => some (.bexp, e)
  | .bwait e => some (.bwait, e)
  | .btry e => some (.btry, e)
  | .binv e => some (.binv, e)
  | .cpy e => some (.cpy, e)
  | .cpys e => some (.cpys, e)
  | .cpyw e => some (.cpyw, e)
  | .lrinv e => some (.lrinv, e)
  | .qfence e => some (.qfence, e)
  | .put e => some (.put, e)
  | .hbld e => some (.hbld, e)
  | .hprb e => some (.hprb, e)
  | .hlk e => some (.hlk, e)
  | .mrg e => some (.mrg, e)
  | .scn e => some (.scn, e)
  | .hfree e => some (.hfree, e)
  | .xenq e => some (.xenq, e)
  | .xtake e => some (.xtake, e)
  | .tmm e => some (.tmm, e)
  | .tmmsp e => some (.tmmsp, e)
  | .tgms e => some (.tgms, e)
  | .tsacc e => some (.tsacc, e)
  | .tzero e => some (.tzero, e)
  | .tst e => some (.tst, e)
  | .tldac e => some (.tldac, e)
  | .ttr e => some (.ttr, e)
  | .tscl e => some (.tscl, e)
  | .tflush e => some (.tflush, e)
  | .trap e => some (.trap, e)
  | .tret e => some (.tret, e)
  | .brkpt e => some (.brkpt, e)
  | .sysr e => some (.sysr, e)
  | .sysw e => some (.sysw, e)
  | .tmark e => some (.tmark, e)
  | .packetFetch _ _ => none
  | .memoryAccessReturn _ _ => none
  | .qWridxWrite _ _ => none
  | .qEnable _ _ => none
  | .qResume _ => none
  | .packetAccept _ => none
  | .launch _ => none
  | .bundle _ => none
  | .engine _ => none
  | .wait _ => none
  | .waitEvaluate _ => none
  | .waitTimeout _ => none
  | .signal _ => none
  | .wsload _ => none
  | .xqcfg _ => none
  | .invlog _ => none
  | .teamPlace _ _ => none
  | .crewPlace _ _ => none
  | .placementStarvation _ _ => none
  | .teamFree _ => none
  | .dieShareReport _ _ => none
  | .gridComplete _ => none
  | .completionWrite _ => none
  | .copyPerform _ => none
  | .hbldPerform _ => none
  | .hprbBuild _ => none
  | .hlkPerform _ => none
  | .mrgPerform _ => none
  | .scnPerform _ => none
  | .hfreeEffect _ => none
  | .tileProduct _ => none
  | .tgmsBatch _ => none
  | .tsaccPerform _ => none
  | .tileMove _ => none
  | .tileWholeOp _ => none
  | .commandComplete _ => none
  | .windowAgeExpiry _ => none
  | .rwTableWrite _ _ _ => none
  | .tileProgWrite _ _ => none
  | .redArrival _ => none
  | .epochApply _ _ => none
  | .trapEntry _ _ => none
  | .asyncTrapTake _ _ => none
  | .faultResolve _ _ _ => none
  | .faultDecline _ _ _ => none
  | .switchReq _ _ => none
  | .timeSliceExpiry _ => none
  | .contextSwitch _ => none
  | .contextEvict _ _ => none
  | .contextRestore _ _ => none
  | .tokenAccept _ => none
  | .firingSlot _ => none
  | .batchComplete _ => none
  | .stop => none
  | .resume => none
  | .step => none
  | .setWatch => none
  | .clrWatch => none
  | .brkEn => none
  | .readReg => none
  | .readMem => none
  | .writeReg => none
  | .traceCfg => none
  | .replay => none
  | .sampleCfg => none
  | .delegate => none
  | .revoke => none
  | .traceRecordWrite _ _ => none
  | .stallSample _ _ => none
  | .ptpSync _ => none
  | .ptpFollowUp _ _ => none
  | .ptpDelayReq _ => none
  | .ptpDelayResp _ _ => none
  | .syncIntervalExpiry => none
  | .linkIdleExpiry _ => none
  | .linkWake _ => none
  | .wakeRetry _ => none
  | .heartbeat _ => none
  | .heartbeatLost _ => none
  | .dieDeclaredDead _ => none
  | .snoop _ _ => none
  | .writeBackArrive _ => none
  | .putReceive _ _ _ _ => none
  | .putAck _ _ _ => none
  | .peerPortDown _ => none
  | .hostMemoryAccess _ _ _ => none
  | .powerOnReset => none
  | .porstN => none
  | .wrstN => none
  | .perstN => none
  | .boot => none
  | .bootRecordClear => none
  | .railFault _ => none
  | .temperatureAlarm _ => none
  | .thermtrip _ => none
  | .tamperN => none
  | .registerWrite _ _ _ => none
  | .tokenTransfer _ => none

/-- The fields of an extension word (03 R60). -/
def extOf (w : Word) : Ext where
  c     := w.extractLsb' 24 8
  type  := w.extractLsb' 19 5
  rnd   := w.extractLsb' 16 3
  sat   := w.extractLsb' 15 1
  scope := w.extractLsb' 12 3
  order := w.extractLsb' 9 3
  cache := w.extractLsb' 6 3
  space := w.extractLsb' 3 3
  aux   := w.extractLsb' 0 3

/-- The extension word of its fields (03 R60). -/
def Ext.word (x : Ext) : Word :=
  x.c ++ x.type ++ x.rnd ++ x.sat ++ x.scope ++ x.order ++ x.cache ++ x.space ++ x.aux

/-- The control word of a packet (03 R47). -/
def ctlWord (p : BitVec 128) : Word := p.extractLsb' 0 32

/-- The word in slot `s` (03 R47). -/
def slotWord (p : BitVec 128) (s : Nat) : Word := p.extractLsb' (32 * (s + 1)) 32

/-- The slot control of slot `s` (03 R48). -/
def slotCtl (p : BitVec 128) (s : Nat) : BitVec 10 := (ctlWord p).extractLsb' (10 * s) 10

/-- GROUP (03 R48). -/
def groupField (p : BitVec 128) : Nat := ((ctlWord p).extractLsb' 30 2).toNat

/-- KIND of slot `s` (03 R49). -/
def slotKind (p : BitVec 128) (s : Nat) : Nat := ((slotCtl p s).extractLsb' 0 2).toNat

/-- The groups that GROUP names, each as its first and last slot (03 R48). -/
def groupsOf (g : Nat) : List (Nat × Nat) :=
  match g with
  | 0 => [(0, 2)]
  | 1 => [(0, 0), (1, 2)]
  | 2 => [(0, 1), (2, 2)]
  | _ => [(0, 0), (1, 1), (2, 2)]

/-- The extension word and the literal that follow the instruction in slot `s` (03 R49, R51). -/
def slotTail (p : BitVec 128) (s : Nat) : Option Word × Option Word :=
  if s + 1 ≤ 2 ∧ slotKind p (s + 1) = 1 then
    (some (slotWord p (s + 1)), if s + 2 ≤ 2 ∧ slotKind p (s + 2) = 2 then some (slotWord p (s + 2)) else none)
  else if s + 1 ≤ 2 ∧ slotKind p (s + 1) = 2 then (none, some (slotWord p (s + 1)))
  else (none, none)

/-- The fields of an instruction from its slot control, its word, its extension word and its literal. -/
def encOf (sc : BitVec 10) (w : Word) (x l : Option Word) : Enc where
  guard := sc.extractLsb' 6 4
  u     := sc.extractLsb' 2 1
  stall := sc.extractLsb' 3 3
  d     := w.extractLsb' 16 8
  a     := w.extractLsb' 8 8
  b     := w.extractLsb' 0 8
  ext   := x.map extOf
  lit   := l

/-- The instruction of a slot control, a word, an extension word and a literal. -/
def decodeWords (sc : BitVec 10) (w : Word) (x l : Option Word) : Except DecodeError Instr :=
  let e := encOf sc w x l
  match opOfCode (w.extractLsb' 24 8) e.x.aux with
  | some op => .ok (op.instr e)
  | none => .error .reservedOpcode

/-- The instruction that begins in slot `s` of a packet. -/
def decodeSlot (p : BitVec 128) (s : Nat) : Except DecodeError Instr :=
  if s ≤ 2 ∧ slotKind p s = 0 then
    let t := slotTail p s
    decodeWords (slotCtl p s) (slotWord p s) t.1 t.2
  else .error .notInstruction

/-- A packet from its 16 bytes, each word little-endian (03 R47). -/
def packetOfBytes (bs : List Byte) : Option (BitVec 128) :=
  if bs.length = 16 then some (BitVec.ofNat 128 (bs.foldr (fun b n => b.toNat + 256 * n) 0)) else none

/-- The instruction that begins in slot `s` of the packet in 16 bytes. -/
def decodeBytes (bs : List Byte) (s : Nat) : Except DecodeError Instr :=
  match packetOfBytes bs with
  | some p => decodeSlot p s
  | none => .error .notPacket

/-- Slots of a packet whose KIND is 00, by their instruction; a reserved OPCODE gives none (03 R67). -/
def slotInstr (p : BitVec 128) (s : Nat) : Option Instr := (decodeSlot p s).toOption

/-- The pipe of the instruction in slot `s` (03 R63). -/
def slotPipe (p : BitVec 128) (s : Nat) : Pipe :=
  match (slotInstr p s).bind Instr.op? with
  | some (op, e) => if e.guard = 0xF then .none else (form op e).pipe
  | none => .none

/-- Whether slot `s` holds a control transfer (03 R51 rule 6). -/
def slotTransfer (p : BitVec 128) (s : Nat) : Bool :=
  match (slotInstr p s).bind Instr.op? with
  | some (op, _) => isTransfer op
  | none => false

/-- The instruction slots of a group. -/
def groupSlots (p : BitVec 128) (g : Nat × Nat) : List Nat :=
  [0, 1, 2].filter (fun s => decide (g.1 ≤ s) && decide (s ≤ g.2) && slotKind p s == 0)

/-- No pipe is named twice in a list of slots. -/
def pipesOnce (p : BitVec 128) : List Nat → Bool
  | [] => true
  | s :: t => (slotPipe p s == .none || t.all (fun r => slotPipe p r != slotPipe p s)) && pipesOnce p t

/-- The packet-level checks of 03 R50 and R51; a never-guarded slot takes no pipe (R55). -/
def packetOk (strictGroup : Bool) (p : BitVec 128) : Bool :=
  let k (s : Nat) := slotKind p s
  -- R50
  [0, 1, 2].all (fun s => !(k s == 1 || k s == 2) || (slotCtl p s).extractLsb' 2 8 == 0)
  -- R51 rules 1 and 2
  && [0, 1, 2].all (fun s => k s != 3) && k 0 == 0
  -- rules 3 and 4
  && (k 1 != 1 || k 0 == 0) && (k 2 != 1 || k 1 == 0)
  && (k 1 != 2 || k 0 == 0) && (k 2 != 2 || k 1 == 0 || k 1 == 1)
  -- rule 5
  && (groupsOf (groupField p)).all (fun g => k g.1 == 0)
  -- rule 6
  && [0, 1, 2].all (fun s => !slotTransfer p s || [0, 1, 2].all (fun r => !(decide (s < r) && k r == 0)))
  -- rule 7
  && (!strictGroup || (groupsOf (groupField p)).all (fun g => pipesOnce p (groupSlots p g)))

/-- The first part of a list of slots: up to the slot before the second instruction of a pipe already used (03 R54). -/
def firstPart (p : BitVec 128) : List Pipe → List Nat → List Nat
  | _, [] => []
  | used, s :: t =>
    let q := slotPipe p s
    if q ≠ .none ∧ used.contains q then [] else s :: firstPart p (q :: used) t

/-- The group of slot `s` and the slots of its part that begins at `s`, then what follows in the packet: the later
slots of the part, the first slot of the next part or group, and the effective STALL of the part (03 R54, R63). -/
def partOf (p : BitVec 128) (s : Nat) : List Nat × Option Nat × Nat :=
  let g := ((groupsOf (groupField p)).find? (fun g => decide (g.1 ≤ s) && decide (s ≤ g.2))).getD (s, s)
  let slots := (groupSlots p g).filter (s ≤ ·)
  let part := firstPart p [] slots
  let rest := slots.filter (fun r => !part.contains r)
  let later := [0, 1, 2].filter (fun r => decide (g.2 < r) && slotKind p r == 0)
  let stallOf (r : Nat) := ((slotCtl p r).extractLsb' 3 3).toNat
  let stall := if rest.isEmpty then ((groupSlots p g).map stallOf).foldl max 0 else 0
  (part.drop 1, (rest ++ later).head?, stall)

/-! ### The encoder -/

/-- The instruction word of a form and its fields (03 R57). -/
def instrWord (op : Op) (e : Enc) : Word := op.code ++ e.d ++ e.a ++ e.b

/-- The slot control of an instruction (03 R49). -/
def instrCtl (e : Enc) : BitVec 10 := e.guard ++ e.stall ++ e.u ++ 0#2

/-- The slot control of an extension word, a literal and a never-guarded pad (03 R49, R50). -/
def extCtl : BitVec 10 := 1
@[inherit_doc extCtl]
def litCtl : BitVec 10 := 2
@[inherit_doc extCtl]
def padCtl : BitVec 10 := 0x3C0

/-- A packet from GROUP and three slots with their controls (03 R47, R48). -/
def packetWord (group : BitVec 2) (s0 s1 s2 : BitVec 10 × Word) : BitVec 128 :=
  s2.2 ++ s1.2 ++ s0.2 ++ (group ++ s2.1 ++ s1.1 ++ s0.1)

/-- The packet that holds one encoded instruction in its last slots, after never-guarded pads, and the slot the
instruction begins in. -/
def encodePacket (op : Op) (e : Enc) : BitVec 128 × Nat :=
  let pad : BitVec 10 × Word := (padCtl, 0)
  let ins : BitVec 10 × Word := (instrCtl e, instrWord op e)
  match e.ext, e.lit with
  | none, none => (packetWord 3 pad pad ins, 2)
  | some x, none => (packetWord 1 pad ins (extCtl, x.word), 1)
  | none, some l => (packetWord 1 pad ins (litCtl, l), 1)
  | some x, some l => (packetWord 0 ins (extCtl, x.word) (litCtl, l), 0)

/-- The packet and slot of an instruction; none for a row without an encoding. -/
def encode (i : Instr) : Option (BitVec 128 × Nat) := i.op?.map (fun p => encodePacket p.1 p.2)

/-! ### Words of the opcode table -/

/-- The fields that the bits `w` of a table row give: the instruction word is bits 31..0, an extension word bits
63..32 and a literal bits 95..64 where the row has them; a literal of zeros follows where the form requires one. The
slot control is that of an instruction guarded always (p7). -/
def tableEnc (nbits w : Nat) : Enc :=
  let word := BitVec.ofNat 32 w
  let x : Option Word := if 32 < nbits then some (BitVec.ofNat 32 (w >>> 32)) else none
  let l : Option Word := if 64 < nbits then some (BitVec.ofNat 32 (w >>> 64)) else none
  let e := encOf 0x1C0 word x l
  match opOfCode (word.extractLsb' 24 8) e.x.aux with
  | some op => if e.lit.isNone && (form op e).lit == .req then { e with lit := some 0 } else e
  | none => e

/-- The packet in which the machine finds the instruction of a table row, and its slot. -/
def tablePacket (nbits w : Nat) : BitVec 128 × Nat :=
  let e := tableEnc nbits w
  let word := BitVec.ofNat 32 w
  let pad : BitVec 10 × Word := (padCtl, 0)
  let ins : BitVec 10 × Word := (instrCtl e, word)
  match e.ext, e.lit with
  | none, none => (packetWord 3 pad pad ins, 2)
  | some x, none => (packetWord 1 pad ins (extCtl, x.word), 1)
  | none, some l => (packetWord 1 pad ins (litCtl, l), 1)
  | some x, some l => (packetWord 0 ins (extCtl, x.word) (litCtl, l), 0)

/-- What the decoder reads from an instruction whose bits are `w`. -/
def decodeTableWord (nbits w : Nat) : Option Instr :=
  let ps := tablePacket nbits w
  (decodeSlot ps.1 ps.2).toOption

end Sys2Proof
end

