-- ==== Sys2Proof/Config.lean ====
section
/-! DEFINITION. The free values of the machine: what the specification leaves open.
Every constant here is opaque and has no body: nothing in Lean can evaluate it or prove a value of it, so a statement
about the machine holds whatever these values are. A fresh value is one of them applied to the counter `free` of the
state, which every use advances. -/

namespace Sys2Proof.Config

/-- DESIGN CHOICE (log entry 1). A value of `w` bits that the specification leaves open, fresh for each `n`. -/
opaque freeBits (w n : Nat) : BitVec w

/-- DESIGN CHOICE (log entry 1). A choice that the specification leaves open between two allowed outcomes:
whether a copy is still held in a cache (13 R230, R239, R244; 17 R306), or which of two unordered accesses comes first (17 R298). -/
opaque freeBool (n : Nat) : Bool

/-- DESIGN CHOICE (log entry 5). Which of several enabled steps of the machine comes next (08 R161, 17 R298). -/
opaque pick (n : Nat) : Nat

/-- DESIGN CHOICE (log entry 6). Nanoseconds and arithmetic-clock cycles that pass before a sample (01 R20). -/
opaque elapsedNs (n : Nat) : Nat
@[inherit_doc elapsedNs]
opaque elapsedClk (n : Nat) : Nat

/-- DESIGN CHOICE (log entry 57). How far the timebase counter of a die is behind that of the package, in ns, modulo 5 (27 R427). -/
opaque lag (die : Nat) : Nat

/-- DESIGN CHOICE (log entry 7). Where the search for a place for an argument block begins, in 16-byte units (09 R180). -/
opaque argUnit (n : Nat) : BitVec 44

/-- DESIGN CHOICE (log entry 60). How many children beyond the first a die's spawn intake takes before it is full (10 R210). -/
opaque spawnIntake : Nat

/-- DESIGN CHOICE (log entry 8). Whether an instance of a boot step passes at a method (31 R499, R500); the number
of the boot, the step, the instance and the method are given. -/
opaque bootPass (boot step inst method : Nat) : Bool

/-- DESIGN CHOICE (log entry 8). LPDDR 6 bytes that a die finds installed (30 R474). -/
opaque installed (die : Nat) : Nat

/-- DESIGN CHOICE (log entry 54). The uncorrectable error that strikes at a time, if any: a 32-byte block of LPDDR 6 (13 R240), or a
32-bit word of a die's weight store (13 R236), told by `true`. -/
opaque upset (n : Nat) : Option (Bool × Nat)

end Sys2Proof.Config
end

