-- ==== Sys2Proof/Machine/State.lean ====
section
/-! DEFINITION. The state of the machine as plain data: everything the specification gives a package of dies, its
cores, teams, warps and threads, its queues and engines, its system registers, its debug, trace and boot state.
INVENTORY.md names the rule behind every field and its reset value. Tables hold what differs from a default: a key
that is absent reads as the default its accessor names. -/

namespace Sys2Proof.Machine

/-- A sparse table by number: sorted by key, each key once. -/
abbrev Table (α : Type) := List (Nat × α)

/-- What an open step can end with besides a next state. -/
inductive Fault where
  /-- Raised by `step` once THERMTRIP has stopped the clocks (31 R505): nothing moves until PORST_N or power-on
  reset. Safe. -/
  | clocksStopped
deriving DecidableEq, Repr

/-- Why the model gives a step no meaning. -/
inductive Refusal where
  /-- Raised by `exec` for a row of the opcode table that has no meaning in the model yet, by its mnemonic. Safe. -/
  | notModelled (mnemonic : String)
deriving DecidableEq, Repr

/-! ### Threads -/

/-- What a result is written to: a general register or a predicate. -/
inductive Target where
  | reg (n : Nat)
  | pred (n : Nat)
deriving DecidableEq, Repr

/-- How far a result is from being visible (03 R64, R66): a distance still to cover, a memory access still to return, by its
number among the loads in flight (0 for an access that is not one of those), or an engine command still to return. -/
inductive Src where
  | fixed (left : Nat)
  | mem (load : Nat)
  | cmd (id : Nat)
deriving DecidableEq, Repr

/-- A result that an instruction has produced; `fresh` until the end of its group (03 R53). -/
structure Pend where
  tgt   : Target
  val   : Word
  src   : Src
  fresh : Bool
deriving DecidableEq, Repr

/-- An entry of the region stack (08 R167). -/
structure Region where
  inst  : Nat
  label : VAddr
deriving DecidableEq, Repr

/-- What a thread waits for: nothing, its region instance, the team's `rgp`, a barrier phase, the other handler
lanes, or the handler of its warp (08 R163 to R169, 15 R289, 26 R409, R412). -/
inductive Wait where
  | run
  | join (inst : Nat)
  | rgp (pc : VAddr) (slot : Nat)
  | bwait (handle token : Word) (pc : VAddr) (slot : Nat)
  | tret
  | parked (trap : Nat)
deriving DecidableEq, Repr

/-- Where a page fault stands with system software (26 R414). -/
inductive Offer where
  | none
  | wanted
  | sent (idx : BitVec 32)
  | declined
  | resolved
deriving DecidableEq, Repr

/-- A fault that a lane has met and its warp has not yet taken (26 R407, R408, R414). `also` names the other threads that
share a single performance under U = 1 (03 R56), or, with `marks`, the higher lanes that LANES marks after an acceptance
failure (R408). -/
structure LaneFault where
  cause  : BitVec 16
  sub    : BitVec 8
  detail : BitVec 64
  pc     : VAddr
  slot   : Nat
  instr  : Instr
  offer  : Offer
  write  : BitVec 8
  also   : List Nat
  marks  : Bool
deriving DecidableEq, Repr

/-- An asynchronous trap that waits for its thread (26 R418). -/
structure AsyncTrap where
  cmd    : Nat
  cause  : BitVec 16
  sub    : BitVec 8
  detail : BitVec 64
deriving DecidableEq, Repr

/-- A thread (01 R7), with its region stack, its wait and what it has pending. `next` is the target of a transfer
taken in the current group; `frozen` names the capabilities whose stops hold it (27 R438), and `halt` holds bits [7:0] of the
STOP record that last named its warp (27 R434). `since` is the write number of the last acquire (14 R253), from which the writes of
others that happen before its accesses are known, `roSince` that of its last `ldcinv` or its start (13 R239), and `fenced` tells
that it has executed a team-scope release fence (14 R253); `lrs` holds the record addresses of its `lrinv`s, each with the write
number then (17 R306). -/
structure Thread where
  ltid      : Nat
  alive     : Bool
  pc        : VAddr
  slot      : Nat
  next      : Option VAddr
  regs      : Table Word
  preds     : BitVec 7
  flags     : BitVec 6
  tcfg      : Word
  pend      : List Pend
  stack     : List Region
  wait      : Wait
  faults    : List LaneFault
  asyncs    : List AsyncTrap
  frozen    : List Word
  halt      : Nat
  lastIssue : Nat
  since     : Nat
  roSince   : Nat
  fenced    : Bool
  lrs       : Table Nat
deriving DecidableEq, Repr

/-- An instruction that threads perform again, alone (26 R412, R414). -/
structure Redo where
  instr   : Instr
  pc      : VAddr
  slot    : Nat
  threads : List Nat
deriving DecidableEq, Repr

/-- A trap that a warp has raised and not yet entered (26 R407 to R410, R418): `kind` is 0 Group, 1 Lane, 2 Fetch,
3 Asynchronous; `slot` the failing instruction's, `start` the first slot of its group or part; `lanes` its handler threads, none for every live one; `offer` is for an instruction page fault; `mid` tells that `start`
is not the first part of its group. -/
structure TrapReq where
  kind   : Nat
  cause  : BitVec 16
  sub    : BitVec 8
  detail : BitVec 64
  pc     : VAddr
  slot   : Nat
  start  : Nat
  lanes  : Option (List Nat)
  redo   : List Redo
  cmd    : Option Nat
  offer  : Offer
  mid    : Bool
deriving DecidableEq, Repr

/-- A closing fence that a warp waits for (15 R280): the epoch that it closed, its threads, whether it acquires and at which scope,
where it stands, and whether its overflow fault has been raised (13 R235). -/
structure FenceWait where
  epoch   : Nat
  threads : List Nat
  acquire : Bool
  scope   : Nat
  pc      : VAddr
  slot    : Nat
  raised  : Bool
deriving DecidableEq, Repr

/-- A stop on its way to a warp (27 R438, R439): its source, its capabilities, its trigger cycle, and the groups and parts that the
warp has issued from then on; `own` tells that the part which makes the stop is still issuing. -/
structure Halt where
  source : Nat
  caps   : List Word
  cycle  : Nat
  skid   : Nat
  own    : Bool
deriving DecidableEq, Repr

/-- A warp (08 R159): its lanes, each with its thread's linear index, its latched packet, what threads of it must
perform again, its trap in progress, the traps that it has still to enter, after a regrouping load the lines of its
threads (10 R214), the closing fence that it waits for, the stops that have not reached it yet (27 R439), the cycle from which its
next group may issue (03 R63, 08 R166), whether it has issued some parts of a split group and not the rest (03 R54), and the link
of its most recent `call` (07 R144). -/
structure Warp where
  id     : Nat
  lanes  : List (Option Nat)
  packet : Option (BitVec 128)
  redo   : List Redo
  trap   : Option Nat
  want   : List TrapReq
  lines  : Option (List (Nat × Nat))
  fence  : Option FenceWait
  stop   : List Halt
  due    : Nat
  mid    : Bool
  link   : Option VAddr
deriving DecidableEq, Repr

/-- Where a thread of a trapped warp goes on: its lane at entry, its packet, its slot and its wait. -/
structure Resume where
  thread : Nat
  lane   : Nat
  pc     : VAddr
  slot   : Nat
  wait   : Wait
deriving DecidableEq, Repr

/-- A trap being handled (26 R408 to R412): its frame, its handler threads and what `tret` needs. -/
structure TrapRec where
  id       : Nat
  req      : TrapReq
  frame    : Table Byte
  handlers : List Nat
  members  : List Resume
  more     : List TrapReq
  lines    : Option (List (Nat × Nat))
  fence    : Option FenceWait
  mid      : Bool
  link     : Option VAddr
deriving DecidableEq, Repr

/-- A region instance: the threads it counts and those that have arrived (08 R167, R168). -/
structure RegionInst where
  id      : Nat
  counted : List Nat
  arrived : List Nat
deriving DecidableEq, Repr

/-! ### Tile commands -/

/-- A tile command as it enters the rewrite window (19 R335, R338; 22 R381 to R386). -/
structure TileCmd where
  op     : Op
  aux    : BitVec 3
  thread : Nat
  block  : Option (BitVec 512)
  tile   : BitVec 8
  val    : Word
  metas  : List Word
  seq    : Nat
  epoch  : Nat
deriving DecidableEq, Repr

/-- A command of the window: a replacement names its rule, the rule's class and the originals of its run (19 R336 to
R344), and an original that takes its place back after a probe names the rule alone; `due` once a flush has ended its
matching (R331). -/
structure WinCmd where
  cmd   : TileCmd
  entry : Nat
  rule  : Option Nat
  cls   : Nat
  first : Bool
  orig  : List TileCmd
  due   : Bool
deriving DecidableEq, Repr

/-! ### Writes -/

/-- A write of at most eight bytes within one aligned chunk of eight (14 R249): `n` is its number among all writes, `cores` and
`threads` are those that have made it or have been ordered after it for certain, `grid` is that of an ordered contribution. -/
structure Write where
  n       : Nat
  cores   : List Nat
  threads : List (Nat × Nat)
  grid    : Option Nat
  off     : Nat
  bytes   : List Byte
deriving DecidableEq, Repr

/-- A write that has reached L2 or a scratchpad, with its number there and the chunk as it was before (14 R256, R257). -/
structure Arrival where
  write : Write
  num   : Nat
  was   : List Byte
deriving DecidableEq, Repr

/-! ### Teams -/

/-- A team placed on a core (08 R155 to R157, 09 R180, R184). `slot` is its context slot, none while its context is
evicted (26 R424). -/
structure Team where
  id      : Nat
  grid    : Nat
  ctx     : Nat
  core    : Nat
  slot    : Option Nat
  place   : Nat
  index   : Nat
  crewId  : Nat
  crank   : Nat
  freed   : Bool
  ended   : Bool
  threads : List Thread
  warps   : List Warp
  nextW   : Nat
  insts   : List RegionInst
  nextI   : Nat
  traps   : List TrapRec
  nextT   : Nat
  spad    : Table Byte
  spadLog : Table (List Arrival)
  acc     : Table (Table Word)
  window  : List WinCmd
  tseq    : Nat
  tprog   : BitVec 26
deriving DecidableEq, Repr

/-- The fields of a LAUNCH packet or child record (09 R180, R187). -/
structure Launch where
  entry    : VAddr
  nteam    : Nat × Nat × Nat
  ntid     : Nat × Nat × Nat
  width    : Nat
  nreg     : Nat
  crew     : Nat
  accum    : Nat
  spad     : Nat
  bars     : Nat
  prio     : Nat
  rw       : BitVec 3
  strict   : BitVec 3
  diemask  : BitVec 4
  argsize  : Nat
  vector   : BitVec 11
  irq      : Bool
  argptr   : VAddr
  compaddr : VAddr
  compval  : BitVec 64
deriving DecidableEq, Repr

/-- The part of a grid placed on one domain (30 R477, R478): units [next, hi) are still to place; `last` is the core or the
cluster of the unit before. `skipped` tells since when the launch has been skipped, `starved` that this has lasted 100 µs,
and `done` that it has had its turn in the current round of placement (09 R186). -/
structure Share where
  dom      : Nat
  lo       : Nat
  hi       : Nat
  next     : Nat
  last     : Option Nat
  skipped  : Option Nat
  starved  : Bool
  done     : Bool
  reported : Bool
deriving DecidableEq, Repr

/-- The thread and barrier that a child grid reports to (10 R210 to R212). -/
structure Parent where
  grid   : Nat
  team   : Nat
  core   : Nat
  handle : Option Word
deriving DecidableEq, Repr

/-- A grid in progress (08 R174, 09 R187, 15 R280). `pkt` is the packet that it, or the grid it descends from, came with;
`batch` names the expert queue and the batch that started it, `argAt` is the address of its argument block, and `since` the write
number at which it began. -/
structure Grid where
  id       : Nat
  ctx      : Nat
  queue    : Nat
  pkt      : Nat
  seq      : BitVec 64
  member   : Nat
  launch   : Launch
  args     : List Byte
  argAt    : Nat
  since    : Nat
  depth    : Nat
  time     : Nat
  shares   : List Share
  parent   : Option Parent
  batch    : Option (Nat × Nat)
  epoch    : Nat
  number   : Nat
  lost     : Bool
deriving DecidableEq, Repr

/-! ### Queues and packets -/

/-- The registers of a command queue (09 R176). -/
structure QReg where
  base    : BitVec 64
  enable  : Bool
  log2    : BitVec 5
  ceil    : BitVec 3
  ctx     : BitVec 8
  halted  : Bool
  waiting : Bool
  err     : BitVec 8
  wridx   : BitVec 32
  rdidx   : BitVec 32
  errbase : BitVec 64
  erridx  : BitVec 32
  seq     : BitVec 64
deriving DecidableEq, Repr

/-- A launch or engine work item of a packet: its packet bits and its snapshot (argument bytes or engine record). -/
structure Member where
  bits  : BitVec 1024
  snap  : List Byte
  ended : Bool
deriving DecidableEq, Repr

/-- An accepted packet (09 R178, R188 to R191). `id` is a number of the model's own, never used again: a queue that is enabled
anew gives its sequence numbers again. `members` are the work items of a LAUNCH, a BUNDLE or an ENGINE, or the
member list of an XQCFG; `cfg` is the snapshot of an XQCFG's record; `since` is when a WAIT began; `blocked` a WAIT left
incomplete; `err` the code of the first error record about the packet; `lost` that
a die loss has ended part of it (30 R484). -/
structure Pkt where
  id      : Nat
  queue   : Nat
  seq     : BitVec 64
  bits    : BitVec 1024
  members : List Member
  cfg     : BitVec 512
  time    : Nat
  begun   : Bool
  ended   : Bool
  since   : Nat
  blocked : Bool
  err     : BitVec 8
  lost    : Bool
deriving DecidableEq, Repr

/-! ### Engines -/

/-- The queue an engine command is in (17 R295). -/
inductive QueueId where
  | copy (core : Nat)
  | feCopy (cluster : Nat)
  | coord (core : Nat)
  | feCoord (cluster : Nat)
  | tile (team : Nat)
  | expert (core : Nat)
deriving DecidableEq, Repr

/-- One lookup of an `hlk` (21 R377). -/
structure Lookup where
  threads : List Nat
  key     : BitVec 64
  handle  : Word
deriving DecidableEq, Repr

/-- What an accepted command does (17 R307; 20 R359; 21 R372 to R379; 22; 31 R497). -/
inductive CmdBody where
  | copy (cr : BitVec 512) (src dst : BitVec 512)
  | put (space : Nat) (addr : BitVec 64) (off : BitVec 64) (len : Nat) (win : Nat)
  | coord (op : Nat) (cr : BitVec 512) (handle : Word) (hit : Bool)
  | hlk (dst : Nat) (looks : List Lookup)
  | token (xq : Nat) (entry : BitVec 128) (cross : Bool)
  | take (lanes : List (List Nat)) (dst pred : Nat)
  | tile (w : WinCmd)
  | fence (queues : List QueueId)
deriving DecidableEq, Repr

/-- Where a command stands: waiting or in progress, stopped by a fault or a pause, performed, or sent to a peer. -/
inductive CmdState where
  | ready
  | held (cause : BitVec 16) (sub : BitVec 8) (detail : BitVec 64) (offer : Offer)
  | paused
  | sent
  | performed
deriving DecidableEq, Repr

/-- An accepted engine command (17 R296 to R303): `pkt` names the queue, the sequence number and the member, `pid` the
packet, and `batch` the expert queue and the batch, that it comes from. -/
structure Cmd where
  id      : Nat
  queue   : QueueId
  seq     : Nat
  ctx     : Nat
  die     : Nat
  core    : Nat
  team    : Option Nat
  thread  : Nat
  grid    : Nat
  pkt     : Option (Nat × BitVec 64 × Nat)
  pid     : Nat
  batch   : Option (Nat × Nat)
  scope   : BitVec 3
  bar     : Option Word
  body    : CmdBody
  state   : CmdState
  pos     : Nat
  counted : Nat
  begun   : Bool
  aborted : Bool
deriving DecidableEq, Repr

/-- An entry of a cluster's record cache (17 R306); `num` is the write number when it was read. -/
structure RecEntry where
  ctx  : Nat
  addr : Nat
  num  : Nat
  snap : BitVec 512
deriving DecidableEq, Repr

/-- An entry of a core's barrier table (15 R283), with the scopes of the held arrivals of its live object (R287), the widest scope
among the arrivals of the current phase, and that of each phase completed (R290). -/
structure BarEntry where
  gen   : BitVec 8
  team  : Option Nat
  off   : Nat
  held  : List Nat
  cur   : Nat
  done  : Table Nat
deriving DecidableEq, Repr

/-- A coordinate object (20 R348 to R356). -/
inductive ObjBody where
  | free
  | table (slots : Nat) (log : Nat) (count : Nat) (gen : BitVec 32)
  | map (base cap : Nat) (noff : Nat) (built : Bool)
deriving DecidableEq, Repr

/-- An entry of the coordinate object table; `dying` after an `hfree` that has not taken effect (20 R349). -/
structure Obj where
  gen   : BitVec 8
  ctx   : Nat
  body  : ObjBody
  dying : Bool
deriving DecidableEq, Repr

/-- An entry of a die's map cache (20 R356). -/
structure MapEntry where
  ctx    : Nat
  genI   : BitVec 32
  genO   : BitVec 32
  params : BitVec 40
  handle : Word
deriving DecidableEq, Repr

/-- The map cache and the generation counter of a die's coordinate engines (20 R352, R356). -/
structure CoordDie where
  drawn : BitVec 32
  cache : List MapEntry
deriving DecidableEq, Repr

/-- A waiting expert token (20 R360, R363); `spilled` is its place in the spill area. -/
structure Token where
  entry   : BitVec 128
  time    : Nat
  order   : Nat
  spilled : Option Nat
deriving DecidableEq, Repr

/-- A batch in flight (20 R365), with the TAGs of its members. -/
structure Batch where
  fire   : Nat
  tags   : List Nat
  tokens : List (BitVec 128)
  left   : Nat
deriving DecidableEq, Repr

/-- An expert queue (20 R361 to R366): `owner` is the context and the FE queue that configured it, and `due` the XQCFG packets that
take effect at the next firing slot. -/
structure XQueue where
  cfg     : BitVec 512
  members : List Member
  owner   : Option (Nat × Nat)
  tokens  : List Token
  batches : List Batch
  fires   : Nat
  spillAt : Nat
  due     : List Nat
deriving DecidableEq, Repr

/-! ### Memory -/

/-- A core's L1 (13 R230 to R232, 14 R261): the sectors that are valid, the dirty stores of each chunk of eight bytes in order,
the lines held exclusively, those among them whose release is promoted when they are given up, the write number of the core's last
acquire at scope crew or wider (R231), and how far its team-scope atomic loads have seen each chunk (14 R256). -/
structure L1 where
  sects : List Nat
  dirty : Table (List Write)
  excl  : List Nat
  promo : List Nat
  since : Nat
  floor : Table Nat
deriving DecidableEq, Repr

/-- A plain load that is still in flight (13 R229): its value may be taken until it returns (14 R257). -/
structure PendLoad where
  id     : Nat
  core   : Nat
  team   : Nat
  thread : Nat
  pa     : Nat
  ty     : Nat
  dst    : BitVec 8
  rcv    : List Nat
deriving DecidableEq, Repr

/-- A miss-status entry (13 R229): a sector on its way to a core, the accesses that wait for it, and whether L1 keeps it. -/
structure Fill where
  core   : Nat
  sector : Nat
  ids    : List Nat
  keep   : Bool
deriving DecidableEq, Repr

/-- The TLBs (13 R244): of a core for instructions, for loads and stores and for tiles, of a cluster for copies and its L2 TLB.
Front ends, coordinate engines, expert units and firmware, for which the specification names none, use the L2 TLB of a cluster of
their die (log entry 53). -/
inductive Tlb where
  | instr (core : Nat)
  | vector (core : Nat)
  | tile (core : Nat)
  | copy (cluster : Nat)
  | second (cluster : Nat)
deriving DecidableEq, Repr

/-- A translation that a TLB holds (13 R244, R245): the page of `2 ^ bits` bytes at `va`. -/
structure TlbEntry where
  tlb  : Tlb
  ctx  : Nat
  va   : Nat
  bits : Nat
  pte  : BitVec 64
deriving DecidableEq, Repr

/-- Where a reduction contribution is (13 R235, 15 R278 to R281). -/
inductive RedState where
  | flight
  | held
  | spilled
  | kept
deriving DecidableEq, Repr

/-- A reduction contribution (15 R278, R279). -/
structure Contrib where
  n      : Nat
  grid   : Nat
  ctx    : Nat
  team   : Nat
  thread : Nat
  core   : Nat
  index  : Nat
  issue  : Nat
  det    : Option (Nat × BitVec 40)
  opcode : Nat
  type   : BitVec 5
  addr   : Nat
  val    : BitVec 64
  st     : RedState
deriving DecidableEq, Repr

/-- A side-log entry (26 R415), with the packet and the lane of its access for a watchpoint (27 R442); `stored` tells that it is
in the save area of an evicted context (26 R424, R425). -/
structure SideEntry where
  n      : Nat
  core   : Nat
  team   : Nat
  thread : Nat
  ctx    : Nat
  die    : Nat
  va     : BitVec 64
  data   : List Byte
  red    : Option Contrib
  scope  : BitVec 3
  order  : BitVec 3
  offer  : Offer
  stored : Bool
  pc     : BitVec 48
  lane   : Nat
deriving DecidableEq, Repr

/-- A near copy of a remote line (30 R479). -/
structure NearCopy where
  die  : Nat
  line : Nat
  excl : Bool
deriving DecidableEq, Repr

/-- A write-back in flight (30 R487), with the core that evicted the line and its dirty stores. -/
structure WriteBack where
  n      : Nat
  core   : Nat
  line   : Nat
  writes : Table (List Write)
deriving DecidableEq, Repr

/-- An entry of a die's invalidation log (30 R489). -/
structure InvEntry where
  ctx    : Nat
  va     : Nat
  pages  : Nat
deriving DecidableEq, Repr

/-! ### Registers of contexts, cores and the package -/

/-- A fault record of the ring not yet answered (28 R453). -/
structure FaultRec where
  idx  : BitVec 32
  page : Nat
deriving DecidableEq, Repr

/-- A trace record that waits to be written (27 R431, R432). `team` names the team and the warp that made it, and `threads` the threads of
that warp, which wait in hold mode whatever warps they form. -/
structure TraceRec where
  bits    : BitVec 512
  wide    : Bool
  team    : Option (Nat × Nat)
  threads : List Nat
deriving DecidableEq, Repr

/-- The system registers of a context on a die (28 R451, R452; 27 R430, R447; 19 R341). -/
structure CtxReg where
  trapVec   : BitVec 64
  ptBase    : BitVec 64
  spillBase : BitVec 64
  spillSize : BitVec 64
  faultRing : BitVec 64
  faultWidx : BitVec 32
  faultRidx : BitVec 32
  rwTable   : BitVec 64
  sched     : BitVec 64
  traceCtl  : BitVec 64
  traceRing : BitVec 64
  traceWidx : BitVec 32
  traceRidx : BitVec 32
  sampleCtl : BitVec 64
  rules     : Table (BitVec 256)
  faults    : List FaultRec
  recs      : List TraceRec
  traceLost : Bool
  traceCap  : Option Word
  sampleCap : Option Word
deriving DecidableEq, Repr

/-- The context slots and partitions of a core (26 R420 to R423, 28 R452), with the time the active slot began and
the positions of its sampling for each context and the arithmetic-clock count of its last stall sample (27 R447, R448); and for its
last cycle in which something issued, the segments and the ports of pipe M that are taken (08 R160, R161). -/
structure CoreReg where
  ctx0   : Option Nat
  ctx1   : Option Nat
  ctx2   : Option Nat
  active : Nat
  req    : Option Nat
  part   : BitVec 64
  since  : Nat
  reqs   : Table Nat
  robin  : Table Nat
  taken  : Table Nat
  cycle  : Nat
  segs   : Nat
  mUsed  : Nat
deriving DecidableEq, Repr

/-- A debug capability (27 R436). -/
structure Cap where
  token  : Word
  target : Nat
  holder : Nat
  rights : BitVec 4
  parent : Option Word
deriving DecidableEq, Repr

/-- A DRAIN stop in force (27 R440): the context and the cores, the teams or the threads of its scope, and the teams and the threads
that a narrower RESUME has let go on. -/
structure Drain where
  token : Word
  ctx   : Nat
  cores : List Nat
  teams : List Nat
  threads : List (Nat × Nat)
  fe    : Bool
  freeTeams   : List Nat
  freeThreads : List (Nat × Nat)
deriving DecidableEq, Repr

/-- A watchpoint (27 R441) and the capability that set it. -/
structure Watch where
  lo  : BitVec 64
  hi  : BitVec 64
  cap : Word
deriving DecidableEq, Repr

/-- A STEP in progress (27 R443 to R445): the thread that it names, its warp with its threads, the first numbers that a warp and a trap made
since can have, whether its part has issued, the tile numbers and the commands that the part has made, and the tile numbers
that have left the window. -/
structure Stepping where
  token  : Word
  team   : Nat
  thread : Nat
  whole  : Bool
  warp0  : Nat
  nextW0 : Nat
  nextT0 : Nat
  tseqs  : List Nat
  made   : List Nat
  took   : List Nat
  issued : Bool
  ids    : List Nat
deriving DecidableEq, Repr

/-- The debug mailbox (31 R493). -/
structure Mailbox where
  cmd     : BitVec 8
  seq     : BitVec 8
  token   : Word
  a0      : BitVec 64
  a1      : BitVec 64
  a2      : BitVec 64
  a3      : BitVec 64
  status  : BitVec 8
  seqDone : BitVec 8
  busy    : Bool
deriving DecidableEq, Repr

/-- Replay hits loaded for a queue of a context (27 R449). -/
structure ReplaySet where
  ctx   : Nat
  queue : Nat
  hits  : List (BitVec 512)
deriving DecidableEq, Repr

/-- Timebase alignment (27 R428, R429): TB_SYNC, the count of consecutive close syncs, the timestamps of the exchange in
progress, when the last Sync was sent, whether the one forward step has been made, and the messages sent: kind 0 Sync, 1
Follow_Up, 2 Delay_Req, 3 Delay_Resp, with the port and the timestamp. -/
structure Sync where
  role     : BitVec 2
  locked   : Bool
  interval : BitVec 4
  offset   : BitVec 32
  close    : Nat
  t1       : BitVec 64
  t2       : BitVec 64
  t3       : BitVec 64
  t4       : BitVec 64
  lastSync : Nat
  stepped  : Bool
  sent     : List (Nat × Nat × BitVec 64)
deriving DecidableEq, Repr

/-- A UCIe link (30 R471, R481 to R483): trained and working, in L1, the retries of a message that waits for its wake, when its last
heartbeat was heard and its last flit crossed, and since when a message waits. -/
structure Link where
  up      : Bool
  asleep  : Bool
  retries : Nat
  heard   : Nat
  flit    : Nat
  since   : Option Nat
deriving DecidableEq, Repr

/-- A peer window (31 R496): the four words of its entry. -/
structure PeerWin where
  w0   : BitVec 64
  base : BitVec 64
  size : BitVec 64
  cnt  : BitVec 64
deriving DecidableEq, Repr

/-- A peer port (31 R496). -/
structure Port where
  up    : Bool
  rate  : Bool
  count : BitVec 16
deriving DecidableEq, Repr

/-- A `put` on its way (31 R498): the port, the window that it names on the receiving device, its offset and its bytes. -/
structure PutMsg where
  port : Nat
  win  : Nat
  off  : BitVec 64
  data : List Byte
deriving DecidableEq, Repr

/-- A `put` that has arrived and waits for a page fault to be answered, or for an earlier one of its window and port (31
R498): `loc` is the faulting address. -/
structure RxPut where
  msg   : PutMsg
  loc   : Nat
  offer : Offer
deriving DecidableEq, Repr

/-- The die-control block (30 R488). -/
structure DieCtl where
  dieStat  : BitVec 8
  linkIdle : BitVec 16
  mcVec    : BitVec 11
  logBase  : BitVec 64
  logIdx   : BitVec 32
deriving DecidableEq, Repr

/-- Where boot stands (31 R499, R506): to begin at a step, done, or stopped. -/
inductive BootState where
  | due (step : Nat)
  | done
  | stopped
deriving DecidableEq, Repr

/-- A warp's turn at the issue stage (08 R161, 03 R54): its packet, the slot that issues now, the first slot of its
part and the later ones, the slot of the next group in the packet if any, the effective STALL of the part, whether the
part's checks have been made, the threads named when an instruction is performed again (26 R414), and whether the part
may end a wait. -/
structure Turn where
  team  : Nat
  warp  : Nat
  pc    : VAddr
  slot  : Nat
  start : Nat
  more  : List Nat
  next  : Option Nat
  stall : Nat
  begun : Bool
  only  : Option (List Nat)
  wake  : Bool
deriving DecidableEq, Repr

/-- The levels of memory and what is on its way to them (13, 14, 15, 26 R415, 30 R479 to R489): `cells` as L2 and LPDDR 6 hold
them, poisoned sectors, 32-byte blocks of LPDDR 6 and words of weight stores with an uncorrectable error (13 R236, R240), the
writes that have reached each chunk, the next write number, the L1s, the lines of the read-only caches, TLBs, loads in flight and
their miss-status entries. -/
structure Mem where
  cells    : List Host.Cell
  poison   : List Nat
  bad      : List Nat
  wsBad    : List (Nat × Nat)
  hist     : Table (List Arrival)
  nextW    : Nat
  wstore   : Table (Table Byte)
  l1       : Table L1
  ro       : Table (List Nat)
  tlb      : List TlbEntry
  loads    : List PendLoad
  fills    : List Fill
  contribs : List Contrib
  nextC    : Nat
  side     : List SideEntry
  near     : List NearCopy
  wbs      : List WriteBack
  invlogs  : Table (List InvEntry)
deriving DecidableEq, Repr

/-- The front ends: queues, packets and grids (09, 30 R476 to R478). -/
structure Front where
  queues   : Table QReg
  pkts     : List Pkt
  nextP    : Nat
  grids    : List Grid
  nextG    : Nat
  spawned  : Table (BitVec 32)
deriving DecidableEq, Repr

/-- The teams on the cores and the barrier tables (08, 15 R283). -/
structure Work where
  teams    : List Team
  nextTeam : Nat
  bars     : Table BarEntry
deriving DecidableEq, Repr

/-- The engines: commands, record caches, coordinate objects, expert queues (17 to 20); `robin` holds for each copy and coordinate
engine the queue that it last took a command from (17 R295). -/
structure Eng where
  cmds     : List Cmd
  nextCmd  : Nat
  seqs     : Table Nat
  recCache : Table (List RecEntry)
  objs     : Table Obj
  coord    : Table CoordDie
  xqs      : Table XQueue
  enqueued : Nat
  fired    : Table Nat
  robin    : Table Nat
deriving DecidableEq, Repr

/-- Debug state (27 R436 to R449, 31 R493); `tokens` are those already given out, which are never given again. -/
structure Dbg where
  caps     : List Cap
  drains   : List Drain
  watches  : Table Watch
  brks     : Table (List Word)
  stepping : Option Stepping
  mailbox  : Mailbox
  replays  : List ReplaySet
  tokens   : List Word
deriving DecidableEq, Repr

/-- The timebase and its alignment (27 R427 to R429), the arithmetic-clock count (01 R19), and the time of the last die reset, from
which the weight stores' refresh clocks count (13 R237, R238). -/
structure Clock where
  time     : Nat
  clk      : Nat
  dieReset : Nat
  sync     : Sync
  launched : Bool
deriving DecidableEq, Repr

/-- The package around the dies (30, 31). `present` counts the dies of the ordering number (00 R1), `dlog` is the log2 of the
DRAM bytes of each domain (30 R474), `hostUp` tells whether the host link is trained; `sends` and `acks` are what has left at the peer ports, an acknowledgment with its code. -/
structure Pkg where
  present    : Nat
  enumDies   : BitVec 64
  enumSlices : BitVec 64
  enumOrder  : BitVec 64
  dlog       : Nat
  master     : Nat
  dctl       : DieCtl
  links      : Table Link
  windows    : Table PeerWin
  ports      : Table Port
  msix       : Table Byte
  msis       : List (BitVec 11)
  hostData   : List Byte
  bootRecs   : Table (BitVec 128)
  boot       : BootState
  boots      : Nat
  verFails   : Nat
  alarmCfg   : BitVec 9
  alarmN     : Nat
  keyStore   : Bool
  clocksOff  : Bool
  hostUp     : Bool
  sends      : List PutMsg
  rx         : List RxPut
  acks       : List (Nat × BitVec 8)
deriving DecidableEq, Repr

/-- The machine: a package of dies. `turn` is the warp that issues now, `inputs` the events of the outside world that
wait, `issueN` counts the parts issued, from which contributions take their program order (15 R279), `free` the counter of free values (log entry
1: the model's own field). -/
structure State where
  mm     : Mem
  fe     : Front
  wk     : Work
  eng    : Eng
  ctxs   : Table CtxReg
  cores  : Table CoreReg
  dbg    : Dbg
  clock  : Clock
  pkg    : Pkg
  turn   : Option Turn
  inputs : List Instr
  issueN : Nat
  free   : Nat
deriving DecidableEq, Repr

/-- Memory at reset: nothing is listed and no cache holds anything (log entry 2). -/
def Mem.reset : Mem where
  cells    := []
  poison   := []
  bad      := []
  wsBad    := []
  hist     := []
  nextW    := 0
  wstore   := []
  l1       := []
  ro       := []
  tlb      := []
  loads    := []
  fills    := []
  contribs := []
  nextC    := 1
  side     := []
  near     := []
  wbs      := []
  invlogs  := []

/-- The front ends at reset (09 R176; log entry 3). -/
def Front.reset : Front := ⟨[], [], 0, [], 0, []⟩

/-- No team is placed at reset; every barrier generation is 0 (15 R283). -/
def Work.reset : Work := ⟨[], 0, []⟩

/-- The engines at reset: every queue empty (log entry 3). -/
def Eng.reset : Eng := ⟨[], 0, [], [], [], [], [], 0, [], []⟩

/-- TB_SYNC and the servo at reset (27 R428). -/
def Sync.reset : Sync := ⟨0, false, 0, 0, 0, 0, 0, 0, 0, 0, false, []⟩

/-- The debug mailbox at reset (31 R493). -/
def Mailbox.reset : Mailbox := ⟨0, 0, 0, 0, 0, 0, 0, 0, 0, false⟩

/-- Debug state at reset: no capability, no stop, no watchpoint (27 R436, R441). -/
def Dbg.reset : Dbg := ⟨[], [], [], [], none, Mailbox.reset, [], []⟩

/-- The timebase at power-on (27 R427). -/
def Clock.reset : Clock := ⟨0, 0, 0, Sync.reset, false⟩

/-- The die-control block at reset (30 R488). -/
def DieCtl.reset : DieCtl := ⟨0, 20, 0, 0, 0⟩

/-- The package at power-on reset, before boot (30 R473, R488; 31 R499, R502, R506). The ordering number 4240 is a
DESIGN CHOICE (log entry 4), as are the values of log entry 3. -/
def Pkg.reset : Pkg where
  present    := 4
  enumDies   := 0xF
  enumSlices := 0
  enumOrder  := 0x40000000000
  dlog       := 0
  master     := 0
  dctl       := DieCtl.reset
  links      := []
  windows    := []
  ports      := []
  msix       := []
  msis       := []
  hostData   := []
  bootRecs   := []
  boot       := .due 1
  boots      := 0
  verFails   := 0
  alarmCfg   := 0x025
  alarmN     := 0
  keyStore   := true
  clocksOff  := false
  hostUp     := false
  sends      := []
  rx         := []
  acks       := []

/-- The machine right after power-on reset (31 R506): the boot sequence has not begun. -/
def State.reset : State where
  mm     := Mem.reset
  fe     := Front.reset
  wk     := Work.reset
  eng    := Eng.reset
  ctxs   := []
  cores  := []
  dbg    := Dbg.reset
  clock  := Clock.reset
  pkg    := Pkg.reset
  turn   := none
  inputs := []
  issueN := 0
  free   := 0

end Sys2Proof.Machine
end

