-- ==== Sys2Proof/Machine/Table.lean ====
section
/-! DEFINITION. Reading and writing sparse tables by number. A table is sorted by key and holds each key once;
`write` also keeps out the entries that equal the default, so that equal tables are equal data. -/

namespace Sys2Proof.Machine

variable {α : Type}

/-- The entry of key `k`. -/
def Table.look : Table α → Nat → Option α
  | [], _ => none
  | (j, v) :: t, k => if j = k then some v else Table.look t k

/-- The entry of key `k`, or the default `d`. -/
def Table.read (d : α) (t : Table α) (k : Nat) : α := (Table.look t k).getD d

/-- Sets key `k`, keeping the keys ascending. -/
def Table.put : Table α → Nat → α → Table α
  | [], k, v => [(k, v)]
  | (j, w) :: t, k, v =>
    if k < j then (k, v) :: (j, w) :: t else if k = j then (k, v) :: t else (j, w) :: Table.put t k v

/-- Removes key `k`. -/
def Table.del : Table α → Nat → Table α
  | [], _ => []
  | (j, w) :: t, k => if j = k then Table.del t k else (j, w) :: Table.del t k

/-- Sets key `k`, an entry equal to the default being removed. -/
def Table.write [DecidableEq α] (d : α) (t : Table α) (k : Nat) (v : α) : Table α :=
  if v = d then Table.del t k else Table.put t k v

/-- Updates the entry of key `k`. -/
def Table.upd (d : α) (t : Table α) (k : Nat) (f : α → α) : Table α := Table.put t k (f (Table.read d t k))

/-- Every key is above `lo`, and the keys rise strictly. -/
def Table.above : Option Nat → Table α → Bool
  | _, [] => true
  | none, (j, _) :: t => Table.above (some j) t
  | some lo, (j, _) :: t => decide (lo < j) && Table.above (some j) t

/-- The keys rise strictly. -/
def Table.sorted (t : Table α) : Bool := Table.above none t

/-- The canonical form: keys rise strictly and no entry equals the default. -/
def Table.wf [DecidableEq α] (d : α) (t : Table α) : Bool :=
  Table.sorted t && t.all (fun e => decide (e.2 ≠ d))

end Sys2Proof.Machine
end

