-- ==== Sys2Proof/Machine/Access.lean ====
section
/-! DEFINITION. Finding and updating the parts of the state: teams, threads, warps, grids, commands, the registers of
contexts and cores, and what is live (30 R472 to R476). -/

namespace Sys2Proof.Machine

/-- The system registers of a context on a die at reset (28 R452, 19 R341, 27 R447). -/
def CtxReg.reset : CtxReg where
  trapVec   := 0
  ptBase    := 0
  spillBase := 0
  spillSize := 0
  faultRing := 0
  faultWidx := 0
  faultRidx := 0
  rwTable   := 0xFF00000000000000
  sched     := 0
  traceCtl  := 0
  traceRing := 0
  traceWidx := 0
  traceRidx := 0
  sampleCtl := 0x408
  rules     := []
  faults    := []
  recs      := []
  traceLost := false
  traceCap  := none
  sampleCap := none

/-- A core at reset: no context resident, slot 0 active (log entry 3), partitions 10, 11, 11 (28 R452). -/
def CoreReg.reset : CoreReg where
  ctx0   := none
  ctx1   := none
  ctx2   := none
  active := 0
  req    := none
  part   := 0x2D6A
  since  := 0
  reqs   := []
  robin  := []
  taken  := []
  cycle  := 0
  segs   := 0
  mUsed  := 0

/-- A queue at reset (09 R176; log entry 3). -/
def QReg.reset : QReg := ⟨0, false, 0, 0, 0, false, false, 0, 0, 0, 0, 0, 0⟩

/-- An empty L1. -/
def L1.empty : L1 := ⟨[], [], [], [], 0, []⟩

/-- A barrier table entry at die reset (15 R283). -/
def BarEntry.reset : BarEntry := ⟨0, none, 0, [], 0, []⟩

/-- A free coordinate object entry (20 R348; log entry 3). -/
def Obj.reset : Obj := ⟨0, 0, .free, false⟩

/-- An expert queue at reset: not enabled (20 R361; log entry 3). -/
def XQueue.reset : XQueue := ⟨0, [], none, [], [], 0, 0, []⟩

/-- A link before it is trained (30 R471; log entry 3). -/
def Link.reset : Link := ⟨false, false, 0, 0, 0, none⟩

/-- A peer port before it is trained and a peer window at reset (31 R496; log entry 3). -/
def Port.reset : Port := ⟨false, false, 0⟩
@[inherit_doc Port.reset]
def PeerWin.reset : PeerWin := ⟨0, 0, 0, 0⟩

/-- The coordinate state of a die at reset (20 R352; log entry 3). -/
def CoordDie.reset : CoordDie := ⟨0, []⟩

/-! ### Teams, warps and threads -/

def State.team? (s : State) (id : Nat) : Option Team := s.wk.teams.find? (fun t => t.id == id)

def State.updTeam (s : State) (id : Nat) (f : Team → Team) : State :=
  { s with wk.teams := s.wk.teams.map (fun t => if t.id = id then f t else t) }

def Team.thread? (t : Team) (n : Nat) : Option Thread := t.threads.find? (fun th => th.ltid == n)

def Team.updThread (t : Team) (n : Nat) (f : Thread → Thread) : Team :=
  { t with threads := t.threads.map (fun th => if th.ltid = n then f th else th) }

/-- Updates every thread of a list. -/
def Team.updThreads (t : Team) (ns : List Nat) (f : Thread → Thread) : Team :=
  { t with threads := t.threads.map (fun th => if ns.contains th.ltid then f th else th) }

def Team.warp? (t : Team) (id : Nat) : Option Warp := t.warps.find? (fun w => w.id == id)

def Team.updWarp (t : Team) (id : Nat) (f : Warp → Warp) : Team :=
  { t with warps := t.warps.map (fun w => if w.id = id then f w else w) }

def State.updThread (s : State) (team n : Nat) (f : Thread → Thread) : State :=
  s.updTeam team (fun t => t.updThread n f)

def State.thread? (s : State) (team n : Nat) : Option Thread := (s.team? team).bind (fun t => t.thread? n)

/-- The warp that a thread belongs to (08 R159). -/
def Team.warpOf? (t : Team) (n : Nat) : Option Warp := t.warps.find? (fun w => w.lanes.contains (some n))

/-- The threads of a warp that have not exited, by lane (08 R159). -/
def Team.live (t : Team) (w : Warp) : List (Nat × Thread) :=
  (w.lanes.zipIdx).filterMap (fun p =>
    match p.1.bind t.thread? with
    | some th => if th.alive then some (p.2, th) else none
    | none => none)

/-! ### Grids, queues and commands -/

def State.grid? (s : State) (id : Nat) : Option Grid := s.fe.grids.find? (fun g => g.id == id)

def State.updGrid (s : State) (id : Nat) (f : Grid → Grid) : State :=
  { s with fe.grids := s.fe.grids.map (fun g => if g.id = id then f g else g) }

def State.queue (s : State) (q : Nat) : QReg := Table.read QReg.reset s.fe.queues q

def State.updQueue (s : State) (q : Nat) (f : QReg → QReg) : State :=
  { s with fe.queues := Table.upd QReg.reset s.fe.queues q f }

def State.updPkts (s : State) (f : Pkt → Pkt) : State := { s with fe.pkts := s.fe.pkts.map f }

def State.cmd? (s : State) (id : Nat) : Option Cmd := s.eng.cmds.find? (fun c => c.id == id)

def State.updCmd (s : State) (id : Nat) (f : Cmd → Cmd) : State :=
  { s with eng.cmds := s.eng.cmds.map (fun c => if c.id = id then f c else c) }

/-! ### Registers -/

def State.ctx (s : State) (ctx die : Nat) : CtxReg := Table.read CtxReg.reset s.ctxs (4 * ctx + die)

def State.updCtx (s : State) (ctx die : Nat) (f : CtxReg → CtxReg) : State :=
  { s with ctxs := Table.upd CtxReg.reset s.ctxs (4 * ctx + die) f }

def State.core (s : State) (core : Nat) : CoreReg := Table.read CoreReg.reset s.cores core

def State.updCore (s : State) (core : Nat) (f : CoreReg → CoreReg) : State :=
  { s with cores := Table.upd CoreReg.reset s.cores core f }

/-- The context in a slot of a core. -/
def CoreReg.slotCtx (c : CoreReg) (k : Nat) : Option Nat :=
  match k with
  | 0 => c.ctx0
  | 1 => c.ctx1
  | 2 => c.ctx2
  | _ => none

def CoreReg.setSlot (c : CoreReg) (k : Nat) (v : Option Nat) : CoreReg :=
  match k with
  | 0 => { c with ctx0 := v }
  | 1 => { c with ctx1 := v }
  | 2 => { c with ctx2 := v }
  | _ => c

/-- The slot that holds a context. -/
def CoreReg.slotOf (c : CoreReg) (ctx : Nat) : Option Nat := [0, 1, 2].find? (fun k => c.slotCtx k == some ctx)

/-- Partition of a slot in units of 16 KiB (26 R421, 28 R452). -/
def CoreReg.partUnits (c : CoreReg) (k : Nat) : Nat := bitsAt c.part.toNat (5 * k + 4) (5 * k)

/-- The die and the cluster of a core, and its number within the die (01 R19, 09 R184). -/
def dieOf (core : Nat) : Nat := core / 32
@[inherit_doc dieOf]
def clusterOf (core : Nat) : Nat := core / 4
@[inherit_doc dieOf]
def coreNo (core : Nat) : Nat := core % 32

/-! ### What is live -/

/-- Live physical dies, the die of a domain, and the domains of the boot (30 R473). -/
def Pkg.liveBits (p : Pkg) : Nat := bitsAt p.enumDies.toNat 7 4
@[inherit_doc Pkg.liveBits]
def Pkg.nboot (p : Pkg) : Nat := bitsAt p.enumDies.toNat 13 11
@[inherit_doc Pkg.liveBits]
def Pkg.physOf (p : Pkg) (d : Nat) : Nat := bitsAt p.enumDies.toNat (17 + 2 * d) (16 + 2 * d)

/-- Domain `d` is live (30 R473). -/
def Pkg.domLive (p : Pkg) (d : Nat) : Bool := decide (d < p.nboot) && bitAt p.liveBits (p.physOf d)

/-- The live domains in ascending order. -/
def Pkg.doms (p : Pkg) : List Nat := [0, 1, 2, 3].filter p.domLive

/-- The domain of a physical die (30 R470, R473). -/
def Pkg.domOf (p : Pkg) (phys : Nat) : Option Nat := [0, 1, 2, 3].find? (fun d => decide (d < p.nboot) && p.physOf d == phys)

/-- HMODE, DSHIFT and DLOG2 (30 R473). -/
def Pkg.hmode (p : Pkg) : Nat := bitsAt p.enumSlices.toNat 32 32
@[inherit_doc Pkg.hmode]
def Pkg.dshift (p : Pkg) : Nat := bitsAt p.enumSlices.toNat 38 33

/-! ### Free values and time -/

/-- Uses up one free value. -/
def State.drew (s : State) : State := { s with free := s.free + 1 }

/-- Time passes, by an amount that is left open (01 R20, 27 R427). -/
def State.tick (s : State) : State :=
  { s with clock.time := s.clock.time + Config.elapsedNs s.free, clock.clk := s.clock.clk + Config.elapsedClk s.free,
           free := s.free + 1 }

/-- The timebase of a die: its counter starts at 0 and differs from another die's by at most 4 ns (27 R427; log entry 57). -/
def State.timeAt (s : State) (die : Nat) : Nat := s.clock.time - Config.lag die % 5

/-- The timebase of a die as the 64-bit counter that records carry (27 R427). -/
def State.nowAt (s : State) (die : Nat) : BitVec 64 := BitVec.ofNat 64 (s.timeAt die)

end Sys2Proof.Machine
end

