-- ==== Sys2Proof/Machine/Memory.lean ====
section
/-! DEFINITION. The levels of memory behind the global virtual space: home dies and slices (30 R474), translation with
its TLBs (13 R241 to R245), L1 with dirty bytes and exclusive lines (13 R230 to R233, 14 R259 to R262), the read-only
path (R239) and poison (30 R484). -/

namespace Sys2Proof.Machine

/-! ### Physical memory -/

/-- What a byte of LPDDR 6 reads as before anything writes it: DESIGN CHOICE (log entry 2). -/
def Mem.blank : Byte := 0

/-- One byte at a physical address. -/
def Mem.byte (m : Mem) (pa : Nat) : Byte := Table.read Mem.blank m.cells pa

/-- Writes one byte at a physical address. -/
def Mem.setByte (m : Mem) (pa : Nat) (b : Byte) : Mem := { m with cells := Table.write Mem.blank m.cells pa b }

/-- Consecutive bytes from a physical address. -/
def Mem.bytes (m : Mem) (pa n : Nat) : List Byte := (List.range n).map (fun k => m.byte (pa + k))

/-- Writes consecutive bytes from a physical address. -/
def Mem.setBytes (m : Mem) : Nat → List Byte → Mem
  | _, [] => m
  | pa, b :: bs => Mem.setBytes (m.setByte pa b) (pa + 1) bs

/-- The canonical form of physical memory. -/
def Mem.wf (m : Mem) : Bool := Table.wf Mem.blank m.cells

/-- The 256-byte line and the 64-byte sector of an address (13 R230). -/
def lineOf (pa : Nat) : Nat := pa / 256
@[inherit_doc lineOf]
def sectorOf (pa : Nat) : Nat := pa / 64

/-- The XOR of `n` groups of `w` bits from bit `lo` up. -/
def xorGroups (x lo w n : Nat) : Nat :=
  (List.range n).foldl (fun acc k => acc ^^^ bitsAt x (lo + w * k + w - 1) (lo + w * k)) 0

/-- The home domain of a physical address, live or lost; none where no domain backs it (30 R474). -/
def Pkg.home (p : Pkg) (pa : Nat) : Option Nat :=
  if p.hmode = 0 then
    let d := pa / 2 ^ p.dshift
    if d < p.nboot ∧ pa % 2 ^ p.dshift < 2 ^ p.dlog then some d else none
  else if pa < p.nboot * 2 ^ p.dlog then some (xorGroups pa 12 2 18 &&& (p.nboot - 1))
  else none

/-- The home slice of a line within its home die (30 R474). -/
def homeSlice (pa : Nat) : Nat := xorGroups pa 8 3 13 ^^^ (if bitAt pa 47 then 1 else 0)

/-- The address is backed by a live domain. -/
def Pkg.backed (p : Pkg) (pa : Nat) : Bool :=
  match p.home pa with
  | some d => p.domLive d
  | none => false

/-- The address is homed on a domain lost at run time (30 R484). -/
def Pkg.lostHome (p : Pkg) (pa : Nat) : Bool :=
  match p.home pa with
  | some d => !p.domLive d
  | none => false

/-- The sector of an address is poisoned (30 R484). -/
def State.poisoned (s : State) (pa : Nat) : Bool := s.mm.poison.contains (sectorOf pa)

/-- A 32-byte block that `n` bytes touch has an uncorrectable error (13 R240). -/
def State.uncorrectable (s : State) (pa n : Nat) : Bool :=
  s.mm.bad.any (fun b => decide (pa / 32 ≤ b) && decide (b ≤ (pa + n - 1) / 32))

/-- A read of `n` bytes at an address returns poisoned data (13 R240, 26 R407 cause 0x18, 30 R474, R484). -/
def State.badData (s : State) (pa n : Nat) : Bool :=
  !s.pkg.backed pa || s.poisoned pa || s.poisoned (pa + n - 1) || s.uncorrectable pa n

/-! ### Writes that reach a level -/

/-- The aligned chunk of eight bytes of an address (14 R249). -/
def chunkOf (pa : Nat) : Nat := pa / 8

/-- Bytes from an address cut at the chunks: chunk, offset and bytes of each piece. -/
def cutChunks (pa : Nat) (bs : List Byte) : List (Nat × Nat × List Byte) :=
  (List.range ((pa % 8 + bs.length + 7) / 8)).map (fun k =>
    let c := pa / 8 + k
    let lo := max pa (8 * c)
    (c, lo - 8 * c, (bs.drop (lo - pa)).take (8 * c + 8 - lo)))

/-- A chunk with the bytes of a write in it. -/
def Write.onto (w : Write) (b : List Byte) : List Byte :=
  (List.range 8).map (fun k => if w.off ≤ k ∧ k < w.off + w.bytes.length then w.bytes.getD (k - w.off) 0 else b.getD k 0)

/-- Who writes: a thread of a team on a core, or an agent that is no thread. -/
def Write.ofThread (core team thread : Nat) : Write := ⟨0, [core], [(team, thread)], none, 0, []⟩
@[inherit_doc Write.ofThread]
def Write.ofAgent : Write := ⟨0, [], [], none, 0, []⟩

/-- A write joins the writes of its chunk (14 R256). -/
def addArrival (h : Table (List Arrival)) (chunk num : Nat) (w : Write) (was : List Byte) : Table (List Arrival) :=
  Table.upd [] h chunk (fun l => l ++ [⟨w, num, was⟩])

/-- A write reaches the home slice of its line (30 R479): shared near copies are invalidated; one homed on a lost die is dropped
(R484). -/
def State.landWrite (s : State) (chunk : Nat) (w : Write) : State :=
  let pa := 8 * chunk
  if s.pkg.backed pa then
    { s with
      mm.cells := (s.mm.setBytes (pa + w.off) w.bytes).cells
      mm.hist := addArrival s.mm.hist chunk s.mm.nextW w (s.mm.bytes pa 8)
      mm.nextW := s.mm.nextW + 1
      mm.near := s.mm.near.filter (fun c => c.excl || c.line != lineOf pa) }
  else s

/-- The blocks of `size` bytes wholly covered by `n` bytes from `pa`. -/
def coveredBlocks (size pa n : Nat) : List Nat :=
  (List.range (n / size + 1)).filterMap (fun k =>
    let c := (pa + size - 1) / size + k
    if size * c + size ≤ pa + n then some c else none)

/-- Bytes reach the home slice (30 R479): a sector written whole is no longer poisoned (R484), nor has a block written whole an
uncorrectable error. -/
def State.writePhys (s : State) (by' : Write) (pa : Nat) (bs : List Byte) : State :=
  let s := (cutChunks pa bs).foldl (fun s p => s.landWrite p.1 { by' with n := s.mm.nextW, off := p.2.1, bytes := p.2.2 }) s
  if s.pkg.backed pa then
    { s with
      mm.poison := s.mm.poison.filter (fun c => !(coveredBlocks 64 pa bs.length).contains c)
      mm.bad := s.mm.bad.filter (fun c => !(coveredBlocks 32 pa bs.length).contains c) }
  else s

/-- Dirty stores reach the home slices, each chunk's in their order. -/
def State.landTable (s : State) (t : Table (List Write)) : State :=
  t.foldl (fun (s : State) (e : Nat × List Write) => e.2.foldl (fun (s : State) w => s.landWrite e.1 w) s) s

/-! ### L1 -/

/-- The L1 of a core. -/
def State.l1 (s : State) (core : Nat) : L1 := Table.read L1.empty s.mm.l1 core

def State.setL1 (s : State) (core : Nat) (l : L1) : State := { s with mm.l1 := Table.put s.mm.l1 core l }

/-- The dirty stores of the chunks that satisfy a test, and the L1 without them. -/
def L1.dirtyIn (l : L1) (p : Nat → Bool) : Table (List Write) := l.dirty.filter (fun (e : Nat × List Write) => p e.1)
@[inherit_doc L1.dirtyIn]
def L1.cleaned (l : L1) (p : Nat → Bool) : L1 := { l with dirty := l.dirty.filter (fun (e : Nat × List Write) => !p e.1) }

/-- The dirty stores of a chunk. -/
def L1.writes (l : L1) (chunk : Nat) : List Write := Table.read [] l.dirty chunk

/-- A chunk of a line, of a sector. -/
def inLine (line chunk : Nat) : Bool := chunk / 32 == line
@[inherit_doc inLine]
def inSector (sector chunk : Nat) : Bool := chunk / 8 == sector

/-- The lines that an L1 holds. -/
def L1.lines (l : L1) : List Nat :=
  (l.sects.map (· / 4) ++ l.excl ++ l.dirty.map (fun (e : Nat × List Write) => e.1 / 32)).foldl (fun acc x => if acc.contains x then acc else acc ++ [x]) []

/-- A write-back in flight for a line arrives and is merged (30 R487). -/
def State.mergeWb (s : State) (line : Nat) : State :=
  (s.mm.wbs.filter (fun w => w.line == line)).foldl (fun s w => s.landTable w.writes)
    { s with mm.wbs := s.mm.wbs.filter (fun w => w.line != line) }

/-- One L1 gives up a line that it holds exclusively: it writes back the line's dirty bytes, or every dirty byte
where a team-scope release of the line is promoted (13 R232, 14 R261), each after what is in flight for its line (30 R487). -/
def State.recallFrom (s : State) (core line : Nat) (l : L1) : State :=
  let p (chunk : Nat) : Bool := l.promo.contains line || inLine line chunk
  let s := (l.dirtyIn p).foldl (fun (s : State) (e : Nat × List Write) => (s.mergeWb (e.1 / 32)).landTable [e]) s
  let l' := { l.cleaned p with excl := l.excl.filter (· != line), promo := l.promo.filter (· != line) }
  { s with mm.l1 := Table.put s.mm.l1 core l',
           mm.near := s.mm.near.filter (fun c => !(c.line == line && c.excl && c.die == dieOf core)) }

/-- The directory recalls a line from every L1 that holds it exclusively but `keep` (13 R232); a write-back of the
line that is in flight is waited for (30 R487). -/
def State.recall (s : State) (keep : Option Nat) (line : Nat) : State :=
  (s.mm.l1.filter (fun (e : Nat × L1) => e.2.excl.contains line && some e.1 != keep)).foldl
    (fun (s : State) (e : Nat × L1) => s.recallFrom e.1 line e.2) (s.mergeWb line)

/-- The dirty stores of some chunks of a core's L1 are written to L2; other L1s give the lines up first. -/
def State.cleanIn (s : State) (core : Nat) (p : Nat → Bool) : State :=
  let l := s.l1 core
  let d := l.dirtyIn p
  if d.isEmpty then s
  else (d.foldl (fun (s : State) (e : Nat × List Write) => (s.recall (some core) (e.1 / 32)).landTable [e]) s).setL1 core (l.cleaned p)

/-- The dirty stores of the chunks of `n` bytes are written to L2, so that a later write of the core at L2 comes after them. -/
def State.cleanAt (s : State) (core pa n : Nat) : State :=
  s.cleanIn core (fun c => decide (chunkOf pa ≤ c) && decide (c ≤ chunkOf (pa + n - 1)))

/-- Bytes written through to the home slice: L1s that hold the line exclusively give it up first, but for the writer's own. -/
def State.writeThrough (s : State) (keep : Option Nat) (by' : Write) (pa : Nat) (bs : List Byte) : State :=
  (s.recall keep (lineOf pa)).writePhys by' pa bs

/-- Every dirty byte of a core's L1 is written to L2, and what the core has evicted has arrived there (13 R231, 14 R260): the
write-back of a release at scope crew or wider. -/
def State.flushL1 (s : State) (core : Nat) : State :=
  let s := (s.mm.wbs.filter (fun w => w.core == core)).foldl (fun s w => s.mergeWb w.line) s
  let s := s.cleanIn core (fun _ => true)
  if (s.l1 core).promo.isEmpty then s else s.setL1 core { s.l1 core with promo := [] }

/-- A sector has dirty bytes, or lies in a line held exclusively. -/
def L1.keeps (l : L1) (sector : Nat) : Bool := l.excl.contains (sector / 4) || l.dirty.any (fun (e : Nat × List Write) => inSector sector e.1)

/-- An acquire at scope crew or wider invalidates every byte that is not dirty in a line not held exclusively (13 R231): what has
reached L2 by now is what the core reads from now on. -/
def State.dropClean (s : State) (core : Nat) : State :=
  let l := s.l1 core
  s.setL1 core { l with sects := l.sects.filter l.keeps, since := s.mm.nextW, floor := [] }

/-- A core evicts a line from its L1 (13 R231): dirty bytes are written back; those of a line that it holds exclusively and that is
homed on another die travel as a write-back (30 R487), but where a release is promoted (14 R261). -/
def State.evict (s : State) (core line : Nat) : State :=
  let l := s.l1 core
  let drop (l : L1) : L1 := { l with sects := l.sects.filter (fun c => c / 4 != line), excl := l.excl.filter (· != line) }
  if l.excl.contains line ∧ s.pkg.home (256 * line) ≠ some (dieOf core) ∧ !l.promo.contains line then
    let s' := s.setL1 core (drop (l.cleaned (inLine line)))
    { s' with mm := { s'.mm with
        nextC := s.mm.nextC + 1
        near := s.mm.near.filter (fun c => !(c.die == dieOf core && c.line == line && c.excl))
        wbs := s.mm.wbs ++ [⟨s.mm.nextC, core, line, l.dirtyIn (inLine line)⟩] } }
  else
    let s := if l.excl.contains line then s.recallFrom core line l else s.cleanIn core (inLine line)
    s.setL1 core (drop (s.l1 core))

/-- The set of an L1 that a line falls in, by physical address bits [15:8] (13 R230). -/
def setOf (line : Nat) : Nat := line % 256

/-- A line is to be held by an L1: where the set has 16 others, one of them, left open, is evicted (13 R230; log entry 51). -/
def State.makeRoom (s : State) (core line : Nat) : State :=
  let others := ((s.l1 core).lines).filter (fun x => setOf x == setOf line && x != line)
  if others.length < 16 then s
  else s.drew.evict core (others.getD (Config.pick s.free % others.length) line)

/-- A sector becomes valid in an L1 (13 R230, R231). -/
def State.allocate (s : State) (core sector : Nat) : State :=
  if (s.l1 core).sects.contains sector then s
  else
    let s := s.makeRoom core (sector / 4)
    s.setL1 core { s.l1 core with sects := sector :: (s.l1 core).sects }

/-! ### Translation -/

/-- The die and the cluster of a TLB. -/
def Tlb.cluster (t : Tlb) : Nat :=
  match t with
  | .instr c | .vector c | .tile c => clusterOf c
  | .copy k | .second k => k
@[inherit_doc Tlb.cluster]
def Tlb.die (t : Tlb) : Nat := t.cluster / 8

/-- The L2 TLB that the agents of a die other than its cores and copy engines use (log entry 53). -/
def Tlb.ofDie (die : Nat) : Tlb := .second (8 * die)

/-- Entries of a TLB (13 R244). -/
def Tlb.size (t : Tlb) : Nat :=
  match t with
  | .instr _ | .tile _ => 64
  | .vector _ => 256
  | .copy _ => 128
  | .second _ => 4096

/-- A TLB that is a streaming FIFO: a use does not renew an entry (13 R244). -/
def Tlb.fifo (t : Tlb) : Bool :=
  match t with
  | .tile _ | .copy _ => true
  | .instr _ | .vector _ | .second _ => false

/-- Eight aligned bytes as an access at scope pkg finds them (13 R243): with what an L1 that holds the line exclusively, or a
write-back in flight, has of them. -/
def State.pkgChunk (s : State) (pa : Nat) : List Byte :=
  let onto (ws : List Write) : List Byte := ws.foldl (fun b w => w.onto b) (s.mm.bytes pa 8)
  match s.mm.l1.find? (fun (e : Nat × L1) => e.2.excl.contains (lineOf pa)) with
  | some e => onto (e.2.writes (chunkOf pa))
  | none => onto ((s.mm.wbs.filter (fun w => w.line == lineOf pa)).flatMap (fun w => Table.read [] w.writes (chunkOf pa)))

/-- One 64-bit table entry as the walker reads it; none where it ends the walk (13 R243). -/
def State.pte (s : State) (pa : Nat) : Option Nat :=
  if s.badData pa 8 then none else some (ofBytes (s.pkgChunk pa))

/-- The frame address of an entry (13 R241). -/
def pteFrame (e : Nat) : Nat := 4096 * bitsAt e 47 12

/-- The 16 entries of a 64 KiB group agree with the first (13 R242). -/
def State.groupOk (s : State) (base : Nat) : Bool :=
  match s.pte base with
  | none => false
  | some e0 =>
    pteFrame e0 % 65536 == 0
    && (List.range 16).all (fun k =>
      match s.pte (base + 8 * k) with
      | none => false
      | some e => bitAt e 0 && bitsAt e 7 1 == bitsAt e0 7 1 && bitAt e 5 && bitsAt e 11 8 == 0 && bitsAt e 63 48 == 0
                  && pteFrame e == pteFrame e0 + 4096 * k)

/-- The walk from a table down the levels named by the low bit of their index (13 R241 to R243): the leaf entry and
the log2 of its page. -/
def State.walkFrom (s : State) (va : Nat) : List Nat → Nat → Option (Nat × Nat)
  | [], _ => none
  | sh :: rest, table =>
    match s.pte (table + 8 * bitsAt va (sh + 8) sh) with
    | none => none
    | some e =>
      if !bitAt e 0 || bitsAt e 11 8 != 0 || bitsAt e 63 48 != 0 || (bitAt e 5 && sh != 12) then none
      else if bitAt e 1 then
        if sh = 39 ∨ bitsAt e 7 6 = 3 then none
        else if bitAt e 5 then
          let base := table + 8 * (bitsAt va 20 12 / 16 * 16)
          if s.groupOk base then (s.pte base).map (fun e0 => (e0, 16)) else none
        else if pteFrame e % 2 ^ sh ≠ 0 then none
        else some (e, sh)
      else State.walkFrom s va rest (pteFrame e)

/-- The lines of the entries that a walk reads. -/
def State.walkLines (s : State) (va : Nat) : List Nat → Nat → List Nat
  | [], _ => []
  | sh :: rest, table =>
    let pa := table + 8 * bitsAt va (sh + 8) sh
    lineOf pa :: (match s.pte pa with
      | none => []
      | some e => if !bitAt e 0 || bitAt e 1 then [] else State.walkLines s va rest (pteFrame e))

/-- The root table of a context on a die. -/
def State.rootOf (s : State) (ctx die : Nat) : Nat := 4096 * bitsAt (s.ctx ctx die).ptBase.toNat 47 12

/-- A walk of the tables of a context on a die as they stand. -/
def State.walk (s : State) (ctx die va : Nat) : Option (Nat × Nat) := s.walkFrom va [39, 30, 21, 12] (s.rootOf ctx die)

/-- The entry that a TLB holds for an address (13 R245). -/
def State.cached (s : State) (t : Tlb) (ctx va : Nat) : Option (Nat × Nat) :=
  (s.mm.tlb.find? (fun e => e.tlb == t && e.ctx == ctx && e.va == va / 2 ^ e.bits)).map (fun e => (e.pte.toNat, e.bits))

/-- The one of two translations that a free bit chooses; where they agree there is nothing to choose. -/
def eitherOf (b : Bool) (x y : Option (Nat × Nat)) : Option (Nat × Nat) := if x = y then y else if b then x else y

/-- The translation that an access through a TLB uses: an entry that the TLB, or the L2 TLB behind it, still holds, or the tables'
(13 R244, R245); which of them, where they differ, is left open. -/
def State.translate (s : State) (t : Tlb) (ctx va : Nat) : Option (Nat × Nat) :=
  let w := s.walk ctx t.die va
  let b := (Config.freeBits 2 s.free).toNat
  let far := match s.cached (.second t.cluster) ctx va with
    | some c => eitherOf (bitAt b 1) (some c) w
    | none => w
  match s.cached t ctx va with
  | some c => eitherOf (bitAt b 0) (some c) far
  | none => far

/-- A TLB takes an entry in: the newest first, and no more than it has room for (13 R244). -/
def tlbPut (l : List TlbEntry) (e : TlbEntry) : List TlbEntry :=
  if e.tlb.fifo && l.contains e then l
  else
    let mine := l.filter (fun x => x.tlb == e.tlb && !(x.ctx == e.ctx && x.va * 2 ^ x.bits / 2 ^ e.bits == e.va))
    (e :: mine).take e.tlb.size ++ l.filter (fun x => x.tlb != e.tlb)

/-- What a translation leaves behind (13 R243, R244): the walker has read its entries at scope pkg, and the TLB and the L2 TLB
behind it hold the translation used. -/
def State.noteTlb (s : State) (t : Tlb) (ctx va : Nat) : State :=
  let r := s.translate t ctx va
  let s := ((s.walkLines va [39, 30, 21, 12] (s.rootOf ctx t.die)).filter (fun x =>
    s.mm.l1.any (fun (e : Nat × L1) => e.2.excl.contains x) || s.mm.wbs.any (fun w => w.line == x))).foldl (fun s x => s.recall none x) s
  match r with
  | none => s
  | some (e, bits) =>
    let entry (t : Tlb) : TlbEntry := ⟨t, ctx, va / 2 ^ bits, bits, BitVec.ofNat 64 e⟩
    { s with mm.tlb := tlbPut (tlbPut s.mm.tlb (entry (.second t.cluster))) (entry t) }

/-- The pending invalidation log of a die for a context is applied (30 R490). -/
def State.applyInv (s : State) (ctx die : Nat) : State :=
  let log := Table.read [] s.mm.invlogs die
  let mine := log.filter (fun e => e.ctx == ctx)
  if mine.isEmpty then s else
  let hit (t : TlbEntry) : Bool := t.tlb.die == die && t.ctx == ctx && mine.any (fun e =>
    e.pages == 0 || (decide (t.va * 2 ^ t.bits < e.va + 4096 * e.pages) && decide (e.va < (t.va + 1) * 2 ^ t.bits)))
  { s with mm.tlb := s.mm.tlb.filter (fun t => !hit t),
           mm.invlogs := Table.put s.mm.invlogs die (log.filter (fun e => e.ctx != ctx)) }

/-- How an access acts on its page; `red` is a reduction, which reads and writes but returns no data. -/
inductive Acc where
  | read | write | rmw | red | fetch
deriving DecidableEq, Repr

/-- Where a SPACE 0 access goes: physical memory of an MTYPE, or a byte of an argument block (09 R180). -/
inductive Loc where
  | phys (pa mtype : Nat)
  | arg (grid off : Nat)
deriving DecidableEq, Repr

/-- The bytes that are set aside for an argument block, whatever its size (09 R180; log entry 7). -/
def argRoom : Nat := 4096

/-- A place for a grid's argument block, apart from those of the other grids of its context: free (log entry 7). -/
def State.argPlace (s : State) (ctx : Nat) : Nat :=
  let used := (s.fe.grids.filter (fun g => g.ctx == ctx)).map Grid.argAt
  let unit := (Config.argUnit s.free).toNat
  let spots := (List.range (2 * used.length + 1)).map (fun k => 16 * ((unit + 256 * k) % (2 ^ 44 - 256)))
  (spots.find? (fun a => used.all (fun b => decide (a + argRoom ≤ b) || decide (b + argRoom ≤ a)))).getD (spots.headD 0)

/-- The argument block of the context that holds an address (01 R23, 09 R180). -/
def State.argHit (s : State) (ctx va : Nat) : Option (Nat × Nat) :=
  (s.fe.grids.find? (fun g => g.ctx == ctx && decide (g.argAt ≤ va) && decide (va < g.argAt + argRoom))).map
    (fun g => (g.id, va - g.argAt))

/-- The size of a grid's argument block. -/
def State.argSize (s : State) (grid : Nat) : Nat := ((s.grid? grid).map (fun g => g.args.length)).getD 0

/-- Checks an access of `n` bytes through a TLB in the order of 07 R152 and finds its place; `align` is the alignment it needs. The
error is the cause code of 26 R407. -/
def State.resolve (s : State) (ctx : Nat) (t : Tlb) (va n align : Nat) (k : Acc) : Except (BitVec 16) Loc :=
  if 2 ^ 48 ≤ va then .error 0x10
  else if va % align ≠ 0 then .error 0x11
  else match s.argHit ctx va with
  | some (g, off) =>
    if s.argSize g < off + n then .error (if k = .fetch then 0x04 else 0x12)
    else if k ≠ .read then .error (if k = .fetch then 0x05 else 0x13)
    else .ok (.arg g off)
  | none =>
    match s.translate t ctx va with
    | none => .error (if k = .fetch then 0x04 else 0x12)
    | some (e, bits) =>
      let rd := bitAt e 2
      let wr := bitAt e 3
      let ex := bitAt e 4
      let pa := pteFrame e + va % 2 ^ bits
      match k with
      | .read => if rd then .ok (.phys pa (bitsAt e 7 6)) else .error 0x13
      | .write => if wr then .ok (.phys pa (bitsAt e 7 6)) else .error 0x13
      | .rmw | .red => if rd && wr then .ok (.phys pa (bitsAt e 7 6)) else .error 0x13
      | .fetch => if ex then .ok (.phys pa (bitsAt e 7 6)) else .error 0x05

/-- Bytes of an argument block. -/
def State.argBytes (s : State) (grid off n : Nat) : List Byte :=
  let args := ((s.grid? grid).map Grid.args).getD []
  (List.range n).map (fun k => (args[off + k]?).getD 0)

/-! ### What a reader finds -/

/-- Who reads, for the rules of 14 R253 to R257: a thread on a core, with the write numbers of its last acquire and of the core's. -/
structure Reader where
  core   : Nat
  thread : Nat × Nat
  since  : Nat
  wide   : Nat

/-- A thread as a reader. -/
def State.reader (s : State) (core team thread : Nat) : Reader :=
  ⟨core, (team, thread), ((s.thread? team thread).map Thread.since).getD 0, (s.l1 core).since⟩

/-- A dirty store of the reader's own L1 that it must find: its own, or one that it has been ordered after. -/
def Reader.mustOwn (r : Reader) (w : Write) : Bool := w.threads.contains r.thread || decide (w.n < r.since)

/-- A write at L2 that the reader must find: its own, one of its core's that it has been ordered after, or one that had reached L2
at the last acquire of both the reader and its core. -/
def Reader.must (r : Reader) (a : Arrival) : Bool :=
  a.write.threads.contains r.thread || (a.write.cores.contains r.core && decide (a.write.n < r.since))
  || (decide (a.num < r.since) && decide (a.num < r.wide))

/-- A write in a scratchpad that the reader must find (14 R248). -/
def Reader.mustSpad (r : Reader) (a : Arrival) : Bool := a.write.threads.contains r.thread || decide (a.num < r.since)

/-- A chunk as a reader finds it that must find some writes and may find or miss each of the others (14 R257); a write is found
whole (R249). The bits of `free` decide. -/
def foundIn (free : Nat) : List (Write × Bool) → List Byte → List Byte
  | [], b => b
  | (w, must) :: ws, b => foundIn (free / 2) ws (if must || free % 2 == 1 then w.onto b else b)

/-- The chunk before any of its recorded writes. -/
def baseOf (as : List Arrival) (now : List Byte) : List Byte :=
  match as with
  | [] => now
  | a :: _ => a.was

/-- A chunk of global memory as a plain load of a thread may find it (14 R255, R257, R259). -/
def State.viewChunk (s : State) (r : Reader) (chunk : Nat) : List Byte :=
  let as := Table.read [] s.mm.hist chunk
  let ws := as.map (fun a => (a.write, r.must a)) ++ ((s.l1 r.core).writes chunk).map (fun w => (w, r.mustOwn w))
  foundIn (Config.freeBits ws.length s.free).toNat ws (baseOf as (s.mm.bytes (8 * chunk) 8))

/-- A chunk of a scratchpad as a plain load of a thread may find it (14 R248, R257). -/
def Team.viewSpad (t : Team) (free : Nat) (r : Reader) (chunk : Nat) : List Byte :=
  let as := Table.read [] t.spadLog chunk
  let ws := as.map (fun a => (a.write, r.mustSpad a))
  foundIn (Config.freeBits ws.length free).toNat ws
    (baseOf as ((List.range 8).map (fun k => Table.read 0 t.spad (8 * chunk + k))))

/-- A chunk as a core finds it at L2 with its own dirty bytes (14 R259). -/
def State.coreChunk (s : State) (core chunk : Nat) : List Byte :=
  ((s.l1 core).writes chunk).foldl (fun b w => w.onto b) (s.mm.bytes (8 * chunk) 8)

/-- `n` bytes within one chunk. -/
def ofChunk (pa n : Nat) (b : List Byte) : List Byte := (b.drop (pa % 8)).take n

/-- `n` bytes at L2 as a core finds them with its own dirty bytes. -/
def State.coreBytes (s : State) (core pa n : Nat) : List Byte := ofChunk pa n (s.coreChunk core (chunkOf pa))

/-- How far an atomic load at scope team finds the writes of other cores (14 R256, R259): at least those that the core has acquired
or found before, and then as many as is left open. -/
def State.teamCut (s : State) (core chunk : Nat) : Nat :=
  let l := s.l1 core
  let lo := max l.since (Table.read 0 l.floor chunk)
  let more := (Table.read [] s.mm.hist chunk).filter (fun a => decide (lo ≤ a.num))
  match (more.take (Config.pick s.free % (more.length + 1))).getLast? with
  | some a => a.num + 1
  | none => lo

/-- A chunk as an atomic load at scope team finds it in its core's L1 (14 R256, R259). -/
def State.teamChunk (s : State) (core chunk : Nat) : List Byte :=
  let cut := s.teamCut core chunk
  let as := Table.read [] s.mm.hist chunk
  let ws := (as.filter (fun a => decide (a.num < cut) || a.write.cores.contains core)).map Arrival.write ++ (s.l1 core).writes chunk
  ws.foldl (fun b w => w.onto b) (baseOf as (s.mm.bytes (8 * chunk) 8))

/-! ### Accesses of a core -/

/-- The die that keeps a near copy of a remote line under a HOME hint (30 R476, R479, R480). -/
def State.nearDie (s : State) (core pa home : Nat) : Option Nat :=
  let d := dieOf core
  let h := s.pkg.home pa
  if h = some d then none
  else if home = 0 ∨ home = d + 1 ∨ !s.pkg.domLive (home - 1) then some d
  else if h = some (home - 1) then none
  else some (home - 1)

/-- A remote line leaves a shared near copy, where the die has none (30 R479, R480). -/
def State.noteNear (s : State) (core pa home : Nat) : State :=
  match s.nearDie core pa home with
  | none => s
  | some d =>
    if s.mm.near.any (fun c => c.die == d && c.line == lineOf pa) then s
    else { s with mm.near := ⟨d, lineOf pa, false⟩ :: s.mm.near }

/-- A policy that allocates in L1, and one that allocates in L2 (13 R233). -/
def keepsL1 (policy : Nat) : Bool := policy != 3 && policy != 5
@[inherit_doc keepsL1]
def keepsL2 (policy : Nat) : Bool := policy != 5

/-- The sector of an access is on its way to a core, or there (13 R229, R230): a miss brings it from L2, where another L1 that holds
the line exclusively gives it up. -/
def State.touch (s : State) (core pa id policy home : Nat) : State :=
  let c := sectorOf pa
  if (s.l1 core).sects.contains c then s
  else
    let s := s.recall (some core) (lineOf pa)
    let s := if keepsL2 policy then s.noteNear core pa home else s
    if s.mm.fills.any (fun f => f.core == core && f.sector == c) then
      { s with mm.fills := s.mm.fills.map (fun (f : Fill) =>
          if f.core = core ∧ f.sector = c then { f with ids := id :: f.ids, keep := f.keep || keepsL1 policy } else f) }
    else { s with mm.fills := s.mm.fills ++ [⟨core, c, [id], keepsL1 policy⟩] }

/-- The fills of a core that satisfy a test have arrived (13 R229): L1 takes in those that it keeps. -/
def State.fillWhere (s : State) (core : Nat) (p : Fill → Bool) : State :=
  let mine (f : Fill) : Bool := f.core == core && p f
  (s.mm.fills.filter (fun f => mine f && f.keep)).foldl (fun (s : State) f => s.allocate core f.sector)
    { s with mm.fills := s.mm.fills.filter (fun f => !mine f) }

/-- What a plain load of up to eight bytes finds now. -/
def State.plainBytes (s : State) (core team thread pa n : Nat) : List Byte :=
  ofChunk pa n (s.viewChunk (s.reader core team thread) (chunkOf pa))

/-- What a plain load of any size finds now; a `b128` one is two of 8 bytes (14 R249). -/
def State.plainRun (s : State) (core team thread pa n : Nat) : List Byte :=
  if n = 16 then s.plainBytes core team thread pa 8 ++ s.drew.plainBytes core team thread (pa + 8) 8
  else s.plainBytes core team thread pa n

/-- What an access is, beyond its address: the thread, the scope, the CACHE policy, the HOME hint, and its number among the loads
in flight. -/
structure How where
  core   : Nat
  team   : Nat
  thread : Nat
  scope  : Nat
  policy : Nat
  home   : Nat
  id     : Nat

/-- A load of up to eight bytes of one chunk at a physical address (13 R231 to R233; 14 R257, R259). -/
def State.loadPhys (s : State) (h : How) (pa n mtype : Nat) : List Byte × State :=
  if mtype ≠ 0 then
    let s := (s.cleanAt h.core pa n).recall none (lineOf pa)
    (s.mm.bytes pa n, s.drew)
  else
    let s := s.touch h.core pa h.id h.policy h.home
    if 2 ≤ h.scope ∨ h.policy = 3 then
      let s := s.recall (some h.core) (lineOf pa)
      (s.coreBytes h.core pa n, s.drew)
    else if h.scope = 1 then
      let l := s.l1 h.core
      let c := chunkOf pa
      (ofChunk pa n (s.teamChunk h.core c),
        (s.setL1 h.core { l with floor := Table.put l.floor c (s.teamCut h.core c) }).drew)
    else (s.plainBytes h.core h.team h.thread pa n, s.drew)

/-- Dirty bytes join a core's L1. -/
def State.addDirty (s : State) (core : Nat) (by' : Write) (pa : Nat) (bs : List Byte) : State :=
  (cutChunks pa bs).foldl (fun s p =>
    let l := s.l1 core
    { s.setL1 core { l with dirty := Table.upd [] l.dirty p.1 (fun ws =>
        ws ++ [{ by' with n := s.mm.nextW, off := p.2.1, bytes := p.2.2 }]) } with mm.nextW := s.mm.nextW + 1 }) s

/-- A store at a physical address by a thread (13 R231, R233; 14 R259; 30 R479). -/
def State.storePhys (s : State) (h : How) (pa mtype : Nat) (bs : List Byte) : State :=
  let me := Write.ofThread h.core h.team h.thread
  let c := sectorOf pa
  if mtype ≠ 0 then (s.cleanAt h.core pa bs.length).writeThrough none me pa bs
  else if 2 ≤ h.scope ∨ h.policy = 3 ∨ h.policy = 4 ∨ h.policy = 5 then
    let s := (s.cleanAt h.core pa bs.length).writeThrough (some h.core) me pa bs
    if keepsL1 h.policy then s.allocate h.core c
    else if h.policy = 3 ∧ !(s.l1 h.core).keeps c then
      s.setL1 h.core { s.l1 h.core with sects := (s.l1 h.core).sects.filter (· != c) }
    else s
  else (s.allocate h.core c).addDirty h.core me pa bs

/-- A core obtains a line exclusively (13 R232, 30 R479): every other copy of it is given up. -/
def State.own (s : State) (core line : Nat) : State :=
  let s := s.recall (some core) line
  if (s.l1 core).excl.contains line then s
  else
    let s := s.makeRoom core line
    let s := { s with mm.near := s.mm.near.filter (fun c => c.line != line) }
    let s := if s.pkg.home (256 * line) = some (dieOf core) then s
      else { s with mm.near := ⟨dieOf core, line, true⟩ :: s.mm.near }
    s.setL1 core { s.l1 core with excl := line :: (s.l1 core).excl }

/-- An atomic read-modify-write of `n` bytes of one chunk by a thread: the line is obtained exclusively and the operation executes
in L1, or at the home slice on an uncached page (13 R232, 15 R276). Returns the old bytes; `new` gives the new ones, none for an
operation that does not write. `promote` names a team-scope release (14 R261); on an uncached page, which no L1 can hold, it writes
the core's dirty bytes back at once (R262; log entry 56). -/
def State.rmwPhys (s : State) (h : How) (pa n mtype : Nat) (promote : Bool) (new : List Byte → Option (List Byte)) :
    List Byte × State :=
  let me := Write.ofThread h.core h.team h.thread
  let line := lineOf pa
  if mtype ≠ 0 then
    let s := (s.cleanAt h.core pa n).recall none line
    let old := s.mm.bytes pa n
    (old, match new old with
      | some bs => (if promote then s.flushL1 h.core else s).writePhys me pa bs
      | none => s)
  else
    let s := ((s.own h.core line).touch h.core pa h.id 0 0)
    let old := s.coreBytes h.core pa n
    (old, match new old with
      | some bs =>
        let s := s.addDirty h.core me pa bs
        let l := s.l1 h.core
        if promote && !l.promo.contains line then s.setL1 h.core { l with promo := line :: l.promo } else s
      | none => s)

/-- A chunk as a read through the core's read-only cache may find it (13 R239): with every write that had reached L2 at the
thread's baseline, and any of the later ones. -/
def State.roChunk (s : State) (since chunk : Nat) : List Byte :=
  let as := Table.read [] s.mm.hist chunk
  let ws := as.map (fun a => (a.write, decide (a.num < since)))
  foundIn (Config.freeBits ws.length s.free).toNat ws (baseOf as (s.mm.bytes (8 * chunk) 8))

/-- A read of up to eight bytes of one chunk through the read-only cache of a core (13 R239); the cache takes the line in, and
holds 1,024 of them. An uncached page is read at L2. -/
def State.ldcPhys (s : State) (h : How) (pa n mtype : Nat) : List Byte × State :=
  let s := if mtype ≠ 0 then (s.cleanAt h.core pa n).recall none (lineOf pa) else s.recall none (lineOf pa)
  if mtype ≠ 0 then (s.mm.bytes pa n, s.drew)
  else
    let since := ((s.thread? h.team h.thread).map Thread.roSince).getD 0
    let c := sectorOf pa
    let s' := if keepsL2 h.policy then s.noteNear h.core pa h.home else s
    (ofChunk pa n (s.roChunk since (chunkOf pa)),
      { s' with
        mm.ro := Table.upd [] s'.mm.ro h.core (fun l => if l.contains c then l else (c :: l).take 1024)
        free := s'.free + 1 })

/-- The core's read-only cache is emptied (15 R272). -/
def State.ldcEmpty (s : State) (core : Nat) : State := { s with mm.ro := Table.del s.mm.ro core }

/-! ### Instruction fetch -/

/-- What a fetch may find in a byte whose kernel began at write number `since` (07 R148): its value then, and every value stored to
it since. -/
def State.fetchable (s : State) (since pa : Nat) : List Byte :=
  let c := chunkOf pa
  let k := pa % 8
  let as := Table.read [] s.mm.hist c
  let old := (as.filter (fun a => decide (a.num < since))).foldl (fun b a => a.write.onto b) (baseOf as (s.mm.bytes (8 * c) 8))
  let ws := (as.filter (fun a => decide (since ≤ a.num))).map Arrival.write
    ++ (s.mm.l1.flatMap (fun (e : Nat × L1) => e.2.writes c)).filter (fun w => decide (since ≤ w.n))
  old.getD k 0 :: (ws.filter (fun w => decide (w.off ≤ k) && decide (k < w.off + w.bytes.length))).map (fun w => w.bytes.getD (k - w.off) 0)

/-- The byte that a fetch finds. -/
def State.fetchByte (s : State) (since pa k : Nat) : Byte :=
  match s.fetchable since (pa + k) with
  | [] => 0
  | [v] => v
  | vs => vs.getD (Config.pick (s.free + k) % vs.length) 0

/-! ### Accesses at the home slice: engines, front ends, the host and firmware -/

/-- A read of `n` bytes at the home slice (17 R300): no L1 copy is returned, but a line held exclusively is recalled. -/
def State.readHome (s : State) (pa n : Nat) : List Byte × State :=
  let s := (List.range (n / 256 + 2)).foldl (fun s k => if lineOf pa + k ≤ lineOf (pa + n - 1) then s.recall none (lineOf pa + k) else s) s
  (s.mm.bytes pa n, s)

/-- A write of bytes at the home slice by an agent that is no thread (17 R300). -/
def State.writeHome (s : State) (pa : Nat) (bs : List Byte) : State := s.writeThrough none Write.ofAgent pa bs

/-- A virtual read of `n` bytes at scope sys through a TLB; the error is the cause code. -/
def State.readBy (s : State) (ctx : Nat) (t : Tlb) (va n align : Nat) : Except (BitVec 16) (List Byte × State) :=
  match s.resolve ctx t va n align .read with
  | .error c => .error c
  | .ok (.arg g off) => .ok (s.argBytes g off n, s)
  | .ok (.phys pa _) => if s.badData pa n then .error 0x18 else .ok ((s.noteTlb t ctx va).drew.readHome pa n)

/-- A virtual read of `n` bytes at scope sys by firmware, an expert unit or the front end (log entry 53). -/
def State.readVirt (s : State) (ctx die va n align : Nat) : Except (BitVec 16) (List Byte × State) :=
  s.readBy ctx (.ofDie die) va n align

/-- A virtual write at scope sys by firmware, an expert unit or the front end. -/
def State.writeVirt (s : State) (ctx die va align : Nat) (bs : List Byte) : Except (BitVec 16) State :=
  match s.resolve ctx (.ofDie die) va bs.length align .write with
  | .error c => .error c
  | .ok (.arg _ _) => .error 0x13
  | .ok (.phys pa _) =>
    if !s.pkg.backed pa then .error 0x18
    else .ok ((s.noteTlb (.ofDie die) ctx va).drew.writeHome pa bs)

/-- A record of the machine is written at a virtual address, unless what is there is poisoned (27 R431, 28 R453). -/
def State.writeFresh (s : State) (ctx die va : Nat) (bs : List Byte) : Except (BitVec 16) State :=
  match s.resolve ctx (.ofDie die) va bs.length bs.length .write with
  | .ok (.phys pa _) => if s.badData pa bs.length then .error 0x18 else s.writeVirt ctx die va bs.length bs
  | .ok (.arg ..) | .error _ => .error 0x12

/-- A run of bytes read piece by piece, each piece within one 64-byte sector; used where a run may cross pages. -/
def State.readRun (s : State) (ctx die : Nat) : Nat → Nat → Except (BitVec 16 × Nat) (List Byte × State)
  | _, 0 => .ok ([], s)
  | va, n + 1 =>
    match s.readVirt ctx die va 1 1 with
    | .error c => .error (c, va)
    | .ok (b, s) =>
      match State.readRun s ctx die (va + 1) n with
      | .error c => .error c
      | .ok (bs, s) => .ok (b ++ bs, s)

/-- The weight store of a die (13 R236). -/
def State.wsByte (s : State) (die off : Nat) : Byte := Table.read 0 (Table.read [] s.mm.wstore die) off

/-- A 32-bit word that `n` bytes of a weight store touch has an uncorrectable error (13 R236). -/
def State.wsPoisoned (s : State) (die off n : Nat) : Bool :=
  s.mm.wsBad.any (fun w => w.1 == die && decide (off / 4 ≤ w.2) && decide (w.2 ≤ (off + n - 1) / 4))

/-- Bytes are written into a weight store; a word written whole has no uncorrectable error any more. -/
def State.wsWrite (s : State) (die off : Nat) (bs : List Byte) : State :=
  { s with
    mm.wstore := Table.upd [] s.mm.wstore die (fun t => (bs.zipIdx).foldl (fun t p => Table.write 0 t (off + p.2) p.1) t)
    mm.wsBad := s.mm.wsBad.filter (fun w => !(w.1 == die && (coveredBlocks 4 off bs.length).contains w.2)) }

/-! ### Acquires -/

/-- What an acquire of threads at a scope does (14 R253, R260; 30 R490): from now on they find every write that they happen after. -/
def State.acquire (s : State) (ctx core team : Nat) (ids : List Nat) (scope : Nat) : State :=
  let s := if 2 ≤ scope then s.dropClean core else s
  let s := if 4 ≤ scope then s.applyInv ctx (dieOf core) else s
  s.updTeam team (fun t => t.updThreads ids (fun th => { th with since := s.mm.nextW }))

end Sys2Proof.Machine
end

