-- ==== Sys2Proof/Machine/Records.lean ====
section
/-! DEFINITION. What the machine writes about itself: trace records (27 R430 to R434), error records (09 R183), fault
records (26 R414, 28 R453), link-log entries (30 R488) and interrupts (31 R491). -/

namespace Sys2Proof.Machine

/-! ### Interrupts -/

/-- MSI-X vector `v` is raised (31 R491). -/
def State.raiseMsi (s : State) (v : BitVec 11) : State := { s with pkg.msis := s.pkg.msis ++ [v] }

/-! ### Trace records -/

/-- A record type and its class bit in TRACE_CTL (27 R434). -/
structure RecKind where
  type : Nat
  cls  : Nat

def rPktBegin : RecKind := ⟨0x01, 4⟩
def rPktEnd : RecKind := ⟨0x02, 4⟩
def rCmdAccept : RecKind := ⟨0x03, 5⟩
def rCmdBegin : RecKind := ⟨0x04, 5⟩
def rCmdEnd : RecKind := ⟨0x05, 5⟩
def rCmdHold : RecKind := ⟨0x06, 5⟩
def rRuleHit : RecKind := ⟨0x07, 6⟩
def rFire : RecKind := ⟨0x08, 7⟩
def rTrap : RecKind := ⟨0x09, 8⟩
def rTret : RecKind := ⟨0x0A, 8⟩
def rStop : RecKind := ⟨0x0B, 9⟩
def rResume : RecKind := ⟨0x0C, 9⟩
def rMark : RecKind := ⟨0x0D, 10⟩
def rSample : RecKind := ⟨0x0E, 11⟩
def rStall : RecKind := ⟨0x0F, 11⟩
def rSwitch : RecKind := ⟨0x10, 12⟩
def rEpoch : RecKind := ⟨0x11, 12⟩
def rWatch : RecKind := ⟨0x12, 9⟩

/-- Records of a class are written for a context on a die (27 R430, R431). -/
def State.traces (s : State) (ctx die : Nat) (k : RecKind) : Bool :=
  let r := s.ctx ctx die
  let lg := bitsAt r.traceRing.toNat 5 0
  bitAt r.traceCtl.toNat 0 && bitAt r.traceCtl.toNat k.cls && decide (7 ≤ lg) && decide (lg ≤ 26)

/-- The threads of a warp. -/
def State.warpThreads (s : State) (team : Option (Nat × Nat)) : List Nat :=
  match team with
  | none => []
  | some (t, w) => (((s.team? t).bind (fun m => m.warp? w)).map (fun w => w.lanes.filterMap id)).getD []

/-- A trace record joins those that wait to be written (27 R431, R432): `core` is the core of the event, `payload` the
64-bit words from offset 0x10, `wide` a record of two slots, `team` the warp that made it. -/
def State.emit (s : State) (ctx core : Nat) (k : RecKind) (arg : Nat) (payload : List Nat) (wide : Bool)
    (team : Option (Nat × Nat)) : State :=
  let die := dieOf core
  if !s.traces ctx die k then s
  else
    let word0 := k.type + (if wide then 1 else 0) * 2 ^ 8 + (coreNo core / 4) * 2 ^ 12 + (core % 4) * 2 ^ 15 + die * 2 ^ 17
      + (ctx % 256) * 2 ^ 24 + (arg % 2 ^ 32) * 2 ^ 32
    let bits := word0 + (s.nowAt die).toNat * 2 ^ 64 + (payload.zipIdx).foldl (fun n p => n + (p.1 % 2 ^ 64) * 2 ^ (128 + 64 * p.2)) 0
    s.updCtx ctx die (fun r => { r with recs := r.recs ++ [⟨BitVec.ofNat 512 bits, wide, team, s.warpThreads team⟩] })

/-- The identity payload of a packet or command record (27 R433). -/
def identity (seq qkind eng qinst member : Nat) : List Nat :=
  [seq, qkind + eng * 2 ^ 4 + qinst * 2 ^ 8 + member * 2 ^ 24]

/-! ### Error records of a command queue -/

/-- A packet is a bundle, whose errors halt its queue once it has completed (17 R311). -/
def State.isBundle (s : State) (pid : Nat) : Bool := s.fe.pkts.any (fun p => p.id == pid && bitsAt p.bits.toNat 7 0 == 2)

/-- One error record, about a packet or about none, and the queue halts (09 R182, R183), after a bundle's completion (17 R311); a
queue of a lost domain has none (30 R484). Q_ERRBASE is a physical address (log entry 11). -/
def State.errorRecord (s : State) (q : Nat) (seq : BitVec 64) (pid : Option Nat) (code member tag sub lane : Nat) (detail : Nat) :
    State :=
  let r := s.queue q
  let base := bitsAt r.errbase.toNat 47 12 * 4096 + 32 * (r.erridx.toNat % 128)
  let bits := seq.toNat + code * 2 ^ 64 + member * 2 ^ 72 + tag * 2 ^ 80 + (q % 256) * 2 ^ 96 + sub * 2 ^ 104
    + lane * 2 ^ 112 + (detail % 2 ^ 64) * 2 ^ 128 + (s.nowAt (q / 32)).toNat * 2 ^ 192
  if !s.pkg.domLive (q / 32) then s
  else ((s.writeHome base (bytesOf 32 bits)).updQueue q
    (fun r => { r with halted := r.halted || !pid.any s.isBundle, err := BitVec.ofNat 8 code, erridx := r.erridx + 1 })).updPkts
    (fun p => if some p.id = pid ∧ p.err = 0 then { p with err := BitVec.ofNat 8 code } else p)

/-! ### What a work item's error record names (09 R183) -/

/-- TAG of a packet. -/
def State.pktTag (s : State) (pid : Nat) : Nat :=
  ((s.fe.pkts.find? (fun p => p.id == pid)).map (fun p => bitsAt p.bits.toNat 31 16)).getD 0

/-- The batch of a firing (20 R365). -/
def State.batch? (s : State) (xq fire : Nat) : Option Batch :=
  (Table.read XQueue.reset s.eng.xqs xq).batches.find? (fun b => b.fire == fire)

/-- An error record about a member of a packet, or of a batch, which names no packet: it holds the current Q_SEQ and the
member's own TAG. -/
def State.itemError (s : State) (q : Nat) (seq : BitVec 64) (pid member : Nat) (batch : Option (Nat × Nat))
    (code sub lane detail : Nat) : State :=
  match batch with
  | none => s.errorRecord q seq (some pid) code member (s.pktTag pid) sub lane detail
  | some (xq, fire) =>
    let tag := (((s.batch? xq fire).map Batch.tags).bind (fun ts => ts[member]?)).getD 0
    s.errorRecord q (s.queue q).seq none code member tag sub lane detail

/-! ### Fault records -/

/-- The log2 of a fault ring's records; none where the ring is disabled (28 R452). -/
def CtxReg.ringLog (r : CtxReg) : Option Nat :=
  let lg := bitsAt r.faultRing.toNat 3 0
  if 4 ≤ lg then some lg else none

/-- The ring holds as many records as it can (28 R453). -/
def CtxReg.ringFull (r : CtxReg) (lg : Nat) : Bool := decide (2 ^ lg ≤ (r.faultWidx - r.faultRidx).toNat)

/-- A page fault is offered to system software (26 R414, 28 R453): the record is written, or the source must wait for
room, or the fault is declined at once. `source`, `access` and `entry` are the record's fields. -/
def State.offerFault (s : State) (ctx core : Nat) (va : Nat) (source access entry : Nat) (rule : Nat) (rewritten : Bool) :
    Offer × State :=
  let die := dieOf core
  let r := s.ctx ctx die
  match r.ringLog with
  | none => (.declined, s)
  | some lg =>
    if r.ringFull lg then (.wanted, s)
    else
      let addr := 4096 * bitsAt r.faultRing.toNat 47 12 + 32 * (r.faultWidx.toNat % 2 ^ lg)
      let bits := va % 2 ^ 64 + source * 2 ^ 64 + access * 2 ^ 72 + (coreNo core + (ctx % 256) * 256) * 2 ^ 80
        + (entry % 2 ^ 32) * 2 ^ 96 + (rule + (if rewritten then 256 else 0)) * 2 ^ 128 + (s.nowAt die).toNat * 2 ^ 192
      match s.writeFresh ctx die addr (bytesOf 32 bits) with
      | .error _ => (.declined, s)
      | .ok s =>
        let idx := r.faultWidx
        let s := s.updCtx ctx die (fun r =>
          { r with faultWidx := r.faultWidx + 1, faults := r.faults ++ [⟨idx, va / 4096⟩] })
        let s := if bitAt r.faultRing.toNat 59 then s.raiseMsi (BitVec.ofNat 11 (bitsAt r.faultRing.toNat 58 48)) else s
        (.sent idx, s)

/-! ### The link log -/

/-- One entry of the link log (30 R488): `kind` 1 to 5 with bytes 8, 10 and 11. -/
def State.linkLog (s : State) (b8 kind b10 b11 : Nat) : State :=
  let base := s.pkg.dctl.logBase.toNat
  if base = 0 then s
  else
    let addr := base + 16 * (s.pkg.dctl.logIdx.toNat % 256)
    let bits := (s.nowAt s.pkg.master).toNat + b8 * 2 ^ 64 + kind * 2 ^ 72 + b10 * 2 ^ 80 + b11 * 2 ^ 88
    let s := s.writeHome addr (bytesOf 16 bits)
    { s with pkg.dctl := { s.pkg.dctl with logIdx := s.pkg.dctl.logIdx + 1 } }

end Sys2Proof.Machine
end

