-- ==== Sys2Proof/Machine/Operands.lean ====
section
/-! DEFINITION. Reading operands and writing results: visibility of pending results (03 R64 to R66), the source and
destination codes of 03 R57 to R59, literals (05 R92), guards and the active set (03 R55), uniform instructions
(03 R56). -/

namespace Sys2Proof.Machine

/-! ### A thread's registers -/

/-- A pending result is visible: its group has ended and its distance is covered, or it has returned (03 R64, R66). -/
def Pend.seen (p : Pend) : Bool := !p.fresh && p.src == .fixed 0

/-- A register or predicate as a reader sees it: the latest visible result in program order (03 R65). -/
def Thread.read (t : Thread) (tgt : Target) (base : Word) : Word :=
  t.pend.foldl (fun v p => if p.tgt == tgt && p.seen then p.val else v) base

/-- A register or predicate once everything pending has been written. -/
def Thread.last (t : Thread) (tgt : Target) (base : Word) : Word :=
  t.pend.foldl (fun v p => if p.tgt == tgt then p.val else v) base

/-- The stored general register and predicate, without what is pending. -/
def Thread.base (t : Thread) (tgt : Target) : Word :=
  match tgt with
  | .reg n => Table.read 0 t.regs n
  | .pred n => if bitAt t.preds.toNat n then 1 else 0

/-- A general register (01 R7). -/
def Thread.reg (t : Thread) (n : Nat) : Word := t.read (.reg n) (t.base (.reg n))

/-- A predicate; p7 is true (01 R10). -/
def Thread.pred (t : Thread) (n : Nat) : Bool := n == 7 || t.read (.pred n) (t.base (.pred n)) != 0

/-- A register or predicate after every result pending has been written: what an instruction has made of it. -/
def Thread.final (t : Thread) (tgt : Target) : Word := t.last tgt (t.base tgt)

/-- Writes a stored register or predicate. -/
def Thread.store (t : Thread) (tgt : Target) (v : Word) : Thread :=
  match tgt with
  | .reg n => { t with regs := Table.write 0 t.regs n v }
  | .pred n => { t with preds := if v != 0 then t.preds ||| BitVec.twoPow 7 n
                        else t.preds &&& ~~~(BitVec.twoPow 7 n) }

/-- Results that are visible, with none before them still pending, are written. -/
def Thread.settleFrom (t : Thread) : List Pend → Thread
  | [] => { t with pend := [] }
  | p :: ps => if p.seen then Thread.settleFrom (t.store p.tgt p.val) ps else { t with pend := p :: ps }

def Thread.settle (t : Thread) : Thread := t.settleFrom t.pend

/-- The distance of every fixed-latency result grows by `n`, and the results of the group become readable (03 R64). -/
def Pend.aged (n : Nat) (p : Pend) : Pend :=
  { p with fresh := false, src := match p.src with
      | .fixed k => .fixed (k - n)
      | .mem k => .mem k
      | .cmd c => .cmd c }

def Thread.age (t : Thread) (n : Nat) : Thread := { t with pend := t.pend.map (Pend.aged n) }.settle

/-- Every fixed-latency result becomes visible (03 R66). -/
def Pend.fix (p : Pend) : Pend :=
  match p.src with
  | .fixed _ => { p with src := .fixed 0, fresh := false }
  | .mem _ | .cmd _ => p

def Thread.allSeen (t : Thread) : Thread := { t with pend := t.pend.map Pend.fix }.settle

/-- Every outstanding load of the thread has returned. -/
def Pend.landMem (p : Pend) : Pend :=
  match p.src with
  | .mem _ => { p with src := .fixed 0 }
  | .fixed _ | .cmd _ => p

def Thread.land (t : Thread) : Thread := { t with pend := t.pend.map Pend.landMem }.settle

/-- The results that one load owes the thread are written, with its values. -/
def Pend.landLoad (id : Nat) (f : Target → Word → Word) (p : Pend) : Pend :=
  if p.src == .mem id then { p with src := .fixed 0, val := f p.tgt p.val } else p

def Thread.landLoad (t : Thread) (id : Nat) (f : Target → Word → Word) : Thread :=
  { t with pend := t.pend.map (Pend.landLoad id f) }.settle

/-- The loads whose results the thread waits for. -/
def Thread.loadsDue (t : Thread) : List Nat := t.pend.filterMap (fun p => match p.src with
  | .mem id => some id
  | .fixed _ | .cmd _ => none)

/-- The results that an engine command owes the thread are written, with their values. -/
def Pend.landCmd (id : Nat) (f : Target → Word) (p : Pend) : Pend :=
  if p.src == .cmd id then { p with src := .fixed 0, val := f p.tgt } else p

def Thread.landFrom (t : Thread) (id : Nat) (f : Target → Word) : Thread :=
  { t with pend := t.pend.map (Pend.landCmd id f) }.settle

/-- A target has a scoreboarded write pending of an earlier part (03 R53, R66). -/
def Thread.owes (t : Thread) (tgt : Target) : Bool :=
  t.pend.any (fun p => p.tgt == tgt && !p.fresh && (match p.src with
    | .fixed _ => false
    | .mem _ | .cmd _ => true))

/-- The latest producer of a target is fixed-latency and not yet visible (03 R65). -/
def Thread.early (t : Thread) (tgt : Target) : Bool :=
  match (t.pend.filter (fun p => p.tgt == tgt)).getLast? with
  | some p => !p.seen && (match p.src with
      | .fixed _ => true
      | .mem _ | .cmd _ => false)
  | none => false

/-- Results join those that are pending, in program order; a write to p7 is discarded (01 R10). -/
def Thread.push (t : Thread) (ps : List (Target × Word)) (src : Src) : Thread :=
  { t with pend := t.pend ++ (ps.filter (fun p => p.1 != .pred 7)).map (fun p => ⟨p.1, p.2, src, true⟩) }

/-! ### Lanes -/

/-- A lane of a warp: its number, %wwid and its thread (08 R159). -/
structure Lane where
  lane : Nat
  wwid : Nat
  th   : Thread
deriving DecidableEq, Repr

/-- The 32-bit word that a source code names (03 R58, R59). -/
def Lane.word (l : Lane) (code : Nat) : Word :=
  if code < 0xF0 then l.th.reg code
  else if code = 0xF1 then BitVec.ofNat 32 l.lane
  else if code = 0xF2 then BitVec.ofNat 32 l.th.ltid
  else if code = 0xF3 then BitVec.ofNat 32 l.wwid
  else if code = 0xF4 then 1
  else 0

/-- A source of `n` registers as a number: a special code is zero-extended (03 R59). -/
def Lane.src (l : Lane) (n code : Nat) : Nat :=
  if code < 0xF0 then ofWords ((List.range n).map (fun k => l.th.reg (code + k))) else (l.word code).toNat

/-- A literal at the width of a type: sign-extended for an `i` type (05 R92). -/
def litValue (ty : Nat) (k : Word) : Nat :=
  if isSigned ty then wrapInt (max 32 (typeWidth ty)) (toSigned 32 k.toNat) else k.toNat

/-- Source A and source B: the literal where the form takes it there (05 R92). -/
def Lane.opA (l : Lane) (op : Op) (e : Enc) (n ty : Nat) : Nat :=
  match e.lit with
  | some k => if (form op e).lit = .asA then litValue ty k else l.src n e.a.toNat
  | none => l.src n e.a.toNat
@[inherit_doc Lane.opA]
def Lane.opB (l : Lane) (op : Op) (e : Enc) (n ty : Nat) : Nat :=
  match e.lit with
  | some k => if (form op e).lit = .asB then litValue ty k else l.src n e.b.toNat
  | none => l.src n e.b.toNat

/-- Source C. -/
def Lane.opC (l : Lane) (e : Enc) (n : Nat) : Nat := l.src n e.x.c.toNat

/-- A predicate with its negate bit, as fields of 03 R60 and 05 R100 name it. -/
def Lane.psrc (l : Lane) (code : Nat) : Bool := l.th.pred (code % 8) != decide (8 ≤ code % 16)

/-- The address operand of 07 R151 and 15 R267: the base pair, or zero, and the signed literal. -/
def Lane.addr (l : Lane) (e : Enc) : Nat :=
  wrapInt 64 ((l.src 2 e.a.toNat : Int) + toSigned 32 (e.lit.getD 0).toNat)

/-- The words of a result in its destination registers; 0xF0 discards (03 R58). -/
def dst (code : BitVec 8) (n : Nat) (v : Nat) : List (Target × Word) :=
  if code.toNat < 0xF0 then ((wordsOf n v).zipIdx).map (fun p => (.reg (code.toNat + p.2), p.1)) else []

/-- A predicate result in the predicate of a field's bits [2:0]. -/
def dstP (code : BitVec 8) (v : Bool) : List (Target × Word) := [(.pred (code.toNat % 8), if v then 1 else 0)]

/-! ### The issuing warp -/

/-- The live lanes of a warp. -/
def Team.lanesOf (t : Team) (w : Warp) : List Lane := (t.live w).map (fun p => ⟨p.1, w.lanes.length, p.2⟩)

/-- The guard of an instruction in a lane; 1111 is never (03 R49, R55). -/
def guardOn (g : BitVec 4) (l : Lane) : Bool := l.psrc g.toNat

/-- What an instruction sees when it issues: its team, its warp, its turn, and the live and the active lanes. -/
structure Iss where
  team : Team
  warp : Warp
  turn : Turn
  op   : Op
  e    : Enc
  live : List Lane
  act  : List Lane

/-- The issuing warp of an instruction; a re-performance acts in the lanes it names (26 R414). -/
def State.iss? (s : State) (op : Op) (e : Enc) : Option Iss :=
  match s.turn with
  | none => none
  | some t =>
    match s.team? t.team with
    | none => none
    | some tm =>
      match tm.warp? t.warp with
      | none => none
      | some w =>
        let live := tm.lanesOf w
        let act := match t.only with
          | some ids => live.filter (fun l => ids.contains l.th.ltid)
          | none => live.filter (guardOn e.guard)
        some ⟨tm, w, t, op, e, live, act⟩

def Iss.instr (i : Iss) : Instr := i.op.instr i.e
def Iss.core (i : Iss) : Nat := i.team.core
def Iss.die (i : Iss) : Nat := dieOf i.team.core
def Iss.ctx (i : Iss) : Nat := i.team.ctx
def Iss.pc (i : Iss) : VAddr := i.turn.pc

/-- %tcfg fields of a thread (01 R17). -/
def Thread.nreg (t : Thread) : Nat := 8 * bitsAt t.tcfg.toNat 8 4
@[inherit_doc Thread.nreg]
def Thread.tmode (t : Thread) : Bool := bitAt t.tcfg.toNat 3

/-- %tcfg of the issuing warp's lowest live lane: NREG and TMODE are the same in every lane of a warp (01 R17, 26 R409). -/
def Iss.tcfg (i : Iss) : Word := ((i.live.head?).map (fun l => l.th.tcfg)).getD 0
def Iss.nreg (i : Iss) : Nat := 8 * bitsAt i.tcfg.toNat 8 4
def Iss.tmode (i : Iss) : Bool := bitAt i.tcfg.toNat 3

/-- The performances of an instruction with the lanes that receive the result of each: one per active lane, or one by
the lowest for all of them under U = 1 (03 R56). -/
def Iss.perf (i : Iss) : List (Lane × List Lane) :=
  if i.e.u = 1 then
    match i.act with
    | [] => []
    | l :: _ => [(l, i.act)]
  else i.act.map (fun l => (l, [l]))

/-- The mask of a list of lanes. -/
def laneMask (ls : List Lane) : Nat := maskOf (ls.map Lane.lane)

/-- How the register results of the instruction become visible (03 R64). -/
def Iss.src (i : Iss) : Src :=
  match regLatency i.op i.e with
  | some n => .fixed n
  | none => .mem 0

end Sys2Proof.Machine
end

