-- ==== Sys2Proof/Machine/Flags.lean ====
section
/-! DEFINITION. Sticky flags (01 R14 to R16) and the results of instructions: values with the flags they raise. -/

namespace Sys2Proof.Machine

/-- Flags are ORed into the sticky flags of a thread (01 R15). -/
def Thread.raise (t : Thread) (f : BitVec 6) : Thread := { t with flags := t.flags ||| f }

/-- What an instruction makes of a lane: results and flags. -/
structure Res where
  outs  : List (Target × Word)
  flags : BitVec 6 := 0

/-- SAT of an integer result (05 R94): raised where the exact result was clamped. -/
def satFlag (sat : Bool) (exact clamped : Int) : BitVec 6 := if sat && exact != clamped then fSAT else 0

/-- An exact integer result narrowed to a type: wrapped, or saturated with SAT = 1 (02 R40), as a number of
`max 32 w` bits in its registers (R26). -/
def narrow (ty : Nat) (sat : Bool) (v : Int) : Nat × BitVec 6 :=
  let w := typeWidth ty
  let sg := isSigned ty
  let c := clampInt sg w v
  if sat then (extend32 sg w (wrapInt w c), satFlag sat v c) else (extend32 sg w (wrapInt w v), 0)

/-- Flags of a thread as they stand (01 R15): with those that lower slots of the group have raised. -/
def State.flagsOf (s : State) (i : Iss) (l : Lane) : BitVec 6 :=
  ((s.thread? i.team.id l.th.ltid).map Thread.flags).getD l.th.flags

/-- Results go to the threads of the lanes `to`, with the flags they raise. -/
def State.give (s : State) (i : Iss) (rcv : List Lane) (r : Res) (src : Src) : State :=
  s.updTeam i.team.id (fun t =>
    t.updThreads (rcv.map (fun l => l.th.ltid)) (fun th => (th.push r.outs src).raise r.flags))

/-- An instruction that only computes: one result per performance (03 R55, R56). -/
def alu (f : Lane → Res) (i : Iss) (s : State) : State :=
  i.perf.foldl (fun s p => s.give i p.2 (f p.1) i.src) s

end Sys2Proof.Machine
end

