-- ==== Sys2Proof/Machine/Queues.lean ====
section
/-! DEFINITION. Engine queues (17 R295 to R299): depth, room, order and acceptance, the identity of a command in trace
records (27 R433), and the flush of a rewrite window (19 R329 to R331). -/

namespace Sys2Proof.Machine

/-- Bits [hi:lo] of a 512-bit record. -/
def recBits (r : BitVec 512) (off hi lo : Nat) : Nat := bitsAt r.toNat (8 * off + hi) (8 * off + lo)

/-- Depth of a queue (17 R295). -/
def QueueId.depth : QueueId → Nat
  | .copy _ => 64
  | .feCopy _ => 16
  | .coord _ => 32
  | .feCoord _ => 16
  | .tile _ => 32
  | .expert _ => 32

/-- QKIND of a queue, and ENG of the unit that serves it (27 R433). -/
def QueueId.qkind : QueueId → Nat
  | .copy _ => 0
  | .coord _ => 1
  | .tile _ => 2
  | .expert _ => 3
  | .feCopy _ | .feCoord _ => 4
@[inherit_doc QueueId.qkind]
def QueueId.eng : QueueId → Nat
  | .copy _ | .feCopy _ => 0
  | .coord _ | .feCoord _ => 1
  | .tile _ => 2
  | .expert _ => 3

/-- A number for each queue, to count its commands per context (27 R433). -/
def QueueId.code : QueueId → Nat
  | .copy c => 8 * c
  | .coord c => 8 * c + 1
  | .tile t => 8 * t + 2
  | .expert c => 8 * c + 3
  | .feCopy c => 8 * c + 4
  | .feCoord c => 8 * c + 5

/-- A command stands in a queue; a `qfence` stands in every queue it names (17 R299). -/
def Cmd.inQueue (c : Cmd) (q : QueueId) : Bool :=
  match c.body with
  | .fence qs => qs.contains q
  | _ => c.queue == q

/-- The commands of a queue that have not completed, in acceptance order. -/
def State.queued (s : State) (q : QueueId) : List Cmd := s.eng.cmds.filter (fun c => c.inQueue q)

/-- The queue has room for `n` more commands (17 R295). -/
def State.room (s : State) (q : QueueId) (n : Nat) : Bool := decide ((s.queued q).length + n ≤ q.depth)

/-- A command is at the head of every queue it stands in (17 R297, R299). -/
def State.atHead (s : State) (c : Cmd) : Bool :=
  let heads (q : QueueId) : Bool := ((s.queued q).head?.map Cmd.id) == some c.id
  match c.body with
  | .fence qs => qs.all heads
  | _ => heads c.queue

/-- QINST of a command (27 R433). -/
def State.qinst (s : State) (c : Cmd) : Nat :=
  match c.queue with
  | .copy k | .coord k | .expert k => coreNo k
  | .tile t => coreNo c.core + 32 * ((s.team? t).map Team.place).getD 0
  | .feCopy _ | .feCoord _ => (c.pkt.map (fun p => p.1)).getD 0

/-- The identity payload of a command's records (27 R433). -/
def State.cmdIdentity (s : State) (c : Cmd) : List Nat :=
  let seq := (c.pkt.map (fun p => p.2.1.toNat)).getD c.seq
  identity seq c.queue.qkind c.queue.eng (s.qinst c) ((c.pkt.map (fun p => p.2.2)).getD 0xFF)

/-- A record about a command. -/
def State.cmdRecord (s : State) (c : Cmd) (k : RecKind) (arg : Nat) : State :=
  s.emit c.ctx c.core k arg (s.cmdIdentity c) false none

/-- A command is accepted: it takes its number and its place (17 R296, 27 R433). A tile command keeps the number that
it has in its team, and a `qfence` that stands in a tile queue first takes one there. -/
def State.accept (s : State) (c : Cmd) : State :=
  let key := 256 * c.queue.code + c.ctx
  let n := Table.read 0 s.eng.seqs key
  let c := { c with id := s.eng.nextCmd, seq := match c.body with
    | .tile w => w.cmd.seq
    | .fence _ => (match c.queue with
      | .tile t => ((s.team? t).map Team.tseq).getD n
      | .copy _ | .feCopy _ | .coord _ | .feCoord _ | .expert _ => n)
    | .copy .. | .put .. | .coord .. | .hlk .. | .token .. | .take .. => n }
  { s with eng.cmds := s.eng.cmds ++ [c], eng.nextCmd := s.eng.nextCmd + 1, eng.seqs := Table.put s.eng.seqs key (n + 1) }

/-- The CMD_ACCEPT record of a thread's command (27 R434), written for the command that `accept` has just made. -/
def State.traceAccept (s : State) (i : Iss) (c : Cmd) (l : Lane) : State :=
  s.emit c.ctx c.core rCmdAccept (i.op.code.toNat + l.lane * 2 ^ 8 + l.th.ltid * 2 ^ 16) (s.cmdIdentity c) false
    (some (i.team.id, i.warp.id))

/-- A command that no thread's instruction and no packet has filled in yet. -/
def Cmd.blank (q : QueueId) (ctx core : Nat) (body : CmdBody) : Cmd where
  id := 0
  queue := q
  seq := 0
  ctx := ctx
  die := dieOf core
  core := core
  team := none
  thread := 0
  grid := 0
  pkt := none
  pid := 0
  batch := none
  scope := 5
  bar := none
  body := body
  state := .ready
  pos := 0
  counted := 0
  begun := false
  aborted := false

/-- SCOPE, BARV and BAR of a parameter block (18 R314). -/
def blockScope (b : BitVec 512) : Nat := recBits b 0x18 42 40
@[inherit_doc blockScope]
def blockBar (b : BitVec 512) : Option Word :=
  if recBits b 0x18 43 43 = 1 then some (BitVec.ofNat 32 (recBits b 0x20 31 0)) else none

/-- A command leaves the window into its team's tile queue (19 R329). -/
def State.enterTile (s : State) (t : Team) (w : WinCmd) : State :=
  let c := Cmd.blank (.tile t.id) t.ctx t.core (.tile w)
  let s := { s with dbg.stepping := s.dbg.stepping.map (fun (p : Stepping) =>
    if p.team = t.id ∧ w.rule = none then { p with took := w.cmd.seq :: p.took } else p) }
  s.accept { c with
    team := some t.id
    thread := w.cmd.thread
    grid := t.grid
    scope := match w.cmd.block with
      | some b => BitVec.ofNat 3 (blockScope b)
      | none => 1
    bar := w.cmd.block.bind blockBar }

/-- In hold mode a RULE_HIT record that waits keeps the team's rewrite stage from moving a command (27 R431). -/
def State.rewriteHeld (s : State) (t : Team) : Bool :=
  let r := s.ctx t.ctx (dieOf t.core)
  bitsAt r.traceCtl.toNat 2 1 == 2 && r.recs.any (fun x => x.bits.toNat % 256 == 7 && x.team.any (fun p => p.1 == t.id))

/-- A `qfence` takes a number in a queue that it stands in (27 R433); a tile number given so is none of a tile command that a stepped
group makes (R445). -/
def State.fenceSeq (s : State) (ctx : Nat) (q : QueueId) : State :=
  match q with
  | .tile t =>
    let n := ((s.team? t).map Team.tseq).getD 0
    let s := s.updTeam t (fun t => { t with tseq := t.tseq + 1 })
    { s with dbg.stepping := s.dbg.stepping.map (fun (p : Stepping) =>
        if p.team = t ∧ !p.issued then { p with tseqs := p.tseqs ++ [n] } else p) }
  | .copy _ | .feCopy _ | .coord _ | .feCoord _ | .expert _ =>
    let key := 256 * q.code + ctx
    { s with eng.seqs := Table.put s.eng.seqs key (Table.read 0 s.eng.seqs key + 1) }

/-- The oldest commands of the window leave while they are due and the tile queue has room (19 R329). -/
def State.drainWindow (s : State) (team : Nat) : Nat → State
  | 0 => s
  | n + 1 =>
    match s.team? team with
    | none => s
    | some t =>
      match t.window with
      | [] => s
      | w :: ws =>
        if w.due && s.room (.tile team) 1 && !s.rewriteHeld t then
          State.drainWindow ((s.updTeam team (fun t => { t with window := ws })).enterTile t w) team n
        else s

/-- A flush ends the matching of every command of the window and moves them on, in order (19 R331). -/
def State.flushWindow (s : State) (team : Nat) : State :=
  (s.updTeam team (fun t => { t with window := t.window.map (fun w => { w with due := true }) })).drainWindow team
    (((s.team? team).map (fun t => t.window.length)).getD 0)

end Sys2Proof.Machine
end

