-- ==== Sys2Proof/Machine/Barriers.lean ====
section
/-! DEFINITION. Barrier objects and handles (15 R282 to R290): the object in the owner's scratchpad, the table of the
core, arrivals, pending bytes and the completion of phases. -/

namespace Sys2Proof.Machine

/-! ### Scratchpad bytes -/

def Team.spadByte (t : Team) (off : Nat) : Byte := Table.read 0 t.spad off

def Team.spadBytes (t : Team) (off n : Nat) : List Byte := (List.range n).map (fun k => t.spadByte (off + k))

/-- Bytes written into a team's scratchpad from write number `num` on, and the writes recorded (14 R248, R257). -/
def Team.putSpad (t : Team) (num : Nat) (by' : Write) (off : Nat) (bs : List Byte) : Team :=
  { t with
    spad := (bs.zipIdx).foldl (fun m p => Table.write 0 m (off + p.2) p.1) t.spad
    spadLog := ((cutChunks off bs).zipIdx).foldl (fun h p =>
      addArrival h p.1.1 (num + p.2) { by' with n := num + p.2, off := p.1.2.1, bytes := p.1.2.2 } (t.spadBytes (8 * p.1.1) 8)) t.spadLog }

/-- Bytes are written into a team's scratchpad. -/
def State.writeSpad (s : State) (owner : Nat) (by' : Write) (off : Nat) (bs : List Byte) : State :=
  let num := s.mm.nextW
  { s with mm.nextW := num + (cutChunks off bs).length }.updTeam owner (fun t => t.putSpad num by' off bs)

/-! ### Objects -/

/-- The counts of a barrier object (15 R282). -/
structure BarObj where
  expect  : Nat
  arrived : Nat
  phase   : Word
  pending : Int

def Team.barObj (t : Team) (off : Nat) : BarObj :=
  let n := ofBytes (t.spadBytes off 12)
  ⟨bitsAt n 11 0, bitsAt n 23 12, BitVec.ofNat 32 (bitsAt n 63 32), toSigned 32 (bitsAt n 95 64)⟩

/-- The 16 bytes of an object with its INDEX and GEN (15 R282). -/
def BarObj.bytes (o : BarObj) (index gen : Nat) : List Byte :=
  bytesOf 16 (o.expect + o.arrived * 2 ^ 12 + o.phase.toNat * 2 ^ 32 + wrapInt 32 o.pending * 2 ^ 64 + index * 2 ^ 96
    + gen * 2 ^ 104)

/-! ### Handles -/

/-- The key of an entry of a core's barrier table. -/
def barKey (core index : Nat) : Nat := 256 * core + index

def State.barEntry (s : State) (core index : Nat) : BarEntry := Table.read BarEntry.reset s.wk.bars (barKey core index)

def State.setBar (s : State) (core index : Nat) (e : BarEntry) : State :=
  { s with wk.bars := Table.put s.wk.bars (barKey core index) e }

/-- The index that a live handle names (15 R283). -/
def State.barIndex (s : State) (core team : Nat) (h : Word) : Option Nat :=
  let ix := bitsAt h.toNat 7 0
  let e := s.barEntry core ix
  if bitsAt h.toNat 31 16 = 0 ∧ e.team = some team ∧ e.gen.toNat = bitsAt h.toNat 15 8 then some ix else none

/-- The barrier entries that a team holds. -/
def State.barsOf (s : State) (core team : Nat) : List Nat :=
  (List.range 256).filter (fun ix => (s.barEntry core ix).team == some team)

/-- An access of `n` bytes at a scratchpad offset overlaps a live object of the team (15 R268, R285). -/
def State.hitsBar (s : State) (core team off n : Nat) : Bool :=
  s.wk.bars.any (fun p => p.1 / 256 == core && p.2.team == some team && decide (p.2.off < off + n)
    && decide (off < p.2.off + 16))

/-- Phase `p` is complete (15 R289). -/
def phaseDone (phase p : Word) : Bool :=
  let d := (phase - p).toNat
  decide (1 ≤ d) && decide (d < 2 ^ 31)

/-! ### Arrivals -/

/-- A barrier with its held arrivals and the scopes of its phases. -/
structure BarRun where
  obj  : BarObj
  held : List Nat
  cur  : Nat
  done : Table Nat

/-- The widest of some scopes. -/
def widest (l : List Nat) : Nat := l.foldl max 0

/-- The phase completes while ARRIVED = EXPECT and PENDING = 0; held arrivals are counted into the next phase at that
instant, with their scopes (15 R287, R290). `n` bounds the phases that held arrivals can complete. -/
def BarRun.complete (b : BarRun) : Nat → BarRun
  | 0 => b
  | n + 1 =>
    if b.obj.arrived = b.obj.expect ∧ b.obj.pending = 0 then
      let k := min b.held.length b.obj.expect
      BarRun.complete
        { obj := { b.obj with phase := b.obj.phase + 1, arrived := k }
          held := b.held.drop k
          cur := widest (b.held.take k)
          done := Table.put b.done b.obj.phase.toNat b.cur } n
    else b

/-- One update of a barrier: arrivals of threads, arrivals of engines or children, and a change of PENDING (15 R286 to
R288). `scope` is that of the arrivals (R290). -/
def BarRun.update (b : BarRun) (arrive late : Nat) (bytes : Int) (scope : Nat) : BarRun :=
  let fit := min late (b.obj.expect - (b.obj.arrived + arrive))
  let b : BarRun :=
    { b with
      obj := { b.obj with arrived := b.obj.arrived + arrive + fit, pending := b.obj.pending + bytes }
      held := b.held ++ List.replicate (late - fit) scope
      cur := if 0 < arrive + fit then max b.cur scope else b.cur }
  b.complete (b.held.length + 1)

/-- A barrier of a team as it stands. -/
def State.barRun (s : State) (t : Team) (core index : Nat) : BarRun :=
  let e := s.barEntry core index
  ⟨t.barObj e.off, e.held, e.cur, e.done⟩

/-- A barrier is updated (15 R282: one indivisible read-modify-write of the object). -/
def State.barUpdate (s : State) (core team index : Nat) (arrive late : Nat) (bytes : Int) (scope : Nat) : State :=
  match s.team? team with
  | none => s
  | some t =>
    let e := s.barEntry core index
    let r := (s.barRun t core index).update arrive late bytes scope
    (s.setBar core index { e with held := r.held, cur := r.cur, done := r.done }).writeSpad team .ofAgent e.off
      (r.obj.bytes index e.gen.toNat)

/-- The engine or child arrival of a handle that named a live barrier at acceptance (15 R287, 17 R301). -/
def State.engineArrive (s : State) (core team : Nat) (h : Word) (scope : Nat) : State :=
  match s.barIndex core team h with
  | none => s
  | some ix => s.barUpdate core team ix 0 1 0 scope

/-- Landed bytes are subtracted from PENDING one by one (15 R287, 17 R302): a phase that awaits only them completes at the instant
at which PENDING is 0, whatever lands after it. -/
def State.barLand (s : State) (core team : Nat) (h : Word) (bytes : Nat) : State :=
  match s.barIndex core team h, s.team? team with
  | some ix, some t =>
    let p := (t.barObj (s.barEntry core ix).off).pending
    if 0 < p ∧ p < bytes then
      (s.barUpdate core team ix 0 0 (-p) 0).barUpdate core team ix 0 0 (-((bytes : Int) - p)) 0
    else s.barUpdate core team ix 0 0 (-(bytes : Int)) 0
  | _, _ => s

/-- Some accepted command, window entry or child names the handle and has not arrived (15 R289). -/
def State.barBusy (s : State) (team : Nat) (h : Word) : Bool :=
  s.eng.cmds.any (fun c => c.team == some team && c.bar == some h)
  || s.fe.grids.any (fun g => match g.parent with
      | some p => p.team == team && p.handle == some h
      | none => false)
  || (match s.team? team with
      | none => false
      | some t =>
        t.window.any (fun w => w.cmd.block.bind blockBar == some h || w.orig.any (fun c => c.block.bind blockBar == some h))
        || t.threads.any (fun th => match th.wait with
            | .bwait h' _ _ _ => h' == h
            | _ => false)
        || t.traps.any (fun r => r.members.any (fun m => match m.wait with
            | .bwait h' _ _ _ => h' == h && !r.handlers.contains m.thread
            | _ => false)))

/-- An entry is freed and its generation advances (15 R283). -/
def State.barFree (s : State) (core index : Nat) : State :=
  let e := s.barEntry core index
  s.setBar core index { BarEntry.reset with gen := e.gen + 1 }

end Sys2Proof.Machine
end

