-- ==== Sys2Proof/Machine/Ops.lean ====
section
/-! DEFINITION. The shared operations on threads and warps: forming warps (08 R162 to R166), ending threads (07 R145,
08 R172), faults of lanes and their offer to system software (26 R414), TAKING A TRAP (26 R407 to R411) and returning
from one (R412), ending waits (08 R163, R168; 10 R208; 15 R289), and the end of an issue group (03 R54, R63 to R66). -/

namespace Sys2Proof.Machine

/-! ### Formation -/

/-- Inserts in ascending order of a key, after the elements of an equal key. -/
def insertBy {α : Type} (key : α → Nat) (x : α) : List α → List α
  | [] => [x]
  | y :: ys => if key x < key y then x :: y :: ys else y :: insertBy key x ys

/-- A list in ascending order of a key; equal keys keep their order. -/
def sortBy {α : Type} (key : α → Nat) (l : List α) : List α := l.foldl (fun acc x => insertBy key x acc) []

/-- Each element once, in order of first appearance. -/
def dedup {α : Type} [DecidableEq α] (l : List α) : List α :=
  l.foldl (fun acc x => if acc.contains x then acc else acc ++ [x]) []

/-- Consecutive pieces of `w` elements, the last with the rest. -/
def chunks {α : Type} (w : Nat) : Nat → List α → List (List α)
  | 0, _ => []
  | n + 1, l => if l.isEmpty then [] else l.take w :: chunks w n (l.drop w)

/-- Where a thread resumes. -/
def Thread.at (t : Thread) : VAddr × Nat := (t.pc, t.slot)

/-- Order of the threads of a formation: by thread index, or after a regrouping load by the line of the access and
then by thread index, threads without an access last (08 R164). -/
def formOrder (lines : Option (List (Nat × Nat))) (ts : List Thread) : List Thread :=
  match lines with
  | none => ts
  | some m => sortBy (fun t => match m.find? (fun p => p.1 == t.ltid) with
      | some p => p.2
      | none => 2 ^ 40) ts

/-- The sets of thread indices that become warps, lanes in order: cut by resume point and then into `w` threads. -/
def packs (w : Nat) (ts : List Thread) : List (List Thread) :=
  (dedup (ts.map Thread.at)).flatMap (fun k => let m := ts.filter (fun t => t.at == k); chunks w m.length m)

/-- The stops on their way to the warps of some threads. -/
def Team.haltsOf (t : Team) (ths : List Thread) : List Halt :=
  dedup (ths.flatMap (fun th => ((t.warpOf? th.ltid).map Warp.stop).getD []))

/-- A formation event for the threads `ids` of a team of group width `w` (08 R162 to R166): their warps are replaced,
they run, and their fixed-latency results are visible; the new warps issue from the cycle `due` on. A warp that resumes within a
packet keeps its latched packet. -/
def Team.form (t : Team) (w : Nat) (ids : List Nat) (lines : Option (List (Nat × Nat))) (due : Nat) : Team :=
  let ts := formOrder lines (t.threads.filter (fun th => th.alive && ids.contains th.ltid))
  let new := (packs w ts).zipIdx.map (fun p =>
    let old := (p.1.head?).bind (fun th => t.warpOf? th.ltid)
    let slot := ((p.1.head?).map Thread.slot).getD 0
    { id := t.nextW + p.2, lanes := p.1.map (fun th => some th.ltid),
      packet := if slot = 0 then none else old.bind Warp.packet,
      redo := [], trap := old.bind Warp.trap, want := (old.map Warp.want).getD [], lines := none,
      fence := old.bind Warp.fence, stop := t.haltsOf p.1, due := due, mid := old.any Warp.mid
      link := old.bind Warp.link : Warp })
  let kept := (t.warps.map (fun v =>
      { v with lanes := v.lanes.map (fun o => o.bind (fun n => if ids.contains n then none else some n)) })).filter
    (fun v => v.lanes.any Option.isSome)
  { t.updThreads ids (fun th => { th.allSeen with wait := .run }) with
    warps := kept ++ new
    nextW := t.nextW + new.length }

/-- The group width of a team's launch (08 R159). -/
def State.width (s : State) (t : Team) : Nat := ((s.grid? t.grid).map (fun g => g.launch.width)).getD 8

def State.form (s : State) (team : Nat) (ids : List Nat) (lines : Option (List (Nat × Nat))) (due : Nat) : State :=
  match s.team? team with
  | none => s
  | some t => s.updTeam team (fun t' => t'.form (s.width t) ids lines due)

/-- The cycle after the present one, from which warps that an event forms issue (08 R166). -/
def State.soon (s : State) : Nat := s.clock.clk + 1

/-! ### Ending threads and teams -/

/-- Loads of threads are no longer in flight: what they found stands (14 R260, 26 R409). -/
def State.dropLoads (s : State) (team : Nat) (ids : List Nat) : State :=
  let mine (l : PendLoad) : Bool := l.team == team && l.rcv.any ids.contains
  if s.mm.loads.any mine then { s with mm.loads := s.mm.loads.filter (fun l => !mine l) } else s

/-- Threads end (07 R145): nothing pending is written, and they leave the count of every region instance on their
stacks (08 R168). DESIGN CHOICE (log entry 59): a fault that such a thread has met in a lower slot of its group is dropped with it. -/
def Team.endThreads (t : Team) (ids : List Nat) : Team :=
  { t.updThreads ids (fun th => { th with alive := false, pend := [], wait := .run, stack := [], faults := [], next := none }) with
    insts := (t.insts.map (fun r => { r with
      counted := r.counted.filter (fun n => !ids.contains n)
      arrived := r.arrived.filter (fun n => !ids.contains n) })).filter (fun r => !r.counted.isEmpty) }

/-- No thread of the team is left. -/
def Team.over (t : Team) : Bool := t.threads.all (fun th => !th.alive)

def State.endThreads (s : State) (team : Nat) (ids : List Nat) : State :=
  let s := (s.dropLoads team ids).updTeam team (fun t => t.endThreads ids)
  match s.team? team with
  | some t => if t.over then s.flushWindow team else s
  | none => s

/-- A command that is held for a trap that no thread can take any more is aborted (26 R413, R418, R419). -/
def Cmd.answerless (c : Cmd) : Cmd :=
  match c.state with
  | .held _ _ _ .none => { c with state := .performed, aborted := true }
  | .held .. | .ready | .paused | .sent | .performed => c

/-- A team is ended with error record 0x0F, its linear index or an address as detail (26 R413, R416; 09 R182). -/
def State.endTeam (s : State) (team : Nat) (detail : Nat) : State :=
  match s.team? team with
  | none => s
  | some t =>
    if t.ended then s
    else
      let s := s.endThreads team (t.threads.map Thread.ltid)
      let s := s.updTeam team (fun t => { t with ended := true, warps := [], traps := [] })
      let s := { s with eng.cmds := s.eng.cmds.map (fun (c : Cmd) => if c.team = some team then c.answerless else c) }
      match s.grid? t.grid with
      | none => s
      | some g => s.itemError g.queue g.seq g.pkt g.member g.batch 0x0F 0 0 detail

/-! ### Trap entry -/

/-- Frames of a context slot in use (26 R410). -/
def State.framesUsed (s : State) (core slot : Nat) : Nat :=
  ((s.wk.teams.filter (fun t => t.core == core && t.slot == some slot)).map (fun t => t.traps.length)).foldl (· + ·) 0

/-- ACTION as the hardware writes it (26 R407). -/
def defaultAction (kind : Nat) (cause : BitVec 16) : Nat :=
  if kind = 3 then 1
  else if cause = 0x04 ∨ cause = 0x12 ∨ cause = 0x36 ∨ cause = 0x50 then 0
  else if cause = 0x60 then 1
  else 2

/-- The command of an asynchronous trap as its frame names it: QUEUE, PROG, SEQ, and the rule of a rewritten command. -/
structure FrameCmd where
  queue : Nat
  prog  : Nat
  seq   : Nat
  rule  : Option Nat

def State.frameCmd (s : State) (cmd : Option Nat) : Option FrameCmd :=
  (cmd.bind s.cmd?).map (fun c =>
    ⟨c.queue.qkind, (match c.body with
      | .tile _ => c.pos
      | _ => 0), c.seq, (match c.body with
      | .tile w => w.rule
      | _ => none)⟩)

/-- The 256 bytes of a trap frame (26 R410). -/
def frameBytes (r : TrapReq) (f : Option FrameCmd) (wwid mask lanes time : Nat) (flags : List (Nat × Nat))
    (map : List (Option Nat)) : List Byte :=
  let rule := f.bind FrameCmd.rule
  let w0 := r.cause.toNat + r.sub.toNat * 2 ^ 16 + (if r.kind = 3 then 1 else 0) * 2 ^ 24
    + (if rule.isSome then 1 else 0) * 2 ^ 25
  let slot := if r.kind = 2 ∨ r.kind = 3 then 0 else r.slot
  let w1 := slot + defaultAction r.kind r.cause * 2 ^ 8 + wwid * 2 ^ 16 + (rule.getD 0xFF) * 2 ^ 24
  let q := match f with
    | some c => c.queue + (c.prog % 2 ^ 26) * 2 ^ 32
    | none => 0
  let sq := match f with
    | some c => c.seq
    | none => 0
  let fl := flags.foldl (fun n p => n + p.2 * 2 ^ (6 * p.1)) 0
  let lm := (List.range 64).map (fun k => match (map[k]?).getD none with
    | some n => n
    | none => 0xFFFF)
  bytesOf 4 w0 ++ bytesOf 4 w1 ++ bytesOf 8 r.pc.toNat ++ bytesOf 8 r.detail.toNat ++ bytesOf 8 lanes ++ bytesOf 8 mask
    ++ bytesOf 8 q ++ bytesOf 8 sq ++ bytesOf 8 time ++ bytesOf 48 fl ++ bytesOf 16 0 ++ lm.flatMap (bytesOf 2)

/-- Bytes as a sparse table from offset 0. -/
def tableOf (bs : List Byte) : Table Byte := (bs.zipIdx).foldl (fun t p => Table.write 0 t p.2 p.1) []

/-- %tcfg with TMODE set or cleared (01 R17). -/
def tmodeOn (c : Word) : Word := c ||| 8
@[inherit_doc tmodeOn]
def tmodeOff (c : Word) : Word := c &&& ~~~8

/-- A warp takes a trap (26 R408, R409), a frame being free: outstanding loads have returned, the frame is written,
the handler lanes form the trapped warp at the trap vector with TMODE set and flags clear, and the others wait. DESIGN CHOICE (log
entry 59): the waiting threads are in no warp until the return, so %wmask of the handler shows the handler lanes alone. -/
def State.takeTrap (s : State) (t : Team) (w : Warp) (r : TrapReq) (more : List TrapReq) : State :=
  let live := t.lanesOf w
  let hs := match r.lanes with
    | none => live
    | some ids => live.filter (fun l => ids.contains l.th.ltid)
  let hids := hs.map (fun l => l.th.ltid)
  let ids := live.map (fun l => l.th.ltid)
  let vec := BitVec.ofNat 48 (16 * bitsAt (s.ctx t.ctx (dieOf t.core)).trapVec.toNat 47 4)
  let map := w.lanes.map (fun o => o.bind (fun n => if ids.contains n then some n else none))
  let frame := frameBytes r (s.frameCmd r.cmd) w.lanes.length (laneMask live) (laneMask hs) (s.timeAt (dieOf t.core))
    (live.map (fun l => (l.lane, l.th.flags.toNat))) map
  let rec' : TrapRec :=
    { id := t.nextT, req := r, frame := tableOf frame, handlers := hids
      members := live.map (fun l => ⟨l.th.ltid, l.lane, l.th.pc, l.th.slot, l.th.wait⟩), more := more, lines := w.lines
      fence := w.fence, mid := w.mid, link := w.link }
  let s := (s.dropLoads t.id ids).updTeam t.id (fun t =>
    let t := t.updThreads ids (fun th => { th.land.allSeen with wait := .parked rec'.id })
    let t := t.updThreads hids (fun th =>
      { th with wait := .run, pc := vec, slot := 0, flags := 0, tcfg := tmodeOn th.tcfg, next := none })
    let t := t.updWarp w.id (fun w => { w with
      lanes := w.lanes.map (fun o => o.bind (fun n => if hids.contains n then some n else none))
      packet := none, redo := [], trap := some rec'.id, want := [], lines := none, fence := none, due := max w.due s.soon
      mid := false })
    { t with traps := t.traps ++ [rec'], nextT := t.nextT + 1 })
  s.emit t.ctx t.core rTrap (r.cause.toNat + r.sub.toNat * 2 ^ 16) [r.pc.toNat, laneMask hs] false (some (t.id, w.id))

/-- A warp enters the trap that it has raised (26 R409, R410): none is entered before an offered fetch fault is
answered or while no frame is free; in trap mode it is a double fault (R413). -/
def State.enterTrap (s : State) (team warp : Nat) : State :=
  match s.team? team with
  | none => s
  | some t =>
    match t.warp? warp with
    | none => s
    | some w =>
      match w.want with
      | [] => s
      | r :: more =>
        match r.offer with
        | .wanted | .sent _ => s
        | .resolved => s.updTeam team (fun t => t.updWarp warp (fun w => { w with want := more, packet := none }))
        | .none | .declined =>
          if w.trap.isSome ∧ r.kind ≠ 3 then s.endTeam team t.index
          else
            match t.slot with
            | none => s
            | some k =>
              if 64 ≤ s.framesUsed t.core k then s
              else
                let s := s.flushWindow team
                match s.team? team with
                | none => s
                | some t => s.takeTrap t w r more

/-- A warp raises a trap and enters it where it can. -/
def State.raiseTrap (s : State) (team warp : Nat) (r : TrapReq) : State :=
  (s.updTeam team (fun t => t.updWarp warp (fun w => { w with want := w.want ++ [r] }))).enterTrap team warp

/-! ### Faults of lanes -/

/-- The faults of a warp's live lanes, with their lanes. -/
def Team.faultsOf (t : Team) (w : Warp) : List (Lane × LaneFault) :=
  (t.lanesOf w).flatMap (fun l => l.th.faults.map (fun f => (l, f)))

/-- The instructions that faults name, each once in slot order, with the threads that met them. -/
def redosOf (fs : List (Lane × LaneFault)) : List Redo :=
  (sortBy (fun f => f.slot) (dedup (fs.map (fun p => ({ p.2 with cause := 0, sub := 0, detail := 0, offer := .none, write := 0, also := [], marks := false } : LaneFault))))).map
    (fun f => ⟨f.instr, f.pc, f.slot,
      (fs.filter (fun p => p.2.slot == f.slot && p.2.pc == f.pc)).flatMap (fun p => p.1.th.ltid :: p.2.also)⟩)

/-- Every offered fault of a warp has been answered (26 R414): resolved lanes perform their access again; otherwise the
warp traps once, for every lane that faulted (R408). -/
def State.answerFaults (s : State) (team warp : Nat) : State :=
  match s.team? team with
  | none => s
  | some t =>
    match t.warp? warp with
    | none => s
    | some w =>
      let fs := t.faultsOf w
      let open? (p : Lane × LaneFault) : Bool := match p.2.offer with
        | .wanted | .sent _ => true
        | .none | .declined | .resolved => false
      if fs.any open? || !w.redo.isEmpty then s
      else
        let done := fs.filter (fun p => p.2.offer == .resolved)
        if !done.isEmpty then
          s.updTeam team (fun t =>
            (t.updThreads (fs.map (fun p => p.1.th.ltid)) (fun th =>
              { th with faults := th.faults.filter (fun f => f.offer != .resolved) })).updWarp warp
              (fun w => { w with redo := redosOf done }))
        else
          match fs with
          | [] => s.enterTrap team warp
          | (_, f) :: _ =>
            let ids := dedup (fs.flatMap (fun p => p.1.th.ltid :: if p.2.marks then p.2.also else []))
            let slot := fs.foldl (fun m p => min m p.2.slot) f.slot
            let r : TrapReq := ⟨1, f.cause, f.sub, f.detail, f.pc, slot, slot, some ids, redosOf fs, none, .none, w.mid⟩
            let s := s.updTeam team (fun t =>
              (t.updThreads ids (fun th => { th with faults := [] })).updWarp warp
                (fun w => { w with want := r :: w.want }))
            s.enterTrap team warp

/-- The page faults of a warp's lanes that are not yet offered go to the fault ring, in lane order (26 R414). -/
def State.offerLane (s : State) (t : Team) (p : Lane × LaneFault) : State :=
  let waiting : Bool := match p.2.offer with
    | .none | .wanted => true
    | .sent _ | .declined | .resolved => false
  if p.2.cause = 0x12 ∧ waiting then
    let r := s.offerFault t.ctx t.core p.2.detail.toNat 1 p.2.write.toNat 0 0xFF false
    r.2.updThread t.id p.1.th.ltid (fun th => { th with faults := th.faults.map (fun f =>
      if f = p.2 then { f with offer := r.1 } else f) })
  else s

/-- A warp whose lanes have faulted offers page faults and traps for the others once all are answered. -/
def State.takeFaults (s : State) (team warp : Nat) : State :=
  match s.team? team with
  | none => s
  | some t =>
    match t.warp? warp with
    | none => s
    | some w =>
      let fs := t.faultsOf w
      if fs.isEmpty ∧ w.want = [] then s
      else (fs.foldl (fun s p => s.offerLane t p) s).answerFaults team warp

/-- A lane meets a fault (26 R407): its access has no effect. `also` names the threads that share the performance. -/
def State.faultFor (s : State) (i : Iss) (l : Lane) (also : List Nat) (cause : BitVec 16) (sub : BitVec 8) (detail : Nat)
    (write : Nat) : State :=
  s.updThread i.team.id l.th.ltid (fun th => { th with faults := th.faults ++
    [⟨cause, sub, BitVec.ofNat 64 detail, i.turn.pc, i.turn.slot, i.instr, .none, BitVec.ofNat 8 write, also, false⟩] })
@[inherit_doc State.faultFor]
def State.faultLane (s : State) (i : Iss) (l : Lane) (cause : BitVec 16) (sub : BitVec 8) (detail : Nat) (write : Nat) :
    State :=
  s.faultFor i l [] cause sub detail write

/-- DETAIL of a trap for which the specification states none (log entry 12: a free value). -/
def State.unstated (s : State) : Nat := (Config.freeBits 64 s.free).toNat

/-- A lane's command is not accepted, nor are those of the higher lanes `rest`, which LANES marks too (21 R369, 26 R408). -/
def State.faultRest (s : State) (i : Iss) (l : Lane) (rest : List Nat) (cause : BitVec 16) (sub : BitVec 8) (detail : Nat) :
    State :=
  s.updThread i.team.id l.th.ltid (fun th => { th with faults := th.faults ++
    [⟨cause, sub, BitVec.ofNat 64 detail, i.turn.pc, i.turn.slot, i.instr, .none, 0, rest, true⟩] })

/-- An instruction that takes effect in no lane because one failed marks every active lane (26 R408). -/
def State.faultAll (s : State) (i : Iss) (cause : BitVec 16) (sub : BitVec 8) (detail : Nat) : State :=
  i.act.foldl (fun s l => s.faultLane i l cause sub detail 0) s

/-! ### Return from a trap -/

/-- LANEMAP of a frame: lane and thread of every entry that names one (26 R410). -/
def laneMap (frame : Table Byte) : List (Nat × Nat) :=
  (List.range 64).filterMap (fun k =>
    let v := ofBytes [Table.read 0 frame (0x80 + 2 * k), Table.read 0 frame (0x81 + 2 * k)]
    if v = 0xFFFF then none else some (k, v))

/-- LANEMAP names each thread of the warp at entry once, exited ones apart, and no other (26 R412). -/
def laneMapOk (r : TrapRec) (alive : Nat → Bool) : Bool :=
  let m := laneMap r.frame
  m.all (fun p => r.members.any (fun q => q.thread == p.2))
  && r.members.all (fun q => let n := (m.filter (fun p => p.2 == q.thread)).length; n == 1 || (n == 0 && !alive q.thread))

/-- What becomes of an asynchronous trap's command on return: it starts again at its boundary, or it is aborted (26
R412, R419). -/
def State.answerCmd (s : State) (cmd : Option Nat) (retry : Bool) : State :=
  match cmd with
  | none => s
  | some id => s.updCmd id (fun c => if retry then { c with state := .ready } else { c with state := .performed, aborted := true })

/-- `tret` of a trap once every handler lane has reached it or exited (26 R412). -/
def State.returnTrap (s : State) (team : Nat) (r : TrapRec) : State :=
  match s.team? team with
  | none => s
  | some t =>
    let action := (Table.read 0 r.frame 5).toNat
    let alive (n : Nat) : Bool := (t.thread? n).any Thread.alive
    if 2 < action ∨ !laneMapOk r alive then s.endTeam team t.index
    else
      let ids := r.members.map Resume.thread
      let flags := ofBytes ((List.range 48).map (fun k => Table.read 0 r.frame (0x40 + k)))
      let m := (laneMap r.frame).filter (fun p => alive p.2)
      let n := (m.map (fun p => p.1 + 1)).foldl max 0
      let lanes := (List.range n).map (fun k => (m.find? (fun p => p.1 == k)).map Prod.snd)
      let again := r.req.kind = 0 ∧ action = 0 ∧ (r.req.cause = 1 ∨ r.req.cause = 2 ∨ r.req.cause = 6)
      let redo := if action = 0 then r.req.redo.map (fun d => { d with threads := d.threads.filter alive }) else []
      let fence : Option FenceWait := if r.req.cause = 0x50 ∧ action ≠ 0 then none else r.fence
      let w : Warp :=
        { id := t.nextW, lanes := lanes, packet := none, redo := redo.filter (fun d => !d.threads.isEmpty), trap := none
          want := r.more, lines := r.lines, fence := fence, stop := t.haltsOf (t.threads.filter (fun th => ids.contains th.ltid))
          due := s.soon, mid := if again then r.req.mid else r.mid, link := r.link }
      let pcs := laneMask ((t.warps.filter (fun w => w.trap == some r.id)).flatMap t.lanesOf)
      let s := s.updTeam team (fun t =>
        let t := t.updThreads ids (fun th =>
          match r.members.find? (fun q => q.thread == th.ltid) with
          | none => th
          | some q =>
            { th.allSeen with
              flags := BitVec.ofNat 6 (bitsAt flags (6 * q.lane + 5) (6 * q.lane))
              tcfg := tmodeOff th.tcfg
              pc := if again then r.req.pc else q.pc
              slot := if again then r.req.start else q.slot
              wait := q.wait, next := none })
        { t with
          warps := t.warps.filter (fun w => w.trap != some r.id) ++ [w]
          nextW := t.nextW + 1
          traps := t.traps.filter (fun q => q.id != r.id) })
      let s := s.emit t.ctx t.core rTret action [r.req.pc.toNat, pcs] false (some (team, t.nextW))
      let s := if r.req.kind = 3 then s.answerCmd r.req.cmd (action == 0) else s
      if action = 2 ∨ (r.req.kind = 2 ∧ action = 1) then s.endThreads team r.handlers else s

/-! ### The end of waits -/

/-- A thread's warp has still to issue a part of the group that it is in (03 R54). -/
def Team.midOf (t : Team) (n : Nat) : Bool := (t.warpOf? n).any Warp.mid

/-- The live threads that wait in `bwait` on a phase that is complete, with their handle's index and the phase. -/
def State.released (s : State) (t : Team) : List (Nat × Nat × Word) :=
  t.threads.filterMap (fun th =>
    if !th.alive || t.midOf th.ltid then none
    else match th.wait with
      | .bwait h p _ _ =>
        match s.barIndex t.core t.id h with
        | some ix => if phaseDone (t.barObj (s.barEntry t.core ix).off).phase p then some (th.ltid, ix, p) else none
        | none => none
      | _ => none)

/-- Barrier release (08 R163, 15 R289, R290): the threads that wait on one completing phase form new warps, and each `bwait` that
returns is an acquire at the widest scope among the phase's arrivals. -/
def State.releaseBars (s : State) (team : Nat) : State :=
  match s.team? team with
  | none => s
  | some t =>
    let rs := s.released t
    (sortBy (fun p => p.1 * 2 ^ 32 + p.2.toNat) (dedup (rs.map Prod.snd))).foldl (fun (s : State) (p : Nat × Word) =>
      let ids := (rs.filter (fun q => q.2 == p)).map Prod.fst
      (s.form team ids none s.soon).acquire t.ctx t.core team ids (Table.read 0 (s.barEntry t.core p.1).done p.2.toNat)) s

/-- Every counted thread of a region instance has arrived, and none of them is held by a trap or within a split group (08 R168; 26
R409). -/
def Team.joined (t : Team) (r : RegionInst) : Bool :=
  !r.arrived.isEmpty && r.counted.all r.arrived.contains
  && r.arrived.all (fun n => !t.midOf n && (match (t.thread? n).map Thread.wait with
    | some (.join _) => true
    | _ => false))

/-- The threads of an instance that wait for it alone. -/
def Team.joinersOf (t : Team) (r : RegionInst) : List Nat :=
  r.arrived.filter (fun n => (t.thread? n).any (fun th => th.wait == .join r.id)
    && !t.insts.any (fun q => q.id != r.id && q.arrived.contains n))

/-- Threads that wait at a join whose instance is complete form new warps (08 R168). A thread that two `join`s of one group have
made wait for two instances waits for the other. -/
def State.releaseJoins (s : State) (team : Nat) : State :=
  match s.team? team with
  | none => s
  | some t =>
    (t.insts.filter t.joined).foldl (fun s r =>
      match s.team? team with
      | none => s
      | some t =>
        let go := t.joinersOf r
        let s := s.updTeam team (fun t =>
          { t.updThreads (r.arrived.filter (fun n => !go.contains n)) (fun th =>
              match t.insts.find? (fun q => q.id != r.id && q.arrived.contains th.ltid) with
              | some q => { th with wait := .join q.id }
              | none => th) with
            insts := t.insts.filter (fun q => q.id != r.id) })
        s.form team go none s.soon) s

/-- `rgp` completes when every live thread of the team waits at one (08 R163, 10 R208): at one packet they form new
warps, and otherwise each takes a region-stack trap with cause 3. -/
def State.releaseRgp (s : State) (team : Nat) : State :=
  match s.team? team with
  | none => s
  | some t =>
    let live := t.threads.filter Thread.alive
    let at? (th : Thread) : Option (VAddr × Nat) := match th.wait with
      | .rgp pc slot => some (pc, slot)
      | _ => none
    if live.isEmpty ∨ !live.all (fun th => (at? th).isSome && !t.midOf th.ltid) then s
    else if (dedup (live.map (fun th => (at? th).map Prod.fst))).length = 1 then s.form team (live.map Thread.ltid) none s.soon
    else
      let s := s.updTeam team (fun t => t.updThreads (live.map Thread.ltid) (fun th =>
        match at? th with
        | none => th
        | some (pc, slot) =>
          { th with wait := .run, faults := th.faults ++
            [⟨0x20, 3, BitVec.ofNat 64 s.unstated, pc, slot, .rgp ⟨7, 0, 0, 0, 0, 0, none, none⟩, .none, 0, [], false⟩] }))
      t.warps.foldl (fun s w => s.takeFaults team w.id) s.drew

/-- Traps whose handler lanes have all reached `tret` or exited return (26 R412). -/
def State.releaseTraps (s : State) (team : Nat) : State :=
  match s.team? team with
  | none => s
  | some t =>
    (t.traps.filter (fun r => r.handlers.all (fun n => match t.thread? n with
      | some th => !th.alive || th.wait == .tret
      | none => true))).foldl (fun s r => s.returnTrap team r) s

/-- The live threads of a warp at different points, or some of them waiting, form new warps (08 R163, R165); a warp that is
about to trap stays as it is (26 R408), and so does one within a split group, but for a regrouping load (03 R54). -/
def State.regroup (s : State) (team warp : Nat) : State :=
  match s.team? team with
  | none => s
  | some t =>
    match t.warp? warp with
    | none => s
    | some w =>
      let live := (t.lanesOf w).map Lane.th
      let run := live.filter (fun th => th.wait == .run)
      let stay := run.length == live.length
      let one := (dedup (run.map Thread.at)).length ≤ 1
      if !w.redo.isEmpty ∨ !w.want.isEmpty ∨ (w.lines.isNone ∧ (w.mid ∨ (stay ∧ one))) then s
      else s.form team (run.map Thread.ltid) w.lines w.due

/-- The warps of a team that hold some of the threads `ids`. -/
def Team.warpsWith (t : Team) (ids : List Nat) : List Nat :=
  (t.warps.filter (fun w => w.lanes.any (fun o => o.any ids.contains))).map Warp.id

/-- After a part, a re-performance or a return: formation, then the faults of each warp that holds the threads. -/
def State.afterPart (s : State) (team warp : Nat) : State :=
  match (s.team? team).bind (fun t => t.warp? warp) with
  | none => s
  | some w =>
    let ids := w.lanes.filterMap id
    let s := s.regroup team warp
    match s.team? team with
    | none => s
    | some t => (t.warpsWith ids).foldl (fun s k => s.takeFaults team k) s

/-- Whatever an arrival, an exit or a completed phase has ended: returns, joins, regroup points, barrier waits. A
returned warp is regrouped at once. -/
def State.settle (s : State) (team : Nat) : State :=
  let s := s.releaseTraps team
  let s := match s.team? team with
    | none => s
    | some t => t.warps.foldl (fun (s : State) (w : Warp) => if w.trap.isNone then s.regroup team w.id else s) s
  ((s.releaseJoins team).releaseRgp team).releaseBars team

/-! ### Debug stops -/

/-- A STOP or RESUME record of a warp (27 R434), with bits [7:0] of its word, source and step result, and its SKID. -/
def State.stopRecord (s : State) (t : Team) (w : Warp) (k : RecKind) (low8 skid : Nat) : State :=
  let s := s.updTeam t.id (fun (t : Team) => t.updThreads (w.lanes.filterMap id) (fun th => { th with halt := low8 }))
  let live := t.lanesOf w
  let low := live.foldl (fun m l => min m l.th.ltid) 0xFFFF
  let pc := ((live.head?).map (fun l => l.th.pc.toNat)).getD 0
  s.emit t.ctx t.core k (low8 + skid * 2 ^ 8 + low * 2 ^ 16) [pc, laneMask live] false (some (t.id, w.id))

/-- Some stop holds the warp. -/
def Team.frozen (t : Team) (w : Warp) : Bool := (t.live w).any (fun p => !p.2.frozen.isEmpty)

/-- A warp freezes under capabilities, its loads having returned (27 R438, R439), with a STOP record unless it is frozen already. -/
def State.stopWarp (s : State) (team warp : Nat) (source result skid : Nat) (caps : List Word) : State :=
  match s.team? team with
  | none => s
  | some t =>
    match t.warp? warp with
    | none => s
    | some w =>
      let ids := w.lanes.filterMap id
      let s := (s.dropLoads team ids).updTeam team (fun t => t.updThreads ids (fun th =>
        { th.land with frozen := dedup (th.frozen ++ caps) }))
      if t.frozen w then s else s.stopRecord t w rStop (source + result * 2 ^ 4) skid

/-- The stops of a warp that satisfy a test take hold together; the first of them is the source (27 R439, R442). -/
def State.haltWarp (s : State) (team warp : Nat) (p : Halt → Bool) : State :=
  match ((s.team? team).bind (fun t => t.warp? warp)).map (fun w => w.stop.filter p) with
  | some (h :: hs) =>
    (s.updTeam team (fun t => t.updWarp warp (fun w => { w with stop := w.stop.filter (fun h => !p h) }))).stopWarp team warp
      h.source 0 h.skid (h.caps ++ hs.flatMap Halt.caps)
  | some [] | none => s

/-- A `brkpt`'s stop takes hold after its group (28 R459). -/
def State.takeStops (s : State) (team : Nat) (ids : List Nat) : State :=
  match s.team? team with
  | none => s
  | some t =>
    (t.warps.filter (fun w => w.lanes.any (fun o => o.any ids.contains))).foldl (fun s w =>
      s.haltWarp team w.id (fun h => h.source == 2)) s

/-- A part of a warp has issued since the stop was made (27 R439). -/
def Halt.passed (h : Halt) : Halt := if h.own then { h with own := false } else { h with skid := min 255 (h.skid + 1) }

/-! ### The end of a part -/

/-- A thread moves on at the end of a part (01 R11, 03 R64, R66; 07 R143; 08 R170): to its transfer target, to the next
group or part, or to the next packet. -/
def Thread.advance (th : Thread) (pc : VAddr) (next : Option Nat) (dist : Nat) (jumped : Bool) (now : Nat) : Thread :=
  let th := th.age dist
  let th := if jumped then th.allSeen else th
  let th := { th with lastIssue := now }
  match th.next with
  | some t => { th with pc := t, slot := 0, next := none }
  | none =>
    match next with
    | some k => { th with pc := pc, slot := k }
    | none => { th with pc := pc + 16, slot := 0 }

/-- Warps whose last thread has exited retire (08 R172). -/
def Team.retire (t : Team) : Team := { t with warps := t.warps.filter (fun w => !(t.live w).isEmpty) }

/-- The results of a re-performance are readable once it has ended. -/
def Pend.unfresh (p : Pend) : Pend := { p with fresh := false }
@[inherit_doc Pend.unfresh]
def Thread.unfresh (t : Thread) : Thread := { t with pend := t.pend.map Pend.unfresh }.settle

/-- The part that ends is the last of its group. -/
def groupDone (packet : Option (BitVec 128)) (start : Nat) (next : Option Nat) : Bool :=
  match packet, next with
  | some p, some k => !(groupsOf (groupField p)).any (fun g =>
      decide (g.1 ≤ start) && decide (start ≤ g.2) && decide (g.1 ≤ k) && decide (k ≤ g.2))
  | _, _ => true

/-- The part of a stepped warp begins: what its team and the engines give out from now on, it makes (27 R445). -/
def State.startStep (s : State) (t : Turn) : State :=
  { s with dbg.stepping := s.dbg.stepping.map (fun (p : Stepping) =>
      if p.team = t.team ∧ !p.issued then
        { p with tseqs := [((s.team? t.team).map Team.tseq).getD 0], made := [s.eng.nextCmd], took := [] }
      else p) }

/-- The part of a stepped warp has issued (27 R443 to R445). -/
def State.stepped (s : State) (team : Nat) (ids : List Nat) : State :=
  { s with dbg.stepping := s.dbg.stepping.map (fun (p : Stepping) =>
      if p.team = team ∧ !p.issued ∧ ids.contains p.thread then
        let lo := p.tseqs.headD 0
        let n := ((s.team? team).map Team.tseq).getD 0 - lo
        { p with
          issued := true
          tseqs := ((List.range n).map (fun k => lo + k)).filter (fun k => !(p.tseqs.drop 1).contains k)
          made := (s.eng.cmds.filter (fun (c : Cmd) => decide (p.made.headD 0 ≤ c.id) && (match c.body with
            | .tile _ => false
            | .copy .. | .put .. | .coord .. | .hlk .. | .token .. | .take .. | .fence _ => true))).map Cmd.id }
      else p) }

/-- Some live thread of `ids` waits. -/
def State.anyWaits (s : State) (team : Nat) (ids : List Nat) : Bool :=
  (s.team? team).any (fun t => t.threads.any (fun th => ids.contains th.ltid && th.alive && th.wait != .run))

/-- The part that a turn issues has issued (03 R54, R63): its live lanes move on; then formation, faults and traps. Waits end and
divergence takes effect at the end of the group. DESIGN CHOICE (log entry 59): an `exit` of some lanes is no control transfer taken,
so it makes no result of the others visible (03 R66, 07 R147). -/
def State.endPart (s : State) (t : Turn) : State :=
  let s := { s with turn := none, issueN := s.issueN + 1 }
  match (s.team? t.team).bind (fun tm => tm.warp? t.warp) with
  | none => s
  | some w =>
    let ids := w.lanes.filterMap id
    let now := s.clock.clk
    let done := t.only.isNone && groupDone w.packet t.start t.next
    let s := match t.only with
      | some _ => s.updTeam t.team (fun tm => (tm.updThreads ids (fun th =>
          { th.unfresh with lastIssue := now })).updWarp t.warp
            (fun w => { w with redo := w.redo.drop 1, due := now + 1, stop := w.stop.map Halt.passed }))
      | none =>
        let jumped := match s.team? t.team with
          | some tm => tm.threads.any (fun th => ids.contains th.ltid && th.next.isSome)
          | none => false
        s.updTeam t.team (fun tm => (tm.updThreads ids (fun th =>
          th.advance t.pc t.next (1 + t.stall) jumped now)).updWarp t.warp
            (fun w => { w with packet := if t.next.isSome then w.packet else none, due := max w.due (now + 1 + t.stall)
                               mid := !done, stop := w.stop.map Halt.passed }))
    let s := (s.stepped t.team ids).afterPart t.team t.warp
    let s := if t.wake || (done && s.anyWaits t.team ids) then (s.settle t.team).updTeam t.team Team.retire else s
    if done then s.takeStops t.team ids else s

/-- The instruction of a slot has been performed: the next one of the part issues, or the part ends. -/
def State.finishSlot (s : State) : State :=
  match s.turn with
  | none => s
  | some t =>
    match t.more with
    | k :: ks => { s with turn := some { t with slot := k, more := ks } }
    | [] => s.endPart t

/-- The part may end a wait: `settle` follows it. -/
def State.wakes (s : State) : State := { s with turn := s.turn.map (fun t => { t with wake := true }) }

/-- A part has no effect, and its warp traps (03 R69, R70; 07 R146): the live lanes stand after the part when the
handler continues, and at the next packet after a transfer whose target faults (26 R412). -/
def State.rejectPart (s : State) (t : Turn) (cause : BitVec 16) (slot : Nat) (detail : Option Nat) (kind : Nat)
    (offer : Offer) : State :=
  let d := BitVec.ofNat 64 (detail.getD s.unstated)
  let s := { s.drew with turn := none, issueN := s.issueN + 1 }
  let t := if cause = 6 then { t with next := none } else t
  match (s.team? t.team).bind (fun tm => tm.warp? t.warp) with
  | none => s
  | some w =>
    let ids := w.lanes.filterMap id
    let now := s.clock.clk
    let done := groupDone w.packet t.start t.next
    let s := if kind = 2 then s
      else s.updTeam t.team (fun tm => (tm.updThreads ids (fun th =>
        ({ th with next := none }).advance t.pc t.next (1 + t.stall) false now)).updWarp t.warp
          (fun w => { w with packet := if t.next.isSome then w.packet else none, due := now + 1 + t.stall, mid := !done }))
    let s := s.stepped t.team ids
    (s.raiseTrap t.team t.warp ⟨kind, cause, 0, d, t.pc, slot, t.start, none, [], none, offer, w.mid⟩).takeStops t.team ids

end Sys2Proof.Machine
end

