-- ==== Sys2Proof/Machine/Spaces.lean ====
section
/-! DEFINITION. Where an access of a lane goes: the spaces of 13 R225, the checks of 07 R152 and 15 R268, frames of
trap handlers (26 R411), the side log (26 R415, R416), and reading and writing the place. -/

namespace Sys2Proof.Machine

/-- Bytes of an access of a type (07 R151, 15 R275). -/
def accBytes (ty : Nat) : Nat := typeWidth ty / 8

/-- The crew rank field: AUX[2:1] of `ld`, AUX[1:0] of the others (15 R265). -/
def rankOf (op : Op) (e : Enc) : Nat := if op = .ld then e.x.aux.toNat / 2 else e.x.aux.toNat % 4

/-- The place of an access: global memory, a scratchpad, a trap frame or the weight store. -/
inductive Place where
  | mem (l : Loc)
  | spad (team off : Nat)
  | frame (trap off : Nat)
  | ws (off : Nat)
deriving DecidableEq, Repr

/-- The member of rank `r` of a team's crew (08 R158). -/
def State.crewMember (s : State) (t : Team) (r : Nat) : Option Team :=
  if r = t.crank then some t
  else s.wk.teams.find? (fun m => m.grid == t.grid && m.crewId == t.crewId && m.crank == r)

/-- Crew size and scratchpad bytes of a team's launch. -/
def State.launchOf (s : State) (t : Team) : Option Launch := (s.grid? t.grid).map Grid.launch
@[inherit_doc State.launchOf]
def State.crewSize (s : State) (t : Team) : Nat := ((s.launchOf t).map Launch.crew).getD 1
@[inherit_doc State.launchOf]
def State.spadSize (s : State) (t : Team) : Nat := ((s.launchOf t).map Launch.spad).getD 0

/-- The scratchpad checks of 15 R268 from rule 4 on. -/
def State.spadCheck (s : State) (owner : Team) (ea n : Nat) (k : Acc) : Except (BitVec 16) Place :=
  if s.spadSize owner ≤ ea ∨ s.spadSize owner < ea + n then .error 0x14
  else if ea % n ≠ 0 then .error 0x11
  else if k ≠ .read ∧ s.hitsBar owner.core owner.id ea n then .error 0x17
  else .ok (.spad owner.id ea)

/-- The checks and the place of an access in the global virtual space (07 R152). Accesses are checked for poison where they
read, and for backing (30 R474, R484). -/
def State.globalPlace (s : State) (ctx : Nat) (tlb : Tlb) (ea n : Nat) (k : Acc) : Except (BitVec 16) Place :=
  match s.resolve ctx tlb ea n n k with
  | .error c => .error c
  | .ok (.arg g off) => .ok (.mem (.arg g off))
  | .ok (.phys pa m) =>
    if k = .write ∨ k = .red then (if !s.pkg.backed pa && !s.pkg.lostHome pa then .error 0x18 else .ok (.mem (.phys pa m)))
    else if s.badData pa n then .error 0x18 else .ok (.mem (.phys pa m))

/-- The checks and the place of an access of `n` bytes at `ea` by a team, in a warp with the given trap (07 R152, 13
R226, 15 R268, 26 R411). -/
def State.place (s : State) (t : Team) (trap : Option Nat) (space rank ea n : Nat) (k : Acc) : Except (BitVec 16) Place :=
  match space with
  | 0 => s.globalPlace t.ctx (.vector t.core) ea n k
  | 1 =>
    match trap with
    | some r =>
      if 0x100000 ≤ ea ∧ ea + n ≤ 0x100100 then (if ea % n ≠ 0 then .error 0x11 else .ok (.frame r (ea - 0x100000)))
      else s.spadCheck t ea n k
    | none => s.spadCheck t ea n k
  | 2 =>
    if s.crewSize t ≤ rank then .error 0x15
    else
      match s.crewMember t rank with
      | none => .error 0x15
      | some m => if m.freed ∧ k ≠ .read then .error 0x15 else s.spadCheck m ea n k
  | _ =>
    if k ≠ .read then .error 0x16
    else if 2 ^ 28 ≤ ea ∨ 2 ^ 28 < ea + n then .error 0x14
    else if ea % n ≠ 0 then .error 0x11
    else if s.wsPoisoned (dieOf t.core) ea n then .error 0x18
    else .ok (.ws ea)

/-- The kind of access of a memory instruction. -/
def accKind (op : Op) : Acc :=
  match op with
  | .ld | .ldc | .prf => .read
  | .st => .write
  | .red | .redDet => .red
  | _ => .rmw

/-- The place of a lane's access by a memory instruction (15 R267). -/
def Iss.place (i : Iss) (s : State) (l : Lane) : Except (BitVec 16) Place :=
  s.place i.team i.warp.trap i.e.x.space.toNat (rankOf i.op i.e) (l.addr i.e) (accBytes (typeOf 3 i.e)) (accKind i.op)

/-! ### Scratchpads, frames and the weight store -/

/-- A trap frame of a team. -/
def Team.frame (t : Team) (trap : Nat) : Table Byte :=
  ((t.traps.find? (fun r => r.id == trap)).map TrapRec.frame).getD []

/-- Reads a place that is not global memory as it stands. -/
def State.readPlace (s : State) (t : Team) (p : Place) (n : Nat) : List Byte :=
  match p with
  | .spad owner off => ((s.team? owner).map (fun m => m.spadBytes off n)).getD []
  | .frame r off => (List.range n).map (fun k => Table.read 0 (((s.team? t.id).getD t).frame r) (off + k))
  | .ws off => (List.range n).map (fun k => s.wsByte (dieOf t.core) (off + k))
  | .mem (.arg g off) => s.argBytes g off n
  | .mem (.phys pa _) => s.mm.bytes pa n

/-- A plain load of a thread at a place that is not global memory: in a scratchpad, a write that races with it may be found or missed
(14 R248, R257), and a live barrier object is read as it stands (15 R282). -/
def State.loadPlace (s : State) (t : Team) (thread : Nat) (p : Place) (n : Nat) : List Byte :=
  match p with
  | .spad owner off =>
    let r := s.reader t.core t.id thread
    (match s.team? owner with
      | none => []
      | some m =>
        if s.hitsBar m.core owner off n then m.spadBytes off n
        else (cutChunks off (List.replicate n 0)).zipIdx.flatMap (fun q =>
          ((m.viewSpad (s.free + q.2) r q.1.1).drop q.1.2.1).take q.1.2.2.length))
  | .frame .. | .ws _ | .mem _ => s.readPlace t p n

/-- Writes a place that is not global memory. -/
def State.writePlace (s : State) (t : Team) (by' : Write) (p : Place) (bs : List Byte) : State :=
  match p with
  | .spad owner off => s.writeSpad owner by' off bs
  | .frame r off => s.updTeam t.id (fun m => { m with traps := m.traps.map (fun q =>
      if q.id = r then { q with frame := (bs.zipIdx).foldl (fun f b => Table.write 0 f (off + b.2) b.1) q.frame } else q) })
  | .ws _ | .mem _ => s

/-! ### The side log -/

/-- An entry of the side log overlaps `n` bytes at an address of a context. -/
def SideEntry.overlaps (x : SideEntry) (ctx ea n : Nat) : Bool :=
  x.ctx == ctx && decide (x.va.toNat < ea + n) && decide (ea < x.va.toNat + x.data.length)

/-- Free entries of a core's side log; those of an evicted context are in its save area (26 R415, R424). -/
def State.sideFree (s : State) (core : Nat) : Nat := 64 - (s.mm.side.filter (fun x => x.core == core && !x.stored)).length

/-- A team has entries in the side log. -/
def State.sideBusy (s : State) (team : Nat) : Bool := s.mm.side.any (fun x => x.team == team)

end Sys2Proof.Machine
end

