-- ==== Sys2Proof/Machine/Routes.lean ====
section
/-! DEFINITION. The links between the dies as messages cross them: the way from one die to another (30 R469, R471, R473) and what an
instruction sends over links (30 R479 to R482). Link `k` joins edge 0 of physical die `k` to edge 1 of die `k + 1` (R469). -/

namespace Sys2Proof.Machine

def State.link (s : State) (k : Nat) : Link := Table.read Link.reset s.pkg.links k

def State.updLink (s : State) (k : Nat) (f : Link → Link) : State :=
  { s with pkg.links := Table.upd Link.reset s.pkg.links k f }

/-- Steps round the ring from die `a` to die `b`, going up through `n` links and the dies between, or none where one of them is
not working. -/
def Pkg.stepsUp (p : Pkg) (links : Table Link) (a : Nat) (n : Nat) : Option Nat :=
  let ok (k : Nat) : Bool := (Table.read Link.reset links ((a + k) % 4)).up && bitAt p.liveBits ((a + k) % 4)
  if (List.range n).all ok then some n else none

/-- Links crossed from one physical die to another by the shorter way (30 R473). -/
def Pkg.hops (p : Pkg) (links : Table Link) (a b : Nat) : Nat :=
  let up := p.stepsUp links a ((b + 4 - a) % 4)
  let down := p.stepsUp links b ((a + 4 - b) % 4)
  match up, down with
  | some x, some y => min x y
  | some x, none => x
  | none, some y => y
  | none, none => 0

/-- The links on the way between two domains, the shorter one. -/
def State.route (s : State) (d e : Nat) : List Nat :=
  if d = e then []
  else
    let a := s.pkg.physOf d
    let b := s.pkg.physOf e
    let n := s.pkg.hops s.pkg.links a b
    let from' (x : Nat) : List Nat := (List.range n).map (fun k => (x + k) % 4)
    if s.pkg.stepsUp s.pkg.links a ((b + 4 - a) % 4) = some n then from' a else from' b

/-- The links on the way from a die to the home of an address. -/
def State.routeHome (s : State) (die pa : Nat) : List Nat := s.route die ((s.pkg.home pa).getD die)

/-- The links that the write-backs of a line in flight have to cross (30 R487). -/
def State.backRoutes (s : State) (line : Nat) : List Nat :=
  (s.mm.wbs.filter (fun w => w.line == line)).flatMap (fun w => s.routeHome (dieOf w.core) (256 * line))

/-- An access of a core is served without a message to its line's home: from its L1, or its die's near copy (30 R479). -/
def State.servedNear (s : State) (i : Iss) (pa mtype : Nat) : Bool :=
  let l := s.l1 i.core
  mtype == 0 && (match i.op with
    | .ld | .prf => decide (i.e.x.scope.toNat ≤ 1) && i.e.x.cache != 3
        && (l.sects.contains (sectorOf pa) || s.mm.near.any (fun c => c.die == i.die && c.line == lineOf pa))
    | .ldc => (Table.read [] s.mm.ro i.core).contains (sectorOf pa) || s.mm.near.any (fun c => c.die == i.die && c.line == lineOf pa)
    | .st => decide (i.e.x.scope.toNat ≤ 1) && !([3, 4, 5].contains i.e.x.cache.toNat)
    | .atom | .cas => l.excl.contains (lineOf pa)
    | _ => true)

/-- The links that the accesses of an instruction cross. -/
def State.accessRoutes (s : State) (i : Iss) : List Nat :=
  if [Op.ld, .ldc, .prf, .st, .atom, .cas].contains i.op ∧ i.e.x.space = 0 then
    i.perf.flatMap (fun p => match i.place s p.1 with
      | .ok (.mem (.phys pa m)) => if s.servedNear i pa m then [] else s.routeHome i.die pa ++ s.backRoutes (lineOf pa)
      | .ok _ | .error _ => [])
  else []

/-- The links that a release of a team's threads crosses (14 R260): dirty bytes of the core, its write-backs, and contributions. -/
def State.releaseRoutes (s : State) (core team : Nat) : List Nat :=
  ((s.l1 core).dirty.flatMap (fun (e : Nat × List Write) => s.routeHome (dieOf core) (8 * e.1)))
  ++ ((s.mm.wbs.filter (fun w => w.core == core)).flatMap (fun w => s.routeHome (dieOf core) (256 * w.line)))
  ++ ((s.mm.contribs.filter (fun c => c.team == team && c.st == .flight)).flatMap (fun c => s.routeHome (dieOf c.core) c.addr))

/-- A message of an instruction has to cross a link in L1, which it must wait for (30 R482); `rel` tells that the instruction is a
release. -/
def State.linkSleeps (s : State) (i : Iss) (rel : Bool) : Bool :=
  s.pkg.links.any (fun e => e.2.asleep)
  && (s.accessRoutes i ++ (if rel then s.releaseRoutes i.core i.team.id else [])).any (fun k => (s.link k).asleep)

/-- Flits cross the links of a list now (30 R481). -/
def State.noteFlits (s : State) (ks : List Nat) : State :=
  ks.foldl (fun (s : State) k => s.updLink k (fun l => { l with flit := s.clock.time })) s

end Sys2Proof.Machine
end

