-- ==== Sys2Proof/Machine/Checks.lean ====
section
/-! DEFINITION. The checks of a group before it issues (03 R56, R65, R70, R71; 07 R146; 10 R209; 28 R455, R458) and the
reasons for which a warp does not issue (09 R193). -/

namespace Sys2Proof.Machine

/-! ### Targets -/

/-- The signed displacement or offset of a literal. -/
def litInt (e : Enc) : Int := toSigned 32 (e.lit.getD 0).toNat

/-- The 64-bit target of a control transfer in a lane (07 R141, R142). -/
def Lane.target (l : Lane) (op : Op) (e : Enc) (pc : VAddr) : Nat :=
  match op with
  | .bra | .call => wrapInt 64 ((pc.toNat : Int) + litInt e)
  | .brxRel => wrapInt 64 ((pc.toNat : Int) + 16 * toSigned 32 (l.src 1 e.a.toNat) + litInt e)
  | _ => wrapInt 64 ((l.src 2 e.a.toNat : Int) + litInt e)

/-- Forms that transfer to a target. -/
def hasTarget (op : Op) : Bool := [Op.bra, .brx, .brxRel, .call, .callX, .ret].contains op

/-- The address that the lowest active lane of a uniform transfer gives to all, or each lane's own (07 R143). -/
def Iss.targets (i : Iss) : List (Lane × Nat) :=
  i.perf.flatMap (fun p => p.2.map (fun l => (l, p.1.target i.op i.e i.pc)))

/-- The lanes whose target has bits [63:48] not all zero (07 R146). -/
def Iss.farLanes (i : Iss) : List Lane :=
  if hasTarget i.op then (i.targets.filter (fun p => decide (2 ^ 48 ≤ p.2))).map Prod.fst else []

/-! ### Rights of system registers -/

/-- What a thread may do with a system register outside and inside trap mode: read, write (28 R451). -/
def sysRights (index : Nat) (tmode : Bool) : Bool × Bool :=
  if index = 0x00 then (tmode, false)
  else if index = 0x08 then (true, tmode)
  else if index = 0x09 ∨ (0x20 ≤ index ∧ index ≤ 0x23) then (true, false)
  else (false, false)

/-! ### Instruction checks -/

/-- The region's join address (10 R206). -/
def regionLabel (e : Enc) (pc : VAddr) : Nat := wrapInt 64 ((pc.toNat : Int) + litInt e)

/-- The encoding checks of 03 R70 with what the descriptions add for the thread's mode (10 R206, 28 R455, R458): the
DETAIL of the illegal-instruction trap, where one is stated. -/
def Iss.illegal (i : Iss) : Option (Option Nat) :=
  if !encodingOk i.nreg i.op i.e then some none
  else
    match i.op with
    | .rgn => if 2 ^ 48 ≤ regionLabel i.e i.pc then some none else none
    | .tret => if i.tmode then none else some none
    | .sysr => if (sysRights i.e.a.toNat i.tmode).1 then none else some (some i.e.a.toNat)
    | .sysw => if (sysRights i.e.a.toNat i.tmode).2 then none else some (some i.e.a.toNat)
    | _ => none

/-- STRICT_STALL: some source or the guard has a latest producer that is not yet visible (03 R65). DESIGN CHOICE (log entry 59): where
WRITE_REG has made the %tcfg of a warp's lanes differ, each lane's own bit counts. -/
def Iss.earlyRead (i : Iss) : Bool :=
  i.e.guard != 0xF
  && (i.live.any (fun l => bitAt l.th.tcfg.toNat 0 && l.th.early (.pred (i.e.guard.toNat % 8)))
      || i.act.any (fun l => bitAt l.th.tcfg.toNat 0
          && ((regReads i.op i.e).any (fun n => l.th.early (.reg n)) || (predReads i.op i.e).any (fun n => l.th.early (.pred n)))))

/-- STRICT_UNI: a source of a uniform instruction differs between active lanes (03 R56), the selecting predicate of `sel` among them
(05 R100). DESIGN CHOICE (log entry 59): where WRITE_REG has made the %tcfg of a warp's lanes differ, one active lane's bit is enough. -/
def Iss.uneven (i : Iss) : Bool :=
  i.act.any (fun l => bitAt l.th.tcfg.toNat 1) && i.e.u == 1
  && (match i.act with
      | [] => false
      | l :: ls => ls.any (fun m =>
          (regReads i.op i.e).any (fun n => m.th.reg n != l.th.reg n)
          || (specialReads i.op i.e).any (fun c => m.word c != l.word c)
          || (i.op == .sel && m.psrc i.e.x.c.toNat != l.psrc i.e.x.c.toNat)))

/-- The instruction of a slot as the issuing warp sees it. -/
def State.slotIss (s : State) (p : BitVec 128) (slot : Nat) : Option Iss :=
  match (slotInstr p slot).bind Instr.op? with
  | some (op, e) => (s.iss? op e).map (fun i => { i with turn := { i.turn with slot := slot } })
  | none => none

/-- The group that begins at a slot holds a regrouping load together with a `join`, `rgp` or `bwait`: a check made when its first part
issues (10 R209). -/
def mixedGroup (p : BitVec 128) (slot : Nat) : Bool :=
  match (groupsOf (groupField p)).find? (fun g => g.1 == slot) with
  | none => false
  | some g =>
    let ops := (groupSlots p g).filterMap (fun k => (slotInstr p k).bind Instr.op?)
    ops.any (fun o => o.1 == .ld && bitAt o.2.x.aux.toNat 0)
    && ops.any (fun o => o.1 == .join || o.1 == .rgp || o.1 == .bwait)

/-- The first slot of the group after the one that holds a slot. -/
def groupAfter (p : BitVec 128) (slot : Nat) : Option Nat :=
  let gs := groupsOf (groupField p)
  (gs.find? (fun g => decide (g.1 ≤ slot) && decide (slot ≤ g.2))).bind (fun g =>
    (gs.find? (fun h => decide (g.2 < h.1))).map Prod.fst)

/-- The fault of a part before it issues, in the order of 03 R71: cause, slot and DETAIL. DESIGN CHOICE (log entry 59): where a lower
slot fails a later check of R71 than a higher one, the slot of the earlier check is named (03 R70). -/
def State.partFault (s : State) (p : BitVec 128) (slots : List Nat) : Option (BitVec 16 × Nat × Option Nat) :=
  let is := slots.map (fun k => (k, s.slotIss p k))
  let first (f : Iss → Option (BitVec 16 × Option Nat)) : Option (BitVec 16 × Nat × Option Nat) :=
    is.findSome? (fun q => q.2.bind (fun i => (f i).map (fun r => (r.1, q.1, r.2))))
  (first (fun i => if i.earlyRead then some (2, none) else none)).or
  ((is.findSome? (fun q => match q.2 with
      | none => some (2, q.1, none)
      | some i => i.illegal.map (fun d => (2, q.1, d)))).or
  ((slots.head?.bind (fun k => if mixedGroup p k then some (2, k, none) else none)).or
  ((first (fun i => if i.uneven then some (2, none) else none)).or
   (first (fun i => if i.farLanes.isEmpty then none else some (6, some (laneMask i.farLanes)))))))

/-! ### Why a warp waits -/

/-- Registers and predicates that the instruction waits for in a lane (03 R66). -/
def Iss.owed (i : Iss) (l : Lane) : Bool :=
  (regReads i.op i.e ++ regWrites i.op i.e).any (fun n => l.th.owes (.reg n))
  || (predReads i.op i.e ++ predWrites i.op i.e).any (fun n => l.th.owes (.pred n))

/-- The scoreboard holds the instruction back. -/
def Iss.scored (i : Iss) : Bool :=
  i.e.guard != 0xF
  && (i.live.any (fun l => l.th.owes (.pred (i.e.guard.toNat % 8))) || i.act.any i.owed)

/-- The queue that the commands of an instruction enter (17 R295, 21 R368). -/
def Iss.queue (i : Iss) : Option QueueId :=
  match i.op with
  | .cpy | .cpys | .cpyw | .put => some (.copy i.core)
  | .hbld | .hprb | .hlk | .mrg | .scn | .hfree => some (.coord i.core)
  | .xenq | .xtake => some (.expert i.core)
  | _ => none

/-- Commands that an instruction enters: one for each performance, or one for the warp (21 R369, R377, R379; 22
R381). -/
def Iss.commands (i : Iss) : Nat :=
  match i.op with
  | .hlk | .xtake | .tmmsp => 1
  | _ => i.perf.length

/-- The queues that a `qfence` names: the core's copy and coordinate queues and expert port, and the team's tile queue
(17 R299, 21 R375). -/
def Iss.fenceQueues (i : Iss) : List QueueId :=
  let m := i.e.x.c.toNat
  (if bitAt m 0 then [.copy i.core] else []) ++ (if bitAt m 1 then [.coord i.core] else [])
    ++ (if bitAt m 2 then [.expert i.core] else []) ++ (if bitAt m 3 then [.tile i.team.id] else [])

def isTileForm (op : Op) : Bool := [Op.tmm, .tmmsp, .tgms, .tsacc, .tzero, .tst, .tldac, .ttr, .tscl].contains op

/-- The rewrite window and the tile queue can take the instruction's commands (22 R381, 19 R329). -/
def State.tileRoom (s : State) (i : Iss) : Bool :=
  decide (i.team.window.length + (s.queued (.tile i.team.id)).length + i.commands ≤ 40)

/-- The instruction is a release, or waits like one (14 R253, R260; 15 R290; 17 R296; 28 R456): a `.seq` load waits for the thread's
earlier `.seq` stores, which may be in the side log (14 R258). -/
def isRelease (op : Op) (e : Enc) : Bool :=
  let o := e.x.order.toNat
  match op with
  | .fence => o == 2 || o == 3 || o == 4
  | .st | .atom | .cas | .red => o == 2 || o == 3 || o == 4 || (e.x.scope == 6 && o == 3)
  | .sysw | .barr => true
  | .bexp => e.x.aux == 1
  | .ld => o == 4
  | .cpy | .cpys | .cpyw | .put | .hbld | .hprb | .hlk | .mrg | .scn | .hfree | .xenq => true
  | .tmm | .tmmsp | .tgms | .tsacc | .tst | .tldac => true
  | _ => false

/-- Some side-log entry of the team overlaps `n` bytes at an address. -/
def State.logged (s : State) (i : Iss) (va n : Nat) : Bool := s.mm.side.any (fun x => x.team == i.team.id && x.overlaps i.ctx va n)

/-- The child record of a `spawn`, or the argument block that it names, overlaps a side-log entry of the team (10 R210, 26 R416). -/
def State.spawnReads (s : State) (i : Iss) (l : Lane) : Bool :=
  let va := l.src 2 i.e.a.toNat
  let word (off n : Nat) : Nat := match s.resolve i.ctx (.vector i.core) (va + off) n n .read with
    | .ok (.phys pa _) => ofBytes (s.coreBytes i.core pa n)
    | .ok (.arg g o) => ofBytes (s.argBytes g o n)
    | .error _ => 0
  s.logged i va 128 || s.logged i (bitsAt (word 0x30 8) 47 0) (bitsAt (word 0x2C 4) 15 0)

/-- An access of the instruction waits for a side-log entry that it overlaps: any entry of the team for a load or
atomic, an entry of the same thread for a store or reduction whose page is mapped (26 R416). -/
def State.sideWait (s : State) (i : Iss) : Bool :=
  let n := accBytes (typeOf 3 i.e)
  let hits (l : Lane) (own : Bool) : Bool := s.mm.side.any (fun x =>
    x.team == i.team.id && (!own || x.thread == l.th.ltid) && x.overlaps i.ctx (l.addr i.e) n)
  match i.op with
  | .ld | .ldc | .atom | .cas => i.e.x.space == 0 && i.act.any (fun l => hits l false)
  | .st | .red | .redDet => i.e.x.space == 0 && i.act.any (fun l => hits l true && (match i.place s l with
      | .error c => c != 0x12
      | .ok _ => true))
  | .spawn => i.act.any (fun l => s.spawnReads i l)
  | _ => false

/-- The store or reduction could need a side-log entry that is not free (26 R415, 09 R193): it could need one for each access that
it makes. -/
def State.sideFull (s : State) (i : Iss) : Bool :=
  match i.op with
  | .st | .red | .redDet =>
    i.e.x.space == 0 && decide (s.sideFree i.core < i.perf.length)
  | _ => false

/-- An access to the scratchpad of a crew member whose context is evicted waits (26 R426). -/
def State.crewAway (s : State) (i : Iss) : Bool :=
  match i.op with
  | .ld | .st | .atom | .cas => i.e.x.space == 2 && (match s.crewMember i.team (rankOf i.op i.e) with
      | some m => m.slot.isNone && !m.freed
      | none => false)
  | _ => false

/-- Sectors that the instruction's line requests miss, each once (13 R229). -/
def State.missed (s : State) (i : Iss) : List Nat :=
  dedup ((i.perf.filterMap (fun p => match i.place s p.1 with
    | .ok (.mem (.phys pa 0)) => some (sectorOf pa)
    | .ok _ | .error _ => none)).filter (fun c => !(s.l1 i.core).sects.contains c
      && !s.mm.fills.any (fun f => f.core == i.core && f.sector == c)))

/-- The miss-status entries of a core that are in use (13 R229). -/
def State.missUsed (s : State) (core : Nat) : Nat := (s.mm.fills.filter (fun f => f.core == core)).length

/-- The core has too few free miss-status entries, 512 in all, for the instruction's line requests (13 R229). -/
def State.missFull (s : State) (i : Iss) : Bool :=
  match i.op with
  | .ld | .atom | .cas => i.e.x.space == 0 && decide (512 < s.missUsed i.core + (s.missed i).length)
  | _ => false

/-- The spawn intake of a die is full (10 R210; log entry 60): children of its threads of which no team is placed yet. -/
def State.intakeFull (s : State) (die : Nat) : Bool :=
  decide (Config.spawnIntake < (s.fe.grids.filter (fun g => g.parent.any (fun p => dieOf p.core == die)
    && g.shares.all (fun sh => sh.next == sh.lo && decide (sh.lo < sh.hi)))).length)

/-- Memory or engine back-pressure of an instruction (09 R193 reason 10). -/
def State.pressed (s : State) (i : Iss) : Bool :=
  !i.act.isEmpty
  && ((match i.queue with
        | some q => !s.room q i.commands
        | none => false)
      || (i.op == .qfence && !i.fenceQueues.all (fun q => s.room q (match q with
            | .tile _ => 1 + i.team.window.length
            | _ => 1)))
      || (isTileForm i.op && !s.tileRoom i)
      || ((isTileForm i.op || [Op.fence, .bwait, .qfence, .tflush].contains i.op) && s.rewriteHeld i.team)
      || (isRelease i.op i.e && s.sideBusy i.team.id)
      || s.sideWait i || s.crewAway i || s.missFull i || s.linkSleeps i (isRelease i.op i.e) || (i.op == .spawn && s.intakeFull i.die))

/-- The instruction must wait before it issues. -/
def State.held (s : State) (i : Iss) : Bool := i.scored || s.sideFull i || s.pressed i

/-- A command, or an original that a failed probe would give back (19 R344), is a `tgms` of an epoch up to `e`. -/
def WinCmd.scatters (w : WinCmd) (e : Nat) : Bool := (w.cmd :: w.orig).any (fun c => c.op == .tgms && decide (c.epoch ≤ e))

/-- Contributions of a grid's epochs up to `e` that are not yet applied (15 R280). -/
def State.epochOpen (s : State) (grid e : Nat) : Bool :=
  let mine (c : Contrib) : Bool := c.grid == grid && (match c.det with
    | some (ep, _) => decide (ep ≤ e)
    | none => false)
  s.mm.contribs.any mine || s.mm.side.any (fun x => x.red.any mine)
  || s.eng.cmds.any (fun c => match c.body with
      | .tile w => c.grid == grid && w.scatters e && c.state != .performed
      | _ => false)
  || s.wk.teams.any (fun t => t.grid == grid && t.window.any (fun w => w.scatters e))

/-- A record that the warp made waits for room in hold mode (27 R431). -/
def State.traceHeld (s : State) (t : Team) (w : Warp) : Bool :=
  let r := s.ctx t.ctx (dieOf t.core)
  bitsAt r.traceCtl.toNat 2 1 == 2 && r.recs.any (fun x => x.team.any (fun p => p.1 == t.id)
    && w.lanes.any (fun o => o.any x.threads.contains))

/-- The turn that a warp would take next: a re-performance, or the next part of its packet. -/
def nextTurn (t : Team) (w : Warp) : Option Turn :=
  match w.redo with
  | r :: _ => some ⟨t.id, w.id, r.pc, r.slot, r.slot, [], none, 0, false, some r.threads, false⟩
  | [] =>
    match t.lanesOf w with
    | [] => none
    | l :: _ =>
      let part := match w.packet with
        | some p => partOf p l.th.slot
        | none => ([], none, 0)
      some ⟨t.id, w.id, l.th.pc, l.th.slot, l.th.slot, part.1, part.2.1, part.2.2, false, none, false⟩

/-- The instructions of a turn as its warp sees them. -/
def State.turnIss (s : State) (w : Warp) (n : Turn) : List Iss :=
  let s' := { s with turn := some n }
  match w.redo with
  | r :: _ => (r.instr.op?.bind (fun q => s'.iss? q.1 q.2)).toList
  | [] =>
    match w.packet with
    | none => []
    | some p => (n.slot :: n.more).filterMap (fun k => s'.slotIss p k)

/-- A STEP lets a frozen warp issue its part (27 R443). -/
def State.maySteps (s : State) (t : Team) (live : List Lane) : Bool :=
  s.dbg.stepping.any (fun p => p.team == t.id && !p.issued && live.any (fun l => l.th.ltid == p.thread))

/-- A debug stop or step holds the warp: some stop freezes it, or another warp of its context is stepped (27 R439, R443). -/
def State.stopped (s : State) (t : Team) (live : List Lane) : Bool :=
  (live.any (fun l => !l.th.frozen.isEmpty) || s.dbg.stepping.any (fun p => (s.team? p.team).any (fun m => m.ctx == t.ctx)))
  && !s.maySteps t live

/-- The warp's context is being switched out; a split group completes first (26 R422). -/
def State.leaving (s : State) (t : Team) (w : Warp) : Bool := (s.core t.core).req.isSome && t.slot == some (s.core t.core).active && !w.mid

/-- Some thread of the warp waits in `bwait`; at `join`, `rgp` or `tret`. Within a split group nothing waits yet (03 R54). -/
def waitsBar (w : Warp) (live : List Lane) : Bool := !w.mid && live.any (fun l => match l.th.wait with
  | .bwait .. => true
  | .run | .join _ | .rgp .. | .tret | .parked _ => false)
@[inherit_doc waitsBar]
def waitsJoin (w : Warp) (live : List Lane) : Bool := !w.mid && live.any (fun l => match l.th.wait with
  | .run | .bwait .. => false
  | .join _ | .rgp .. | .tret | .parked _ => true)

/-- The warp is held by a trap or a fault of its own, a record that waits in hold mode, or a closing fence (26 R410, R414; 27 R431; 15
R280). -/
def State.asks (s : State) (t : Team) (w : Warp) (live : List Lane) : Bool :=
  !w.want.isEmpty || (live.any (fun l => !l.th.faults.isEmpty) && w.redo.isEmpty) || s.traceHeld t w
  || (match w.fence with
    | some f => s.epochOpen t.grid f.epoch
    | none => false)

/-- No packet is latched. -/
def Warp.unlatched (w : Warp) : Bool := w.redo.isEmpty && w.packet.isNone

/-- The warp waits for nothing but its next packet (09 R193). -/
def State.fetchDue (s : State) (t : Team) (w : Warp) : Bool :=
  let live := t.lanesOf w
  w.unlatched && !s.stopped t live && !s.leaving t w && !waitsBar w live && !waitsJoin w live && !s.asks t w live

/-- The stall reason of a warp of the active context, the first of 09 R193 that applies but for contention, which leaves a warp ready;
0 for a warp that is ready. Whether the next packet of a warp that waits for something else is in the instruction cache is left open
(log entry 61); one whose fetch has faulted is held by back-pressure (26 R414). -/
def State.stall (s : State) (t : Team) (w : Warp) : Nat :=
  let live := t.lanesOf w
  if s.stopped t live then 1
  else if s.leaving t w then 2
  else if s.fetchDue t w || (w.unlatched && !w.want.any (fun r => r.kind == 2) && Config.freeBool s.free) then 3
  else if waitsBar w live then 4
  else if waitsJoin w live then 5
  else
    match nextTurn t w with
    | none => 5
    | some n =>
      let is := s.turnIss w n
      if is.any Iss.scored then 6
      else if s.clock.clk < w.due then 7
      else if is.any s.sideFull then 9
      else if s.asks t w live || is.any s.pressed then 10
      else 0

end Sys2Proof.Machine
end

