-- ==== Sys2Proof/Machine/Issue.lean ====
section
/-! DEFINITION. Issuing one instruction of a part (03 R53 to R56, R70, R71) and fetching a packet (03 R69, R72; 07 R146,
R148; 26 R414). -/

namespace Sys2Proof.Machine

/-- A lane of the warp has met a fault in a lower slot of the part, which is reported before the target of a transfer (03 R71). -/
def Iss.metFault (i : Iss) : Bool := i.live.any (fun l => l.th.faults.any (fun f => decide (f.slot < i.turn.slot) && f.pc == i.pc))

/-- One instruction issues: it traps where a check fails, waits where it cannot be accepted, and otherwise has its
effect `body`; without an active lane it has none beyond its STALL (03 R55). A re-performance makes only the
value-dependent checks again (26 R414). DESIGN CHOICE (log entry 59): a transfer whose target faults after a lower slot has faulted is
not taken, and only the lower slot's fault is reported. -/
def issued (op : Op) (e : Enc) (body : Iss → State → State) (s : State) : Host.Outcome State Fault Refusal :=
  match s.iss? op e with
  | none => .next s
  | some i =>
    match if i.turn.only.isSome then none else i.illegal with
    | some d => .next (s.rejectPart i.turn 2 i.turn.slot d 0 .none)
    | none =>
      if i.act.isEmpty then .next s.finishSlot
      else if !i.farLanes.isEmpty then
        (if i.metFault then .next s.finishSlot
         else .next (s.rejectPart i.turn 6 i.turn.slot (some (laneMask i.farLanes)) 0 .none))
      else if s.held i then .next { s with turn := none }
      else .next (body i s).finishSlot

/-- An instruction page fault is offered to system software (26 R414). -/
def State.offerFetch (s : State) (t : Team) (pc : VAddr) : Offer × State := s.offerFault t.ctx t.core pc.toNat 0 0 0 0xFF false

/-- The packet at a physical address as a fetch of a kernel finds it that began at write number `since` (07 R148). -/
def State.packetAt (s : State) (since pa : Nat) : BitVec 128 :=
  BitVec.ofNat 128 (ofBytes ((List.range 16).map (s.fetchByte since pa)))

/-- A warp fetches and checks its next packet (03 R69, R72; 07 R146). A packet that cannot be fetched or that fails its
packet-level checks has no effect in any slot. DESIGN CHOICE (log entry 59): where WRITE_REG has made the %tcfg of a warp's lanes
differ, the STRICT_GROUP of its lowest live lane counts. -/
def State.fetch (s : State) (team warp : Nat) : State :=
  match s.team? team with
  | none => s
  | some t =>
    match t.warp? warp with
    | none => s
    | some w =>
      match t.lanesOf w with
      | [] => s
      | l :: _ =>
        let pc := l.th.pc
        let n : Turn := ⟨team, warp, pc, l.th.slot, l.th.slot, [], none, 0, false, none, false⟩
        let tlb : Tlb := .instr t.core
        if pc.toNat % 16 ≠ 0 then s.rejectPart n 3 0 none 2 .none
        else
          match s.resolve t.ctx tlb pc.toNat 16 16 .fetch with
          | .error c =>
            if c = 0x04 then
              let r := s.offerFetch t pc
              r.2.rejectPart n c 0 (some pc.toNat) 2 r.1
            else s.rejectPart n c 0 (some pc.toNat) 2 .none
          | .ok (.arg _ _) => s.rejectPart n 5 0 (some pc.toNat) 2 .none
          | .ok (.phys pa _) =>
            if s.badData pa 16 then s.rejectPart n 0x18 0 (some pc.toNat) 2 .none
            else
              let s := s.noteTlb tlb t.ctx pc.toNat
              let p := s.packetAt (((s.grid? t.grid).map Grid.since).getD 0) pa
              let s := { s with free := s.free + 17 }
              if packetOk (bitAt l.th.tcfg.toNat 2) p then
                s.updTeam team (fun t => t.updWarp warp (fun w => { w with packet := some p }))
              else s.rejectPart n 1 0 none 0 .none

end Sys2Proof.Machine
end

