-- ==== Sys2Proof/Machine/Watch.lean ====
section
/-! DEFINITION. What a memory access shows to the debugger and the profiler: watchpoints (27 R441, R442) and the
sampling of line requests (R447). -/

namespace Sys2Proof.Machine

/-- The thread access of a context as watchpoints see it: its packet, its core, and its warp. -/
structure Looker where
  ctx  : Nat
  core : Nat
  pc   : BitVec 48
  team : Nat
  warp : Nat

/-- An access of a lane as a watchpoint sees it: `kind` is 0 read, 1 write, 2 read-modify-write; `space` 0 or 1, with the
core where it is checked. -/
structure Seen where
  lane  : Nat
  ltid  : Nat
  space : Nat
  core  : Nat
  addr  : Nat
  bytes : Nat
  kind  : Nat

/-- The watchpoint matches the access (27 R441, R442). -/
def Watch.matches (w : Watch) (ctx : Nat) (x : Seen) : Bool :=
  let lo := w.lo.toNat
  let base := bitsAt lo 47 0
  bitAt lo 60 && bitsAt w.hi.toNat 7 0 == ctx && bitsAt lo 50 48 == x.space
  && (x.space == 0 || bitsAt lo 52 51 == x.core % 4)
  && decide (base < x.addr + x.bytes) && decide (x.addr < base + 2 ^ bitsAt lo 56 53)
  && bitAt lo (57 + x.kind)

/-- The watchpoints of the cluster that match an access, by number. -/
def State.watchHits (s : State) (ctx : Nat) (x : Seen) : List (Nat × Watch) :=
  (s.dbg.watches.filter (fun p => p.1 / 8 == clusterOf x.core && p.2.matches ctx x)).map (fun p => (p.1 % 8, p.2))

/-- The warps of a context on the cores that satisfy a test, with their teams. -/
def State.warpsOf (s : State) (ctx : Nat) (p : Team → Bool) : List (Nat × Nat) :=
  (s.wk.teams.filter (fun t => t.ctx == ctx && p t)).flatMap (fun t => t.warps.map (fun w => (t.id, w.id)))

/-- A watchpoint's stop of a warp is on its way (27 R439, R442); the trigger cycle is the present one, and the issuing warp's own
access does not count in its SKID. -/
def State.watchStop (s : State) (t : Team) (w : Warp) (own : Bool) (cap : Word) : State :=
  let now := s.clock.clk
  let issued := !own && (t.live w).any (fun p => p.2.lastIssue == now) && !w.lanes.isEmpty
  if t.frozen w || w.stop.any (fun h => h.source == 1 && h.cycle == now) then s
  else s.updTeam t.id (fun t => t.updWarp w.id (fun w =>
    { w with stop := w.stop ++ [⟨1, [cap], now, if issued then 1 else 0, own⟩] }))

/-- Accesses that are performed together: every hit writes a WATCH record, and then each warp of the context on the cluster, or
on the die, that is not frozen takes one STOP under the lowest-numbered watchpoint that stops it (27 R442). The warp `own` is the one that issues the access in the present cycle. -/
def State.watch (s : State) (i : Looker) (own : Bool) (xs : List Seen) : State :=
  let hits := xs.flatMap (fun x => (s.watchHits i.ctx x).map (fun h => (x, h)))
  if hits.isEmpty then s
  else
    let s := hits.foldl (fun (s : State) (h : Seen × Nat × Watch) =>
      s.emit i.ctx h.1.core rWatch (h.2.1 + h.1.kind * 2 ^ 3 + h.1.lane * 2 ^ 8)
        [h.1.addr, i.pc.toNat, coreNo i.core + h.1.ltid * 2 ^ 32] true (some (i.team, i.warp))) s
    (sortBy (fun h => h.2.1) hits).foldl (fun (s : State) (h : Seen × Nat × Watch) =>
      let wide := bitAt h.2.2.lo.toNat 61
      let near (t : Team) : Bool := if wide then dieOf t.core == dieOf h.1.core else clusterOf t.core == clusterOf h.1.core
      (s.warpsOf i.ctx near).foldl (fun (s : State) (k : Nat × Nat) =>
        match s.team? k.1 with
        | none => s
        | some t =>
          match t.warp? k.2 with
          | none => s
          | some w => s.watchStop t w (own && k == (i.team, i.warp)) h.2.2.cap) s) s

/-- The accesses of an instruction that its warp issues. -/
def Iss.looker (i : Iss) : Looker := ⟨i.ctx, i.core, i.pc, i.team.id, i.warp.id⟩

/-- A side-log entry that is performed matches watchpoints now (27 R439, R442), and its WATCH record is its thread's warp's. -/
def State.watchSide (s : State) (t : Team) (x : SideEntry) : State :=
  let w := (t.warps.filter (fun w => w.lanes.contains (some x.thread))).head?
  s.watch ⟨x.ctx, x.core, x.pc, t.id, (w.map Warp.id).getD t.nextW⟩ false
    [⟨x.lane, x.thread, 0, x.core, x.va.toNat, x.data.length, if x.red.isSome then 2 else 1⟩]

/-! ### Sampling -/

/-- One line request of a pipe M instruction: its line address, or its offset, and its sector mask (13 R229). -/
def lineRequests (space : Nat) (xs : List (Nat × Nat)) : List (Nat × Nat) :=
  if space ≠ 0 then (xs.take 1).map (fun x => (x.1, 0))
  else
    let lines := sortBy id (dedup (xs.map (fun x => lineOf x.1)))
    lines.map (fun n => (256 * n, maskOf ((xs.filter (fun x => lineOf x.1 == n)).map (fun x => x.1 / 64 % 4))))

/-- A line request passes a stage (27 R447): a hit in L1 goes no further, a line homed on its own die crosses no die link, and a
SPACE 1 access passes none of the stages named. -/
def passesStage (space : Nat) (hit remote : Bool) (k : Nat) : Bool :=
  match space with
  | 0 => k ≤ 1 || k == 8 || (!hit && (remote || (k != 4 && k != 5)))
  | 2 => k == 2
  | 3 => k == 6 || k == 7
  | _ => false

/-- The queueing times of a request: free in the stages that it passes, and 0 in the others (27 R447). -/
def stageTimes (space : Nat) (hit remote : Bool) (free : Nat) : List Nat :=
  (List.range 9).map (fun k => if passesStage space hit remote k then (Config.freeBits 16 (free + k)).toNat else 0)

/-- Whether a line request hits in L1 in all its sectors, and whether its line is homed on another die (13 R229, 30 R474). -/
def State.lineHit (s : State) (i : Iss) (line mask : Nat) : Bool × Bool :=
  match s.resolve i.ctx (.vector i.core) line 1 1 .read with
  | .ok (.phys pa m) =>
    (m == 0 && [0, 1, 2, 3].all (fun k => !bitAt mask k || (s.l1 i.core).sects.contains (sectorOf pa + k)),
      s.pkg.home pa != some i.die)
  | .ok (.arg _ _) | .error _ => (false, false)

/-- Every 2^MLOG-th request of the context on the core writes a SAMPLE record (27 R447), by the state `before` its accesses.
Requests are counted while MEN is set. -/
def State.sample (s : State) (i : Iss) (before : State) (space : Nat) (xs : List (Nat × Nat)) : State :=
  let ctl := (s.ctx i.ctx i.die).sampleCtl.toNat
  if !bitAt ctl 0 then s
  else
    let every := 2 ^ bitsAt ctl 5 1
    (lineRequests space xs).foldl (fun (s : State) (r : Nat × Nat) =>
      let n := Table.read 0 (s.core i.core).reqs i.ctx + 1
      let s := s.updCore i.core (fun c => { c with reqs := Table.put c.reqs i.ctx n })
      if n % every ≠ 0 then s
      else
        let h := before.lineHit i r.1 r.2
        let ts := stageTimes space h.1 h.2 s.free
        let word (k : Nat) : Nat := (List.range 4).foldl (fun v j => v + (ts.getD (k + j) 0) * 2 ^ (16 * j)) 0
        let low := ((i.act.head?).map (fun l => l.th.ltid)).getD 0
        let total := (Config.freeBits 32 (s.free + 9)).toNat
        { s.emit i.ctx i.core rSample (i.op.code.toNat + i.turn.slot * 2 ^ 8 + space * 2 ^ 10 + low * 2 ^ 16)
            [i.pc.toNat + r.2 * 2 ^ 48, r.1, word 0, word 4, ts.getD 8 0 + total * 2 ^ 32] true
            (some (i.team.id, i.warp.id)) with
          free := s.free + 10 }) s

end Sys2Proof.Machine
end

