-- ==== Sys2Proof/Machine/Order.lean ====
section
/-! DEFINITION. Releases and acquires of threads (14 R253, R260; 13 R231; 30 R490) and reduction contributions (13 R235,
15 R275, R278 to R281). -/

namespace Sys2Proof.Machine

/-! ### Atomic operations on values -/

/-- The new value of an atomic operation (15 R275). -/
def atomNew (op ty old b : Nat) : Nat :=
  let w := typeWidth ty
  let sg := isSigned ty
  if ty = 0xC then
    (match op with
      | 0 => f32.add 0 false old b
      | 1 => f32.minmax false old b
      | _ => f32.minmax true old b).1
  else
    match op with
    | 0 => lowBits w (old + b)
    | 1 => if readInt sg w b < readInt sg w old then lowBits w b else old
    | 2 => if readInt sg w old < readInt sg w b then lowBits w b else old
    | 3 => old &&& lowBits w b
    | 4 => old ||| lowBits w b
    | 5 => old ^^^ lowBits w b
    | 6 => lowBits w b
    | _ => if lowBits w b ≤ old then 0 else old + 1

/-! ### Contributions -/

/-- A contribution is applied at its home slice (13 R235), as a write of its thread; one whose home has been lost is dropped (30
R484). An ordered one names its grid, since the closing fence finds it (15 R281). -/
def State.applyRed (s : State) (c : Contrib) : State :=
  let ty := c.type.toNat
  let n := typeWidth ty / 8
  let r := s.readHome c.addr n
  r.2.writeThrough none { Write.ofThread c.core c.team c.thread with grid := c.det.map (fun _ => c.grid) } c.addr
    (bytesOf n (atomNew c.opcode ty (ofBytes r.1) c.val.toNat))

/-- The ordered contributions of a grid that have been applied are seen by threads and their core from now on (15 R281). -/
def State.seeOrdered (s : State) (grid core : Nat) (threads : List (Nat × Nat)) : State :=
  let see (a : Arrival) : Arrival :=
    if a.write.grid = some grid then
      { a with write := { a.write with cores := dedup (core :: a.write.cores), threads := dedup (threads ++ a.write.threads) } }
    else a
  { s with mm.hist := s.mm.hist.map (fun (e : Nat × List Arrival) => (e.1, e.2.map see)) }

/-- The slice whose buffer holds a contribution (13 R235): its home die and slice. -/
def Pkg.slice (p : Pkg) (pa : Nat) : Nat := 8 * (p.home pa).getD 0 + homeSlice pa

/-- The overflow fault of the closing fence that closed an epoch, where a warp still waits in it (13 R235, 15 R280). -/
def overflowOf (w : Warp) (free : Nat) (f : FenceWait) : Warp :=
  { w with
    want := w.want ++ [⟨0, 0x50, 0, Config.freeBits 64 free, f.pc, f.slot, f.slot, none, [], none, .none, w.mid⟩]
    fence := some { f with raised := true } }

/-- A contribution of a closed epoch is kept: the fence that closed the epoch takes its overflow fault, once (13 R235; log entry
58). -/
def State.overflow (s : State) (grid epoch : Nat) : State :=
  { s.drew with wk.teams := s.wk.teams.map (fun (t : Team) =>
      if t.grid = grid then
        { t with warps := t.warps.map (fun (w : Warp) => match w.fence with
            | some f => if f.epoch = epoch ∧ !f.raised then overflowOf w s.free f else w
            | none => w) }
      else t) }

/-- Where an ordered contribution is kept on arrival (13 R235): the slice's buffer, the spill area, or the SAU. A spilled
contribution takes 32 bytes of the spill area, whose contents are free. -/
def State.holdRed (s : State) (c : Contrib) : State :=
  let held := (s.mm.contribs.filter (fun x => x.st == .held && s.pkg.slice x.addr == s.pkg.slice c.addr)).length
  let die := dieOf c.core
  let r := s.ctx c.ctx die
  let spilled := (s.mm.contribs.filter (fun x => x.st == .spilled && x.ctx == c.ctx)).length
  let set (s : State) (st : RedState) : State :=
    { s with mm.contribs := s.mm.contribs.map (fun x => if x.n = c.n then { x with st := st } else x) }
  if held < 65536 then set s .held
  else if spilled < bitsAt r.spillSize.toNat 31 0 then
    let va := 64 * bitsAt r.spillBase.toNat 47 6 + 32 * spilled
    let bytes := bytesOf 32 (Config.freeBits 256 s.free).toNat
    match s.drew.writeVirt c.ctx die va 32 bytes with
    | .ok s => set s .spilled
    | .error _ => set s.drew .spilled
  else (set s .kept).overflow c.grid ((c.det.map Prod.fst).getD 0)

/-- A contribution reaches its home slice: a plain one is applied, an ordered one is held (13 R235, 15 R278, R279). -/
def State.arriveRed (s : State) (n : Nat) : State :=
  match s.mm.contribs.find? (fun c => c.n == n) with
  | none => s
  | some c =>
    if c.st != .flight then s
    else
      match c.det with
      | some _ => s.holdRed c
      | none => { s with mm.contribs := s.mm.contribs.filter (fun x => x.n != n) }.applyRed c

/-- Two contributions share a byte. -/
def Contrib.overlaps (c d : Contrib) : Bool :=
  decide (c.addr < d.addr + typeWidth d.type.toNat / 8) && decide (d.addr < c.addr + typeWidth c.type.toNat / 8)

/-- A contribution may arrive: no plain one that must come before it is still on its way, of the same thread or of a lower
lane of the same instruction (15 R278). -/
def State.canArrive (s : State) (c : Contrib) : Bool :=
  c.st == .flight && (c.det.isSome || s.mm.contribs.all (fun d => !(decide (d.n < c.n) && d.st == .flight && d.det.isNone
    && d.overlaps c && ((d.team == c.team && d.thread == c.thread) || d.issue == c.issue))))

/-- Contributions that satisfy a test, and every plain one sent before the last of them, arrive now, in the order they were
sent. -/
def State.forceReds (s : State) (p : Contrib → Bool) : State :=
  match (s.mm.contribs.filter (fun c => c.st == .flight && p c)).getLast? with
  | none => s
  | some last =>
    (s.mm.contribs.filter (fun c => c.st == .flight && decide (c.n ≤ last.n) && (p c || c.det.isNone))).foldl (fun s c => s.arriveRed c.n) s

/-- The plain contributions of a thread to some of `n` bytes arrive before its own later access of them (01 R22). -/
def State.ownReds (s : State) (team thread pa n : Nat) : State :=
  s.forceReds (fun c => c.team == team && c.thread == thread && c.det.isNone && decide (c.addr < pa + n)
    && decide (pa < c.addr + typeWidth c.type.toNat / 8))

/-- A thread's loads in flight from some of `n` bytes are not taken again: its own later write must not be found by them (14 R257). -/
def State.dropOwn (s : State) (team thread pa n : Nat) : State :=
  let mine (l : PendLoad) : Bool := l.team == team && l.thread == thread && decide (l.pa < pa + n)
    && decide (pa < l.pa + typeWidth l.ty / 8)
  if s.mm.loads.any mine then { s with mm.loads := s.mm.loads.filter (fun l => !mine l) } else s

/-- A contribution is sent (15 R278, R279); the core's earlier stores to its bytes reach L2 first (01 R22). One to a device page is
performed in program order (13 R241), so it arrives at once. -/
def State.sendRed (s : State) (mtype : Nat) (c : Contrib) : State :=
  let n := typeWidth c.type.toNat / 8
  let s := (s.dropOwn c.team c.thread c.addr n).cleanAt c.core c.addr n
  let s := { s with mm.contribs := s.mm.contribs ++ [{ c with n := s.mm.nextC, st := .flight }], mm.nextC := s.mm.nextC + 1 }
  if mtype = 2 then s.forceReds (fun x => x.n == s.mm.nextC - 1) else s

/-! ### Releases and acquires -/

/-- The outstanding loads of threads return (14 R260). -/
def State.landThreads (s : State) (team : Nat) (ids : List Nat) : State :=
  (s.dropLoads team ids).updTeam team (fun t => t.updThreads ids Thread.land)

/-- What a release of threads at a scope waits for (14 R260): their loads have returned, their stores and reductions are
performed, and at scope crew or wider every dirty byte of the core's L1 is in L2. -/
def State.release (s : State) (team core : Nat) (ids : List Nat) (scope : Nat) : State :=
  let s := (s.landThreads team ids).forceReds (fun c => c.team == team && ids.contains c.thread && c.det.isNone)
  if 2 ≤ scope then s.flushL1 core else s

/-- ORDER acquires; ORDER releases (14 R253). -/
def isAcq (o : Nat) : Bool := o == 1 || o == 3 || o == 4
@[inherit_doc isAcq]
def isRel (o : Nat) : Bool := o == 2 || o == 3 || o == 4

/-- The scope at which an access is performed: in a scratchpad, one wider than crew as crew (14 R248). -/
def Iss.scope (i : Iss) : Nat := if i.e.x.space = 0 then i.e.x.scope.toNat else min 2 i.e.x.scope.toNat

/-- The release and acquire halves of an instruction with ORDER and SCOPE (14 R253, R262). -/
def Iss.relHalf (i : Iss) (s : State) : State :=
  if isRel i.e.x.order.toNat then s.release i.team.id i.core (i.act.map (fun l => l.th.ltid)) i.scope else s
@[inherit_doc Iss.relHalf]
def Iss.acqHalf (i : Iss) (s : State) : State :=
  if isAcq i.e.x.order.toNat then s.acquire i.ctx i.core i.team.id (i.act.map (fun l => l.th.ltid)) i.scope else s

end Sys2Proof.Machine
end

