-- ==== Sys2Proof/Machine/MemAccess.lean ====
section
/-! DEFINITION. Loads, stores, the read-only path, prefetch and fences (07 R149 to R154, 10 R213, R214, 15 R264 to R274),
with the retirement of page-faulting stores into the side log (26 R415). -/

namespace Sys2Proof.Machine

/-! ### What every access shows -/

/-- The core whose scratchpad banks serve a place, for SPACE 1 watchpoints (27 R442). -/
def Iss.seenAt (i : Iss) (s : State) (l : Lane) (p : Place) (addr n kind : Nat) : List Seen :=
  match p with
  | .mem _ => [⟨l.lane, l.th.ltid, 0, i.core, addr, n, kind⟩]
  | .spad owner _ => [⟨l.lane, l.th.ltid, 1, ((s.team? owner).map Team.core).getD i.core, addr, n, kind⟩]
  | .frame .. | .ws _ => []

/-- The accesses of an instruction that are performed as it issues, for watchpoints: one that retires into the side log matches
when it is performed (27 R439, R442). -/
def Iss.accesses (i : Iss) (s : State) (n kind : Nat) : List Seen :=
  i.perf.flatMap (fun p =>
    match i.place s p.1 with
    | .ok q => i.seenAt s p.1 q (p.1.addr i.e) n kind
    | .error _ => [])

/-- The parts of an access of `n` bytes that lie in one line each. -/
def lineParts (a n : Nat) : List (Nat × Nat) :=
  if lineOf a = lineOf (a + n - 1) then [(a, n)] else [(a, n), (a + n - 1, 1)]

/-- Watchpoints, sampling and the links crossed of a memory instruction, once its accesses have been made. -/
def Iss.observe (i : Iss) (before s : State) (kind : Nat) : State :=
  let n := accBytes (typeOf 3 i.e)
  ((s.watch i.looker true (i.accesses before n kind)).sample i before i.e.x.space.toNat
    (i.perf.flatMap (fun p => lineParts (p.1.addr i.e % 2 ^ 48) n))).noteFlits (before.accessRoutes i)

/-- The threads that share a lane's performance under U = 1, without its own. -/
def others (l : Lane) (rcv : List Lane) : List Nat := (rcv.map (fun m => m.th.ltid)).filter (· != l.th.ltid)

/-- A performance meets a fault of its access. -/
def Iss.refuse (i : Iss) (s : State) (l : Lane) (rcv : List Lane) (cause : BitVec 16) (write : Nat) : State :=
  s.faultFor i l (others l rcv) cause 0 (l.addr i.e) write

/-! ### Loads -/

/-- The bytes of a load as its register value (02 R26). -/
def loadValue (ty : Nat) (bs : List Byte) : Nat :=
  let w := typeWidth ty
  if w < 32 then extend32 (isSigned ty) w (ofBytes bs) else ofBytes bs

/-- How an instruction makes a lane's access: its scope, its policy and hint, and its number. -/
def Iss.how (i : Iss) (l : Lane) (id : Nat) : How :=
  ⟨i.core, i.team.id, l.th.ltid, i.scope, i.e.x.cache.toNat, i.e.x.rnd.toNat, id⟩

/-- Reads `n` bytes of global memory through a core's L1; a `b128` access is two of 8 bytes (14 R249). -/
def State.loadBytes (s : State) (h : How) (pa n mtype : Nat) : List Byte × State :=
  if n = 16 then
    let a := s.loadPhys h pa 8 mtype
    let b := a.2.loadPhys h (pa + 8) 8 mtype
    (a.1 ++ b.1, b.2)
  else s.loadPhys h pa n mtype

/-- The number of the next access or contribution is used up. -/
def State.numbered (s : State) : State := { s with mm.nextC := s.mm.nextC + 1 }

/-- A lane's access of mapped memory goes ahead: its translation is noted (13 R244). -/
def Iss.enter (i : Iss) (s : State) (l : Lane) : State := (s.noteTlb (.vector i.core) i.ctx (l.addr i.e)).drew.numbered

/-- A plain load of cacheable memory stays in flight until it returns: what it finds may be taken until then (14 R257). -/
def State.inFlight (s : State) (i : Iss) (l : Lane) (rcv : List Lane) (pa ty id : Nat) (dst : BitVec 8) : State :=
  { s with mm.loads := s.mm.loads ++ [⟨id, i.core, i.team.id, l.th.ltid, pa, ty, dst, rcv.map (fun m => m.th.ltid)⟩] }

/-- One performance of `ld` (07 R151, 15 R270): the value is written when the access returns. -/
def loadOne (e : Enc) (i : Iss) (s : State) (l : Lane) (rcv : List Lane) : State :=
  let ty := typeOf 3 e
  let n := accBytes ty
  let id := s.mm.nextC
  let put (s : State) (bs : List Byte) : State := s.give i rcv { outs := dst e.d (typeRegs ty) (loadValue ty bs) } (.mem id)
  match i.place s l with
  | .error c => i.refuse s.drew l rcv c 0
  | .ok (.mem (.phys pa m)) =>
    let r := ((i.enter s l).ownReds i.team.id l.th.ltid pa n).loadBytes (i.how l id) pa n m
    let s := put r.2 r.1
    if m = 0 ∧ e.x.scope = 0 ∧ e.d.toNat < 0xF0 then s.inFlight i l rcv pa ty id e.d else s
  | .ok p =>
    let bs := if i.scope = 0 then s.loadPlace i.team l.th.ltid p n else s.readPlace i.team p n
    put s.drew.drew.numbered bs

/-- The regrouping keys of the active threads (10 R213, R214). -/
def regroupKeys (e : Enc) (i : Iss) : List (Nat × Nat) :=
  i.perf.flatMap (fun p => p.2.map (fun l => (l.th.ltid, bitsAt (p.1.addr e) 47 8)))

/-- `ld` (07 R149 to R154, 10 R213, 15 R265 to R270). A re-performance is no second formation event (08 R163). -/
def execLd (e : Enc) (s : State) : Host.Outcome State Fault Refusal :=
  issued .ld e (fun i s =>
    let s' := i.perf.foldl (fun s p => loadOne e i s p.1 p.2) s
    let s' := i.observe s (i.acqHalf s') 0
    if bitAt e.x.aux.toNat 0 && i.turn.only.isNone then
      s'.updTeam i.team.id (fun t => t.updWarp i.warp.id (fun w => { w with lines := some (regroupKeys e i) }))
    else s') s

/-- One performance of `ldc` (15 R271): the value is one that the read-only cache may hold (13 R239). -/
def ldcOne (e : Enc) (i : Iss) (s : State) (l : Lane) (rcv : List Lane) : State :=
  let ty := typeOf 3 e
  let n := accBytes ty
  let h := i.how l s.mm.nextC
  let put (s : State) (bs : List Byte) : State := s.give i rcv { outs := dst e.d (typeRegs ty) (loadValue ty bs) } i.src
  match i.place s l with
  | .error c => i.refuse s.drew l rcv c 0
  | .ok (.mem (.phys pa m)) =>
    let s := i.enter s l
    let r : List Byte × State :=
      if n = 16 then
        let a := s.ldcPhys h pa 8 m
        let b := a.2.ldcPhys h (pa + 8) 8 m
        (a.1 ++ b.1, b.2)
      else s.ldcPhys h pa n m
    put r.2 r.1
  | .ok p => put s.drew (s.readPlace i.team p n)

/-- `ldc` (13 R239, 15 R271). -/
def execLdc (e : Enc) (s : State) : Host.Outcome State Fault Refusal :=
  issued .ldc e (fun i s => i.observe s (i.perf.foldl (fun s p => ldcOne e i s p.1 p.2) s) 0) s

/-- `ldcinv` (15 R272): the core's read-only cache is empty, and the active threads' baseline is now (13 R239). -/
def execLdcinv (e : Enc) (s : State) : Host.Outcome State Fault Refusal :=
  issued .ldcinv e (fun i s =>
    let now := s.mm.nextW
    (s.ldcEmpty i.core).updTeam i.team.id (fun t =>
      t.updThreads (i.act.map (fun l => l.th.ltid)) (fun th => { th with roSince := now }))) s

/-- Where a lane's `prf` goes, unless its access would fault or needs a miss-status entry when none is free (15 R273). -/
def Iss.prfAt (i : Iss) (s : State) (l : Lane) : Option (Nat × Nat) :=
  match s.resolve i.ctx (.vector i.core) (l.addr i.e) 1 1 .read with
  | .ok (.phys pa m) =>
    let c := sectorOf pa
    let known := (s.l1 i.core).sects.contains c || s.mm.fills.any (fun f => f.core == i.core && f.sector == c)
    if s.badData pa 1 || (m == 0 && i.e.x.aux == 0 && !known && decide (512 ≤ s.missUsed i.core)) then none else some (pa, m)
  | .ok (.arg _ _) | .error _ => none

/-- One performance of `prf` (15 R273): its line comes to the level that AUX names, under its policy, or its translation alone. -/
def prfOne (i : Iss) (s : State) (l : Lane) : State :=
  match i.prfAt s l with
  | none => s.drew
  | some (pa, m) =>
    let h := i.how l s.mm.nextC
    let s := i.enter s l
    if m ≠ 0 ∨ i.e.x.aux = 2 then s
    else if i.e.x.aux = 1 then (if keepsL2 h.policy then s.noteNear h.core pa h.home else s)
    else s.touch h.core pa h.id h.policy h.home

/-- `prf` (15 R273): no value changes. -/
def execPrf (e : Enc) (s : State) : Host.Outcome State Fault Refusal :=
  issued .prf e (fun i s =>
    let xs := (i.perf.filter (fun p => e.x.aux != 2 && (i.prfAt s p.1).isSome)).map (fun p => (p.1.addr e % 2 ^ 48, 1))
    (i.perf.foldl (fun s p => prfOne i s p.1) s).sample i s 0 xs) s

/-! ### Stores -/

/-- A page-faulting store or reduction retires into the core's side log and is offered (26 R415, R416); where the fault is
declined at once, its team is ended. -/
def State.logStore (s : State) (i : Iss) (l : Lane) (data : List Byte) (red : Option Contrib) : State :=
  let ea := l.addr i.e
  let n := s.mm.nextC
  let r := s.offerFault i.ctx i.core ea 2 (if red.isSome then 2 else 1)
    (Config.freeBits 32 s.free).toNat 0xFF false
  match r.1 with
  | .declined => r.2.drew.endTeam i.team.id ea
  | offer =>
    { r.2.drew with
      mm.nextC := n + 1
      mm.side := r.2.mm.side ++ [⟨n, i.core, i.team.id, l.th.ltid, i.ctx, i.die, BitVec.ofNat 64 ea, data, red, i.e.x.scope,
        i.e.x.order, offer, false, i.pc, l.lane⟩] }

/-- A store of bytes to physical memory by a thread (07 R151, 15 R270); one whose home is on a lost die is dropped and ends its
team (30 R484). -/
def State.storeMem (s : State) (h : How) (ea pa m : Nat) (bs : List Byte) : State :=
  if s.pkg.lostHome pa then s.endTeam h.team ea
  else ((s.dropOwn h.team h.thread pa bs.length).ownReds h.team h.thread pa bs.length).storePhys h pa m bs

/-- One performance of `st`. -/
def storeOne (e : Enc) (i : Iss) (s : State) (l : Lane) (rcv : List Lane) : State :=
  let ty := typeOf 3 e
  let bs := bytesOf (accBytes ty) (l.src (typeRegs ty) e.b.toNat)
  match i.place s l with
  | .ok (.mem (.phys pa m)) => (i.enter s l).storeMem (i.how l s.mm.nextC) (l.addr e) pa m bs
  | .ok p => s.drew.writePlace i.team (.ofThread i.core i.team.id l.th.ltid) p bs
  | .error c => if c = 0x12 then s.drew.logStore i l bs none else i.refuse s.drew l rcv c 1

/-- `st` (07 R149 to R154, 15 R265 to R270): lanes store in ascending order, so the higher-numbered keeps a byte. -/
def execSt (e : Enc) (s : State) : Host.Outcome State Fault Refusal :=
  issued .st e (fun i s =>
    i.observe s (i.perf.foldl (fun s p => storeOne e i s p.1 p.2) (i.relHalf s)) 1) s

/-! ### Fences -/

/-- A closing fence (15 R274, R280). -/
def isClosing (e : Enc) : Bool :=
  isRel e.x.order.toNat && decide (3 ≤ e.x.scope.toNat) && decide (e.x.scope.toNat ≤ 5)

/-- A closing fence advances the epoch number of its grid, at once for the whole package; its warp then waits until every
contribution of the closed epoch is applied, and takes the overflow fault if one of it is kept (13 R235; 15 R280; 26 R408). -/
def closeEpoch (e : Enc) (i : Iss) (s : State) : State :=
  match s.grid? i.team.grid with
  | none => s
  | some g =>
    let mine (c : Contrib) : Bool := c.grid == g.id && c.det.any (fun p => p.1 == g.epoch)
    let f : FenceWait := ⟨g.epoch, i.act.map (fun l => l.th.ltid), isAcq e.x.order.toNat, e.x.scope.toNat, i.pc, i.turn.slot, false⟩
    let s := s.updGrid g.id (fun g => { g with epoch := g.epoch + 1 })
    let s := s.emit i.ctx i.core rEpoch g.epoch [g.seq.toNat, g.queue] false (some (i.team.id, i.warp.id))
    let s := s.updTeam i.team.id (fun t => t.updWarp i.warp.id (fun w => { w with fence := some f }))
    let s := s.forceReds mine
    if s.mm.contribs.any (fun c => mine c && c.st == .kept) then s.overflow g.id g.epoch else s

/-- A release fence at scope team makes the later returning atomics of its threads releases of that scope (14 R253). -/
def fenced (e : Enc) (i : Iss) (s : State) : State :=
  if isRel e.x.order.toNat && e.x.scope == 1 then
    s.updTeam i.team.id (fun t => t.updThreads (i.act.map (fun l => l.th.ltid)) (fun th => { th with fenced := true }))
  else s

/-- `fence` (15 R274, 14 R253, R260, 19 R331). -/
def execFence (e : Enc) (s : State) : Host.Outcome State Fault Refusal :=
  issued .fence e (fun i s =>
    let s := i.relHalf (s.flushWindow i.team.id)
    let s := if isClosing e then closeEpoch e i s else s
    i.acqHalf (fenced e i s)) s

end Sys2Proof.Machine
end

