-- ==== Sys2Proof/Machine/Atomics.lean ====
section
/-! DEFINITION. Returning atomics and reductions (15 R275 to R281). -/

namespace Sys2Proof.Machine

/-- A returning atomic is a release at scope team (14 R253): by its own ORDER, or after a release fence of that scope. -/
def Iss.promotes (i : Iss) (l : Lane) : Bool := (isRel i.e.x.order.toNat && i.e.x.scope == 1) || l.th.fenced

/-- One performance of `atom` or `cas` (15 R276, R277): `new` gives the new value of the operand, none where nothing is written. -/
def atomOne (e : Enc) (new : Lane → Nat → Option Nat) (i : Iss) (s : State) (l : Lane) (rcv : List Lane) : State :=
  let ty := typeOf 3 e
  let n := accBytes ty
  let id := s.mm.nextC
  let next (bs : List Byte) : Option (List Byte) := (new l (ofBytes bs)).map (bytesOf n)
  let put (s : State) (bs : List Byte) : State := s.give i rcv { outs := dst e.d (typeRegs ty) (ofBytes bs) } (.mem id)
  match i.place s l with
  | .error c => i.refuse s.drew l rcv c 2
  | .ok (.mem (.phys pa m)) =>
    let s := ((i.enter s l).dropOwn i.team.id l.th.ltid pa n).ownReds i.team.id l.th.ltid pa n
    let r := s.rmwPhys (i.how l id) pa n m (i.promotes l) next
    put r.2 r.1
  | .ok p =>
    let old := s.readPlace i.team p n
    let s := s.drew.numbered
    put (match next old with
      | some bs => s.writePlace i.team (.ofThread i.core i.team.id l.th.ltid) p bs
      | none => s) old

/-- `atom` (15 R275, R276). -/
def execAtom (e : Enc) (s : State) : Host.Outcome State Fault Refusal :=
  let ty := typeOf 3 e
  issued .atom e (fun i s =>
    let new (l : Lane) (old : Nat) : Option Nat := some (atomNew e.x.c.toNat ty old (l.src (typeRegs ty) e.b.toNat))
    i.observe s (i.acqHalf (i.perf.foldl (fun s p => atomOne e new i s p.1 p.2) (i.relHalf s))) 2) s

/-- `cas` (15 R277): the new value is written where the operand equals the compare value. -/
def execCas (e : Enc) (s : State) : Host.Outcome State Fault Refusal :=
  let ty := typeOf 3 e
  let n := typeRegs ty
  issued .cas e (fun i s =>
    let new (l : Lane) (old : Nat) : Option Nat :=
      if old = lowBits (typeWidth ty) (l.src n e.b.toNat) then some (l.opC e n) else none
    i.observe s (i.acqHalf (i.perf.foldl (fun s p => atomOne e new i s p.1 p.2) (i.relHalf s))) 2) s

/-- One contribution of `red` or `red.det` (15 R278, R279). -/
def redOne (e : Enc) (det : Bool) (i : Iss) (s : State) (l : Lane) (rcv : List Lane) : State :=
  let ty := typeOf 3 e
  let val := l.src (typeRegs ty) e.b.toNat
  let epoch := ((s.grid? i.team.grid).map Grid.epoch).getD 0
  let key : Option (Nat × BitVec 40) := if det then some (epoch, BitVec.ofNat 40 (l.src 2 e.x.c.toNat)) else none
  let c (pa : Nat) : Contrib :=
    ⟨0, i.team.grid, i.ctx, i.team.id, l.th.ltid, i.core, i.team.index, s.issueN, key, e.d.toNat, BitVec.ofNat 5 ty, pa,
      BitVec.ofNat 64 val, .flight⟩
  match i.place s l with
  | .ok (.mem (.phys pa m)) =>
    if s.pkg.lostHome pa then s.drew.endTeam i.team.id (l.addr e) else (i.enter s l).sendRed m (c pa)
  | .ok _ => s.drew
  | .error f =>
    if f = 0x12 then s.drew.logStore i l (bytesOf (accBytes ty) val) (some (c 0)) else i.refuse s.drew l rcv f 2

/-- `red` (15 R278). -/
def execRed (e : Enc) (s : State) : Host.Outcome State Fault Refusal :=
  issued .red e (fun i s => i.observe s (i.perf.foldl (fun s p => redOne e false i s p.1 p.2) (i.relHalf s)) 2) s

/-- `red.det` (15 R279). -/
def execRedDet (e : Enc) (s : State) : Host.Outcome State Fault Refusal :=
  issued .redDet e (fun i s => i.observe s (i.perf.foldl (fun s p => redOne e true i s p.1 p.2) s) 2) s

end Sys2Proof.Machine
end

