-- ==== Sys2Proof/Machine/BarrierOps.lean ====
section
/-! DEFINITION. The barrier instructions (15 R282 to R290). -/

namespace Sys2Proof.Machine

/-- The failing lane and cause of a barrier instruction (15 R285). -/
abbrev BarFail := Lane × BitVec 16

/-- A barrier instruction that fails in some lane has no effect in any, and every active lane is a handler lane; DETAIL
names the failing lane and its handle (15 R285, 26 R408); `binit` has no handle, so that part is free (log entry 12). -/
def barFault (e : Enc) (f : BarFail) (i : Iss) (s : State) : State :=
  let low := if i.op = .binit then (Config.freeBits 32 s.free).toNat else f.1.src 1 e.a.toNat
  s.drew.faultAll i f.2 0 (low + f.1.lane * 2 ^ 32)

/-- Handle operand and second operand of a lane. -/
def Lane.handle (l : Lane) (e : Enc) : Word := BitVec.ofNat 32 (l.src 1 e.a.toNat)

/-! ### binit -/

/-- The index that `binit` allocates in a lane, or the cause of its failure (15 R285, R286). -/
def State.binitCheck (s : State) (i : Iss) (off count : Nat) : Except (BitVec 16) Nat :=
  let quota := ((s.launchOf i.team).map Launch.bars).getD 0
  if off % 16 ≠ 0 ∨ s.hitsBar i.core i.team.id off 16 then .error 0x17
  else if s.spadSize i.team < off + 16 then .error 0x14
  else if quota ≤ (s.barsOf i.core i.team.id).length then .error 0x22
  else if count = 0 ∨ 4095 < count then .error 0x23
  else
    match (List.range 256).find? (fun ix => (s.barEntry i.core ix).team.isNone) with
    | some ix => .ok ix
    | none => .error 0x22

/-- The entry is allocated and the object written (15 R286). -/
def State.binitAt (s : State) (i : Iss) (ix off count : Nat) : State :=
  let g := (s.barEntry i.core ix).gen
  (s.setBar i.core ix ⟨g, some i.team.id, off, [], 0, []⟩).writeSpad i.team.id .ofAgent off
    ((BarObj.mk count 0 0 0).bytes ix g.toNat)

/-- `binit` in each lane in turn, or the first failure. -/
def binitLanes (e : Enc) (i : Iss) : List (Lane × List Lane) → State → Except BarFail State
  | [], s => .ok s
  | (l, rcv) :: rest, s =>
    let off := l.src 1 e.a.toNat
    let count := l.opB .binit e 1 3
    match s.binitCheck i off count with
    | .error c => .error (l, c)
    | .ok ix =>
      let h := ix + 2 ^ 8 * (s.barEntry i.core ix).gen.toNat
      binitLanes e i rest ((s.binitAt i ix off count).give i rcv { outs := dst e.d 1 h } i.src)

/-- `binit` (15 R285, R286). -/
def execBinit (e : Enc) (s : State) : Host.Outcome State Fault Refusal :=
  issued .binit e (fun i s =>
    match binitLanes e i i.perf s with
    | .ok s' => s'
    | .error f => barFault e f i s) s

/-! ### barr and bexp -/

/-- What an instruction adds to a barrier: arrivals and pending bytes. -/
structure BarSum where
  index  : Nat
  arrive : Nat
  bytes  : Nat

/-- The additions of the lanes to each barrier, or the first failure (15 R285, R287, R288). -/
def barSums (e : Enc) (arr : Bool) (bytes : Lane → Nat) (i : Iss) (s : State) :
    List (Lane × List Lane) → List BarSum → Except BarFail (List BarSum)
  | [], acc => .ok acc
  | (l, _) :: rest, acc =>
    match s.barIndex i.core i.team.id (l.handle e) with
    | none => .error (l, 0x21)
    | some ix =>
      let o := i.team.barObj (s.barEntry i.core ix).off
      let mine := (acc.find? (fun b => b.index == ix)).getD ⟨ix, 0, 0⟩
      let new : BarSum := ⟨ix, mine.arrive + (if arr then 1 else 0), mine.bytes + bytes l⟩
      if (arr ∧ o.expect < o.arrived + new.arrive) ∨ (2 ^ 31 : Int) ≤ o.pending + new.bytes then .error (l, 0x23)
      else barSums e arr bytes i s rest (new :: acc.filter (fun b => b.index != ix))

/-- `barr` and `bexp`: the PHASE before the update goes to each lane, and every barrier is updated once. Arrivals are
releases at scope team (15 R287, R288, R290). -/
def barAdd (e : Enc) (arr : Bool) (bytes : Lane → Nat) (i : Iss) (s : State) : State :=
  match barSums e arr bytes i s i.perf [] with
  | .error f => barFault e f i s
  | .ok sums =>
    let s := if arr then s.release i.team.id i.core (i.act.map (fun l => l.th.ltid)) 1 else s
    let s := if arr then i.perf.foldl (fun s p =>
        match s.barIndex i.core i.team.id (p.1.handle e) with
        | some ix => s.give i p.2 { outs := dst e.d 1 (i.team.barObj (s.barEntry i.core ix).off).phase.toNat } i.src
        | none => s) s
      else s
    (sums.foldl (fun (s : State) (b : BarSum) => s.barUpdate i.core i.team.id b.index b.arrive 0 b.bytes 1) s).wakes

/-- `barr` (15 R287). -/
def execBarr (e : Enc) (s : State) : Host.Outcome State Fault Refusal :=
  issued .barr e (barAdd e true (fun _ => 0)) s

/-- `bexp` (15 R288). -/
def execBexp (e : Enc) (s : State) : Host.Outcome State Fault Refusal :=
  issued .bexp e (barAdd e (e.x.aux == 1) (fun l => l.opB .bexp e 1 3)) s

/-! ### bwait, btry and binv -/

/-- The first lane whose handle is not live. -/
def staleLane (e : Enc) (i : Iss) (s : State) : Option Lane :=
  (i.perf.map Prod.fst).find? (fun l => (s.barIndex i.core i.team.id (l.handle e)).isNone)

/-- The phase that a lane names is complete, with the widest scope among its arrivals (15 R289, R290). -/
def State.barDone (s : State) (i : Iss) (e : Enc) (l : Lane) (token : Word) : Option Nat :=
  match s.barIndex i.core i.team.id (l.handle e) with
  | none => none
  | some ix =>
    let b := s.barEntry i.core ix
    if phaseDone (i.team.barObj b.off).phase token then some (Table.read 0 b.done token.toNat) else none

/-- `bwait` (15 R289, 19 R331): a thread whose phase is complete goes on, and the others wait. -/
def execBwait (e : Enc) (s : State) : Host.Outcome State Fault Refusal :=
  issued .bwait e (fun i s =>
    match staleLane e i s with
    | some l => barFault e (l, 0x21) i s
    | none =>
      i.perf.foldl (fun s p =>
        let tok := BitVec.ofNat 32 (p.1.opB .bwait e 1 3)
        match s.barDone i e p.1 tok with
        | some scope => s.acquire i.ctx i.core i.team.id (p.2.map (fun l => l.th.ltid)) scope
        | none => s.updTeam i.team.id (fun t => t.updThreads (p.2.map (fun l => l.th.ltid))
            (fun th => { th with wait := .bwait (p.1.handle e) tok i.pc i.turn.slot }))) (s.flushWindow i.team.id)) s

/-- `btry` (15 R289, R290): true is an acquire. -/
def execBtry (e : Enc) (s : State) : Host.Outcome State Fault Refusal :=
  issued .btry e (fun i s =>
    match staleLane e i s with
    | some l => barFault e (l, 0x21) i s
    | none =>
      i.perf.foldl (fun s p =>
        match s.barDone i e p.1 (BitVec.ofNat 32 (p.1.opB .btry e 1 3)) with
        | some scope =>
          (s.give i p.2 { outs := dstP e.d true } i.src).acquire i.ctx i.core i.team.id (p.2.map (fun l => l.th.ltid)) scope
        | none => s.give i p.2 { outs := dstP e.d false } i.src) s) s

/-- `binv` in each lane in turn, or the first failure (15 R285, R289). -/
def binvLanes (e : Enc) (i : Iss) : List (Lane × List Lane) → State → Except BarFail State
  | [], s => .ok s
  | (l, _) :: rest, s =>
    match s.barIndex i.core i.team.id (l.handle e) with
    | none => .error (l, 0x21)
    | some ix =>
      if s.barBusy i.team.id (l.handle e) then .error (l, 0x24)
      else binvLanes e i rest (s.barFree i.core ix)

/-- `binv` (15 R283, R289). -/
def execBinv (e : Enc) (s : State) : Host.Outcome State Fault Refusal :=
  issued .binv e (fun i s =>
    match binvLanes e i i.perf s with
    | .ok s' => s'
    | .error f => barFault e f i s) s

end Sys2Proof.Machine
end

