-- ==== Sys2Proof/Machine/Launches.lean ====
section
/-! DEFINITION. Launches: the LAUNCH layout (09 R180), its checks (R182, 08 R157), the splitting of a grid into die
shares (30 R477) and the start of a grid (09 R187, 30 R476). -/

namespace Sys2Proof.Machine

/-- Bits [hi:lo] at a byte offset of a packet. -/
def pktBits (p : BitVec 1024) (off hi lo : Nat) : Nat := bitsAt p.toNat (8 * off + hi) (8 * off + lo)

/-- The fields of a LAUNCH (09 R180); SPAD in bytes. -/
def parseLaunch (p : BitVec 1024) : Launch where
  entry    := BitVec.ofNat 48 (pktBits p 0x08 47 0)
  nteam    := (pktBits p 0x10 31 0, pktBits p 0x14 31 0, pktBits p 0x18 31 0)
  ntid     := (pktBits p 0x1C 15 0, pktBits p 0x1C 31 16, pktBits p 0x20 15 0)
  width    := 8 * 2 ^ pktBits p 0x20 17 16
  nreg     := pktBits p 0x20 22 18
  crew     := pktBits p 0x20 25 23
  accum    := pktBits p 0x20 29 26
  spad     := 16 * pktBits p 0x24 15 0
  bars     := pktBits p 0x24 20 16
  prio     := pktBits p 0x24 23 21
  rw       := BitVec.ofNat 3 (pktBits p 0x24 26 24)
  strict   := BitVec.ofNat 3 (pktBits p 0x24 29 27)
  diemask  := BitVec.ofNat 4 (pktBits p 0x28 3 0)
  argsize  := pktBits p 0x2C 15 0
  vector   := BitVec.ofNat 11 (pktBits p 0x2C 26 16)
  irq      := pktBits p 0x2C 27 27 == 1
  argptr   := BitVec.ofNat 48 (pktBits p 0x30 47 0)
  compaddr := BitVec.ofNat 48 (pktBits p 0x38 47 0)
  compval  := BitVec.ofNat 64 (pktBits p 0x40 63 0)

/-- Threads of a team, teams of a grid, and placement units (08 R156, 09 R184, 30 R477). -/
def Launch.size (l : Launch) : Nat := l.ntid.1 * l.ntid.2.1 * l.ntid.2.2
@[inherit_doc Launch.size]
def Launch.teams (l : Launch) : Nat := l.nteam.1 * l.nteam.2.1 * l.nteam.2.2
@[inherit_doc Launch.size]
def Launch.units (l : Launch) : Nat := if l.crew ≤ 1 then l.teams else l.teams / l.crew

/-- Register bytes and scratchpad bytes that a team is charged (08 R157). -/
def Launch.regBytes (l : Launch) : Nat := (l.size + 15) / 16 * 16 * l.nreg * 32
@[inherit_doc Launch.regBytes]
def Launch.spadBytes (l : Launch) : Nat := (l.spad + 1023) / 1024 * 1024

/-- Reserved bits of a LAUNCH body are zero (09 R180). -/
def launchBodyOk (p : BitVec 1024) : Bool :=
  pktBits p 0x08 63 48 == 0 && pktBits p 0x20 31 30 == 0 && pktBits p 0x24 31 30 == 0 && pktBits p 0x28 31 4 == 0
  && pktBits p 0x2C 31 28 == 0 && pktBits p 0x30 63 48 == 0 && pktBits p 0x38 63 48 == 0 && pktBits p 0x48 447 0 == 0

/-- ARGSIZE is one that a snapshot can be made of (09 R180). -/
def Launch.argsOk (l : Launch) : Bool := l.argsize % 16 == 0 && decide (l.argsize ≤ 4096)

/-- Bits of a die mask, ascending. -/
def maskDoms (m : Nat) : List Nat := [0, 1, 2, 3].filter (bitAt m)

/-- The largest partition of the cores of some dies, less its frame area (08 R157, 26 R421). -/
def State.roomiest (s : State) (dies : List Nat) : Nat :=
  let units := dies.flatMap (fun d => (List.range 32).flatMap (fun k => [0, 1, 2].map (s.core (32 * d + k)).partUnits))
  let u := units.foldl max 0
  if u < 2 then 0 else 16384 * (u - 1)

/-- The live domains of a launch's mask; every live one where it names none. -/
def State.launchDies (s : State) (l : Launch) : List Nat :=
  match (maskDoms l.diemask.toNat).filter s.pkg.domLive with
  | [] => s.pkg.doms
  | ds => ds

/-- A team of the launch fits on an empty core of its dies (08 R157; 09 R182; log entry 26). -/
def State.fitsEmpty (s : State) (l : Launch) : Bool :=
  let room := s.roomiest (s.launchDies l)
  decide (l.size ≤ 2048) && decide (l.regBytes ≤ 262144) && decide (l.spadBytes ≤ room) && decide (0 < room)

/-- A die mask names a live domain and no other (30 R476). -/
def Pkg.maskOk (p : Pkg) (m : Nat) : Bool := m % 16 != 0 && (maskDoms m).all p.domLive

/-- The checks of a launch after its header and snapshot, in the order of 09 R182: the error code. `ceil` is PRIO_CEIL,
none for a child; `sub` the parent's mask (R187). -/
def State.launchCode (s : State) (ceil sub : Option Nat) (p : BitVec 1024) : Option Nat :=
  let l := parseLaunch p
  if !launchBodyOk p then some 0x02
  else if l.size = 0 ∨ 1024 < l.size ∨ 2 ^ 32 - 1 < l.teams then some 0x06
  else if l.nreg = 0 ∨ 30 < l.nreg ∨ 32768 * 16 < l.spad ∨ 8 < l.accum ∨ 16 < l.bars ∨ l.crew = 0 ∨ 4 < l.crew ∨ !l.argsOk then
    some 0x07
  else if !s.fitsEmpty l then some 0x08
  else if l.teams % l.crew ≠ 0 then some 0x09
  else if !s.pkg.maskOk l.diemask.toNat ∨ sub.any (fun m => l.diemask.toNat &&& m != l.diemask.toNat) then some 0x0A
  else if ceil.any (fun c => decide (c < l.prio)) then some 0x0B
  else none

/-- The die shares of a grid (30 R477): consecutive ranges of units over the domains of the mask, ascending. -/
def mkShares (l : Launch) : List Share :=
  let ds := maskDoms l.diemask.toNat
  let u := l.units
  let m := ds.length
  (ds.zipIdx).map (fun p =>
    let before (k : Nat) : Nat := (min k (u % m)) + k * (u / m)
    ⟨p.1, before p.2, before (p.2 + 1), before p.2, none, none, false, false, before p.2 == before (p.2 + 1)⟩)

/-- A grid starts (09 R187, 30 R476, R477; 15 R280; R490 for the invalidation logs; 17 R306 for the record caches): it waits for its placement. -/
def State.startGrid (s : State) (g : Grid) : State :=
  let new : Grid := { g with id := s.fe.nextG, shares := mkShares g.launch, argAt := s.argPlace g.ctx, since := s.mm.nextW }
  let s := { s with fe.grids := s.fe.grids ++ [new], fe.nextG := s.fe.nextG + 1, free := s.free + 1
                    eng.recCache := s.eng.recCache.map (fun p => (p.1, p.2.filter (fun r => r.ctx != g.ctx))) }
  (maskDoms g.launch.diemask.toNat).foldl (fun s d => s.applyInv g.ctx d) s

end Sys2Proof.Machine
end

