-- ==== Sys2Proof/Machine/EngineRecs.lean ====
section
/-! DEFINITION. The records of engine commands: layout records (17 R304, R305), copy records (R307), the record cache
(R306), coordinate records (20 R359), coordinate objects (R348, R349) and the acceptance of a thread's command (17 R296,
21 R369 to R371). -/

namespace Sys2Proof.Machine

/-- The bits of a 512-bit record outside the listed fields (byte offset, high and low bit) are zero. -/
def onlyFields (r : BitVec 512) (fs : List (Nat × Nat × Nat)) : Bool :=
  let m := fs.foldl (fun m f => m ||| ((2 ^ (f.2.1 + 1 - f.2.2) - 1) <<< (8 * f.1 + f.2.2))) 0
  r.toNat &&& (2 ^ 512 - 1 - m) == 0

/-! ### Layout records -/

/-- Fields of a layout record (17 R304). -/
def lrBase (r : BitVec 512) : Nat := recBits r 0 47 0
@[inherit_doc lrBase]
def lrSpace (r : BitVec 512) : Nat := recBits r 0 50 48
@[inherit_doc lrBase]
def lrRank (r : BitVec 512) : Nat := recBits r 0 52 51
@[inherit_doc lrBase]
def lrEsize (r : BitVec 512) : Nat := recBits r 0 55 53
@[inherit_doc lrBase]
def lrNdim (r : BitVec 512) : Nat := recBits r 0 57 56 + 1
@[inherit_doc lrBase]
def lrDim (r : BitVec 512) (i : Nat) : Nat := recBits r (8 + 4 * i) 31 0
@[inherit_doc lrBase]
def lrStride (r : BitVec 512) (i : Nat) : Int := signed40 (recBits r (0x10 + 8 * i) 39 0)
@[inherit_doc lrBase]
def lrBox (r : BitVec 512) (i : Nat) : Nat := recBits r (0x30 + i) 7 0

/-- A layout record passes the checks of 17 R305 that concern it alone. -/
def layoutOk (r : BitVec 512) (dest packet : Bool) : Bool :=
  let n := lrNdim r
  let space := lrSpace r
  let unused (i : Nat) : Bool := decide (n ≤ i)
  onlyFields r ([(0, 60, 0), (8, 127, 0), (0x18, 39, 0), (0x20, 39, 0), (0x28, 39, 0), (0x30, 31, 0), (0x34, 31, 0)])
  && decide (space ≤ 3) && !(packet && space != 0) && !(dest && space == 3) && (space == 2 || lrRank r == 0)
  && decide (lrEsize r ≤ 4) && (space == 0 || recBits r 0 60 58 == 0) && lrBase r % 2 ^ lrEsize r == 0
  && [0, 1, 2, 3].all (fun i => if unused i then lrDim r i == 0 && lrBox r i == 0 && (i == 0 || recBits r (0x10 + 8 * i) 39 0 == 0)
                                else lrDim r i != 0 && decide (lrDim r i ≤ 2 ^ 31))

/-! ### Copy records -/

/-- A copy record and its layout snapshots pass the checks of 17 R305 and R307. -/
def copyOk (cr src dst : BitVec 512) (packet : Bool) : Bool :=
  let op := recBits cr 0 7 0
  let scope := recBits cr 0 10 8
  let sspace := recBits cr 0 15 13
  let dspace := recBits cr 0 18 16
  let len := recBits cr 0x18 63 0
  let coord (k i : Nat) : Nat := recBits cr (0x20 + 16 * k + 4 * i) 31 0
  decide (1 ≤ scope) && decide (scope ≤ 5) && !(packet && scope != 5) && !(packet && recBits cr 0 11 11 == 1)
  && recBits cr 0 31 21 == 0 && (recBits cr 0 11 11 == 1 || recBits cr 4 31 0 == 0)
  && (op == 2 || recBits cr 0 12 12 == 0) && (op == 2 || sspace == 0) && (op != 1 || dspace == 0)
  && decide (sspace ≤ 3) && decide (dspace ≤ 2) && !(packet && (sspace != 0 || dspace != 0))
  && (sspace == 2 || dspace == 2 || recBits cr 0 20 19 == 0)
  && (if op == 1 then
        len == 0 && layoutOk src false packet && layoutOk dst true packet && lrEsize src == lrEsize dst
        && [0, 1, 2, 3].all (fun i => (decide (i < lrNdim src) || coord 0 i == 0) && (decide (i < lrNdim dst) || coord 1 i == 0))
      else
        (op == 2 || op == 3) && decide (1 ≤ len) && decide (len ≤ 2 ^ 32) && recBits cr 0x20 255 0 == 0
        && (op == 2 || recBits cr 8 63 32 == 0))

/-! ### Coordinate objects -/

/-- The key of an object entry. -/
def objKey (die index : Nat) : Nat := 4096 * die + index

def State.obj (s : State) (die index : Nat) : Obj := Table.read Obj.reset s.eng.objs (objKey die index)

def State.setObj (s : State) (die index : Nat) (o : Obj) : State :=
  { s with eng.objs := Table.put s.eng.objs (objKey die index) o }

/-- Fields of a handle (20 R348). -/
def hIndex (h : Word) : Nat := bitsAt h.toNat 11 0
@[inherit_doc hIndex]
def hDie (h : Word) : Nat := bitsAt h.toNat 15 14

/-- KIND of an object. -/
def ObjBody.kind : ObjBody → Nat
  | .free => 0
  | .table .. => 1
  | .map .. => 2

/-- The object that a live handle of one of the kinds names (20 R348). -/
def State.object? (s : State) (ctx : Nat) (h : Word) (kinds : List Nat) : Option Obj :=
  let o := s.obj (hDie h) (hIndex h)
  let k := bitsAt h.toNat 13 12
  if bitsAt h.toNat 31 24 = 0 ∧ k ≠ 0 ∧ kinds.contains k ∧ o.body.kind = k ∧ o.ctx = ctx ∧ o.gen.toNat = bitsAt h.toNat 23 16
    ∧ s.pkg.domLive (hDie h) then some o else none

/-- The handle of an entry. -/
def mkHandle (die index kind : Nat) (gen : BitVec 8) : Word :=
  BitVec.ofNat 32 (index + kind * 2 ^ 12 + die * 2 ^ 14 + gen.toNat * 2 ^ 16)

/-- The lowest free entry of a die's object table. -/
def State.freeObj (s : State) (die : Nat) : Option Nat :=
  (List.range 4096).find? (fun ix => (s.obj die ix).body.kind == 0)

/-- A tile command, or an original that a failed probe would give back, is a `tgms` that names a map (18 R325, 19 R344). -/
def WinCmd.namesMap (w : WinCmd) (h : Word) : Bool :=
  (w.cmd :: w.orig).any (fun c => c.op == .tgms && c.block.any (fun b => recBits b 0x30 31 0 == h.toNat))

/-- A command names an object (20 R349). -/
def Cmd.namesObj (c : Cmd) (h : Word) : Bool :=
  match c.body with
  | .coord op cr handle _ => handle == h || (op == 2 && (recBits cr 8 31 0 == h.toNat || recBits cr 8 63 32 == h.toNat))
  | .hlk _ looks => looks.any (fun k => k.handle == h)
  | .tile w => w.namesMap h
  | .copy .. | .put .. | .token .. | .take .. | .fence _ => false

/-- An object whose free has been performed is freed once no accepted command names it (20 R349): its generation
advances and its map-cache entries are dropped. -/
def State.tryFree (s : State) (die index : Nat) : State :=
  let o := s.obj die index
  let h := mkHandle die index o.body.kind o.gen
  let windowed := s.wk.teams.any (fun t => t.window.any (fun w => w.namesMap h))
  if !o.dying || windowed || s.eng.cmds.any (fun c => c.namesObj h) then s
  else
    let s := s.setObj die index { Obj.reset with gen := o.gen + 1 }
    { s with eng.coord := s.eng.coord.map (fun p => (p.1, { p.2 with cache := p.2.cache.filter (fun e => e.handle != h) })) }

/-- Every object that waits to be freed is freed where it can be. -/
def State.tryFrees (s : State) : State :=
  (s.eng.objs.filter (fun p => p.2.dying)).foldl (fun s p => s.tryFree (p.1 / 4096) (p.1 % 4096)) s

/-- A table generation is drawn (20 R352). -/
def State.drawGen (s : State) (die : Nat) : BitVec 32 × State :=
  let c := Table.read CoordDie.reset s.eng.coord die
  (c.drawn, { s with eng.coord := Table.put s.eng.coord die { c with drawn := c.drawn + 1 } })

/-! ### Coordinate records -/

/-- The fields that an operation uses (20 R359). -/
def coordFields (op : Nat) : List (Nat × Nat × Nat) :=
  [(0, 11, 0), (4, 31, 0)] ++
  (match op with
    | 1 => [(8, 63, 0), (0x10, 36, 0), (0x18, 127, 0), (0x28, 31, 0)]
    | 2 => [(8, 63, 0), (0x10, 127, 0), (0x20, 2, 0), (0x20, 10, 8), (0x20, 18, 16), (0x20, 26, 24), (0x20, 34, 32)]
    | 3 => [(8, 63, 0), (0x10, 127, 0), (0x20, 63, 0), (0x28, 127, 0), (0x38, 10, 0), (0x38, 63, 32)]
    | 4 => [(8, 127, 0), (0x18, 34, 0)]
    | _ => [(8, 31, 0)])

/-- A coordinate record passes the checks of 20 R358 and R359. -/
def coordOk (r : BitVec 512) (packet : Bool) : Bool :=
  let op := recBits r 0 7 0
  let scope := recBits r 0 10 8
  let al (off n : Nat) : Bool := recBits r off 63 0 % n == 0
  decide (1 ≤ op) && decide (op ≤ 5) && onlyFields r (coordFields op) && decide (1 ≤ scope) && decide (scope ≤ 5)
  && !(packet && (scope != 5 || recBits r 0 11 11 == 1)) && (recBits r 0 11 11 == 1 || recBits r 4 31 0 == 0)
  && (match op with
    | 1 =>
      let n := recBits r 0x10 31 0
      let l := recBits r 0x10 36 32
      decide (1 ≤ n) && decide (n ≤ 2 ^ 26) && al 8 8 && al 0x20 4
      && (if recBits r 0x28 31 0 == 0 then decide (4 ≤ l) && decide (l ≤ 26) && al 0x18 64
          else l == 0 && recBits r 0x18 63 0 == 0)
    | 2 =>
      al 0x10 64 && [0, 8, 16].all (fun k => recBits r 0x20 (k + 2) k != 0)
      && [24, 32].all (fun k => recBits r 0x20 (k + 2) k != 0 && decide (recBits r 0x20 (k + 2) k ≤ 4))
    | 3 =>
      decide (recBits r 0x20 31 0 ≤ 2 ^ 26) && decide (recBits r 0x20 63 32 ≤ 2 ^ 26) && al 8 8 && al 0x10 8 && al 0x18 8
      && al 0x28 4 && al 0x30 4 && decide (recBits r 0x38 7 5 ≤ 4) && decide (recBits r 0x38 9 8 ≤ 2)
    | 4 =>
      let n := recBits r 0x18 31 0
      let src := recBits r 8 63 0
      let dst := recBits r 0x10 63 0
      decide (1 ≤ n) && decide (n ≤ 2 ^ 26) && decide (recBits r 0x18 33 32 ≤ 2) && al 8 4 && al 0x10 4
      && (src == dst || decide (dst + 4 * n ≤ src) || decide (src + 4 * n ≤ dst))
    | _ => true)

/-- Why a coordinate command is not accepted. -/
inductive CoordFail where
  | operand
  | stale (h : Word)
  | full

/-- What a coordinate command acts on: its handle, whether the map cache gave it, and the state with the object created
or the generation drawn (20 R348, R349, R352, R356). -/
def State.coordAccept (s : State) (ctx die : Nat) (r : BitVec 512) : Except CoordFail (Word × Bool × State) :=
  let op := recBits r 0 7 0
  match op with
  | 1 =>
    let h := BitVec.ofNat 32 (recBits r 0x28 31 0)
    if h = 0 then
      match s.freeObj die with
      | none => .error .full
      | some ix =>
        let g := s.drawGen die
        let o := g.2.obj die ix
        .ok (mkHandle die ix 1 o.gen, false,
          g.2.setObj die ix ⟨o.gen, ctx, .table (recBits r 0x18 63 0) (recBits r 0x10 36 32) 0 g.1, false⟩)
    else
      match s.object? ctx h [1] with
      | none => .error (.stale h)
      | some o =>
        let g := s.drawGen (hDie h)
        .ok (h, false, match o.body with
          | .table sl lg n _ => g.2.setObj (hDie h) (hIndex h) { o with body := .table sl lg n g.1 }
          | .free | .map .. => g.2)
  | 2 =>
    let ti := BitVec.ofNat 32 (recBits r 8 31 0)
    let outs := BitVec.ofNat 32 (recBits r 8 63 32)
    match s.object? ctx ti [1], s.object? ctx outs [1] with
    | none, _ => .error (.stale ti)
    | _, none => .error (.stale outs)
    | some oi, some oo =>
      let gen (o : Obj) : BitVec 32 := match o.body with
        | .table _ _ _ g => g
        | .free | .map .. => 0
      let key : BitVec 40 := BitVec.ofNat 40 (recBits r 0x20 34 0)
      let c := Table.read CoordDie.reset s.eng.coord die
      let hit := c.cache.find? (fun e => e.ctx == ctx && e.genI == gen oi && e.genO == gen oo && e.params == key)
      match hit with
      | some e =>
        .ok (e.handle, true, { s with eng.coord := Table.put s.eng.coord die { c with cache := e :: c.cache.filter (· != e) } })
      | none =>
        match s.freeObj die with
        | none => .error .full
        | some ix =>
          let o := s.obj die ix
          let h := mkHandle die ix 2 o.gen
          let noff := recBits r 0x20 2 0 * recBits r 0x20 10 8 * recBits r 0x20 18 16
          let s := s.setObj die ix ⟨o.gen, ctx, .map (recBits r 0x10 63 0) (recBits r 0x18 63 0) noff false, false⟩
          let c' : CoordDie := { c with cache := (⟨ctx, gen oi, gen oo, key, h⟩ :: c.cache).take 64 }
          .ok (h, false, { s with eng.coord := Table.put s.eng.coord die c' })
  | 5 =>
    let h := BitVec.ofNat 32 (recBits r 8 31 0)
    match s.object? ctx h [1, 2] with
    | none => .error (.stale h)
    | some _ => .ok (h, false, s)
  | _ => .ok (0, false, s)

/-! ### Snapshots -/

/-- A 64-byte record at a virtual address as the home slice holds it, read whole (17 R305); the error is the cause. -/
def State.readRecord (s : State) (ctx : Nat) (t : Tlb) (va : Nat) : Except (BitVec 16) (BitVec 512 × State) :=
  (s.readBy ctx t va 64 64).map (fun r => (BitVec.ofNat 512 (ofBytes r.1), r.2))

/-- A snapshot holds every store that a thread had made to the record before its last `lrinv` of it (17 R306). -/
def State.freshFor (s : State) (e : RecEntry) (pa : Nat) (team : Nat) (th : Thread) : Bool :=
  match Table.look th.lrs e.addr with
  | none => true
  | some n => (List.range 8).all (fun k => (Table.read [] s.mm.hist (chunkOf pa + k)).all (fun a =>
      !a.write.threads.contains (team, th.ltid) || decide (n ≤ a.write.n) || decide (a.num < e.num)))

/-- A layout record for a thread's command: the cached snapshot, which may be older than memory, or a new one, which then
enters the cluster's cache (17 R306). -/
def State.layoutRecord (s : State) (ctx core team : Nat) (th : Thread) (va : Nat) : Except (BitVec 16) (BitVec 512 × State) :=
  let cl := clusterOf core
  let cache := Table.read [] s.eng.recCache cl
  let put (s : State) (e : RecEntry) : State :=
    let others := (Table.read [] s.eng.recCache cl).filter (fun x => !(x.ctx == ctx && x.addr == va))
    { s with eng.recCache := Table.put s.eng.recCache cl ((e :: others).take 32) }
  let tlb : Tlb := .copy cl
  let pa := match s.resolve ctx tlb va 64 64 .read with
    | .ok (.phys pa _) => pa
    | .ok (.arg ..) | .error _ => 0
  let anew : Except (BitVec 16) (BitVec 512 × State) :=
    (s.readRecord ctx tlb va).map (fun r => (r.1, put r.2.drew ⟨ctx, va, s.mm.nextW, r.1⟩))
  match cache.find? (fun e => e.ctx == ctx && e.addr == va && s.freshFor e pa team th) with
  | some e => if Config.freeBool s.free then .ok (e.snap, put s.drew e) else anew
  | none => anew

/-- `lrinv` of an address by threads (17 R306): the cluster's entry goes, and their later commands use no snapshot without the stores
that they have made. -/
def State.dropRecord (s : State) (ctx core team : Nat) (ids : List Nat) (va : Nat) : State :=
  { s with eng.recCache := s.eng.recCache.map (fun (p : Nat × List RecEntry) =>
      if p.1 = clusterOf core then (p.1, p.2.filter (fun e => !(e.ctx == ctx && e.addr == va))) else p) }.updTeam team
    (fun t => t.updThreads ids (fun th => { th with lrs := Table.put th.lrs va s.mm.nextW }))

/-! ### Acceptance -/

/-- A lane's command is refused: cause, SUB and DETAIL. -/
structure Refused where
  cause  : BitVec 16
  detail : Nat

/-- The barrier handle of a command form (21 R370): none for 0xF0, and a stale one refused (17 R303). -/
def Iss.barOf (i : Iss) (s : State) (l : Lane) (code : BitVec 8) : Except Refused (Option Word) :=
  if code = 0xF0 then .ok none
  else
    let h := BitVec.ofNat 32 (l.src 1 code.toNat)
    if (s.barIndex i.core i.team.id h).isNone then .error ⟨0x21, h.toNat⟩ else .ok (some h)

/-- The words SCOPE, BARV and BAR of a command's record, with its OP (17 R307, 20 R359). -/
def recHead (op scope : Nat) (bar : Option Word) : Nat :=
  op + scope * 2 ^ 8 + (match bar with
    | some h => 2 ^ 11 + h.toNat * 2 ^ 32
    | none => 0)

/-- The release that acceptance is (17 R296): at the command's scope, widened to crew. -/
def State.acceptRelease (s : State) (i : Iss) (l : Lane) (scope : Nat) : State :=
  s.release i.team.id i.core [l.th.ltid] (max 2 scope)

/-- A thread's command enters its queue (17 R296), and its CMD_ACCEPT record is made. -/
def State.enter (s : State) (i : Iss) (l : Lane) (q : QueueId) (scope : Nat) (bar : Option Word) (body : CmdBody) : State :=
  let c := { Cmd.blank q i.ctx i.core body with
    team := some i.team.id
    thread := l.th.ltid
    grid := i.team.grid
    scope := BitVec.ofNat 3 scope
    bar := bar }
  let s := s.accept c
  match s.eng.cmds.getLast? with
  | some c => s.traceAccept i c l
  | none => s

/-- The commands of a form, lane by lane in ascending order: from the first lane that fails on, nothing is accepted
(21 R369). -/
def acceptLanes (f : State → Lane → List Lane → Except Refused State) (i : Iss) : List (Lane × List Lane) → State → State
  | [], s => s
  | (l, rcv) :: rest, s =>
    match f s l rcv with
    | .ok s => acceptLanes f i rest s
    | .error r =>
      s.drew.faultRest i l (others l rcv ++ rest.map (fun p => p.1.th.ltid)) r.cause 0 r.detail

end Sys2Proof.Machine
end

