-- ==== Sys2Proof/Machine/CopyOps.lean ====
section
/-! DEFINITION. Copy instructions, record invalidation, queue fences (21 R368 to R375) and `put` (31 R497). -/

namespace Sys2Proof.Machine

/-- A 512-bit record from numbers at byte offsets. -/
def mkRec (fs : List (Nat × Nat)) : BitVec 512 := BitVec.ofNat 512 (fs.foldl (fun n f => n + f.2 * 2 ^ (8 * f.1)) 0)

/-- The first address of a list at which a 64-byte record cannot be read, with the fault (21 R371). -/
def State.badRecord (s : State) (i : Iss) (t : Tlb) (vas : List Nat) : Option Refused :=
  vas.findSome? (fun va =>
    match s.resolve i.ctx t va 64 64 .read with
    | .error c => some ⟨c, va⟩
    | .ok (.phys pa _) => if s.badData pa 64 then some ⟨0x18, va⟩ else none
    | .ok (.arg _ _) => none)

/-- One `cpy` command (21 R371, R373); one record named on both sides has one snapshot (17 R306). -/
def cpyOne (e : Enc) (i : Iss) (s : State) (l : Lane) (_ : List Lane) : Except Refused State := do
  let bar ← i.barOf s l e.d
  let recs := l.src 4 e.a.toNat
  let sa := lowBits 64 recs
  let da := recs >>> 64
  match s.badRecord i (.copy (clusterOf i.core)) [sa, da] with
  | some r => .error r
  | none =>
    let s := s.acceptRelease i l e.x.scope.toNat
    let src ← (s.layoutRecord i.ctx i.core i.team.id l.th sa).mapError (fun c => ⟨c, sa⟩)
    let dst ← if da = sa then .ok src
      else (src.2.layoutRecord i.ctx i.core i.team.id l.th da).mapError (fun c => ⟨c, da⟩)
    let coord (code : Nat) (r : BitVec 512) (off : Nat) : List (Nat × Nat) :=
      (List.range 4).map (fun k => (off + 4 * k, if k < lrNdim r then (l.th.reg (code + k)).toNat else 0))
    let cr := mkRec ([(0, recHead 1 e.x.scope.toNat bar), (8, sa), (0x10, da)] ++ coord e.b.toNat src.1 0x20
      ++ coord e.x.c.toNat dst.1 0x30)
    if copyOk cr src.1 dst.1 false then
      .ok (dst.2.enter i l (.copy i.core) e.x.scope.toNat bar (.copy cr src.1 dst.1))
    else
      .error ⟨0x30, if !layoutOk src.1 false false then sa else if !layoutOk dst.1 true false then da else s.unstated⟩

/-- `cpy` (21 R373). -/
def execCpy (e : Enc) (s : State) : Host.Outcome State Fault Refusal :=
  issued .cpy e (fun i s => acceptLanes (cpyOne e i) i i.perf s) s

/-- LEN of a linear copy or fill: 0 means 2^32 (21 R373). -/
def copyLen (n : Nat) : Nat := if n = 0 then 2 ^ 32 else n

/-- A linear copy or a fill command (21 R371, R373). -/
def linearOne (e : Enc) (i : Iss) (head : Nat) (src dst len : Lane → Nat) (s : State) (l : Lane) (_ : List Lane) :
    Except Refused State := do
  let bar ← i.barOf s l e.d
  let op := head % 8
  let cr := mkRec [(0, recHead op e.x.scope.toNat bar + (head - op)), (8, src l), (0x10, dst l), (0x18, copyLen (len l))]
  if copyOk cr 0 0 false then
    .ok ((s.acceptRelease i l e.x.scope.toNat).enter i l (.copy i.core) e.x.scope.toNat bar (.copy cr 0 0))
  else .error ⟨0x30, s.unstated⟩

/-- `cpys` (21 R373). -/
def execCpys (e : Enc) (s : State) : Host.Outcome State Fault Refusal :=
  let c := e.x.c.toNat
  let head := 2 + (e.x.aux.toNat % 2) * 2 ^ 12 + e.x.space.toNat * 2 ^ 13 + (c % 8) * 2 ^ 16 + bitsAt c 4 3 * 2 ^ 19
  issued .cpys e (fun i s => acceptLanes (linearOne e i head (fun l => lowBits 64 (l.src 4 e.a.toNat))
    (fun l => l.src 4 e.a.toNat >>> 64) (fun l => l.src 1 e.b.toNat)) i i.perf s) s

/-- `cpyw` (21 R373). -/
def execCpyw (e : Enc) (s : State) : Host.Outcome State Fault Refusal :=
  let head := 3 + e.x.space.toNat * 2 ^ 16 + (e.x.aux.toNat % 4) * 2 ^ 19
  issued .cpyw e (fun i s => acceptLanes (linearOne e i head (fun l => l.src 1 e.b.toNat) (fun l => l.src 2 e.a.toNat)
    (fun l => l.src 1 e.x.c.toNat)) i i.perf s) s

/-- `lrinv` (21 R374): the checks are alignment and the address's upper bits. -/
def execLrinv (e : Enc) (s : State) : Host.Outcome State Fault Refusal :=
  issued .lrinv e (fun i s =>
    i.perf.foldl (fun s p =>
      let ea := p.1.addr e
      if 2 ^ 48 ≤ ea then s.faultFor i p.1 (others p.1 p.2) 0x10 0 ea 0
      else if ea % 64 ≠ 0 then s.faultFor i p.1 (others p.1 p.2) 0x11 0 ea 0
      else s.dropRecord i.ctx i.core i.team.id (p.2.map (fun l => l.th.ltid)) ea) s) s

/-- `qfence` (21 R375, 17 R299, 19 R331): the window is flushed, and one entry stands in every named queue and takes a number in
each. -/
def execQfence (e : Enc) (s : State) : Host.Outcome State Fault Refusal :=
  issued .qfence e (fun i s =>
    let qs := i.fenceQueues
    let s := s.flushWindow i.team.id
    match qs, i.act with
    | q :: rest, l :: _ =>
      (match q with
        | .tile _ => qs
        | .copy _ | .feCopy _ | .coord _ | .feCoord _ | .expert _ => rest).foldl (fun (s : State) r => s.fenceSeq i.ctx r)
        (s.enter i l q 5 none (.fence qs))
    | _, _ => s) s

/-- A peer window (31 R496). -/
def State.window (s : State) (w : Nat) : PeerWin := Table.read PeerWin.reset s.pkg.windows w

/-- One `put` command (31 R497). -/
def putOne (e : Enc) (i : Iss) (s : State) (l : Lane) (_ : List Lane) : Except Refused State := do
  let bar ← i.barOf s l e.d
  let n := l.src 1 e.b.toNat
  let w := l.src 1 e.x.c.toNat
  let win := s.window w
  let f := win.w0.toNat
  if 64 ≤ w ∨ !bitAt f 0 ∨ bitAt f 1 ∨ bitsAt f 23 16 ≠ i.ctx ∨ n = 0 ∨ 2 ^ 24 < n then .error ⟨0x30, w⟩
  else
    let a := l.src 4 e.a.toNat
    .ok ((s.acceptRelease i l e.x.scope.toNat).enter i l (.copy i.core) e.x.scope.toNat bar
      (.put e.x.space.toNat (BitVec.ofNat 64 a) (BitVec.ofNat 64 (a >>> 64)) n w))

/-- `put` (31 R497). -/
def execPut (e : Enc) (s : State) : Host.Outcome State Fault Refusal :=
  issued .put e (fun i s => acceptLanes (putOne e i) i i.perf s) s

end Sys2Proof.Machine
end

