-- ==== Sys2Proof/Machine/Rewrite.lean ====
section
/-! DEFINITION. The rewrite stage (19 R329 to R346): rules and their validity, descriptors and matching, replacement, the
entry of a tile command into the window, and replay (27 R449). -/

namespace Sys2Proof.Machine

/-! ### Rules -/

/-- Fields of a rule (19 R332): NPAT, NREP, CLASS, and template `k`, patterns 0 to 2 and replacements 3 and 4. -/
def ruleNpat (r : BitVec 256) : Nat := bitsAt r.toNat 1 0
@[inherit_doc ruleNpat]
def ruleNrep (r : BitVec 256) : Nat := bitsAt r.toNat 3 2
@[inherit_doc ruleNpat]
def ruleClass (r : BitVec 256) : Nat := bitsAt r.toNat 5 4
@[inherit_doc ruleNpat]
def ruleTemplate (r : BitVec 256) (k : Nat) : Nat := bitsAt r.toNat (16 + 48 * k + 47) (16 + 48 * k)

/-- Fields of a template (19 R333). -/
def tOpc (t : Nat) : Nat := bitsAt t 7 0
@[inherit_doc tOpc]
def tAux (t : Nat) : Nat := bitsAt t 10 8
@[inherit_doc tOpc]
def tAny (t : Nat) : Bool := bitAt t 11
@[inherit_doc tOpc]
def tSrc (t : Nat) : Nat := bitsAt t 13 12
@[inherit_doc tOpc]
def tVop (t : Nat) : Nat := bitsAt t 15 14
@[inherit_doc tOpc]
def tSpec (t k : Nat) : Nat := bitsAt t (23 + 8 * k) (16 + 8 * k)

/-- An operand specification has no reserved bit (19 R334). -/
def specOk (x : Nat) : Bool :=
  match x / 64 with
  | 0 => x % 64 == 0
  | 1 => bitsAt x 5 3 == 0
  | 2 => true
  | _ => false

/-- The variable that a specification names. -/
def specVar (x : Nat) : Option Nat := if x / 64 = 1 then some (x % 8) else none

/-- What both kinds of template must meet (19 R333). -/
def templateOk (t : Nat) : Bool :=
  decide (0xB0 ≤ tOpc t) && decide (tOpc t ≤ 0xB8) && (!tAny t || tAux t == 0) && decide (tVop t ≤ 1)
  && bitsAt t 47 40 == 0 && [0, 1, 2].all (fun k => specOk (tSpec t k))

/-- A rule is valid (19 R332 to R334, R339). -/
def ruleValid (r : BitVec 256) : Bool :=
  let n := ruleNpat r
  let m := ruleNrep r
  let pats := (List.range n).map (ruleTemplate r)
  let reps := (List.range m).map (fun k => ruleTemplate r (3 + k))
  let vars := pats.flatMap (fun t => [0, 1, 2].filterMap (fun k => specVar (tSpec t k)))
  decide (m ≤ 2) && decide (ruleClass r ≤ 2) && bitsAt r.toNat 7 6 == 0 && bitsAt r.toNat 15 8 == 0
  && [0, 1, 2].all (fun k => decide (k < n) || ruleTemplate r k == 0)
  && [0, 1].all (fun k => decide (k < m) || ruleTemplate r (3 + k) == 0)
  && pats.all (fun t => templateOk t && tSrc t == 0)
  && reps.all (fun t => templateOk t && decide (tSrc t < n)
      && [0, 1, 2].all (fun k => (specVar (tSpec t k)).all vars.contains)
      && (if tOpc t == 0xB8 then
            (if tVop t == 0 then tOpc (pats.getD (tSrc t) 0) == 0xB8 else pats.all (fun p => tOpc p == 0xB8))
          else tVop t == 0))

/-- A rule is usable for a launch (19 R339): it is valid, not empty, and its class is permitted. -/
def ruleUsable (rw : BitVec 3) (r : BitVec 256) : Bool :=
  ruleNpat r != 0 && ruleValid r && bitAt rw.toNat 0 && (ruleClass r == 0 || bitAt rw.toNat (ruleClass r))

/-! ### Descriptors -/

/-- The form has a parameter block (22 R383). -/
def hasBlock (op : Op) : Bool := [Op.tmm, .tmmsp, .tgms, .tsacc, .tst, .tldac].contains op

/-- Fields of a parameter block (18 R314). -/
def tbFmt (b : BitVec 512) (side : Nat) : Nat := recBits b (8 * side) 58 54
@[inherit_doc tbFmt]
def tbTr (b : BitVec 512) (side : Nat) : Bool := recBits b (8 * side) 53 53 == 1
@[inherit_doc tbFmt]
def tbM (b : BitVec 512) : Nat := recBits b 0x18 6 0
@[inherit_doc tbFmt]
def tbN (b : BitVec 512) : Nat := recBits b 0x18 14 8
@[inherit_doc tbFmt]
def tbK (b : BitVec 512) : Nat := recBits b 0x18 31 16
@[inherit_doc tbFmt]
def tbAcc (b : BitVec 512) : Nat := recBits b 0x18 34 32
@[inherit_doc tbFmt]
def tbPacc (b : BitVec 512) : Nat := recBits b 0x18 37 35
@[inherit_doc tbFmt]
def tbBsc (b : BitVec 512) : Bool := recBits b 0x18 38 38 == 1

/-- The fields T0, T1 and T2 of a command's descriptor (22 R383). -/
def TileCmd.fields (c : TileCmd) : List Nat :=
  let b := c.block.getD 0
  match c.op with
  | .tmm | .tmmsp => [tbAcc b, tbFmt b 0, tbFmt b 1]
  | .tgms => [0, tbFmt b 0, tbFmt b 1]
  | .tsacc => [tbAcc b, tbPacc b, tbK b / 16]
  | .tst | .tldac => [tbAcc b, tbFmt b 0, if tbTr b 0 then 1 else 0]
  | _ => [c.tile.toNat, 0, 0]

/-- A power of two of either sign, of a normal f32 (19 R333). -/
def isPow2 (v : Word) : Bool :=
  let x := v.toNat
  let ex := bitsAt x 30 23
  bitsAt x 22 0 == 0 && ex != 0 && ex != 255

/-- A pattern template meets a command under bindings of variables; the bindings that follow (19 R334 to R336). -/
def matchOne (t : Nat) (c : TileCmd) (env : Table Nat) : Option (Table Nat) :=
  if tOpc t ≠ c.op.code.toNat ∨ (!tAny t ∧ tAux t ≠ c.aux.toNat) ∨ (tVop t = 1 ∧ (c.op ≠ .tscl ∨ !isPow2 c.val)) then none
  else
    ((c.fields).zipIdx).foldl (fun (env : Option (Table Nat)) (f : Nat × Nat) =>
      env.bind (fun env =>
        let x := tSpec t f.2
        match x / 64 with
        | 0 => some env
        | 1 => match Table.look env (x % 8) with
          | some v => if v = f.1 then some env else none
          | none => some (Table.put env (x % 8) f.1)
        | _ => if x % 64 = f.1 then some env else none)) (some env)

/-- The command names a barrier (19 R337). -/
def TileCmd.barred (c : TileCmd) : Bool := (c.block.bind blockBar).isSome

/-- A rule matches a run of commands, oldest first, with the bindings (19 R336, R337). -/
def matchRule (r : BitVec 256) (run : List WinCmd) : Option (Table Nat) :=
  let cs := run.map WinCmd.cmd
  let n := ruleNpat r
  let reps := (List.range (ruleNrep r)).map (fun k => ruleTemplate r (3 + k))
  match cs.getLast? with
  | none => none
  | some last =>
    if run.length ≠ n ∨ !run.all (fun w => w.rule.isNone && !w.due && w.cmd.thread == last.thread) then none
    else if (cs.dropLast).any TileCmd.barred then none
    else if last.barred ∧ (reps.getLast?).all (fun t => tSrc t != n - 1) then none
    else if reps.any (fun t =>
        let src := (cs[tSrc t]?).map TileCmd.op
        let op := tOpc t
        (op != 0xB4 && op != 0xB7 && op != 0xB8 && !src.any hasBlock) || (op == 0xB1 && src != some .tmmsp)) then none
    else
      ((cs.zipIdx).foldl (fun (env : Option (Table Nat)) (p : TileCmd × Nat) =>
        env.bind (matchOne (ruleTemplate r p.2) p.1)) (some []))

/-- The form of a template's opcode. -/
def tileOp (opc : Nat) : Op :=
  match opc with
  | 0xB0 => .tmm
  | 0xB1 => .tmmsp
  | 0xB2 => .tgms
  | 0xB3 => .tsacc
  | 0xB4 => .tzero
  | 0xB5 => .tst
  | 0xB6 => .tldac
  | 0xB7 => .ttr
  | _ => .tscl

/-- The VAL of a replacement (19 R333). -/
def repVal (t : Nat) (cs : List TileCmd) (src : TileCmd) : Word :=
  if tVop t = 1 then
    match cs with
    | [] => 0
    | c :: rest => rest.foldl (fun v d => BitVec.ofNat 32 (f32.mul 0 false v.toNat d.val.toNat).1) c.val
  else src.val

/-- One replacement command (19 R338, 22 R384). -/
def replaceOne (t : Nat) (cs : List TileCmd) (first src : TileCmd) (env : Table Nat) (seq : Nat) : TileCmd :=
  let op := tileOp (tOpc t)
  let x := tSpec t 0
  let f0 := match x / 64 with
    | 1 => Table.read 0 env (x % 8)
    | 2 => x % 64
    | _ => 0
  { op := op
    aux := if tAny t then src.aux else BitVec.ofNat 3 (tAux t)
    thread := first.thread
    block := if hasBlock op then src.block else none
    tile := if hasBlock op then 0 else BitVec.ofNat 8 f0
    val := if op = .tscl then repVal t cs src else 0
    metas := if op = .tmmsp then src.metas else []
    seq := seq
    epoch := first.epoch }

/-! ### Replay -/

/-- The rule hits loaded for a team's grid, none where no replay is set or the grid was spawned (27 R449). -/
def State.replayOf (s : State) (t : Team) : Option (List (BitVec 512)) :=
  match s.grid? t.grid with
  | none => none
  | some g =>
    if g.parent.isSome then none
    else (s.dbg.replays.find? (fun r => r.ctx == t.ctx && r.queue == g.queue)).map ReplaySet.hits

/-- The tile numbers of the originals that a RULE_HIT record names (27 R434). -/
def hitSeqs (h : BitVec 512) : List Nat := (List.range (bitsAt h.toNat 41 40)).map (fun k => recBits h (0x10 + 8 * k) 63 0)

/-- The hits that concern a team. -/
def State.teamHits (s : State) (t : Team) (hits : List (BitVec 512)) : List (BitVec 512) :=
  match s.grid? t.grid with
  | none => []
  | some g => hits.filter (fun h => recBits h 0x28 63 0 == g.seq.toNat && recBits h 0x30 31 0 == t.index
      && recBits h 0x34 7 0 == g.queue)

/-- A command of the window waits for the rest of the run that a listed hit names (27 R449). -/
def State.replayWaits (s : State) (t : Team) (w : WinCmd) : Bool :=
  match s.replayOf t with
  | none => false
  | some hits => w.rule.isNone && !w.due && (s.teamHits t hits).any (fun h => (hitSeqs h).contains w.cmd.seq
      && (hitSeqs h).getLast?.any (fun n => decide (t.tseq ≤ n)))

/-! ### The window -/

/-- The oldest command of a window becomes due. -/
def State.dueOldest (s : State) (team : Nat) : State :=
  s.updTeam team (fun t => { t with window := match t.window with
    | w :: ws => { w with due := true } :: ws
    | [] => [] })

/-- Commands that have been in the window for 32 cycles are due to leave (19 R329), but those that a replay keeps (27 R449). -/
def State.ageWindow (s : State) (team : Nat) : State :=
  (s.updTeam team (fun t => { t with window := t.window.map (fun w =>
    if w.entry + 32 ≤ s.clock.clk ∧ !s.replayWaits t w then { w with due := true } else w) })).drainWindow team
    (((s.team? team).map (fun t => t.window.length)).getD 0)

/-- A RULE_HIT record about a run of tile numbers (27 R434): rule, CLASS, NPAT, REPLAY and DIVERGE as ARG holds them. -/
def State.hitRecord (s : State) (t : Team) (arg thread : Nat) (seqs : List Nat) : State :=
  match s.grid? t.grid with
  | none => s
  | some g =>
    let seq (k : Nat) : Nat := seqs.getD k 0
    s.emit t.ctx t.core rRuleHit (arg + thread * 2 ^ 16)
      [seq 0, seq 1, seq 2, g.seq.toNat, t.index + g.queue * 2 ^ 32, coreNo t.core + t.place * 2 ^ 5] true
      (some (t.id, 2 ^ 64))

/-- The record of a rule's hit, or of a replay of originals (19 R346). -/
def State.traceHit (s : State) (t : Team) (rule : Nat) (r : BitVec 256) (cs : List TileCmd) (replay : Bool) : State :=
  s.hitRecord t (rule + ruleClass r * 2 ^ 6 + ruleNpat r * 2 ^ 8 + (if replay then 2 ^ 10 else 0))
    (((cs.head?).map TileCmd.thread).getD 0) (cs.map TileCmd.seq)

/-- The record of a listed hit that does not match: it names the rule, the class, the length and the run that are listed, with DIVERGE
(27 R449). -/
def State.traceDiverge (s : State) (t : Team) (thread : Nat) (h : BitVec 512) : State :=
  s.hitRecord t (bitsAt h.toNat 41 32 + 2 ^ 11) thread (hitSeqs h)

/-- A run is replaced (19 R338). Its replacements enter the window, which holds up to 8 commands: the oldest leaves before a ninth
enters (R329), and where it cannot, the run stays as it is (R340). -/
def State.replaceRun (s : State) (t : Team) (i : Nat) (r : BitVec 256) (run : List WinCmd) (env : Table Nat) : State :=
  match run with
  | [] => s
  | w0 :: _ =>
    let cs := run.map WinCmd.cmd
    let n := ruleNpat r
    let m := ruleNrep r
    let fresh : Bool := n == 1 && m == 2
    let new := (List.range m).map (fun k =>
      let tp := ruleTemplate r (3 + k)
      let src := (cs[tSrc tp]?).getD w0.cmd
      let seq := if k = 0 then w0.cmd.seq else if fresh then t.tseq else w0.cmd.seq + 1
      (⟨replaceOne tp cs w0.cmd src env seq, w0.entry, some i, ruleClass r, k == 0, cs, false⟩ : WinCmd))
    let s := if 8 + n < t.window.length + m then (s.dueOldest t.id).drainWindow t.id 1 else s
    if ((s.team? t.id).map (fun t => t.window.length)).getD 0 + m ≤ 8 + n then
      (s.updTeam t.id (fun t => { t with
        window := t.window.take (t.window.length - n) ++ new
        tseq := if fresh then t.tseq + 1 else t.tseq })).traceHit t i r cs false
    else s

/-- The rules of a context on a die, in order. -/
def State.rulesOf (s : State) (t : Team) : List (Nat × BitVec 256) := (s.ctx t.ctx (dieOf t.core)).rules

/-- The rewriting permitted to a team: bit 0 is clear where rewriting is off (19 R330, 27 R449). -/
def State.rwOf (s : State) (t : Team) : BitVec 3 :=
  match s.grid? t.grid with
  | none => 0
  | some g => if g.parent.isSome && s.dbg.replays.any (fun r => r.ctx == t.ctx) then 0 else g.launch.rw

/-- The first usable rule that matches the youngest commands of the window is applied (19 R336); whether a run is still
whole when its last command enters depends on when the earlier ones leave (R340). Under replay, only the listed hits are
applied, each when the last command of its run enters. -/
def State.rewrite (s : State) (t : Team) : State :=
  let tail (n : Nat) : List WinCmd := t.window.drop (t.window.length - n)
  match s.replayOf t with
  | some hits =>
    match t.window.getLast? with
    | none => s
    | some w =>
      match (s.teamHits t hits).find? (fun h => (hitSeqs h).getLast? == some w.cmd.seq) with
      | none => s
      | some h =>
        let i := bitsAt h.toNat 37 32
        let r := Table.read 0 (s.ctx t.ctx (dieOf t.core)).rules i
        let run := tail (bitsAt h.toNat 41 40)
        match if ruleUsable (s.rwOf t) r && run.map (fun w => w.cmd.seq) == hitSeqs h then matchRule r run else none with
        | some env => s.replaceRun t i r run env
        | none => s.traceDiverge t w.cmd.thread h
  | none =>
    let rw := s.rwOf t
    let found := (s.rulesOf t).findSome? (fun p =>
      if ruleUsable rw p.2 then (matchRule p.2 (tail (ruleNpat p.2))).map (fun env => (p, env)) else none)
    match found with
    | none => s
    | some (p, env) => s.replaceRun t p.1 p.2 (tail (ruleNpat p.2)) env

/-- Commands are held in the window for matching (19 R330). -/
def State.windowHolds (s : State) (t : Team) : Bool :=
  (s.rulesOf t).any (fun p => ruleUsable (s.rwOf t) p.2)

/-- A tile command enters its team's window (19 R329, R330, R336). -/
def State.enterWindow (s : State) (team : Nat) (c : TileCmd) : State :=
  let s := s.ageWindow team
  match s.team? team with
  | none => s
  | some t =>
    let s := if 8 ≤ t.window.length then (s.dueOldest team).drainWindow team 1 else s
    let s := s.updTeam team (fun t =>
      { t with window := t.window ++ [⟨{ c with seq := t.tseq }, s.clock.clk, none, 0, false, [], false⟩], tseq := t.tseq + 1 })
    match s.team? team with
    | none => s
    | some t =>
      let s := s.rewrite t
      if s.windowHolds t then s else s.flushWindow team

end Sys2Proof.Machine
end

