-- ==== Sys2Proof/Machine/TileOps.lean ====
section
/-! DEFINITION. Tile instructions (22 R380 to R391): the checks of a parameter block (18 R314 to R316, R318 to R325), the
metadata of `tmmsp` (R386) and the entry of a command into the rewrite window (R381, R382). -/

namespace Sys2Proof.Machine

/-! ### Parameter blocks -/

/-- Fields of a parameter block that concern one operand side (18 R314): base, space, rank, stride. -/
def tbBase (b : BitVec 512) (side : Nat) : Nat := recBits b (8 * side) 47 0
@[inherit_doc tbBase]
def tbSpace (b : BitVec 512) (side : Nat) : Nat := recBits b (8 * side) 50 48
@[inherit_doc tbBase]
def tbRank (b : BitVec 512) (side : Nat) : Nat := recBits b (8 * side) 52 51
@[inherit_doc tbBase]
def tbStride (b : BitVec 512) (side : Nat) : Nat := recBits b (0x10 + 4 * side) 31 0

/-- The operand descriptor of a side (18 R314). -/
def sideFields (side : Nat) : List (Nat × Nat × Nat) := [(8 * side, 58, 0), (0x10 + 4 * side, 31, 0)]

/-- SCOPE, BARV and BAR, with or without M, N, K, ACC and PACC (18 R314). -/
def headFields (lo : List (Nat × Nat × Nat)) : List (Nat × Nat × Nat) := lo ++ [(0x18, 43, 40), (0x20, 31, 0)]

/-- The fields that a form reads (18 R315; 22 R387, R389). -/
def blockFields (op : Op) (bsc : Bool) : List (Nat × Nat × Nat) :=
  match op with
  | .tgms =>
    sideFields 0 ++ sideFields 1 ++ headFields [(0x18, 14, 8), (0x18, 31, 16)]
      ++ [(0x20, 63, 32), (0x28, 63, 0), (0x30, 31, 0), (0x38, 39, 0)]
  | .tst | .tldac => sideFields 0 ++ headFields [(0x18, 6, 0), (0x18, 14, 8), (0x18, 34, 32)]
  | _ =>
    sideFields 0 ++ sideFields 1 ++ headFields [(0x18, 6, 0), (0x18, 14, 8), (0x18, 38, 16)]
      ++ (if bsc then [(0x28, 63, 0), (0x30, 63, 0)] else [])

/-- The limits of an operand side (18 R314). -/
def sideOk (b : BitVec 512) (side : Nat) : Bool :=
  tbBase b side % 16 == 0 && decide (tbSpace b side ≤ 3) && (tbSpace b side == 2 || tbRank b side == 0)
  && tbStride b side % 16 == 0

/-- Floats of eight or four bits, and floats of sixteen. -/
def narrowFmt (t : Nat) : Bool := t == 0xD || t == 0xE || t == 0xF
@[inherit_doc narrowFmt]
def halfFmt (t : Nat) : Bool := t == 0xA || t == 0xB

/-- AFMT and BFMT are a pair of 18 R318; `ints` says whether `i8` is accepted. -/
def pairOk (a b : Nat) (ints : Bool) : Bool :=
  (a == 6 && b == 6 && ints) || ((narrowFmt a || halfFmt a) && (narrowFmt b || halfFmt b))

/-- M, N and K are within their limits (18 R314). -/
def dimOk (n : Nat) : Bool := decide (1 ≤ n) && decide (n ≤ 64)

/-- Block-scaled operands (18 R322). -/
def bscOk (b : BitVec 512) (accum : Nat) : Bool :=
  let nb := tbK b / 16
  !tbBsc b
  || (narrowFmt (tbFmt b 0) && narrowFmt (tbFmt b 1) && tbK b % 16 == 0 && decide (1 ≤ nb) && decide (nb ≤ 7)
      && decide (tbPacc b + nb ≤ accum) && (decide (tbAcc b < tbPacc b) || decide (tbPacc b + nb ≤ tbAcc b)))

/-- The limits of a product or `tsacc` block (18 R314, R318, R320, R322). -/
def productOk (op : Op) (b : BitVec 512) (accum : Nat) : Bool :=
  sideOk b 0 && sideOk b 1 && dimOk (tbM b) && dimOk (tbN b) && decide (1 ≤ tbK b) && pairOk (tbFmt b 0) (tbFmt b 1) true
  && decide (tbAcc b < accum) && bscOk b accum
  && (op != .tmmsp || (tbK b % 4 == 0 && decide (tbK b ≤ 32) && decide (tbM b ≤ 16) && !tbTr b 0))
  && (op != .tsacc || tbBsc b)

/-- A live map that a `tgms` names, its build completed, with its offset list in range (18 R325, 20 R355). -/
def State.mapOk (s : State) (ctx : Nat) (b : BitVec 512) : Bool :=
  match (s.object? ctx (BitVec.ofNat 32 (recBits b 0x30 31 0)) [2]).map Obj.body with
  | some (.map _ _ noff built) => built && decide (recBits b 0x28 63 48 < noff)
  | _ => false

/-- The limits of a `tgms` block (18 R314, R323, R325). -/
def State.scatterOk (s : State) (ctx : Nat) (b : BitVec 512) : Bool :=
  sideOk b 0 && sideOk b 1 && dimOk (tbN b) && decide (1 ≤ tbK b) && pairOk (tbFmt b 0) (tbFmt b 1) false && !tbTr b 0
  && recBits b 0x28 47 0 % 4 == 0 && recBits b 0x20 63 32 % 4 == 0 && s.mapOk ctx b

/-- Element bytes of a tile move; none for a format that it does not take (22 R389). -/
def moveBytes (fmt : Nat) : Option Nat :=
  if fmt = 3 ∨ fmt = 8 ∨ fmt = 0xC then some 4 else if halfFmt fmt then some 2 else none

/-- The limits of a tile move's block (22 R389). -/
def moveOk (b : BitVec 512) (accum : Nat) : Bool :=
  sideOk b 0 && dimOk (tbM b) && dimOk (tbN b) && (moveBytes (tbFmt b 0)).isSome && decide (tbAcc b < accum)

/-- Tiles that a team owns (18 R312). -/
def State.accumOf (s : State) (t : Team) : Nat := ((s.grid? t.grid).map (fun g => g.launch.accum)).getD 0

/-- A snapshot passes the checks of 18 R316, BAR apart. -/
def State.blockOk (s : State) (t : Team) (op : Op) (b : BitVec 512) : Bool :=
  let n := s.accumOf t
  onlyFields b (blockFields op (tbBsc b)) && decide (1 ≤ blockScope b) && decide (blockScope b ≤ 5)
  && ((blockBar b).isSome || recBits b 0x20 31 0 == 0)
  && (match op with
    | .tgms => s.scatterOk t.ctx b
    | .tst | .tldac => moveOk b n
    | _ => productOk op b n)

/-! ### Acceptance -/

/-- The tile command that a lane hands over (19 R335). -/
def tileCmd (op : Op) (e : Enc) (epoch : Nat) (l : Lane) (block : Option (BitVec 512)) (val : Word) (metas : List Word) :
    TileCmd where
  op     := op
  aux    := e.x.aux
  thread := l.th.ltid
  block  := block
  tile   := if block.isSome then 0 else e.d
  val    := val
  metas  := metas
  seq    := 0
  epoch  := epoch

/-- A command is accepted into the window of its team (22 R381, 19 R329), its CMD_ACCEPT record first (27 R434, R435). -/
def State.enterTileCmd (s : State) (i : Iss) (l : Lane) (c : TileCmd) : State :=
  let n := ((s.team? i.team.id).map Team.tseq).getD 0
  let b := Cmd.blank (.tile i.team.id) i.ctx i.core (.tile ⟨c, 0, none, 0, false, [], false⟩)
  (s.traceAccept i { b with seq := n, team := some i.team.id } l).enterWindow i.team.id c

/-- The epoch of the grid that a command takes (18 R324). -/
def State.epochOf (s : State) (t : Team) : Nat := ((s.grid? t.grid).map Grid.epoch).getD 0

/-- The metadata of a `tmmsp` with `m` rows (22 R386): register `b` of the lanes 16·sel + i, none where one of them is not
active. -/
def metaWords (e : Enc) (i : Iss) (m : Nat) : Option (List Word) :=
  (List.range m).mapM (fun k => (i.act.find? (fun l => l.lane == 16 * (e.x.aux.toNat % 4) + k)).map
    (fun l => BitVec.ofNat 32 (l.src 1 e.b.toNat)))

/-- A lane's command of a block form (22 R381, R382): the release of its acceptance precedes the snapshot. -/
def blockOne (op : Op) (e : Enc) (i : Iss) (s : State) (l : Lane) (_ : List Lane) : Except Refused State := do
  let ea := l.addr e
  match s.badRecord i (.tile i.core) [ea] with
  | some r => .error r
  | none =>
    let r ← (s.readRecord i.ctx (.tile i.core) ea).mapError (fun c => ⟨c, ea⟩)
    let s := s.acceptRelease i l (blockScope r.1)
    let r ← (s.readRecord i.ctx (.tile i.core) ea).mapError (fun c => ⟨c, ea⟩)
    let b := r.1
    if !s.blockOk i.team op b then .error ⟨0x31, ea⟩
    else
      match blockBar b with
      | some h =>
        if (s.barIndex i.core i.team.id h).isNone then .error ⟨0x21, h.toNat⟩
        else blockEnter b r.2
      | none => blockEnter b r.2
where
  /-- The metadata check and the entry of the command. -/
  blockEnter (b : BitVec 512) (s : State) : Except Refused State :=
    match if op = .tmmsp then metaWords e i (tbM b) else some [] with
    | none => .error ⟨0x32, s.unstated⟩
    | some ms => .ok (s.enterTileCmd i l (tileCmd op e (s.epochOf i.team) l (some b) 0 ms))

/-- A lane's command of a form that names a tile (22 R381, R382). -/
def wholeOne (op : Op) (e : Enc) (i : Iss) (s : State) (l : Lane) (_ : List Lane) : Except Refused State :=
  if s.accumOf i.team ≤ e.d.toNat then .error ⟨0x31, s.unstated⟩
  else .ok (s.enterTileCmd i l (tileCmd op e (s.epochOf i.team) l none (if op = .tscl then BitVec.ofNat 32 (l.opB op e 1 0xC) else 0) []))

/-! ### The instructions -/

/-- `tmm` (22 R385). -/
def execTmm (e : Enc) (s : State) : Host.Outcome State Fault Refusal :=
  issued .tmm e (fun i s => acceptLanes (blockOne .tmm e i) i i.perf s) s

/-- `tmmsp` (22 R381, R385, R386): one command, from the lowest active lane. -/
def execTmmsp (e : Enc) (s : State) : Host.Outcome State Fault Refusal :=
  issued .tmmsp e (fun i s => acceptLanes (blockOne .tmmsp e i) i ((i.act.take 1).map (fun l => (l, i.act))) s) s

/-- `tgms` (22 R388). -/
def execTgms (e : Enc) (s : State) : Host.Outcome State Fault Refusal :=
  issued .tgms e (fun i s => acceptLanes (blockOne .tgms e i) i i.perf s) s

/-- `tsacc` (22 R387). -/
def execTsacc (e : Enc) (s : State) : Host.Outcome State Fault Refusal :=
  issued .tsacc e (fun i s => acceptLanes (blockOne .tsacc e i) i i.perf s) s

/-- `tzero` (22 R390). -/
def execTzero (e : Enc) (s : State) : Host.Outcome State Fault Refusal :=
  issued .tzero e (fun i s => acceptLanes (wholeOne .tzero e i) i i.perf s) s

/-- `tst` (22 R389). -/
def execTst (e : Enc) (s : State) : Host.Outcome State Fault Refusal :=
  issued .tst e (fun i s => acceptLanes (blockOne .tst e i) i i.perf s) s

/-- `tldac` (22 R389). -/
def execTldac (e : Enc) (s : State) : Host.Outcome State Fault Refusal :=
  issued .tldac e (fun i s => acceptLanes (blockOne .tldac e i) i i.perf s) s

/-- `ttr` (22 R390). -/
def execTtr (e : Enc) (s : State) : Host.Outcome State Fault Refusal :=
  issued .ttr e (fun i s => acceptLanes (wholeOne .ttr e i) i i.perf s) s

/-- `tscl` (22 R390). -/
def execTscl (e : Enc) (s : State) : Host.Outcome State Fault Refusal :=
  issued .tscl e (fun i s => acceptLanes (wholeOne .tscl e i) i i.perf s) s

/-- `tflush` (22 R391). -/
def execTflush (e : Enc) (s : State) : Host.Outcome State Fault Refusal :=
  issued .tflush e (fun i s => s.flushWindow i.team.id) s

end Sys2Proof.Machine
end

