-- ==== Sys2Proof/Machine/EngineIO.lean ====
section
/-! DEFINITION. What the engines share (17 R295 to R303): the accesses of a command (R300), its faults and its abort (26
R417 to R419), the bytes it counts (R302), and when it may run (R297, 27 R431, R440). -/

namespace Sys2Proof.Machine

/-! ### Accesses -/

/-- The team whose thread issued a command. -/
def State.cmdTeam (s : State) (c : Cmd) : Option Team := c.team.bind s.team?

/-- The TLB that an engine translates through (13 R244). -/
def Cmd.tlb (c : Cmd) : Tlb :=
  match c.queue with
  | .copy _ | .feCopy _ => .copy (clusterOf c.core)
  | .tile _ => .tile c.core
  | .coord _ | .feCoord _ | .expert _ => .second (clusterOf c.core)

/-- The place of an access of an engine; a command of the front end reaches SPACE 0 alone (17 R307). -/
def State.engPlace (s : State) (c : Cmd) (space rank ea n : Nat) (k : Acc) : Except (BitVec 16) Place :=
  match space, s.cmdTeam c with
  | 0, _ | _, none => s.globalPlace c.ctx c.tlb ea n k
  | _, some t => s.place t none space rank ea n k

/-- An engine's read of a place: SPACE 0 is read at the home slice (17 R300). -/
def State.readAt (s : State) (c : Cmd) (p : Place) (ea n : Nat) : List Byte × State :=
  match p with
  | .mem (.phys pa _) => (s.noteTlb c.tlb c.ctx ea).drew.readHome pa n
  | .mem (.arg g off) => (s.argBytes g off n, s)
  | .spad owner off => (((s.team? owner).map (fun m => m.spadBytes off n)).getD [], s)
  | .ws off => ((List.range n).map (fun k => s.wsByte c.die (off + k)), s)
  | .frame .. => ([], s)

/-- An engine's write of a place; a line homed on a lost die drops it and ends the issuing team (30 R484). -/
def State.writeAt (s : State) (c : Cmd) (p : Place) (ea : Nat) (bs : List Byte) : State :=
  match p with
  | .mem (.phys pa _) =>
    if s.pkg.lostHome pa then
      match c.team with
      | some t => s.endTeam t ea
      | none => s
    else (s.noteTlb c.tlb c.ctx ea).drew.writeHome pa bs
  | .spad owner off => s.writeSpad owner .ofAgent off bs
  | .mem (.arg ..) | .ws _ | .frame .. => s

/-- Why a command stops (26 R407 cause 0x40): SUB, the lane code of SUB 6, the address or the offset where it stopped, and
the kind of access. -/
structure EngStop where
  sub    : Nat
  lane   : Nat
  loc    : Nat
  access : Nat
deriving DecidableEq, Repr

/-- A memory fault of an engine. -/
def memStop (cause : BitVec 16) (ea access : Nat) : EngStop := ⟨6, cause.toNat, ea, access⟩

/-- A read and a write of an engine, with their faults. -/
def State.engRead (s : State) (c : Cmd) (space rank ea n : Nat) : Except EngStop (List Byte × State) :=
  match s.engPlace c space rank ea n .read with
  | .error f => .error (memStop f ea 0)
  | .ok p => .ok (s.readAt c p ea n)
@[inherit_doc State.engRead]
def State.engWrite (s : State) (c : Cmd) (space rank ea : Nat) (bs : List Byte) : Except EngStop State :=
  match s.engPlace c space rank ea bs.length .write with
  | .error f => .error (memStop f ea 1)
  | .ok p => .ok (s.writeAt c p ea bs)

/-- A number read from SPACE 0. -/
def State.engNum (s : State) (c : Cmd) (ea n : Nat) : Except EngStop (Nat × State) :=
  (s.engRead c 0 0 ea n).map (fun r => (ofBytes r.1, r.2))

/-- One byte of a place that covers several. -/
def Place.byte (p : Place) (k : Nat) : Place :=
  match p with
  | .mem (.phys pa m) => .mem (.phys (pa + k) m)
  | .mem (.arg g off) => .mem (.arg g (off + k))
  | .spad t off => .spad t (off + k)
  | .frame r off => .frame r (off + k)
  | .ws off => .ws (off + k)

/-- Sectors and blocks that a set of physical bytes covers whole lose their poison (13 R240, 30 R484). -/
def State.cleanse (s : State) (pas : List Nat) : State :=
  let whole (n c : Nat) : Bool := (List.range n).all (fun k => pas.contains (n * c + k))
  { s with mm.poison := s.mm.poison.filter (fun c => !whole 64 c), mm.bad := s.mm.bad.filter (fun c => !whole 32 c) }

/-- The MTYPE of a place (13 R241). -/
def Place.mtype (p : Place) : Nat :=
  match p with
  | .mem (.phys _ m) => m
  | .mem (.arg ..) | .spad .. | .frame .. | .ws _ => 0

/-- The physical address of a place. -/
def Place.pa (p : Place) : Option Nat :=
  match p with
  | .mem (.phys pa _) => some pa
  | .mem (.arg ..) | .spad .. | .frame .. | .ws _ => none

/-! ### Bytes counted -/

/-- A command has performed `done` bytes of its destination from its start: those that it has not counted are subtracted
from PENDING (17 R302, 26 R419), and a phase that they complete releases its threads (15 R289). -/
def State.countTo (s : State) (id done : Nat) : State :=
  match s.cmd? id with
  | none => s
  | some c =>
    let new := done - c.counted
    let s := match c.team, c.bar with
      | some t, some h => if 0 < new then (s.barLand c.core t h new).releaseBars t else s
      | _, _ => s
    s.updCmd id (fun c => { c with counted := max c.counted done })

/-! ### Faults, holds and aborts -/

/-- A command ends without another write (26 R419); `commandComplete` counts the bytes that are left and arrives. -/
def State.abortCmd (s : State) (id : Nat) : State :=
  s.updCmd id (fun c => { c with state := .performed, aborted := true })

/-- A fault reaches the thread that issued the command as an asynchronous trap, or, for a command of the front end, ends
the command with record 0x11 (26 R417, R418; 09 R182). -/
def State.deliver (s : State) (id : Nat) (cause : BitVec 16) (x : EngStop) : State :=
  match s.cmd? id with
  | none => s
  | some c =>
    match c.team with
    | none =>
      let s := match c.pkt with
        | some (q, seq, m) =>
          s.itemError q seq c.pid m c.batch 0x11 x.sub (if x.sub = 6 then x.lane else 0) x.loc
        | none => s
      s.abortCmd id
    | some t =>
      let free := (Config.freeBits 64 s.free).toNat
      let detail : BitVec 64 := BitVec.ofNat 64 (if x.sub = 6 then x.lane + 256 * free else free)
      let sub := BitVec.ofNat 8 x.sub
      let s := s.drew
      if (s.thread? t c.thread).any Thread.alive then
        (s.updCmd id (fun c => { c with state := .held cause sub detail .none })).updThread t c.thread
          (fun th => { th with asyncs := th.asyncs ++ [⟨id, cause, sub, detail⟩] })
      else
        let s := s.abortCmd id
        match s.team? t with
        | some tm => s.endTeam t tm.index
        | none => s

/-- The rule that a command's fault names (19 R344). -/
def Cmd.rule (c : Cmd) : Option Nat :=
  match c.body with
  | .tile w => w.rule
  | _ => none

/-- A command that has met a page fault offers it, or waits for room in the fault ring (26 R417). -/
def State.offerCmd (s : State) (id : Nat) : State :=
  match s.cmd? id with
  | none => s
  | some c =>
    match c.state with
    | .held cause sub va .wanted =>
      let entry := (Config.freeBits 32 s.free).toNat
      let r := s.drew.offerFault c.ctx c.core va.toNat 3 sub.toNat entry ((c.rule).getD 0xFF) (c.rule).isSome
      (match r.1 with
        | .declined => r.2.deliver id 0x40 ⟨6, 0x12, va.toNat, sub.toNat⟩
        | o => r.2.updCmd id (fun c => { c with state := .held cause sub va o }))
    | _ => s

/-- A command stops at its boundary (26 R417, 18 R326), with its CMD_HOLD record. -/
def State.stopCmd (s : State) (id : Nat) (x : EngStop) : State :=
  match s.cmd? id with
  | none => s
  | some c =>
    let s := s.cmdRecord c rCmdHold (c.pos % 2 ^ 26)
    if x.sub = 6 ∧ x.lane = 0x12 then
      (s.updCmd id (fun c => { c with
        state := .held 0x12 (BitVec.ofNat 8 x.access) (BitVec.ofNat 64 x.loc) .wanted })).offerCmd id
    else s.deliver id 0x40 x

/-- A command has made all its accesses. -/
def State.finishCmd (s : State) (id : Nat) : State := s.updCmd id (fun c => { c with state := .performed })

/-- A performance's outcome: performed, or stopped. -/
def State.endRun (s : State) (id : Nat) (stop : Option EngStop) : State :=
  match stop with
  | none => s.finishCmd id
  | some x => s.stopCmd id x

/-! ### When a command may run -/

/-- A DRAIN stop holds the command back (27 R440). -/
def State.drained (s : State) (c : Cmd) : Bool :=
  s.dbg.drains.any (fun d => d.ctx == c.ctx && (match c.team with
    | some t => (d.cores.contains c.core || d.teams.contains t || d.threads.contains (t, c.thread))
        && !d.freeTeams.contains t && !d.freeThreads.contains (t, c.thread)
    | none => d.fe && d.cores.any (fun k => clusterOf k == clusterOf c.core)))

/-- A record of the unit that serves a command: a copy or coordinate engine of a cluster, the tile engine of a core, or the expert
unit of a die (27 R431 to R434). -/
def Cmd.sameUnit (c : Cmd) (x : BitVec 512) : Bool :=
  let ty := recBits x 0 7 0
  let cluster := recBits x 0 14 12 == clusterOf c.core % 8
  match c.queue with
  | .expert _ => ty == 8 || (decide (4 ≤ ty) && decide (ty ≤ 6) && recBits x 0x18 7 4 == 3)
  | .tile _ => decide (4 ≤ ty) && decide (ty ≤ 6) && recBits x 0x18 7 4 == 2 && cluster && recBits x 0 16 15 == c.core % 4
  | .copy _ | .feCopy _ | .coord _ | .feCoord _ =>
    decide (4 ≤ ty) && decide (ty ≤ 6) && recBits x 0x18 7 4 == c.queue.eng && cluster

/-- Records that wait for room in hold mode on a die, in the rings of every context. -/
def State.heldRecs (s : State) (die : Nat) : List (BitVec 512) :=
  (s.ctxs.filter (fun (e : Nat × CtxReg) => e.1 % 4 == die && bitsAt e.2.traceCtl.toNat 2 1 == 2)).flatMap
    (fun (e : Nat × CtxReg) => e.2.recs.map TraceRec.bits)

/-- In hold mode an engine begins nothing while a record of it waits for room (27 R431). -/
def State.engineHeld (s : State) (c : Cmd) : Bool := (s.heldRecs c.die).any c.sameUnit

/-- Spaces and ranks that a command's accesses name. -/
def CmdBody.spaces (b : CmdBody) : List (Nat × Nat) :=
  match b with
  | .copy cr src dst =>
    if recBits cr 0 7 0 = 1 then [(lrSpace src, lrRank src), (lrSpace dst, lrRank dst)]
    else [(recBits cr 0 15 13, recBits cr 0 20 19), (recBits cr 0 18 16, recBits cr 0 20 19)]
  | .put space .. => [(space, 0)]
  | .tile w =>
    match w.cmd.block with
    | some b => [(tbSpace b 0, tbRank b 0), (tbSpace b 1, tbRank b 1)]
    | none => []
  | .coord .. | .hlk .. | .token .. | .take .. | .fence _ => []

/-- The scratchpads and banks that a command uses are on chip: its team's context is resident, and active for a tile
command; a crew member's context that it names is resident (26 R422, R424, R426). -/
def State.resident (s : State) (c : Cmd) : Bool :=
  match s.cmdTeam c with
  | none => true
  | some t =>
    (match c.queue with
      | .tile _ => t.slot == some (s.core c.core).active
      | _ => t.slot.isSome || (c.body.spaces).all (fun p => p.1 != 1 && p.1 != 2))
    && (c.body.spaces).all (fun p => p.1 != 2 || (match s.crewMember t p.2 with
      | some m => m.slot.isSome || m.freed
      | none => true))

/-- A command can begin but for the turn of its queue (17 R297; 27 R431, R440). -/
def State.canBeginCmd (s : State) (c : Cmd) : Bool :=
  c.state == .ready && !c.begun && s.atHead c && !s.drained c && !s.engineHeld c && s.resident c && (match c.body with
    | .fence _ => false
    | .copy .. | .put .. | .coord .. | .hlk .. | .token .. | .take .. | .tile _ => true)

/-- The copy or coordinate engine of a queue, and the queue's place among the five that it serves (17 R295; log entry 63). -/
def QueueId.served (q : QueueId) : Option (Nat × Nat) :=
  match q with
  | .copy k => some (2 * clusterOf k, k % 4)
  | .feCopy c => some (2 * c, 4)
  | .coord k => some (2 * clusterOf k + 1, k % 4)
  | .feCoord c => some (2 * c + 1, 4)
  | .tile _ | .expert _ => none

/-- The five queues of a copy or coordinate engine are served in round robin: no queue before this one in turn has a command that can
begin (17 R295). -/
def State.robinOk (s : State) (c : Cmd) : Bool :=
  match c.queue.served with
  | none => true
  | some (unit, k) =>
    let last := Table.read 4 s.eng.robin unit
    let wait (j : Nat) : Nat := (j + 4 - last) % 5
    s.eng.cmds.all (fun d => match d.queue.served with
      | none => true
      | some (u, j) => u != unit || decide (wait k ≤ wait j) || !s.canBeginCmd d)

/-- A command may begin, or go on (17 R295, R297). -/
def State.canRun (s : State) (c : Cmd) : Bool :=
  if c.begun then c.state == .ready && s.atHead c && s.resident c else s.canBeginCmd c && s.robinOk c

/-- A command begins, with its CMD_BEGIN record (27 R434), and its engine's turn moves on (17 R295). -/
def State.beginCmd (s : State) (id : Nat) : State :=
  match s.cmd? id with
  | none => s
  | some c =>
    if c.begun then s
    else
      let s := (s.cmdRecord c rCmdBegin 0).updCmd id (fun c => { c with begun := true })
      match c.queue.served with
      | some (unit, k) => { s with eng.robin := Table.put s.eng.robin unit k }
      | none => s

/-- A step of an engine on a command of the kind that `f` performs: nothing happens unless the command may run. -/
def State.perform (s : State) (id : Nat) (f : Cmd → State → Option State) : State :=
  match s.cmd? id with
  | none => s
  | some c => if s.canRun c then ((f c (s.beginCmd id)).getD s) else s

end Sys2Proof.Machine
end

