-- ==== Sys2Proof/Machine/CopyEngine.lean ====
section
/-! DEFINITION. The copy engine (17 R307 to R310): box copies, linear copies, fills, decompression, and the sending of a
`put` (31 R497, R498). -/

namespace Sys2Proof.Machine

/-! ### Elements -/

/-- A signed coordinate of a copy record (17 R307): `side` 0 source, 1 destination. -/
def crCoord (cr : BitVec 512) (side i : Nat) : Int := toSigned 32 (recBits cr (0x20 + 16 * side + 4 * i) 31 0)

/-- A point lies in the extent of a layout record (17 R308). -/
def inExtent (r : BitVec 512) (p : Nat → Int) : Bool :=
  [0, 1, 2, 3].all (fun i => if i < lrNdim r then decide (0 ≤ p i) && decide (p i < lrDim r i) else p i == 0)

/-- The address of an element (17 R308). -/
def elemAddr (r : BitVec 512) (p : Nat → Int) : Nat :=
  wrapInt 64 ((lrBase r : Int) + p 0 * 2 ^ lrEsize r
    + ([1, 2, 3].filter (fun i => decide (i < lrNdim r))).foldl (fun a i => a + p i * lrStride r i) 0)

/-- The points of a box, the first coordinate varying fastest (17 R308). -/
def boxPoints (r : BitVec 512) : List (Nat → Int) :=
  (List.range (lrBox r 3 + 1)).flatMap (fun (e3 : Nat) => (List.range (lrBox r 2 + 1)).flatMap (fun (e2 : Nat) =>
    (List.range (lrBox r 1 + 1)).flatMap (fun (e1 : Nat) => (List.range (lrBox r 0 + 1)).map (fun (e0 i : Nat) =>
      match i with
      | 0 => (e0 : Int)
      | 1 => (e1 : Int)
      | 2 => (e2 : Int)
      | _ => (e3 : Int)))))

/-- The bytes of FILL for an element (17 R308). -/
def fillBytes (n fill : Nat) : List Byte := (List.range n).map (fun k => BitVec.ofNat 8 (fill >>> (8 * (k % 4))))

/-- An element that a copy writes: where it is read, or the bytes of a fill, and where it goes. -/
structure CopyElem where
  src  : Option Nat
  fill : List Byte
  dst  : Nat

/-- The elements of a box copy in order (17 R308). -/
def boxElems (cr src dst : BitVec 512) : List CopyElem :=
  let n := 2 ^ lrEsize src
  (boxPoints src).filterMap (fun e =>
    let s := fun i => crCoord cr 0 i + e i
    let t := fun i => crCoord cr 1 i + e i
    if !inExtent dst t then none
    else some ⟨if inExtent src s then some (elemAddr src s) else none, fillBytes n (recBits src 0x34 31 0), elemAddr dst t⟩)

/-- The spaces, the element size and the elements of a copy command that is not compressed. -/
structure CopyPlan where
  size  : Nat
  src   : Nat × Nat
  dst   : Nat × Nat
  elems : List CopyElem

def copyPlan (cr src dst : BitVec 512) : CopyPlan :=
  let rank := recBits cr 0 20 19
  let sa := recBits cr 8 63 0
  let da := recBits cr 0x10 63 0
  let len := recBits cr 0x18 63 0
  let d := (recBits cr 0 18 16, rank)
  match recBits cr 0 7 0 with
  | 1 => ⟨2 ^ lrEsize src, (lrSpace src, lrRank src), (lrSpace dst, lrRank dst), boxElems cr src dst⟩
  | 2 => ⟨1, (recBits cr 0 15 13, rank), d, (List.range len).map (fun (k : Nat) => ⟨some (lowBits 64 (sa + k)), [], lowBits 64 (da + k)⟩)⟩
  | _ => ⟨1, (0, 0), d, (List.range len).map (fun (k : Nat) =>
      ⟨none, [BitVec.ofNat 8 (recBits cr 8 31 0 >>> (8 * (k % 4)))], lowBits 64 (da + k)⟩)⟩

/-! ### Performance -/

/-- A byte that a copy writes: the place that it is read from, if any, its value before the command, and its place. -/
structure CopyByte where
  src : Option Place
  dst : Place
  ea  : Nat
  old : Byte

/-- The bytes of the elements up to the first that faults, read before anything is written (17 R308). -/
def copyBytes (c : Cmd) (p : CopyPlan) : List CopyElem → State → List CopyByte × Option EngStop × State
  | [], s => ([], none, s)
  | e :: es, s =>
    let src : Except EngStop (Option Place × List Byte × State) := match e.src with
      | none => .ok (none, e.fill, s)
      | some ea => match s.engPlace c p.src.1 p.src.2 ea p.size .read with
        | .error f => .error (memStop f ea 0)
        | .ok q => let r := s.readAt c q ea p.size; .ok (some q, r.1, r.2)
    match src with
    | .error f => ([], some f, s)
    | .ok (q, bs, s') =>
      match s'.engPlace c p.dst.1 p.dst.2 e.dst p.size .write with
      | .error f => ([], some (memStop f e.dst 1), s')
      | .ok d =>
        let here := (List.range p.size).map (fun k => (⟨q.map (fun x => x.byte k), d.byte k, e.dst, bs.getD k 0⟩ : CopyByte))
        let r := copyBytes c p es s'
        (here ++ r.1, r.2.1, r.2.2)

/-- The value that a byte takes (17 R308): its source byte's value before the command or, where the command writes that
source byte too, possibly a value that it writes there. -/
def copyValue (bs : List CopyByte) (free : Nat) : Nat → Nat → Byte
  | 0, i => ((bs[i]?).map CopyByte.old).getD 0
  | fuel + 1, i =>
    match bs[i]? with
    | none => 0
    | some b =>
      let cs := (List.range bs.length).filter (fun j => (bs[j]?).any (fun d => b.src == some d.dst))
      if cs.isEmpty || !Config.freeBool (free + i) then b.old
      else copyValue bs free fuel (cs.getD (Config.pick (free + bs.length + i) % cs.length) i)

/-- Writes the bytes of a copy in order. -/
def State.writeCopy (s : State) (c : Cmd) (bs : List CopyByte) : State :=
  let free := s.free
  let n := bs.length
  let s := { s with free := free + 2 * n }
  let s := (bs.zipIdx).foldl (fun (s : State) (p : CopyByte × Nat) =>
    s.writeAt c p.1.dst p.1.ea [copyValue bs free n p.2]) s
  s

/-- The physical bytes that the first `k` elements of a copy go to. -/
def State.copyPlaces (s : State) (c : Cmd) (p : CopyPlan) (k : Nat) : List Nat :=
  (p.elems.take k).flatMap (fun e =>
    match s.engPlace c p.dst.1 p.dst.2 e.dst p.size .write with
    | .ok d => (List.range p.size).filterMap (fun j => (d.byte j).pa)
    | .error _ => [])

/-- How many of the elements that are left one performance of a copy writes: a free number, since what other agents do may fall
between its accesses (17 R298, R300). -/
def State.copySpan (s : State) (left : Nat) : Nat := if left ≤ 1 then left else 1 + Config.pick s.free % left

/-- A copy that is not compressed goes on from its position: the elements before the first fault are written (17 R308), and a fault
sends it back to its start (26 R417). -/
def State.runCopy (s : State) (c : Cmd) (cr src dst : BitVec 512) : State :=
  let p := copyPlan cr src dst
  let left := p.elems.length - c.pos
  let n := s.copySpan left
  let r := copyBytes c p ((p.elems.drop c.pos).take n) s.drew
  let s := r.2.2.writeCopy c r.1
  let s := (s.cleanse (s.copyPlaces c p (c.pos + r.1.length / p.size))).countTo c.id (p.size * c.pos + r.1.length)
  match r.2.1 with
  | some x => (s.updCmd c.id (fun c => { c with pos := 0 })).stopCmd c.id x
  | none => if n < left then s.updCmd c.id (fun c => { c with pos := c.pos + n }) else s.finishCmd c.id

/-! ### Decompression -/

/-- Bytes of a compressed source, one by one (17 R307). -/
def State.sourceBytes (s : State) (c : Cmd) (sp rank : Nat) : Nat → Nat → Except EngStop (List Byte × State)
  | _, 0 => .ok ([], s)
  | ea, n + 1 =>
    match s.engRead c sp rank (lowBits 64 ea) 1 with
    | .error f => .error f
    | .ok r =>
      match State.sourceBytes r.2 c sp rank (ea + 1) n with
      | .error f => .error f
      | .ok q => .ok (r.1 ++ q.1, q.2)

/-- The output of a block's payload, none where CLEN is not the required value (17 R309). -/
def decodePayload (method clen ulen : Nat) (pay : List Byte) : Option (List Byte) :=
  match method with
  | 0 => if clen = ulen then some pay else none
  | 1 =>
    let words := ulen / 4
    let map := pay.take ((ulen + 31) / 32)
    let bit (w : Nat) : Bool := bitAt ((map.getD (w / 8) 0).toNat) (w % 8)
    let ones (n : Nat) : Nat := ((List.range n).filter bit).length
    if ulen % 4 ≠ 0 ∨ clen ≠ (ulen + 31) / 32 + 4 * ones words then none
    else
      some ((List.range words).flatMap (fun w =>
        if bit w then (List.range 4).map (fun k => pay.getD ((ulen + 31) / 32 + 4 * ones w + k) 0) else [0, 0, 0, 0]))
  | _ =>
    let pairs := (List.range (clen / 2)).map (fun k => ((pay.getD (2 * k) 0).toNat + 1, pay.getD (2 * k + 1) 0))
    let out := pairs.flatMap (fun p => List.replicate p.1 p.2)
    if clen % 2 = 0 ∧ out.length = ulen then some out else none

/-- Bytes written one by one to a destination, up to the first fault: the number written. -/
def State.writeBytes (s : State) (c : Cmd) (sp rank : Nat) : Nat → List Byte → Nat × Option EngStop × State
  | _, [] => (0, none, s)
  | ea, b :: bs =>
    match s.engWrite c sp rank (lowBits 64 ea) [b] with
    | .error f => (0, some f, s)
    | .ok s =>
      let r := State.writeBytes s c sp rank (ea + 1) bs
      (r.1 + 1, r.2.1, r.2.2)

/-- The blocks of a compressed source from offset `off`, `done` bytes being written (17 R309, R310): nothing of a faulting
block is written. -/
def runBlocks (c : Cmd) (cr : BitVec 512) : Nat → Nat → Nat → State → Nat × Option EngStop × State
  | 0, _, done, s => (done, none, s)
  | fuel + 1, off, done, s =>
    let sp := recBits cr 0 15 13
    let rank := recBits cr 0 20 19
    let src := recBits cr 8 63 0 + off
    let len := recBits cr 0x18 63 0
    if len ≤ done then (done, none, s)
    else
      match s.sourceBytes c sp rank src 8 with
      | .error f => (done, some f, s)
      | .ok (hd, s) =>
        let h := ofBytes hd
        let clen := bitsAt h 31 16
        let ulen := bitsAt h 47 32
        if 2 < bitsAt h 2 0 ∨ bitsAt h 15 3 ≠ 0 ∨ bitsAt h 63 48 ≠ 0 ∨ ulen = 0 ∨ 4096 < ulen ∨ len < done + ulen then
          (done, some ⟨1, 0, off, 0⟩, s)
        else
          match s.sourceBytes c sp rank (src + 8) clen with
          | .error f => (done, some f, s)
          | .ok (pay, s) =>
            match decodePayload (bitsAt h 2 0) clen ulen pay with
            | none => (done, some ⟨1, 0, off, 0⟩, s)
            | some out =>
              let w := s.writeBytes c (recBits cr 0 18 16) rank (recBits cr 0x10 63 0 + done) out
              match w.2.1 with
              | some f => (done + w.1, some f, w.2.2)
              | none => runBlocks c cr fuel (off + (8 + clen + 7) / 8 * 8) (done + ulen) w.2.2

/-- A compressed linear copy (17 R309, R310). -/
def State.runBlocks (s : State) (c : Cmd) (cr : BitVec 512) : State :=
  let r := Machine.runBlocks c cr (recBits cr 0x18 63 0 + 1) 0 0 s
  let s := r.2.2
  let pas := (List.range r.1).filterMap (fun k =>
    match s.engPlace c (recBits cr 0 18 16) (recBits cr 0 20 19) (lowBits 64 (recBits cr 0x10 63 0 + k)) 1 .write with
    | .ok p => p.pa
    | .error _ => none)
  ((s.cleanse pas).countTo c.id r.1).endRun c.id r.2.1

/-! ### put -/

/-- A peer port (31 R496). -/
def State.port (s : State) (k : Nat) : Port := Table.read Port.reset s.pkg.ports k

/-- The port of a put. -/
def State.putPort (s : State) (win : Nat) : Nat := bitsAt (s.window win).w0.toNat 2 2

/-- An aborted put is counted in its port's status word (31 R498). -/
def State.countAbort (s : State) (port : Nat) : State :=
  { s with pkg.ports := Table.upd Port.reset s.pkg.ports port (fun p => { p with count := p.count + 1 }) }

/-- The place of the youngest put that has been sent. -/
def State.lastSent (s : State) : Nat :=
  (s.eng.cmds.filter (fun c => c.state == .sent)).foldl (fun m c => max m c.pos) 0

/-- A window's counter grows by a length, one atomic add at scope sys (31 R498); the error is the cause of its fault. -/
def State.addCount (s : State) (win die len : Nat) : Except (BitVec 16) State :=
  let w := s.window win
  let ctx := bitsAt w.w0.toNat 23 16
  let va := bitsAt w.cnt.toNat 47 0
  match s.readVirt ctx die va 8 8 with
  | .error f => .error f
  | .ok (bs, s) => s.writeVirt ctx die va 8 (bytesOf 8 (ofBytes bs + len))

/-- An acknowledged put adds to TXCNT and completes (31 R498); `counted` marks it, so that a fault of the counter sends nothing
again. -/
def State.ackPut (s : State) (c : Cmd) (len win : Nat) : State :=
  let s := s.updCmd c.id (fun c => { c with counted := 1 })
  match s.addCount win c.die len with
  | .error f => s.stopCmd c.id (memStop f (bitsAt (s.window win).cnt.toNat 47 0) 2)
  | .ok s => s.finishCmd c.id

/-- A put reads its source and is sent (31 R498); it is then unacknowledged. -/
def State.runPut (s : State) (c : Cmd) (space : Nat) (addr off : BitVec 64) (len win : Nat) : State :=
  if c.counted ≠ 0 then s.ackPut c len win
  else
    match s.sourceBytes c space 0 addr.toNat len with
    | .error f => s.stopCmd c.id f
    | .ok (bs, s) =>
      let port := s.putPort win
      if (s.port port).up then
        let n := s.lastSent + 1
        let m : PutMsg := ⟨port, bitsAt (s.window win).w0.toNat 8 3, off, bs⟩
        State.updCmd { s with pkg.sends := s.pkg.sends ++ [m] } c.id (fun c => { c with state := .sent, pos := n })
      else (s.countAbort port).abortCmd c.id

/-! ### The event -/

/-- The destination bytes that a command counts (17 R302; 22 R389). -/
def CmdBody.destBytes (b : CmdBody) : Nat :=
  match b with
  | .copy cr src dst =>
    if recBits cr 0 7 0 = 1 then (boxElems cr src dst).length * 2 ^ lrEsize src else recBits cr 0x18 63 0
  | .tile w =>
    match w.cmd.block with
    | some p => if w.cmd.op = .tst then tbM p * tbN p * (moveBytes (tbFmt p 0)).getD 0 else 0
    | none => 0
  | .put .. | .coord .. | .hlk .. | .token .. | .take .. | .fence _ => 0

/-- COPY_PERFORM (17 R308 to R310, 31 R498): the command performs, or stops at its first fault. -/
def execCopyPerform (cmd : Nat) (s : State) : Host.Outcome State Fault Refusal :=
  .next (s.perform cmd (fun c s =>
    match c.body with
    | .copy cr src dst => some (if recBits cr 0 12 12 = 1 then s.runBlocks c cr else s.runCopy c cr src dst)
    | .put space addr off len win => some (s.runPut c space addr off len win)
    | .coord .. | .hlk .. | .token .. | .take .. | .tile _ | .fence _ => none))

end Sys2Proof.Machine
end

