-- ==== Sys2Proof/Machine/TileEngine.lean ====
section
/-! DEFINITION. The tile engine (18 R312 to R328; 22 R385 to R390): accumulator tiles, operands, products row by row, block
scales, tile moves, `tgms` batches, and the probe of a replacement (19 R344). -/

namespace Sys2Proof.Machine

/-! ### Accumulator tiles -/

/-- Element (i, j) of a tile; every element is +0 at team start (18 R312). -/
def Team.elem (t : Team) (a i j : Nat) : Word := Table.read 0 (Table.read [] t.acc a) (64 * i + j)

/-- Writes elements of a row from column 0 (18 R321). -/
def Team.setRow (t : Team) (a i : Nat) (vs : List Nat) : Team :=
  { t with acc := Table.upd [] t.acc a (fun m =>
      (vs.zipIdx).foldl (fun m p => Table.write 0 m (64 * i + p.2) (BitVec.ofNat 32 p.1)) m) }

/-- Replaces a tile (22 R390). -/
def Team.mapTile (t : Team) (a : Nat) (f : Nat → Nat → Word) : Team :=
  { t with acc := Table.put t.acc a ((List.range 4096).foldl (fun m k => Table.write 0 m k (f (k / 64) (k % 64))) []) }

/-! ### Operands -/

/-- The byte address of an operand element and the nibble that it is (18 R317, 02 R28); the row that a `tgms` gathers may be negative
(20 R355). -/
def elemAt (b : BitVec 512) (side : Nat) (outer : Int) (inner : Nat) : Nat × Nat :=
  let row : Int := if tbTr b side then inner else outer
  let col := if tbTr b side then outer.toNat else inner
  let w := typeWidth (tbFmt b side)
  (wrapInt 64 ((tbBase b side : Int) + row * tbStride b side + (col * w / 8 : Nat)), if w = 4 then col % 2 else 0)

/-- One operand element (18 R317). -/
def State.readElem (s : State) (c : Cmd) (b : BitVec 512) (side : Nat) (outer : Int) (inner : Nat) : Except EngStop (Nat × State) :=
  let a := elemAt b side outer inner
  let w := typeWidth (tbFmt b side)
  (s.engRead c (tbSpace b side) (tbRank b side) a.1 (max 1 (w / 8))).map (fun r =>
    (bitsAt (ofBytes r.1) (w * a.2 + w - 1) (w * a.2), r.2))

/-- Operand elements in order. -/
def readElems (c : Cmd) (b : BitVec 512) (side : Nat) : List (Int × Nat) → State → Except EngStop (List Nat × State)
  | [], s => .ok ([], s)
  | e :: es, s =>
    match s.readElem c b side e.1 e.2 with
    | .error f => .error f
    | .ok r =>
      match readElems c b side es r.2 with
      | .error f => .error f
      | .ok q => .ok (r.1 :: q.1, q.2)

/-- Columns of B at the rows `ks`, one list for each column (18 R317). -/
def readCols (c : Cmd) (b : BitVec 512) (ks : List Nat) : List Nat → State → Except EngStop (List (List Nat) × State)
  | [], s => .ok ([], s)
  | j :: js, s =>
    match readElems c b 1 (ks.map (fun (k : Nat) => ((k : Int), j))) s with
    | .error f => .error f
    | .ok r =>
      match readCols c b ks js r.2 with
      | .error f => .error f
      | .ok q => .ok (r.1 :: q.1, q.2)

/-! ### Products -/

/-- The two kept positions of group `g` in a metadata word (22 R386). -/
def keptOf (m : Word) (g : Nat) : Nat × Nat := (bitsAt m.toNat (4 * g + 1) (4 * g), bitsAt m.toNat (4 * g + 3) (4 * g + 2))

/-- The kept k of a row in ascending order; none where a group's indices are not strictly ascending (18 R320). -/
def keptKs (m : Word) (k : Nat) : Option (List Nat) :=
  let gs := (List.range (k / 4)).map (fun g => (4 * g, keptOf m g))
  if gs.all (fun p => decide (p.2.1 < p.2.2)) then some (gs.flatMap (fun p => [p.1 + p.2.1, p.1 + p.2.2])) else none

/-- The exact terms of a chunk (02 R42). -/
def chunkTerms (fa fb : Fmt) (ks av bv : List Nat) (ch : Nat) : List FVal :=
  ((ks.zip (av.zip bv)).filter (fun p => p.1 / 16 == ch)).map (fun p => prodVal (fa.val p.2.1) (fb.val p.2.2))

/-- One element of a product: the accumulator under R42, or the wrapped sum of R43. -/
def productElem (b : BitVec 512) (ks av bv : List Nat) (acc : Nat) : Nat :=
  match fmtOf (tbFmt b 0), fmtOf (tbFmt b 1) with
  | some fa, some fb =>
    (List.range ((tbK b + 15) / 16)).foldl (fun a ch => chunkAdd a (chunkTerms fa fb ks av bv ch)) acc
  | _, _ => wrapInt 32 (((av.zip bv).map (fun p => toSigned 8 p.1 * toSigned 8 p.2)).foldl (· + ·) (acc : Int))

/-- The unscaled partial of block `ch` (02 R44, 18 R322). -/
def partialElem (b : BitVec 512) (ks av bv : List Nat) (ch : Nat) : Nat :=
  match fmtOf (tbFmt b 0), fmtOf (tbFmt b 1) with
  | some fa, some fb => chunkSum (chunkTerms fa fb ks av bv ch)
  | _, _ => 0

/-- Row `i` of a product (18 R321, R322; 22 R385). -/
def State.productRow (s : State) (c : Cmd) (t : Team) (w : TileCmd) (b : BitVec 512) (i : Nat) : Except EngStop State :=
  let ks := if w.op = .tmmsp then keptKs (w.metas.getD i 0) (tbK b) else some (List.range (tbK b))
  match ks with
  | none => .error ⟨2, 0, i, 0⟩
  | some ks => do
    let a ← readElems c b 0 ((if w.op = .tmmsp then List.range ks.length else ks).map (fun (k : Nat) => ((i : Int), k))) s
    let bc ← readCols c b ks (List.range (tbN b)) a.2
    let acc := tbAcc b
    if tbBsc b then
      .ok ((List.range (tbK b / 16)).foldl (fun (s : State) (ch : Nat) =>
        s.updTeam t.id (fun t => t.setRow (tbPacc b + ch) i (bc.1.map (fun bv => partialElem b ks a.1 bv ch)))) bc.2)
    else
      let cur := ((bc.2.team? t.id).getD t)
      .ok (bc.2.updTeam t.id (fun t => t.setRow acc i
        ((bc.1.zipIdx).map (fun p => productElem b ks a.1 p.1 (cur.elem acc i p.2).toNat))))

/-! ### Block scales -/

/-- Row `i` of `tsacc` (22 R387). -/
def State.scaleRow (s : State) (c : Cmd) (t : Team) (b : BitVec 512) (i : Nat) : Except EngStop State := do
  let as := recBits b 0x28 47 0 + i * recBits b 0x28 63 48
  let n := tbN b
  let step (r : List Nat × State) (ch : Nat) : Except EngStop (List Nat × State) := do
    let ea ← r.2.engNum c (as + ch) 1
    let cols ← (List.range n).foldlM (fun (q : List Nat × State) (j : Nat) => do
      let eb ← q.2.engNum c (recBits b 0x30 47 0 + j * recBits b 0x30 63 48 + ch) 1
      pure (q.1 ++ [scaledAdd (r.1.getD j 0) (t.elem (tbPacc b + ch) i j).toNat ea.1 eb.1], eb.2)) ([], ea.2)
    pure cols
  let r ← (List.range (tbK b / 16)).foldlM step ((List.range n).map (fun j => (t.elem (tbAcc b) i j).toNat), s)
  pure (r.2.updTeam t.id (fun t => t.setRow (tbAcc b) i r.1))

/-! ### Tile moves -/

/-- The bits that a tile element is stored as, and the element that stored bits become (22 R389). -/
def storeElem (fmt : Nat) (v : Nat) : Nat :=
  if fmt = 0xA then (f32.convert f16 0 false v).1 else if fmt = 0xB then (f32.convert bf16 0 false v).1 else v
@[inherit_doc storeElem]
def loadElem (fmt : Nat) (v : Nat) : Nat :=
  if fmt = 0xA then (f16.convert f32 0 false v).1 else if fmt = 0xB then (bf16.convert f32 0 false v).1 else v

/-- Row `i` of `tst`: the places are all checked before anything of the row is written (18 R326). -/
def State.storeRow (s : State) (c : Cmd) (t : Team) (b : BitVec 512) (i : Nat) : Except EngStop State := do
  let n := (moveBytes (tbFmt b 0)).getD 4
  let ps ← (List.range (tbN b)).mapM (fun j =>
    let ea := (elemAt b 0 i j).1
    match s.engPlace c (tbSpace b 0) (tbRank b 0) ea n .write with
    | .error f => (.error (memStop f ea 1) : Except EngStop (Place × Nat × List Byte))
    | .ok p => .ok (p, ea, bytesOf n (storeElem (tbFmt b 0) (t.elem (tbAcc b) i j).toNat)))
  let s := ps.foldl (fun (s : State) p => s.writeAt c p.1 p.2.1 p.2.2) s
  pure ((s.cleanse (ps.flatMap (fun p => ((p.1.pa).map (fun pa => (List.range n).map (pa + ·))).getD []))).countTo c.id
    ((i + 1) * tbN b * n))

/-- Row `i` of `tldac`. -/
def State.loadRow (s : State) (c : Cmd) (t : Team) (b : BitVec 512) (i : Nat) : Except EngStop State := do
  let r ← readElems c b 0 ((List.range (tbN b)).map (fun (j : Nat) => ((i : Int), j))) s
  pure (r.2.updTeam t.id (fun t => t.setRow (tbAcc b) i (r.1.map (loadElem (tbFmt b 0)))))

/-! ### Gather, multiply and scatter -/

/-- MAPBASE of the map that a block names. -/
def State.mapBase (s : State) (ctx : Nat) (b : BitVec 512) : Nat :=
  match (s.object? ctx (BitVec.ofNat 32 (recBits b 0x30 31 0)) [2]).map Obj.body with
  | some (.map base _ _ _) => base
  | _ => 0

/-- COUNT and the address of the list of a block's offset (20 R355). -/
def State.pairList (s : State) (c : Cmd) (b : BitVec 512) : Except EngStop (Nat × Nat × State) := do
  let base := s.mapBase c.ctx b
  let e := base + 0x10 + 16 * recBits b 0x28 63 48
  let n ← s.engNum c e 4
  let o ← n.2.engNum c (e + 8) 8
  pure (n.1, base + o.1, o.2)

/-- A contribution of a `tgms` with the address and the MTYPE of its place. -/
structure Scatter where
  red   : Contrib
  addr  : Nat
  mtype : Nat

/-- The contributions of one pair (18 R323, R324), whose input and output are signed (20 R355): the place of each is checked before
any is sent. -/
def State.pairReds (s : State) (c : Cmd) (t : Team) (w : TileCmd) (b : BitVec 512) (list p : Nat) :
    Except EngStop (List Scatter × State) := do
  let inp ← s.engNum c (list + 8 * p) 4
  let out ← inp.2.engNum c (list + 8 * p + 4) 4
  let ks := List.range (tbK b)
  let a ← readElems c b 0 (ks.map (fun k => (toSigned 32 inp.1, k))) out.2
  let bc ← readCols c b ks (List.range (tbN b)) a.2
  let key := BitVec.ofNat 40 (recBits b 0x38 39 0 + recBits b 0x28 63 48 * 2 ^ 26 + p)
  let cs ← (bc.1.zipIdx).mapM (fun q =>
    let ea := wrapInt 64 ((recBits b 0x28 47 0 : Int) + toSigned 32 out.1 * recBits b 0x20 63 32 + 4 * q.2)
    match bc.2.engPlace c 0 0 ea 4 .red with
    | .error f => (.error (memStop f ea 2) : Except EngStop Scatter)
    | .ok pl => .ok ⟨⟨0, c.grid, c.ctx, t.id, c.thread, c.core, t.index, p, some (w.epoch, key), 0, 0xC, (pl.pa).getD 0,
        BitVec.ofNat 64 (productElem b ks a.1 q.1 0), .flight⟩, ea, pl.mtype⟩)
  pure (cs, bc.2)

/-- A contribution of a `tgms` is sent; one whose home is lost is dropped and ends the team (30 R484). -/
def State.sendScatter (s : State) (c : Cmd) (x : Scatter) : State :=
  if s.pkg.lostHome x.red.addr then (match c.team with
    | some t => s.endTeam t x.addr
    | none => s)
  else s.sendRed x.mtype x.red

/-- A batch of up to 64 pairs (18 R323): nothing of a batch that faults is sent (R326). -/
def State.scatterBatch (s : State) (c : Cmd) (t : Team) (w : TileCmd) (b : BitVec 512) : Except EngStop (Nat × State) := do
  let l ← s.pairList c b
  let n := min 64 (l.1 - c.pos)
  let r ← (List.range n).foldlM (fun (q : List Scatter × State) (k : Nat) => do
    let x ← q.2.pairReds c t w b l.2.1 (c.pos + k)
    pure (q.1 ++ x.1, x.2)) ([], l.2.2)
  pure (if l.1 ≤ c.pos + n then l.1 else c.pos + n, r.1.foldl (fun (s : State) x => s.sendScatter c x) r.2)

/-! ### A unit of work -/

/-- Rows, pairs or steps that a command has (18 R327); a `tgms` reads them from its map, which may fault (R326). -/
def State.tileUnits (s : State) (c : Cmd) (w : TileCmd) : Except EngStop Nat :=
  match w.op, w.block with
  | .tgms, some b => (s.pairList c b).map (fun r => r.1)
  | _, some b => .ok (tbM b)
  | _, none => .ok 1

/-- Addresses of SPACE 0 that a row, or a pair, of a command reads through operand A (18 R317, R323). -/
def State.rowAddrs (s : State) (c : Cmd) (w : TileCmd) (b : BitVec 512) (i : Nat) : List Nat :=
  let row (r : Int) : List Nat := if tbSpace b 0 = 0 then (List.range (tbK b)).map (fun k => (elemAt b 0 r k).1) else []
  match w.op with
  | .tgms =>
    (match s.pairList c b with
      | .error _ => []
      | .ok (n, list, _) =>
        if n ≤ i then []
        else match s.engNum c (list + 8 * i) 4 with
          | .error _ => []
          | .ok (x, _) => (list + 8 * i) :: row (toSigned 32 x))
  | _ => if i < tbM b then row i else []

/-- The engine walks some rows ahead (18 R319): their translations enter its TLB, and nothing faults. How many is left open. -/
def State.walkAhead (s : State) (c : Cmd) (w : TileCmd) : State :=
  match w.block with
  | none => s
  | some b =>
    let t := ((List.range (Config.pick s.free % 65)).flatMap (fun k => s.rowAddrs c w b (c.pos + 1 + k))).foldl
      (fun (s : State) ea => (s.noteTlb c.tlb c.ctx ea).drew) s.drew
    { s with mm := t.mm, free := t.free }

/-- The next row, batch or whole step of a tile command: where it stands then. -/
def State.tileUnit (s : State) (c : Cmd) (t : Team) (w : TileCmd) : Except EngStop (Nat × State) :=
  match w.block with
  | some b =>
    match w.op with
    | .tgms => s.scatterBatch c t w b
    | .tsacc => (s.scaleRow c t b c.pos).map (fun s => (c.pos + 1, s))
    | .tst => (s.storeRow c t b c.pos).map (fun s => (c.pos + 1, s))
    | .tldac => (s.loadRow c t b c.pos).map (fun s => (c.pos + 1, s))
    | _ => (s.productRow c t w b c.pos).map (fun s => (c.pos + 1, s))
  | none =>
    let a := w.tile.toNat
    .ok (1, s.updTeam t.id (fun t => t.mapTile a (fun i j =>
      match w.op with
      | .ttr => t.elem a j i
      | .tscl => BitVec.ofNat 32 (mulBits (t.elem a i j).toNat w.val.toNat)
      | _ => 0)))

/-- A command has no row, pair or step left from one on. -/
def State.tileOver (s : State) (c : Cmd) (w : TileCmd) (pos : Nat) : Bool :=
  match s.tileUnits c w with
  | .ok n => decide (n ≤ pos)
  | .error _ => false

/-- A command goes on by one unit, or stops (18 R321, R326). -/
def State.tileGo (s : State) (c : Cmd) (t : Team) (w : TileCmd) : State :=
  if s.tileOver c w c.pos then s.finishCmd c.id
  else
    match s.tileUnit c t w with
    | .error f => s.stopCmd c.id f
    | .ok (n, s) =>
      let s := s.updCmd c.id (fun c => { c with pos := n })
      if s.tileOver c w n then s.finishCmd c.id else s.walkAhead { c with pos := n } w

/-! ### The probe of a replacement -/

/-- The first fault that a command would meet from its start. -/
def tileProbe (t : Team) (w : TileCmd) : Nat → Cmd → State → Option EngStop
  | 0, _, _ => none
  | fuel + 1, c, s =>
    if s.tileOver c w c.pos then none
    else
      match s.tileUnit c t w with
      | .error f => some f
      | .ok (n, s) => tileProbe t w fuel { c with pos := n } s

/-- The parameters of a replacement pass R316 and its tile is owned (19 R344, 22 R384). -/
def State.paramsOk (s : State) (t : Team) (w : TileCmd) : Bool :=
  match w.block with
  | some b => s.blockOk t w.op b
  | none => decide (w.tile.toNat < s.accumOf t)

/-- The replacements of a command's run that stand in the tile queue, itself first. -/
def State.groupOf (s : State) (c : Cmd) (w : WinCmd) : List Cmd :=
  (s.queued c.queue).filter (fun d => match d.body with
    | .tile v => d.id == c.id || (v.rule == w.rule && !v.first && v.orig == w.orig)
    | _ => false)

/-- Some replacement of the run is still in the window. -/
def groupWaits (t : Team) (w : WinCmd) : Bool := t.window.any (fun v => v.rule == w.rule && !v.first && v.orig == w.orig)

/-- The commands that take the place of a run's replacements after a failed probe (19 R344): the originals, the earliest
naming the rule. -/
def originals (c : Cmd) (w : WinCmd) (id : Nat) : List Cmd :=
  (w.orig.zipIdx).map (fun p =>
    let o : TileCmd := p.1
    { c with
      id := id + p.2
      seq := o.seq
      thread := o.thread
      scope := (match o.block with
        | some b => BitVec.ofNat 3 (blockScope b)
        | none => 1)
      bar := o.block.bind blockBar
      body := .tile ⟨o, w.entry, if p.2 = 0 then w.rule else none, w.cls, false, [], true⟩
      state := .ready, pos := 0, counted := 0, begun := p.2 == 0 && c.begun, aborted := false })

/-- A probe has found a fault: the originals come back, with a record that names the rule, and the earliest one holds the
fault (19 R344). -/
def State.replayRun (s : State) (c : Cmd) (t : Team) (w : WinCmd) (param : Bool) (x : EngStop) : State :=
  let group := (s.groupOf c w).map Cmd.id
  let id := s.eng.nextCmd
  let new := originals c w id
  let s := { s with
    eng.cmds := s.eng.cmds.flatMap (fun (d : Cmd) => if d.id = c.id then new else if group.contains d.id then [] else [d])
    eng.nextCmd := id + new.length }
  let r : BitVec 256 := BitVec.ofNat 256 (w.orig.length + w.cls * 2 ^ 4)
  let s := s.traceHit t (w.rule.getD 0) r w.orig true
  if param then
    match s.cmd? id with
    | none => s
    | some d => (s.cmdRecord d rCmdHold 0).deliver id 0x31 ⟨0, 0, 0, 0⟩
  else s.stopCmd id x

/-- The probe of a command that begins a run's replacements (19 R344); the command as it then stands. -/
def State.probe (s : State) (c : Cmd) (t : Team) (w : WinCmd) : Except State State :=
  let group := s.groupOf c w
  let cmds := group.filterMap (fun d => match d.body with
    | .tile v => some (d, v.cmd)
    | _ => none)
  match cmds.find? (fun p => !s.paramsOk t p.2) with
  | some _ => .error (s.replayRun c t w true ⟨0, 0, 0, 0⟩)
  | none =>
    match cmds.findSome? (fun p => tileProbe t p.2 ((s.tileUnits p.1 p.2).toOption.getD 0 + 1) { p.1 with pos := 0 } s) with
    | some x => .error (s.replayRun c t w false x)
    | none => .ok (s.updCmd c.id (fun c => { c with body := .tile { w with first := false } }))

/-! ### The events -/

/-- A step of the tile engine on a command of the given forms. -/
def tileStep (ops : List Op) (cmd : Nat) (s : State) : Host.Outcome State Fault Refusal :=
  .next (s.perform cmd (fun c s =>
    match c.body, s.cmdTeam c with
    | .tile w, some t =>
      if !ops.contains w.cmd.op then none
      else if w.first ∧ groupWaits t w then none
      else
        match if w.first then s.probe c t w else .ok s with
        | .error s => some s
        | .ok s =>
          let s := if w.rule.isSome ∧ w.orig.isEmpty then
              s.updCmd c.id (fun c => { c with body := .tile { w with rule := none } })
            else s
          some (s.tileGo c t w.cmd)
    | _, _ => none))

/-- TILE_PRODUCT (18 R321): one row of a `tmm` or `tmmsp`. -/
def execTileProduct (cmd : Nat) (s : State) : Host.Outcome State Fault Refusal := tileStep [.tmm, .tmmsp] cmd s

/-- TGMS_BATCH (18 R323). -/
def execTgmsBatch (cmd : Nat) (s : State) : Host.Outcome State Fault Refusal := tileStep [.tgms] cmd s

/-- TSACC_PERFORM (22 R387): one row. -/
def execTsaccPerform (cmd : Nat) (s : State) : Host.Outcome State Fault Refusal := tileStep [.tsacc] cmd s

/-- TILE_MOVE (22 R389): one row. -/
def execTileMove (cmd : Nat) (s : State) : Host.Outcome State Fault Refusal := tileStep [.tst, .tldac] cmd s

/-- TILE_WHOLE_OP (22 R390). -/
def execTileWholeOp (cmd : Nat) (s : State) : Host.Outcome State Fault Refusal := tileStep [.tzero, .ttr, .tscl] cmd s

end Sys2Proof.Machine
end

