-- ==== Sys2Proof/Machine/CoordEngine.lean ====
section
/-! DEFINITION. The coordinate engine (20 R347 to R359): hash tables, lookups, neighbour maps, merges, scans and frees. -/

namespace Sys2Proof.Machine

/-! ### Keys -/

/-- The reserved key (20 R347). -/
def emptyKey : Nat := 2 ^ 64 - 1

/-- The components of a key (20 R347): X, Y, Z. -/
def keyX (k : Nat) : Int := toSigned 19 (bitsAt k 56 38)
@[inherit_doc keyX]
def keyY (k : Nat) : Int := toSigned 19 (bitsAt k 37 19)
@[inherit_doc keyX]
def keyZ (k : Nat) : Int := toSigned 19 (bitsAt k 18 0)

/-- The key of a position in the batch of another key; none where a component is out of range (20 R354). -/
def keyAt (k : Nat) (x y z : Int) : Option Nat :=
  let ok (v : Int) : Bool := decide (-(2 ^ 18) ≤ v) && decide (v < 2 ^ 18)
  if ok x && ok y && ok z then
    some (wrapInt 19 z + wrapInt 19 y * 2 ^ 19 + wrapInt 19 x * 2 ^ 38 + bitsAt k 63 57 * 2 ^ 57)
  else none

/-! ### Hash tables -/

/-- The slot array, log2 of the capacity and count of a table. -/
structure TableAt where
  slots : Nat
  log   : Nat
  count : Nat

/-- The table that a handle names. -/
def State.tableOf (s : State) (ctx : Nat) (h : Word) : TableAt :=
  match (s.object? ctx h [1]).map Obj.body with
  | some (.table sl lg n _) => ⟨sl, lg, n⟩
  | _ => ⟨0, 4, 0⟩

/-- Sets the count of a table. -/
def State.setCount (s : State) (h : Word) (n : Nat) : State :=
  let o := s.obj (hDie h) (hIndex h)
  match o.body with
  | .table sl lg _ g => s.setObj (hDie h) (hIndex h) { o with body := .table sl lg n g }
  | .free | .map .. => s

/-- The home slot of a key (20 R351). -/
def homeSlot (log k : Nat) : Nat := (k * 0x9E3779B97F4A7C15 % 2 ^ 64) >>> (64 - log)

/-- Probes from a slot until the key or an empty slot is found (20 R351): the slot, and the index if the key is there. -/
def probeFrom (c : Cmd) (t : TableAt) (k : Nat) : Nat → Nat → State → Except EngStop (Option (Nat × Option Nat) × State)
  | 0, _, s => .ok (none, s)
  | fuel + 1, i, s => do
    let ea := t.slots + 16 * (i % 2 ^ t.log)
    let key ← s.engNum c ea 8
    if key.1 = emptyKey then pure (some (i % 2 ^ t.log, none), key.2)
    else if key.1 = k then
      let ix ← key.2.engNum c (ea + 8) 4
      pure (some (i % 2 ^ t.log, some ix.1), ix.2)
    else probeFrom c t k fuel (i + 1) key.2

/-- The slot and the index of a key (20 R351, R353). -/
def State.findKey (s : State) (c : Cmd) (t : TableAt) (k : Nat) : Except EngStop (Option (Nat × Option Nat) × State) :=
  probeFrom c t k (2 ^ t.log) (homeSlot t.log k) s

/-- The 16 bytes of a slot (20 R350). -/
def slotBytes (key index : Nat) : List Byte := bytesOf 8 key ++ bytesOf 4 index ++ bytesOf 4 0

/-- Every slot is written empty (20 R350). -/
def State.emptySlots (s : State) (c : Cmd) (t : TableAt) : Except EngStop State :=
  (List.range (2 ^ t.log)).foldlM (fun (s : State) (i : Nat) =>
    s.engWrite c 0 0 (t.slots + 16 * i) (slotBytes emptyKey 0)) s

/-- One input key of `hbld` (20 R351): its index, which IDXOUT receives (R359). A stop comes with the state it leaves. -/
def buildKey (c : Cmd) (cr : BitVec 512) (h : Word) (i : Nat) (s : State) : Except (EngStop × State) State :=
  let keep {α : Type} (s : State) (r : Except EngStop α) : Except (EngStop × State) α := r.mapError (fun f => (f, s))
  do
    let key ← keep s (s.engNum c (recBits cr 8 63 0 + 8 * i) 8)
    let full : EngStop × State := (⟨3, 0, 8 * i, 0⟩, key.2)
    if key.1 = emptyKey then .error (⟨5, 0, 8 * i, 0⟩, key.2)
    else
      let t := key.2.tableOf c.ctx h
      let f ← keep key.2 (key.2.findKey c t key.1)
      match f.1 with
      | none => .error full
      | some (slot, found) =>
        let r : Nat × State ← (match found with
          | some ix => (.ok (ix, f.2) : Except (EngStop × State) (Nat × State))
          | none =>
            if 7 * 2 ^ t.log / 8 < t.count + 1 then .error full
            else (keep f.2 (f.2.engWrite c 0 0 (t.slots + 16 * slot) (slotBytes key.1 t.count))).map
              (fun s => (t.count, s.setCount h (t.count + 1))))
        let out := recBits cr 0x20 63 0
        if out = 0 then pure r.2 else keep r.2 (r.2.engWrite c 0 0 (out + 4 * i) (bytesOf 4 r.1))

/-- The input keys in order. -/
def buildKeys (c : Cmd) (cr : BitVec 512) (h : Word) : List Nat → State → Option EngStop × State
  | [], s => (none, s)
  | i :: is, s =>
    match buildKey c cr h i s with
    | .error f => (some f.1, f.2)
    | .ok s => buildKeys c cr h is s

/-- `hbld` (20 R350, R351): a table that it creates is emptied first, again after a restart (26 R417). -/
def State.runBuild (s : State) (c : Cmd) (cr : BitVec 512) (h : Word) : State :=
  let keys := List.range (recBits cr 0x10 31 0)
  let r : Option EngStop × State :=
    if recBits cr 0x28 31 0 ≠ 0 then buildKeys c cr h keys s
    else
      match s.emptySlots c (s.tableOf c.ctx h) with
      | .error f => (some f, s)
      | .ok s => buildKeys c cr h keys (s.setCount h 0)
  r.2.endRun c.id r.1

/-! ### Lookups -/

/-- The lookups of a command in order (20 R353). -/
def lookups (c : Cmd) : List Lookup → State → Except EngStop (List (Lookup × Nat) × State)
  | [], s => .ok ([], s)
  | l :: ls, s => do
    let f ← s.findKey c (s.tableOf c.ctx l.handle) l.key.toNat
    let ix : Nat := match f.1 with
      | some (_, some ix) => ix
      | _ => 0xFFFFFFFF
    let r ← lookups c ls f.2
    pure ((l, ix) :: r.1, r.2)

/-- The results that a command owes threads of a team arrive. -/
def State.landCmd (s : State) (c : Cmd) (ids : List Nat) (f : Target → Word) : State :=
  match c.team with
  | none => s
  | some t => s.updTeam t (fun tm => tm.updThreads ids (fun th => th.landFrom c.id f))

/-- `hlk` (20 R353, 21 R372). -/
def State.runLookups (s : State) (c : Cmd) (looks : List Lookup) : State :=
  match lookups c looks s with
  | .error f => s.stopCmd c.id f
  | .ok r =>
    (r.1.foldl (fun (s : State) p => s.landCmd c p.1.threads (fun _ => BitVec.ofNat 32 p.2)) r.2).finishCmd c.id

/-! ### Neighbour maps -/

/-- Every key of a table with its index, in ascending index. -/
def State.tableKeys (s : State) (c : Cmd) (t : TableAt) : Except EngStop (List (Nat × Nat) × State) := do
  let r ← (List.range (2 ^ t.log)).foldlM (fun (q : List (Nat × Nat) × State) (i : Nat) => do
    let key ← q.2.engNum c (t.slots + 16 * i) 8
    if key.1 = emptyKey then pure (q.1, key.2)
    else
      let ix ← key.2.engNum c (t.slots + 16 * i + 8) 4
      pure (q.1 ++ [(key.1, ix.1)], ix.2)) ([], s)
  pure (sortBy (fun p => p.2) r.1, r.2)

/-- Parameters of a map (20 R354): KX, KY, KZ, S and D. -/
def mapK (cr : BitVec 512) (axis : Nat) : Nat := recBits cr 0x20 (8 * axis + 2) (8 * axis)

/-- The input position of output key `q` at offset number `f` (20 R354). -/
def inputKey (cr : BitVec 512) (f q : Nat) : Option Nat :=
  let kx := mapK cr 0
  let ky := mapK cr 1
  let ex := f % kx
  let ey := f / kx % ky
  let ez := f / (kx * ky)
  let st : Int := mapK cr 3
  let d : Int := mapK cr 4
  let off (e k : Nat) : Int := d * ((e : Int) - ((k - 1) / 2 : Nat))
  (keyAt q (st * keyX q + off ex kx) (st * keyY q + off ey ky) (st * keyZ q + off ez (mapK cr 2))).bind
    (fun k => if k = emptyKey then none else some k)

/-- The list of one offset, by output (20 R354). -/
def mapList (c : Cmd) (cr : BitVec 512) (ti : TableAt) (f : Nat) :
    List (Nat × Nat) → State → Except EngStop (List (Nat × Nat) × State)
  | [], s => .ok ([], s)
  | q :: qs, s => do
    let here : List (Nat × Nat) × State ← (match inputKey cr f q.1 with
      | none => (.ok ([], s) : Except EngStop (List (Nat × Nat) × State))
      | some k => (s.findKey c ti k).map (fun r => (match r.1 with
        | some (_, some ix) => [(ix, q.2)]
        | _ => [], r.2)))
    let r ← mapList c cr ti f qs here.2
    pure (here.1 ++ r.1, r.2)

/-- The lists of all offsets in order. -/
def mapLists (c : Cmd) (cr : BitVec 512) (ti : TableAt) (outs : List (Nat × Nat)) :
    List Nat → State → Except EngStop (List (List (Nat × Nat)) × State)
  | [], s => .ok ([], s)
  | f :: fs, s => do
    let l ← mapList c cr ti f outs s
    let r ← mapLists c cr ti outs fs l.2
    pure (l.1 :: r.1, r.2)

/-- Where the lists begin (20 R355). -/
def listStart (noff : Nat) : Nat := (16 + 16 * noff + 63) / 64 * 64

/-- The words of a map, each with its offset and width in bytes (20 R355). -/
def mapWords (ls : List (List (Nat × Nat))) : List (Nat × Nat × Nat) :=
  let noff := ls.length
  let start (f : Nat) : Nat := listStart noff + 8 * ((ls.take f).map List.length).foldl (· + ·) 0
  [(0, 4, noff), (4, 4, 0), (8, 8, ((ls.map List.length).foldl (· + ·) 0))]
  ++ (ls.zipIdx).flatMap (fun p => [(0x10 + 16 * p.2, 4, p.1.length), (0x14 + 16 * p.2, 4, 0), (0x18 + 16 * p.2, 8, start p.2)])
  ++ (ls.zipIdx).flatMap (fun p => (p.1.zipIdx).flatMap (fun q =>
      [(start p.2 + 8 * q.2, 4, q.1.1), (start p.2 + 8 * q.2 + 4, 4, q.1.2)]))

/-- A map's build has completed. -/
def State.setBuilt (s : State) (h : Word) : State :=
  let o := s.obj (hDie h) (hIndex h)
  match o.body with
  | .map b cap n _ => s.setObj (hDie h) (hIndex h) { o with body := .map b cap n true }
  | .free | .table .. => s

/-- `hprb` that missed the cache builds its map (20 R354, R355). -/
def State.buildMap (s : State) (c : Cmd) (cr : BitVec 512) (h : Word) : Except EngStop State := do
  let ti := s.tableOf c.ctx (BitVec.ofNat 32 (recBits cr 8 31 0))
  let outTab := s.tableOf c.ctx (BitVec.ofNat 32 (recBits cr 8 63 32))
  let outs ← s.tableKeys c outTab
  let ls ← mapLists c cr ti outs.1 (List.range (mapK cr 0 * mapK cr 1 * mapK cr 2)) outs.2
  let size := listStart ls.1.length + 8 * ((ls.1.map List.length).foldl (· + ·) 0)
  if recBits cr 0x18 63 0 < size then .error ⟨4, 0, s.unstated, 0⟩
  else
    let s ← (mapWords ls.1).foldlM (fun (s : State) (w : Nat × Nat × Nat) =>
      s.engWrite c 0 0 (recBits cr 0x10 63 0 + w.1) (bytesOf w.2.1 w.2.2)) ls.2
    pure (s.setBuilt h)

/-- The build of a map that the cache gave is still to complete (20 R356). -/
def State.building (s : State) (h : Word) : Bool :=
  s.eng.cmds.any (fun c => match c.body with
    | .coord op _ handle hit => op == 2 && handle == h && !hit && c.state != .performed
    | _ => false)

/-! ### Merges -/

/-- The value of one output of `mrg` (20 R357). -/
def mergeValue (mop vt : Nat) (a b : Option Nat) : Nat :=
  let neg (v : Nat) : Nat := if vt = 0 then v ^^^ 0x80000000 else wrapInt 32 (-(v : Int))
  match a, b with
  | some x, none => x
  | none, some y => if mop = 1 then neg y else y
  | none, none => 0
  | some x, some y =>
    if vt = 0 then
      match mop with
      | 0 => (f32.add 0 false x y).1
      | 1 => (f32.sub 0 false x y).1
      | 2 => (f32.minmax false x y).1
      | 3 => (f32.minmax true x y).1
      | _ => x
    else
      let less (p q : Nat) : Bool := decide (readInt (vt = 1) 32 p < readInt (vt = 1) 32 q)
      match mop with
      | 0 => lowBits 32 (x + y)
      | 1 => wrapInt 32 ((x : Int) - y)
      | 2 => if less y x then y else x
      | 3 => if less x y then y else x
      | _ => x

/-- Where a merge stands: entries taken from A and B, the last index of each, outputs written, and the segments that they
fell in. -/
structure Merge where
  i    : Nat
  j    : Nat
  la   : Option Nat
  lb   : Option Nat
  n    : Nat
  segs : List Nat

/-- The head entry of a list, checked to ascend (20 R357). -/
def mergeHead (c : Cmd) (base len i : Nat) (last : Option Nat) (s : State) : Except EngStop (Option (Nat × Nat) × State) :=
  if len ≤ i then .ok (none, s)
  else do
    let k ← s.engNum c (base + 8 * i) 4
    let v ← k.2.engNum c (base + 8 * i + 4) 4
    if last.any (fun l => decide (k.1 ≤ l)) then .error ⟨5, 0, 8 * i, 0⟩ else pure (some (k.1, v.1), v.2)

/-- The outputs of a merge in order (20 R357); a stop comes with the state it leaves. -/
def mergeFrom (c : Cmd) (cr : BitVec 512) : Nat → Merge → State → Except (EngStop × State) (Merge × State)
  | 0, m, s => .ok (m, s)
  | fuel + 1, m, s =>
    match (do
      let a ← mergeHead c (recBits cr 8 63 0) (recBits cr 0x20 31 0) m.i m.la s
      let b ← mergeHead c (recBits cr 0x10 63 0) (recBits cr 0x20 63 32) m.j m.lb a.2
      pure (a.1, b.1, b.2) : Except EngStop (Option (Nat × Nat) × Option (Nat × Nat) × State)) with
    | .error f => .error (f, s)
    | .ok (a, b, s) =>
      let useA := match a, b with
        | some x, some y => decide (x.1 ≤ y.1)
        | some _, none => true
        | none, _ => false
      let useB := match a, b with
        | some x, some y => decide (y.1 ≤ x.1)
        | none, some _ => true
        | _, none => false
      if !useA && !useB then .ok (m, s)
      else
        let ix := ((if useA then a else b).map Prod.fst).getD 0
        let vt := recBits cr 0x38 9 8
        let v := mergeValue (recBits cr 0x38 7 5) vt (if useA then a.map Prod.snd else none) (if useB then b.map Prod.snd else none)
        let m := { m with
          i := if useA then m.i + 1 else m.i, la := if useA then some ix else m.la
          j := if useB then m.j + 1 else m.j, lb := if useB then some ix else m.lb }
        if recBits cr 0x38 10 10 = 1 ∧ (v = 0 ∨ (vt = 0 ∧ v = 0x80000000)) then mergeFrom c cr fuel m s
        else
          let seg := ix >>> recBits cr 0x38 4 0
          if recBits cr 0x30 63 0 ≠ 0 ∧ recBits cr 0x38 63 32 ≤ seg then .error (⟨5, 0, 8 * m.n, 0⟩, s)
          else
            match s.engWrite c 0 0 (recBits cr 0x18 63 0 + 8 * m.n) (bytesOf 4 ix ++ bytesOf 4 v) with
            | .error f => .error (f, s)
            | .ok s => mergeFrom c cr fuel { m with n := m.n + 1, segs := m.segs ++ [seg] } s

/-- `mrg` (20 R357): OUTCNT and SEGCNT receive their counts at the end. -/
def State.runMerge (s : State) (c : Cmd) (cr : BitVec 512) : State :=
  match mergeFrom c cr (recBits cr 0x20 31 0 + recBits cr 0x20 63 32 + 1) ⟨0, 0, none, none, 0, []⟩ s with
  | .error f => f.2.stopCmd c.id f.1
  | .ok (m, s) =>
    let cnt := recBits cr 0x28 63 0
    let seg := recBits cr 0x30 63 0
    let ws := (if cnt = 0 then [] else [(cnt, m.n)])
      ++ (if seg = 0 then [] else (List.range (recBits cr 0x38 63 32)).map (fun k => (seg + 4 * k, (m.segs.filter (· == k)).length)))
    match ws.foldlM (fun (s : State) (w : Nat × Nat) => s.engWrite c 0 0 w.1 (bytesOf 4 w.2)) s with
    | .error f => s.stopCmd c.id f
    | .ok s => s.finishCmd c.id

/-! ### Scans -/

/-- One step of a scan (20 R358); the first element starts the sum (log entry 13). -/
def scanStep (ty : Nat) (acc : Option Nat) (x : Nat) : Nat :=
  match acc with
  | none => x
  | some a => if ty = 0 then (f32.add 0 false a x).1 else lowBits 32 (a + x)

/-- The elements of a scan in order. -/
def scanFrom (c : Cmd) (cr : BitVec 512) : Nat → Nat → Option Nat → State → Option EngStop × State
  | 0, _, _, s => (none, s)
  | n + 1, i, acc, s =>
    match s.engNum c (recBits cr 8 63 0 + 4 * i) 4 with
    | .error f => (some f, s)
    | .ok (x, s) =>
      let next := scanStep (recBits cr 0x18 33 32) acc x
      let out := if recBits cr 0x18 34 34 = 1 then acc.getD 0 else next
      match s.engWrite c 0 0 (recBits cr 0x10 63 0 + 4 * i) (bytesOf 4 out) with
      | .error f => (some f, s)
      | .ok s => scanFrom c cr n (i + 1) (some next) s

/-- `scn` (20 R358). -/
def State.runScan (s : State) (c : Cmd) (cr : BitVec 512) : State :=
  let r := scanFrom c cr (recBits cr 0x18 31 0) 0 none s
  r.2.endRun c.id r.1

/-! ### The events -/

/-- A step of the coordinate engine on a command of operation `op`. -/
def coordStep (op cmd : Nat) (f : Cmd → BitVec 512 → Word → Bool → State → Option State) (s : State) :
    Host.Outcome State Fault Refusal :=
  .next (s.perform cmd (fun c s =>
    match c.body with
    | .coord o cr h hit => if o = op then f c cr h hit s else none
    | .copy .. | .put .. | .hlk .. | .token .. | .take .. | .tile _ | .fence _ => none))

/-- HBLD_PERFORM (20 R351). -/
def execHbldPerform (cmd : Nat) (s : State) : Host.Outcome State Fault Refusal :=
  coordStep 1 cmd (fun c cr h _ s => some (s.runBuild c cr h)) s

/-- HPRB_BUILD (20 R354 to R356): a hit completes once the map is built. -/
def execHprbBuild (cmd : Nat) (s : State) : Host.Outcome State Fault Refusal :=
  coordStep 2 cmd (fun c cr h hit s =>
    if hit then (if s.building h then none else some (s.finishCmd c.id))
    else
      match s.buildMap c cr h with
      | .error f => some (s.drew.stopCmd c.id f)
      | .ok s => some (s.finishCmd c.id)) s

/-- HLK_PERFORM (20 R353). -/
def execHlkPerform (cmd : Nat) (s : State) : Host.Outcome State Fault Refusal :=
  .next (s.perform cmd (fun c s =>
    match c.body with
    | .hlk _ looks => some (s.runLookups c looks)
    | .copy .. | .put .. | .coord .. | .token .. | .take .. | .tile _ | .fence _ => none))

/-- MRG_PERFORM (20 R357). -/
def execMrgPerform (cmd : Nat) (s : State) : Host.Outcome State Fault Refusal :=
  coordStep 3 cmd (fun c cr _ _ s => some (s.runMerge c cr)) s

/-- SCN_PERFORM (20 R358). -/
def execScnPerform (cmd : Nat) (s : State) : Host.Outcome State Fault Refusal :=
  coordStep 4 cmd (fun c cr _ _ s => some (s.runScan c cr)) s

/-- HFREE_EFFECT (20 R349): the object is freed once no accepted command names it. -/
def execHfreeEffect (cmd : Nat) (s : State) : Host.Outcome State Fault Refusal :=
  coordStep 5 cmd (fun c _ h _ s =>
    let o := s.obj (hDie h) (hIndex h)
    let s := if o.body.kind = bitsAt h.toNat 13 12 ∧ o.gen.toNat = bitsAt h.toNat 23 16 ∧ o.ctx = c.ctx then
        s.setObj (hDie h) (hIndex h) { o with dying := true } else s
    some ((s.finishCmd c.id).tryFree (hDie h) (hIndex h))) s

end Sys2Proof.Machine
end

