-- ==== Sys2Proof/Machine/CoordOps.lean ====
section
/-! DEFINITION. Coordinate instructions (21 R376, R377) and expert-queue instructions (R378, R379). -/

namespace Sys2Proof.Machine

/-- A result that is written when its command is accepted (21 R372). -/
def State.giveNow (s : State) (i : Iss) (rcv : List Lane) (outs : List (Target × Word)) : State :=
  s.give i rcv { outs := outs } (.fixed 0)

/-- A coordinate command is accepted: its object, its result and its place in the queue (20 R349, R359; 21 R371). -/
def coordEnter (d : BitVec 8) (i : Iss) (s : State) (l : Lane) (rcv : List Lane) (bar : Option Word) (cr : BitVec 512)
    (va : Nat) : Except Refused State :=
  if !coordOk cr false then .error ⟨0x33, va⟩
  else
    match s.coordAccept i.ctx i.die cr with
    | .error .operand => .error ⟨0x33, va⟩
    | .error (.stale h) => .error ⟨0x21, h.toNat⟩
    | .error .full => .error ⟨0x34, s.unstated⟩
    | .ok (h, hit, s) =>
      let op := recBits cr 0 7 0
      let s := s.enter i l (.coord i.core) (recBits cr 0 10 8) bar (.coord op cr h hit)
      .ok (if op = 1 ∨ op = 2 then s.giveNow i rcv (dst d 1 h.toNat) else s)

/-- One command of a form with a record in memory, whose first eight bytes are the instruction's (21 R376). -/
def recordOne (op : Nat) (d : BitVec 8) (e : Enc) (i : Iss) (s : State) (l : Lane) (rcv : List Lane) : Except Refused State := do
  let bar ← i.barOf s l e.b
  let va := l.src 2 e.a.toNat
  match s.badRecord i (.second (clusterOf i.core)) [va] with
  | some r => .error r
  | none =>
    let r ← ((s.acceptRelease i l e.x.scope.toNat).readRecord i.ctx (.second (clusterOf i.core)) va).mapError (fun c => ⟨c, va⟩)
    let cr := BitVec.ofNat 512 (recHead op e.x.scope.toNat bar + (r.1.toNat >>> 64) * 2 ^ 64)
    coordEnter d i r.2 l rcv bar cr va

/-- `hbld` (21 R376, 20 R350 to R352). -/
def execHbld (e : Enc) (s : State) : Host.Outcome State Fault Refusal :=
  issued .hbld e (fun i s => acceptLanes (recordOne 1 e.d e i) i i.perf s) s

/-- `hprb` (21 R376, 20 R354 to R356). -/
def execHprb (e : Enc) (s : State) : Host.Outcome State Fault Refusal :=
  issued .hprb e (fun i s => acceptLanes (recordOne 2 e.d e i) i i.perf s) s

/-- `mrg` (21 R376, 20 R357). -/
def execMrg (e : Enc) (s : State) : Host.Outcome State Fault Refusal :=
  issued .mrg e (fun i s => acceptLanes (recordOne 3 0xF0 e i) i i.perf s) s

/-- `scn` (21 R376, 20 R358). -/
def execScn (e : Enc) (s : State) : Host.Outcome State Fault Refusal :=
  issued .scn e (fun i s => acceptLanes (recordOne 4 0xF0 e i) i i.perf s) s

/-- One `hfree` command (21 R376, 20 R349). -/
def hfreeOne (e : Enc) (i : Iss) (s : State) (l : Lane) (rcv : List Lane) : Except Refused State := do
  let bar ← i.barOf s l e.b
  let h := l.src 1 e.a.toNat
  coordEnter 0xF0 i (s.acceptRelease i l e.x.scope.toNat) l rcv bar (mkRec [(0, recHead 5 e.x.scope.toNat bar), (8, h)]) s.unstated

/-- `hfree` (21 R376). -/
def execHfree (e : Enc) (s : State) : Host.Outcome State Fault Refusal :=
  issued .hfree e (fun i s => acceptLanes (hfreeOne e i) i i.perf s) s

/-! ### hlk -/

/-- The lookup of a lane, or its fault (21 R377). -/
def lookOf (e : Enc) (i : Iss) (s : State) (l : Lane) (rcv : List Lane) : Except Refused Lookup :=
  let h := BitVec.ofNat 32 (l.src 1 e.b.toNat)
  let key := BitVec.ofNat 64 (l.src 2 e.a.toNat)
  if (s.object? i.ctx h [1]).isNone then .error ⟨0x21, h.toNat⟩
  else if key = BitVec.allOnes 64 then .error ⟨0x33, s.unstated⟩
  else .ok ⟨rcv.map (fun m => m.th.ltid), key, h⟩

/-- `hlk` (21 R377, 20 R353): one command holds the lookups of the lanes that do not fault, and its acceptance is a release at scope
crew (17 R296); their results are written when it completes (21 R372). -/
def execHlk (e : Enc) (s : State) : Host.Outcome State Fault Refusal :=
  issued .hlk e (fun i s =>
    let rs := i.perf.map (fun p => (p, lookOf e i s p.1 p.2))
    let looks := rs.filterMap (fun r => r.2.toOption)
    let good := rs.filter (fun r => r.2.toOption.isSome)
    let s := rs.foldl (fun (s : State) r => match r.2 with
      | .ok _ => s
      | .error f => s.faultFor i r.1.1 (others r.1.1 r.1.2) f.cause 0 f.detail 0) s.drew
    match good with
    | [] => s
    | g :: _ =>
      let id := s.eng.nextCmd
      let s := s.release i.team.id i.core (good.flatMap (fun r => r.1.2.map (fun l => l.th.ltid))) 2
      let s := s.enter i g.1.1 (.coord i.core) 0 none (.hlk e.d.toNat looks)
      good.foldl (fun (s : State) r => s.give i r.1.2 { outs := dst e.d 1 0 } (.cmd id)) s) s

/-! ### Expert queues -/

/-- An expert queue and the fields of its configuration (20 R361). -/
def State.xq (s : State) (q : Nat) : XQueue := Table.read XQueue.reset s.eng.xqs q
@[inherit_doc State.xq]
def XQueue.enabled (q : XQueue) : Bool := recBits q.cfg 0 21 21 == 1
@[inherit_doc State.xq]
def XQueue.spillN (q : XQueue) : Nat := recBits q.cfg 0x28 31 0

/-- Tokens that stand in expert ports for a queue. -/
def State.portTokens (s : State) (q : Nat) : Nat :=
  (s.eng.cmds.filter (fun c => match c.body with
    | .token xq _ _ => xq == q && c.state != .performed
    | _ => false)).length

/-- One token of `xenq`: the checks of 21 R378 in order, and its acceptance by the port. -/
def xenqOne (e : Enc) (i : Iss) (s : State) (l : Lane) (_ : List Lane) : Except Refused State :=
  let n := l.src 1 e.b.toNat
  let entry := BitVec.ofNat 128 (l.src 4 e.a.toNat)
  let q := s.xq n
  let d := n / 128
  if 512 ≤ n ∨ !s.pkg.domLive d then .error ⟨0x35, s.unstated⟩
  else if bitsAt entry.toNat 127 115 ≠ 0 then .error ⟨0x35, s.unstated⟩
  else if !q.enabled ∨ q.owner.all (fun o => o.1 != i.ctx) then .error ⟨0x35, s.unstated⟩
  else if d ≠ i.die ∧ e.x.scope = 3 then .error ⟨0x35, s.unstated⟩
  else if 256 + q.spillN ≤ q.tokens.length + s.portTokens n then .error ⟨0x36, s.unstated⟩
  else
    .ok ((s.acceptRelease i l e.x.scope.toNat).enter i l (.expert i.core) e.x.scope.toNat none (.token n entry (d != i.die)))

/-- `xenq` (21 R378, 20 R360 to R363). -/
def execXenq (e : Enc) (s : State) : Host.Outcome State Fault Refusal :=
  issued .xenq e (fun i s => acceptLanes (xenqOne e i) i i.perf s) s

/-- `xtake` (21 R379, 20 R365): one command of the port takes a token for each performance; registers and predicate are
written when it completes. The acquire holds for every later access. -/
def execXtake (e : Enc) (s : State) : Host.Outcome State Fault Refusal :=
  issued .xtake e (fun i s =>
    match (s.grid? i.team.grid).bind Grid.batch, i.act with
    | some _, l :: _ =>
      let id := s.eng.nextCmd
      let lanes := i.perf.map (fun p => p.2.map (fun m => m.th.ltid))
      let s := s.enter i l (.expert i.core) 0 none (.take lanes e.d.toNat (e.a.toNat % 8))
      let s := s.give i i.act { outs := dst e.d 4 0 ++ dstP e.a false } (.cmd id)
      s.acquire i.ctx i.core i.team.id (i.act.map (fun l => l.th.ltid)) 5
    | _, _ => s.drew.faultAll i 0x35 0 s.unstated) s

end Sys2Proof.Machine
end

