-- ==== Sys2Proof/Machine/Complete.lean ====
section
/-! DEFINITION. Completion of engine commands (17 R299, R301, R302; 18 R328; 26 R419) and the expert port (20 R363, R365;
21 R379). -/

namespace Sys2Proof.Machine

/-- The command writes SPACE 0 (17 R301): an `hfree`, or an `hprb` that the map cache has answered, writes none (20 R349, R356). -/
def CmdBody.writesGlobal (b : CmdBody) : Bool :=
  match b with
  | .copy cr _ dst => (if recBits cr 0 7 0 = 1 then lrSpace dst else recBits cr 0 18 16) == 0
  | .coord op _ _ hit => op != 5 && !(op == 2 && hit)
  | .tile w => w.cmd.op == .tgms || (w.cmd.op == .tst && (w.cmd.block.any (fun b => tbSpace b 0 == 0)))
  | .put .. => true
  | .hlk .. | .token .. | .take .. | .fence _ => false

/-- The scope of a command's arrival (17 R301). -/
def Cmd.arriveScope (c : Cmd) : Nat := if c.scope = 1 ∧ c.body.writesGlobal then 2 else c.scope.toNat

/-- A member of a packet has ended; member 0xFF stands for a packet that is no bundle. -/
def State.memberDone (s : State) (pid member : Nat) : State :=
  s.updPkts (fun p =>
    if p.id = pid then
      { p with members := (p.members.zipIdx).map (fun m =>
          if member = 0xFF ∨ m.2 = member then { m.1 with ended := true } else m.1) }
    else p)

/-- A member of a batch has ended (20 R365). -/
def State.batchDone (s : State) (xq fire : Nat) : State :=
  { s with eng.xqs := Table.upd XQueue.reset s.eng.xqs xq (fun q =>
      { q with batches := q.batches.map (fun b => if b.fire = fire then { b with left := b.left - 1 } else b) }) }

/-- Results that an aborted command owes are not written (26 R419). -/
def State.unowe (s : State) (c : Cmd) : State :=
  match c.team with
  | none => s
  | some t => s.updTeam t (fun tm => { tm with threads := tm.threads.map (fun (th : Thread) =>
      { th with pend := th.pend.filter (fun (p : Pend) => p.src != Src.cmd c.id) }.settle) })

/-- The command may complete: it is performed, or it is a `qfence` at the head of every queue that it names (17 R299). -/
def State.canComplete (s : State) (c : Cmd) : Bool :=
  match c.body with
  | .fence _ => s.atHead c && !s.drained c
  | _ => c.state == .performed

/-- A command completes (17 R301): its last bytes, if aborted, and its arrival are made, and it leaves its queue. -/
def State.complete (s : State) (c : Cmd) : State :=
  let s := match c.body with
    | .tile w => if w.cmd.op = Op.tgms then s.forceReds (fun x => x.det.isSome && c.team == some x.team && x.thread == c.thread)
                 else s
    | _ => s
  let s := if c.aborted then ((s.countTo c.id c.body.destBytes).unowe c) else s
  let s := match c.body with
    | .fence _ => s.beginCmd c.id
    | _ => s
  let s := s.cmdRecord c rCmdEnd (if c.aborted then 1 else 0)
  let s := match c.body with
    | .tile w => (match c.team with
      | some t => s.updTeam t (fun tm => { tm with tprog := BitVec.ofNat 26 (if w.cmd.block.isSome then c.pos else 0) })
      | none => s)
    | _ => s
  let s := { s with eng.cmds := s.eng.cmds.filter (fun d => d.id != c.id) }
  let s := match c.team, c.bar with
    | some t, some h => s.engineArrive c.core t h c.arriveScope
    | _, _ => s
  let s := match c.batch, c.pkt with
    | some (xq, fire), _ => s.batchDone xq fire
    | none, some (_, _, m) => s.memberDone c.pid m
    | none, none => s
  let s := s.tryFrees
  match c.team with
  | some t => (s.drainWindow t 8).releaseBars t
  | none => s

/-- COMMAND_COMPLETE (17 R301). -/
def execCommandComplete (cmd : Nat) (s : State) : Host.Outcome State Fault Refusal :=
  .next (match s.cmd? cmd with
    | none => s
    | some c => if s.canComplete c then s.complete c else s)

/-! ### The expert port -/

/-- Tokens that a queue holds on chip. -/
def xqDepth : Nat := 256

/-- The address of a place of a queue's spill area (20 R363). -/
def XQueue.spillPlace (q : XQueue) (k : Nat) : Nat := recBits q.cfg 0x20 47 0 + 16 * k

/-- A token joins its queue (20 R363): on chip, or in the spill area once the chip is full. One whose write there faults stays in the
unit (log entry 64). -/
def State.enqueue (s : State) (xq : Nat) (entry : BitVec 128) : State :=
  let q := s.xq xq
  let spill := decide (xqDepth ≤ q.tokens.length)
  let k := q.spillAt % q.spillN
  let r : Option Nat × State := match spill, q.owner with
    | true, some (ctx, _) =>
      (match s.writeVirt ctx (xq / 128) (q.spillPlace k) 16 (bytesOf 16 entry.toNat) with
        | .ok s => (some k, s)
        | .error _ => (none, s.drew))
    | _, _ => (none, s)
  let tok : Token := ⟨entry, s.timeAt (xq / 128), s.eng.enqueued, r.1⟩
  let s := r.2
  { s with
    eng.xqs := Table.put s.eng.xqs xq { q with tokens := q.tokens ++ [tok], spillAt := if spill then q.spillAt + 1 else q.spillAt }
    eng.enqueued := s.eng.enqueued + 1 }

/-- TOKEN_ACCEPT (20 R363): the XQU accepts the token at the head of an expert port. -/
def execTokenAccept (cmd : Nat) (s : State) : Host.Outcome State Fault Refusal :=
  .next (s.perform cmd (fun c s =>
    match c.body with
    | .token xq entry _ =>
      let q := s.xq xq
      if xqDepth + q.spillN ≤ q.tokens.length then none else some ((s.enqueue xq entry).finishCmd c.id)
    | .copy .. | .put .. | .coord .. | .hlk .. | .take .. | .tile _ | .fence _ => none))

/-- The words of a token in quad `d` and the predicate `p`, or the empty result (21 R379). -/
def tokenWord (d : Nat) (tok : Option (BitVec 128)) : Target → Word
  | .reg n => match tok with
    | some e => BitVec.ofNat 32 (e.toNat >>> (32 * (n - d)))
    | none => 0
  | .pred _ => if tok.isSome then 1 else 0

/-- The tokens of a batch go to the lanes of an `xtake` in order (21 R379). -/
def State.handTokens (s : State) (c : Cmd) (xq fire d : Nat) : List (List Nat) → State
  | [] => s
  | ids :: rest =>
    let q := s.xq xq
    let tok := ((q.batches.find? (fun b => b.fire == fire)).map Batch.tokens).getD []
    let s := s.landCmd c ids (tokenWord d tok.head?)
    let s := { s with eng.xqs := Table.put s.eng.xqs xq { q with
      batches := q.batches.map (fun b => if b.fire = fire then { b with tokens := b.tokens.drop 1 } else b) } }
    State.handTokens s c xq fire d rest

/-- TOKEN_TRANSFER (21 R372, R379). -/
def execTokenTransfer (cmd : Nat) (s : State) : Host.Outcome State Fault Refusal :=
  .next (s.perform cmd (fun c s =>
    match c.body with
    | .take lanes d _ =>
      (match (s.grid? c.grid).bind Grid.batch with
        | some (xq, fire) => some ((s.handTokens c xq fire d lanes).finishCmd c.id)
        | none => some (s.finishCmd c.id))
    | .copy .. | .put .. | .coord .. | .hlk .. | .token .. | .tile _ | .fence _ => none))

end Sys2Proof.Machine
end

