-- ==== Sys2Proof/Machine/System.lean ====
section
/-! DEFINITION. System instructions (28 R451, R455 to R460), what a thread reads and writes of the system registers, and
TILE_PROG (18 R327). -/

namespace Sys2Proof.Machine

/-! ### TILE_PROG -/

/-- The head of a team's tile queue. -/
def State.tileHead (s : State) (team : Nat) : Option Cmd := (s.queued (.tile team)).head?

/-- TILE_PROG (18 R327): PROG of the head command, HELD and CAUSE. -/
def State.tileProg (s : State) (team : Nat) : BitVec 64 :=
  match s.tileHead team with
  | none => BitVec.ofNat 64 (((s.team? team).map (fun t => t.tprog.toNat)).getD 0)
  | some c =>
    let flags : Nat := match c.state with
      | .held .. => 2 ^ 26
      | .paused => 2 ^ 26 + 2 ^ 27
      | .ready | .sent | .performed => 0
    BitVec.ofNat 64 (c.pos % 2 ^ 26 + flags)

/-- A write of TILE_PROG (18 R327): PROG changes while the head is held, to no more than its rows or pairs; while the count of pairs
cannot be read, to no more than it is. -/
def State.writeTileProg (s : State) (team : Nat) (v : BitVec 64) : State :=
  match s.tileHead team with
  | none => s
  | some c =>
    let held : Bool := match c.state with
      | .held .. | .paused => true
      | .ready | .sent | .performed => false
    match c.body with
    | .tile w =>
      let n := bitsAt v.toNat 25 0
      if held && decide (n ≤ (s.tileUnits c w.cmd).toOption.getD c.pos) then s.updCmd c.id (fun c => { c with pos := n }) else s
    | .copy .. | .put .. | .coord .. | .hlk .. | .token .. | .take .. | .fence _ => s

/-- TILE_PROG_WRITE (18 R327, 28 R451). -/
def execTileProgWrite (team : Nat) (v : BitVec 64) (s : State) : Host.Outcome State Fault Refusal :=
  .next (s.writeTileProg team v)

/-! ### System registers -/

/-- DIE_ORIENT of a domain (30 R470). -/
def Pkg.orient (p : Pkg) (d : Nat) : Nat :=
  let phys := p.physOf d
  phys + phys * 2 ^ 2 + d * 2 ^ 4 + (if p.master = d then 2 ^ 6 else 0) + (phys + 1) % 4 * 2 ^ 8 + (phys + 3) % 4 * 2 ^ 10
    + 2 ^ 13 + (2 + phys) % 4 * 2 ^ 14

/-- The system register that a thread reads (28 R451), given its context, die and team. -/
def State.sysRead (s : State) (ctx die team index : Nat) : BitVec 64 :=
  match index with
  | 0x00 => (s.ctx ctx die).trapVec
  | 0x08 => s.tileProg team
  | 0x09 => (s.ctx ctx die).rwTable
  | 0x20 => s.pkg.enumDies
  | 0x21 => s.pkg.enumSlices
  | 0x22 => s.pkg.enumOrder
  | 0x23 => BitVec.ofNat 64 (s.pkg.orient die)
  | _ => 0

/-! ### The instructions -/

/-- `sysr` (28 R455, R456): one read for every active lane. -/
def execSysr (e : Enc) (s : State) : Host.Outcome State Fault Refusal :=
  issued .sysr e (fun i s =>
    s.give i i.act { outs := dst e.d 2 (s.sysRead i.ctx i.die i.team.id e.a.toNat).toNat } i.src) s

/-- `sysw` (28 R455, R456): a release at scope sys, then one write for each performance. TILE_PROG is the only register that
a thread may write (R451). -/
def execSysw (e : Enc) (s : State) : Host.Outcome State Fault Refusal :=
  issued .sysw e (fun i s =>
    i.perf.foldl (fun (s : State) p => s.writeTileProg i.team.id (BitVec.ofNat 64 (p.1.src 2 e.b.toNat)))
      (s.release i.team.id i.core (i.act.map (fun l => l.th.ltid)) 5)) s

/-- `trap` (28 R457, 26 R407, R408): the software trap 0x60 of the whole warp, once its part has taken effect; a retry
performs it again, alone (R412). -/
def execTrap (e : Enc) (s : State) : Host.Outcome State Fault Refusal :=
  issued .trap e (fun i s =>
    let r : TrapReq := ⟨0, 0x60, e.a, BitVec.ofNat 64 (laneMask i.act), i.pc, i.turn.slot, i.turn.start, none,
      [⟨i.instr, i.pc, i.turn.slot, i.act.map (fun l => l.th.ltid)⟩], none, .none, i.warp.mid⟩
    s.updTeam i.team.id (fun t => t.updWarp i.warp.id (fun w => { w with want := w.want ++ [r] }))) s

/-- `tret` (28 R458, 26 R412): the active handler lanes have reached it; the trap returns once all have. -/
def execTret (e : Enc) (s : State) : Host.Outcome State Fault Refusal :=
  issued .tret e (fun i s =>
    (s.updTeam i.team.id (fun t => t.updThreads (i.act.map (fun l => l.th.ltid)) (fun th => { th with wait := .tret }))).wakes) s

/-- `brkpt` (28 R459, 27 R438): with the context's BRK_EN set, the warp stops after its group. -/
def execBrkpt (e : Enc) (s : State) : Host.Outcome State Fault Refusal :=
  issued .brkpt e (fun i s =>
    match Table.read [] s.dbg.brks i.ctx with
    | [] => s
    | caps => s.updTeam i.team.id (fun t => t.updWarp i.warp.id (fun w =>
        { w with stop := w.stop ++ [⟨2, caps, s.clock.clk, 0, true⟩] }))) s

/-- `tmark` (28 R460): one MARK record for each performance. -/
def execTmark (e : Enc) (s : State) : Host.Outcome State Fault Refusal :=
  issued .tmark e (fun i s =>
    i.perf.foldl (fun (s : State) p =>
      let l := p.1
      let v := match e.lit with
        | some k => k.toNat
        | none => l.src 2 e.b.toNat
      s.emit i.ctx i.core rMark (l.th.ltid + l.lane * 2 ^ 16) [i.pc.toNat, v] false (some (i.team.id, i.warp.id))) s) s

end Sys2Proof.Machine
end

