-- ==== Sys2Proof/Machine/Packets.lean ====
section
/-! DEFINITION. Command packets: their layouts, snapshots and checks (09 R177 to R183, 20 R361, 30 R476, R489), and
acceptance (R178). -/

namespace Sys2Proof.Machine

/-! ### Layouts -/

/-- KIND, NSLOT, OVERLAP and TAG of a header (09 R179). -/
def pktKind (p : BitVec 1024) : Nat := pktBits p 0 7 0
@[inherit_doc pktKind]
def pktNslot (p : BitVec 1024) : Nat := pktBits p 0 9 8
@[inherit_doc pktKind]
def pktOverlap (p : BitVec 1024) : Bool := pktBits p 0 10 10 == 1
@[inherit_doc pktKind]
def pktTagOf (p : BitVec 1024) : Nat := pktBits p 0 31 16

/-- The first of some reserved fields (byte offset, high and low bit) that is not zero, by its offset. -/
def firstNonzero (p : BitVec 1024) (fs : List (Nat × Nat × Nat)) : Option Nat :=
  (fs.find? (fun f => pktBits p f.1 f.2.1 f.2.2 != 0)).map (fun f => f.1)

/-- The reserved fields of a packet's body (09 R180, R181; 30 R489), and values that are reserved, as the offset of the
first that offends. -/
def bodyFault (p : BitVec 1024) : Option Nat :=
  match pktKind p with
  | 1 => firstNonzero p [(0x08, 63, 48), (0x20, 31, 30), (0x24, 31, 30), (0x28, 31, 4), (0x2C, 31, 28), (0x30, 63, 48),
      (0x38, 63, 48), (0x48, 447, 0)]
  | 2 => firstNonzero p [(0x10, 63, 5), (0x18, 63, 48), (0x28, 191, 0)]
  | 3 => firstNonzero p [(0x10, 1, 1), (0x10, 63, 7), (0x18, 63, 48), (0x28, 191, 0)]
  | 4 => firstNonzero p [(0x20, 2, 2), (0x20, 31, 3), (0x28, 191, 0)]
  | 5 => firstNonzero p [(0x18, 63, 13), (0x20, 255, 0)]
  | 6 => firstNonzero p [(0x20, 63, 4), (0x28, 191, 0)]
  | 7 => firstNonzero p [(0x10, 63, 9), (0x18, 319, 0)]
  | _ => firstNonzero p [(0x08, 11, 0), (0x08, 63, 48), (0x10, 63, 32), (0x18, 319, 0)]

/-- The header of a packet offends (09 R179, R182): its code. OVERLAP is for LAUNCH and ENGINE alone. -/
def headerFault (p : BitVec 1024) : Option Nat :=
  let k := pktKind p
  if k = 0 ∨ 8 < k then some 0x01
  else if pktBits p 0 15 11 ≠ 0 ∨ pktBits p 0 63 32 ≠ 0 ∨ (pktOverlap p ∧ k ≠ 1 ∧ k ≠ 3) then some 0x02
  else if pktNslot p ≠ (if k = 1 then 1 else 0) then some 0x03
  else none

/-- A failed check: its code, the index of the member, and the detail where the specification gives one. -/
structure PktFault where
  code   : Nat
  member : Nat
  detail : Option Nat
deriving DecidableEq, Repr

/-! ### Snapshots -/

/-- Bytes that the front end reads in aligned pieces of `unit`; the error is the address of the piece that faulted, or the
pointer where it is misaligned (09 R182 code 0x05). -/
def State.snapshot (s : State) (ctx die unit : Nat) : Nat → Nat → Except Nat (List Byte × State)
  | _, 0 => .ok ([], s)
  | va, n + 1 =>
    match s.readVirt ctx die va unit unit with
    | .error _ => .error va
    | .ok (b, s) =>
      match State.snapshot s ctx die unit (va + unit) n with
      | .error a => .error a
      | .ok (bs, s) => .ok (b ++ bs, s)

/-- `count` records of 128 bytes at a 128-byte aligned address (09 R181). -/
def State.snapList (s : State) (ctx die va count : Nat) : Except Nat (List (BitVec 1024) × State) :=
  if va % 128 ≠ 0 then .error va
  else (s.snapshot ctx die 64 va (2 * count)).map (fun r =>
    ((List.range count).map (fun k => BitVec.ofNat 1024 (ofBytes ((r.1.drop (128 * k)).take 128))), r.2))

/-- The ENGINE fields: record address, engine, cluster and domain (09 R181). -/
def engRecord (p : BitVec 1024) : Nat := pktBits p 0x08 63 0
@[inherit_doc engRecord]
def engKind (p : BitVec 1024) : Nat := pktBits p 0x10 1 0
@[inherit_doc engRecord]
def engCluster (p : BitVec 1024) : Nat := pktBits p 0x10 4 2
@[inherit_doc engRecord]
def engDie (p : BitVec 1024) : Nat := pktBits p 0x10 6 5

/-- What the front end snapshots for an ENGINE packet: the command record, and after it the layout records of a box copy
(09 R178, R181; 17 R305, R306). -/
def State.snapEngine (s : State) (ctx die : Nat) (p : BitVec 1024) : Except Nat (List Byte × State) :=
  match s.snapshot ctx die 64 (engRecord p) 1 with
  | .error a => .error a
  | .ok (bs, s) =>
    let cr := BitVec.ofNat 512 (ofBytes bs)
    if engKind p = 0 ∧ recBits cr 0 7 0 = 1 then
      match s.snapshot ctx die 64 (recBits cr 8 63 0) 1 with
      | .error a => .error a
      | .ok (src, s) => (s.snapshot ctx die 64 (recBits cr 0x10 63 0) 1).map (fun r => (bs ++ src ++ r.1, r.2))
    else .ok (bs, s)

/-- The `k`-th record of a snapshot. -/
def snapRec (snap : List Byte) (k : Nat) : BitVec 512 := BitVec.ofNat 512 (ofBytes ((snap.drop (64 * k)).take 64))

/-- What a work item snapshots: a LAUNCH the 16-byte pieces that its arguments touch, whatever the later checks say of ARGSIZE, an
ENGINE its records. -/
def State.snapItem (s : State) (ctx die : Nat) (p : BitVec 1024) : Except Nat (List Byte × State) :=
  if pktKind p = 1 then
    let l := parseLaunch p
    s.snapshot ctx die 16 l.argptr.toNat ((l.argsize + 15) / 16)
  else s.snapEngine ctx die p

/-! ### Checks of a work item -/

/-- The offset of the field that a code of a LAUNCH names, where one field offends (09 R182). -/
def launchDetail (p : BitVec 1024) (code : Nat) : Option Nat :=
  let l := parseLaunch p
  if code = 0x02 then bodyFault p
  else if code = 0x07 then
    (if l.nreg = 0 ∨ 30 < l.nreg ∨ l.crew = 0 ∨ 4 < l.crew ∨ 8 < l.accum then some 0x20
     else if 32768 * 16 < l.spad ∨ 16 < l.bars then some 0x24 else some 0x2C)
  else if code = 0x0A then some 0x28
  else if code = 0x0B then some 0x24
  else none

/-- The checks of an ENGINE after its snapshot, in the order of 09 R182: its code and detail. -/
def State.engineFault (s : State) (ctx : Nat) (p : BitVec 1024) (snap : List Byte) : Option (Nat × Option Nat) :=
  let cr := snapRec snap 0
  match bodyFault p with
  | some off => some (0x02, some off)
  | none =>
    if !(if engKind p = 0 then copyOk cr (snapRec snap 1) (snapRec snap 2) true else coordOk cr true) then some (0x02, none)
    else if !s.pkg.domLive (engDie p) then some (0x0C, some 0x10)
    else if engKind p = 1 ∧ !(match s.coordAccept ctx (engDie p) cr with
        | .ok _ => true
        | .error _ => false) then some (0x12, none)
    else none

/-- The checks of a work item after its header: a LAUNCH's or an ENGINE's. `ceil` is PRIO_CEIL. -/
def State.itemFault (s : State) (ctx ceil : Nat) (p : BitVec 1024) (snap : List Byte) : Option (Nat × Option Nat) :=
  if pktKind p = 1 then (s.launchCode (some ceil) none p).map (fun c => (c, launchDetail p c))
  else s.engineFault ctx p snap

/-- A work item is snapshotted and checked. -/
def State.checkItem (s : State) (ctx die ceil m : Nat) (p : BitVec 1024) : Except PktFault (Member × State) :=
  match s.snapItem ctx die p with
  | .error a => .error ⟨0x05, m, some a⟩
  | .ok (snap, s') =>
    match s'.itemFault ctx ceil p snap with
    | some c => .error ⟨c.1, m, c.2⟩
    | none => .ok (⟨p, snap, false⟩, s')

/-- The member rules of 09 R181: a LAUNCH or an ENGINE with COMPADDR 0 and OVERLAP 0. -/
def memberShape (p : BitVec 1024) : Bool :=
  (pktKind p == 1 || pktKind p == 3) && !pktOverlap p
  && pktBits p (if pktKind p = 1 then 0x38 else 0x18) 63 0 == 0

/-- A member of a bundle is checked (09 R182, R190). -/
def State.checkMember (s : State) (ctx die ceil m : Nat) (p : BitVec 1024) : Except PktFault (Member × State) :=
  if pktKind p ≠ 1 ∧ pktKind p ≠ 3 then .error ⟨0x0E, m, none⟩
  else
    match headerFault p with
    | some c => .error ⟨c, m, some 0⟩
    | none =>
      match s.checkItem ctx die ceil m p with
      | .error f => .error f
      | .ok r => if memberShape p then .ok r else .error ⟨0x0E, m, none⟩

/-- The members of a bundle in order; the first that fails is reported. -/
def State.checkMembers (s : State) (ctx die ceil : Nat) : Nat → List (BitVec 1024) → Except PktFault (List Member × State)
  | _, [] => .ok ([], s)
  | m, p :: ps =>
    match s.checkMember ctx die ceil m p with
    | .error f => .error f
    | .ok (x, s) =>
      match State.checkMembers s ctx die ceil (m + 1) ps with
      | .error f => .error f
      | .ok (xs, s) => .ok (x :: xs, s)

/-! ### Checks of the other kinds -/

/-- An expert-queue configuration record keeps its limits (20 R361). -/
def xqcfgOk (r : BitVec 512) : Bool :=
  let rng (v lo hi : Nat) : Bool := decide (lo ≤ v) && decide (v ≤ hi)
  onlyFields r [(0, 21, 0), (8, 19, 0), (0x10, 47, 0), (0x18, 4, 0), (0x20, 47, 0), (0x28, 31, 0)]
  && rng (recBits r 0 8 0) 1 256 && rng (recBits r 0 17 9) 1 256 && rng (recBits r 8 19 0) 1 1000000
  && rng (recBits r 0x18 4 0) 1 16 && recBits r 0x20 47 0 % 64 == 0 && rng (recBits r 0x28 31 0) 0 (2 ^ 26)

/-- WSLOAD's range (09 R181). -/
def wsRangeOk (p : BitVec 1024) : Bool :=
  let dst := pktBits p 0x10 63 0
  let len := pktBits p 0x18 63 0
  dst % 64 == 0 && len % 64 == 0 && decide (0 < len) && decide (dst + len ≤ 2 ^ 28)

/-- What a packet that passes its checks brings with it: its members and, for an XQCFG, its record. -/
structure Checked where
  members : List Member
  cfg     : BitVec 512

/-- The snapshots and checks of a BUNDLE (09 R181, R182, R190); its list is read whatever COUNT is. -/
def State.checkBundle (s : State) (ctx die ceil : Nat) (p : BitVec 1024) : Except PktFault (Checked × State) :=
  let n := pktBits p 0x10 4 0
  let bad : Bool := decide (n < 2) || decide (16 < n)
  match s.snapList ctx die (pktBits p 0x08 63 0) n with
  | .error a => .error ⟨0x05, 0xFF, some a⟩
  | .ok (ps, s) =>
    match bodyFault p with
    | some off => .error ⟨0x02, 0xFF, some off⟩
    | none =>
      if bad then .error ⟨0x0E, 0xFF, some 0x10⟩
      else (s.checkMembers ctx die ceil 0 ps).map (fun r => (⟨r.1, 0⟩, r.2))

/-- The snapshots and checks of an XQCFG (20 R361); the list that its record names is read whether or not the record keeps its
limits, since 0x05 comes first (09 R182). -/
def State.checkXqcfg (s : State) (ctx die : Nat) (p : BitVec 1024) : Except PktFault (Checked × State) :=
  match s.snapshot ctx die 64 (pktBits p 0x08 63 0) 1 with
  | .error a => .error ⟨0x05, 0xFF, some a⟩
  | .ok (bs, s) =>
    let r := BitVec.ofNat 512 (ofBytes bs)
    match s.snapList ctx die (recBits r 0x10 47 0) (recBits r 0x18 4 0) with
    | .error a => .error ⟨0x05, 0xFF, some a⟩
    | .ok (ps, s) =>
      match bodyFault p with
      | some off => .error ⟨0x02, 0xFF, some off⟩
      | none =>
        if !xqcfgOk r then .error ⟨0x02, 0xFF, none⟩
        else if !s.pkg.domLive (pktBits p 0x10 8 7) then .error ⟨0x0C, 0xFF, some 0x10⟩
        else
          match (ps.zipIdx).find? (fun q => !memberShape q.1) with
          | some q => .error ⟨0x0E, q.2, none⟩
          | none => .ok (⟨ps.map (fun q => ⟨q, [], false⟩), r⟩, s)

/-- A packet is checked at acceptance (09 R182): what it brings, or the first check that fails. -/
def State.checkPacket (s : State) (ctx die ceil : Nat) (p : BitVec 1024) : Except PktFault (Checked × State) :=
  match headerFault p with
  | some c => .error ⟨c, 0xFF, some 0⟩
  | none =>
    match pktKind p with
    | 1 | 3 => (s.checkItem ctx die ceil 0xFF p).map (fun r => (⟨[r.1], 0⟩, r.2))
    | 2 => s.checkBundle ctx die ceil p
    | 7 => s.checkXqcfg ctx die p
    | k =>
      match bodyFault p with
      | some off => .error ⟨0x02, 0xFF, some off⟩
      | none =>
        if k = 6 ∧ !s.pkg.maskOk (pktBits p 0x20 3 0) then .error ⟨0x0A, 0xFF, some 0x20⟩
        else if k = 6 ∧ !wsRangeOk p then .error ⟨0x0C, 0xFF, none⟩
        else .ok (⟨[], 0⟩, s)

/-! ### Acceptance -/

/-- The domain whose front end serves a queue (30 R476). -/
def qDie (q : Nat) : Nat := q / 32

/-- The physical address of a slot of a queue (09 R176; log entry 11). -/
def QReg.slotAt (r : QReg) (i : Nat) : Nat := 4096 * bitsAt r.base.toNat 47 12 + 64 * (i % 2 ^ r.log2.toNat)

/-- Slots that software has written and the front end has not accepted (09 R177). -/
def QReg.waitingSlots (r : QReg) : Nat := (r.wridx - r.rdidx).toNat

/-- In hold mode the front end of a die begins nothing after a PKT_BEGIN or PKT_END record that waits (27 R431). -/
def State.feHeld (s : State) (die : Nat) : Bool :=
  s.ctxs.any (fun e => e.1 % 4 == die && bitsAt e.2.traceCtl.toNat 2 1 == 2
    && e.2.recs.any (fun x => let t := x.bits.toNat % 256; t == 1 || t == 2))

/-- The slots of the next packet, as the front end reads them (09 R177). -/
def State.nextSlots (s : State) (q n : Nat) : List Byte × State :=
  let r := s.queue q
  (List.range n).foldl (fun (a : List Byte × State) k =>
    let x := a.2.readHome (r.slotAt (r.rdidx.toNat + k)) 64
    (a.1 ++ x.1, x.2)) ([], s)

/-- The queue is served, and some packet may be waiting. -/
def State.serves (s : State) (q : Nat) : Bool :=
  let r := s.queue q
  s.pkg.domLive (qDie q) && r.enable && !r.halted && r.waitingSlots != 0

/-- The next packet of a queue: none while its slots are not all written (09 R177). -/
def State.nextPacket (s : State) (q : Nat) : Option (BitVec 1024 × Nat × State) :=
  let one := s.nextSlots q 1
  let n := pktNslot (BitVec.ofNat 1024 (ofBytes one.1)) + 1
  if (s.queue q).waitingSlots < n then none
  else
    let a := s.nextSlots q n
    some (BitVec.ofNat 1024 (ofBytes (a.1.take 128)), n, a.2)

/-- PACKET_ACCEPT takes place. -/
def State.canAcceptPacket (s : State) (q : Nat) : Bool :=
  s.serves q && (decide (2 ^ (s.queue q).log2.toNat < (s.queue q).waitingSlots) || (s.nextPacket q).isSome)

/-- The next packet is read, snapshotted and checked; it takes the queue's sequence number (09 R177, R178, R182). DESIGN CHOICE (log
entry 62): an overrun, which concerns no packet, is tested before the header of the packet at Q_RDIDX. -/
def State.acceptPacket (s : State) (q : Nat) : State :=
  let r := s.queue q
  if 2 ^ r.log2.toNat < r.waitingSlots then s.drew.errorRecord q r.seq none 0x04 0xFF 0 0 0 s.unstated
  else
    match s.nextPacket q with
    | none => s
    | some (p, n, s) =>
      let took (s : State) : State := s.updQueue q (fun r => { r with seq := r.seq + 1, rdidx := r.rdidx + BitVec.ofNat 32 n })
      match s.checkPacket r.ctx.toNat (qDie q) r.ceil.toNat p with
      | .error f => took (s.drew.errorRecord q r.seq none f.code f.member (pktTagOf p) 0 0 (f.detail.getD s.unstated))
      | .ok (c, s) =>
        took { s with fe.nextP := s.fe.nextP + 1, fe.pkts := s.fe.pkts ++
          [⟨s.fe.nextP, q, r.seq, p, c.members, c.cfg, s.timeAt (qDie q), false, false, 0, false, 0, false⟩] }

/-- PACKET_ACCEPT (09 R178). -/
def execPacketAccept (q : Nat) (s : State) : Host.Outcome State Fault Refusal :=
  .next (if s.canAcceptPacket q then s.acceptPacket q else s)

end Sys2Proof.Machine
end

