-- ==== Sys2Proof/Machine/FrontEnd.lean ====
section
/-! DEFINITION. The front ends: queue registers (09 R176), the beginning of packets (R188, R190, R191; 20 R361; 30 R489),
WAIT, SIGNAL and WSLOAD (09 R191), and completion in order (R189). -/

namespace Sys2Proof.Machine

/-! ### Queue registers -/

/-- A write of Q_WRIDX (09 R177). -/
def State.writeWridx (s : State) (q : Nat) (v : BitVec 32) : State :=
  if s.pkg.domLive (qDie q) then s.updQueue q (fun r => { r with wridx := v }) else s

/-- Q_WRIDX_WRITE (09 R177). -/
def execQWridxWrite (q : Nat) (v : BitVec 32) (s : State) : Host.Outcome State Fault Refusal := .next (s.writeWridx q v)

/-- Q_CTL as it reads (09 R176). -/
def QReg.ctl (r : QReg) : BitVec 32 :=
  BitVec.ofNat 32 ((if r.enable then 1 else 0) + r.log2.toNat * 2 + r.ceil.toNat * 2 ^ 6 + r.ctx.toNat * 2 ^ 16)

/-- Q_STAT as it reads; `busy` while an accepted packet has not completed (09 R176). -/
def QReg.stat (r : QReg) (busy : Bool) : BitVec 32 :=
  BitVec.ofNat 32 ((if r.halted then 1 else 0) + (if r.waiting then 2 else 0) + (if busy then 4 else 0) + r.err.toNat * 256)

/-- The packets of a queue that have not completed, in order. -/
def State.qPkts (s : State) (q : Nat) : List Pkt := s.fe.pkts.filter (fun p => p.queue == q)

def State.updPkt (s : State) (id : Nat) (f : Pkt → Pkt) : State := s.updPkts (fun p => if p.id = id then f p else p)

/-! ### WAIT -/

/-- COND of a WAIT (09 R181). -/
def waitHolds (cond word value mask : Nat) : Bool :=
  let x := word &&& mask
  match cond with
  | 0 => x == value
  | 1 => x != value
  | 2 => decide (value ≤ x)
  | _ => decide (x < value)

/-- A packet ends with an error record, the queue having halted. -/
def State.pktError (s : State) (p : Pkt) (code detail : Nat) : State :=
  s.errorRecord p.queue p.seq (some p.id) code 0xFF (pktTagOf p.bits) 0 0 detail

/-- A WAIT evaluates its condition (09 R191): it completes, stays blocked, or is left incomplete by a fault. -/
def State.evalWait (s : State) (p : Pkt) : State :=
  let q := p.queue
  let addr := pktBits p.bits 0x08 63 0
  match s.readVirt (s.queue q).ctx.toNat (qDie q) addr 8 8 with
  | .error _ =>
    ((s.pktError p 0x05 addr).updQueue q (fun r => { r with waiting := false })).updPkt p.id (fun p => { p with blocked := true })
  | .ok (bs, s) =>
    if waitHolds (pktBits p.bits 0x20 2 0) (ofBytes bs) (pktBits p.bits 0x10 63 0) (pktBits p.bits 0x18 63 0) then
      (s.updQueue q (fun r => { r with waiting := false })).updPkt p.id (fun p => { p with ended := true })
    else s.updQueue q (fun r => { r with waiting := true })

/-- A WAIT that has begun and neither completed nor been left incomplete. -/
def Pkt.waiting (p : Pkt) : Bool := pktKind p.bits == 4 && p.begun && !p.ended && !p.blocked

/-- Every blocked WAIT of a die re-evaluates (09 R191). -/
def State.evalWaits (s : State) (die : Nat) : State :=
  (s.fe.pkts.filter (fun p => p.waiting && qDie p.queue == die)).foldl (fun s p => s.evalWait p) s

/-- The WAIT of a queue that is blocked. -/
def State.waitOf (s : State) (q : Nat) : Option Pkt := (s.qPkts q).find? Pkt.waiting

/-- WAIT_EVALUATE (09 R191). -/
def execWaitEvaluate (q : Nat) (s : State) : Host.Outcome State Fault Refusal :=
  .next (match s.waitOf q with
    | some p => s.evalWait p
    | none => s)

/-- TIMEOUT of a WAIT has expired: it counts microseconds, 0 without limit (09 R181, R191). -/
def State.waitExpired (s : State) (p : Pkt) : Bool :=
  let t := pktBits p.bits 0x24 31 0
  t != 0 && decide (1000 * t ≤ s.clock.time - p.since)

/-- WAIT_TIMEOUT (09 R182, R191). -/
def execWaitTimeout (q : Nat) (s : State) : Host.Outcome State Fault Refusal :=
  .next (match s.waitOf q with
    | some p =>
      if s.waitExpired p then
        ((s.drew.pktError p 0x0D s.unstated).updQueue q (fun r => { r with waiting := false })).updPkt p.id
          (fun p => { p with blocked := true })
      else s
    | none => s)

/-- A write of 1 to RESUME (09 R176, R191): HALTED clears, and a WAIT left incomplete begins again at once. -/
def State.resumeQueue (s : State) (q : Nat) : State :=
  if s.pkg.domLive (qDie q) then
    let s := s.updQueue q (fun r => { r with halted := false })
    match (s.qPkts q).find? Pkt.blocked with
    | none => s
    | some p =>
      (s.updPkt p.id (fun p => { p with blocked := false, since := s.clock.time })).evalWait p
  else s

/-- Q_RESUME (09 R176). -/
def execQResume (q : Nat) (s : State) : Host.Outcome State Fault Refusal := .next (s.resumeQueue q)

/-- A write of Q_CTL (09 R176): one that changes LOG2SLOTS, PRIO_CEIL or CTX of an enabled queue is ignored. DESIGN CHOICE (log entry
62): LOG2SLOTS out of range sets ERR on a write with ENABLE = 1 alone. -/
def State.writeCtl (s : State) (q : Nat) (v : BitVec 32) : State :=
  let r := s.queue q
  let lg := BitVec.ofNat 5 (bitsAt v.toNat 5 1)
  let ceil := BitVec.ofNat 3 (bitsAt v.toNat 8 6)
  let ctx := BitVec.ofNat 8 (bitsAt v.toNat 23 16)
  let on := bitAt v.toNat 0
  if !s.pkg.domLive (qDie q) ∨ (r.enable ∧ (lg ≠ r.log2 ∨ ceil ≠ r.ceil ∨ ctx ≠ r.ctx)) then s
  else
    let ok := decide (6 ≤ lg.toNat) && decide (lg.toNat ≤ 16)
    let s := s.updQueue q (fun r =>
      let r := { r with log2 := lg, ceil := ceil, ctx := ctx }
      if !on then { r with enable := false }
      else if !ok then { r with enable := false, err := 0x02 }
      else if r.enable then r
      else { r with enable := true, rdidx := r.wridx, seq := 0 })
    if bitAt v.toNat 24 then s.resumeQueue q else s

/-- Q_ENABLE (09 R176): a write of Q_CTL. -/
def execQEnable (q : Nat) (ctl : BitVec 32) (s : State) : Host.Outcome State Fault Refusal := .next (s.writeCtl q ctl)

/-! ### The beginning of packets -/

/-- The packet of a queue that is to begin next (09 R188): the first that has not begun, where every earlier one has
completed or it overlaps. -/
def State.nextBegin (s : State) (q : Nat) : Option Pkt :=
  let ps := s.qPkts q
  match ps.find? (fun p => !p.begun) with
  | none => none
  | some p =>
    if (ps.head?.map (fun h => h.id)) = some p.id ∨ pktOverlap p.bits then some p else none

/-- The FE queue that an ENGINE work item enters (17 R295). -/
def engQueue (p : BitVec 1024) : QueueId :=
  let cl := 8 * engDie p + engCluster p
  if engKind p = 0 then .feCopy cl else .feCoord cl

/-- The FE queues have room for the ENGINE work items among some members. -/
def State.roomFor (s : State) (ms : List Member) : Bool :=
  let qs := (ms.filter (fun m => pktKind m.bits == 3)).map (fun m => engQueue m.bits)
  qs.all (fun q => s.room q (qs.filter (fun r => r == q)).length)

/-- No team is resident on the dies of a mask. -/
def State.diesFree (s : State) (mask : Nat) : Bool :=
  s.wk.teams.all (fun t => t.freed || !bitAt mask (dieOf t.core))

/-- The next packet of a queue can begin: it is of kind `kind`, the engines have room for it, and a WSLOAD's dies are free of
teams. -/
def State.canBegin (s : State) (q kind : Nat) : Option Pkt :=
  match s.nextBegin q with
  | none => none
  | some p =>
    if pktKind p.bits = kind ∧ !s.feHeld (qDie q) ∧ s.pkg.domLive (qDie q) ∧ s.roomFor (if kind = 7 then [] else p.members)
        ∧ (kind ≠ 6 ∨ s.diesFree (pktBits p.bits 0x20 3 0)) then some p else none

/-- A PKT_BEGIN or PKT_END record (27 R433, R434). -/
def State.pktRecord (s : State) (p : Pkt) (k : RecKind) (arg : Nat) : State :=
  s.emit (s.queue p.queue).ctx.toNat (32 * qDie p.queue) k arg (identity p.seq.toNat 4 4 p.queue 0xFF) false none

/-- A packet begins. -/
def State.beginPkt (s : State) (p : Pkt) : State :=
  (s.pktRecord p rPktBegin (pktKind p.bits)).updPkt p.id (fun p => { p with begun := true })

/-- What a work item comes with: its queue, packet, sequence number, context, acceptance time and batch. -/
structure Origin where
  queue : Nat
  pkt   : Nat
  seq   : BitVec 64
  ctx   : Nat
  time  : Nat
  batch : Option (Nat × Nat)

/-- A work item has ended without an effect or with it. -/
def State.itemDone (s : State) (o : Origin) (m : Nat) : State :=
  match o.batch with
  | some (xq, fire) => s.batchDone xq fire
  | none => s.memberDone o.pkt m

/-- A LAUNCH work item begins: its grid waits for its placement (09 R184, R187). -/
def State.startLaunch (s : State) (o : Origin) (m : Nat) (x : Member) : State :=
  let l := parseLaunch x.bits
  State.startGrid { s with clock.launched := true } ⟨0, o.ctx, o.queue, o.pkt, o.seq, m, l, x.snap, 0, 0, 0, o.time, [],
    none, o.batch, 0, 0, false⟩

/-- The body of an ENGINE work item's command, its object created (17 R296; 20 R348). -/
def State.engineBody (s : State) (ctx : Nat) (x : Member) : Option (CmdBody × State) :=
  let cr := snapRec x.snap 0
  if engKind x.bits = 0 then some (.copy cr (snapRec x.snap 1) (snapRec x.snap 2), s)
  else
    match s.coordAccept ctx (engDie x.bits) cr with
    | .ok (h, hit, s) => some (.coord (recBits cr 0 7 0) cr h hit, s)
    | .error _ => none

/-- An ENGINE work item begins: its command enters the FE queue of its cluster (17 R295, R296). -/
def State.startEngine (s : State) (o : Origin) (m : Nat) (x : Member) : State :=
  match s.engineBody o.ctx x with
  | none => (s.drew.itemError o.queue o.seq o.pkt m o.batch 0x12 0 0 s.unstated).itemDone o m
  | some (body, s) =>
    s.accept { Cmd.blank (engQueue x.bits) o.ctx (4 * (8 * engDie x.bits + engCluster x.bits)) body with
      pkt := some (o.queue, o.seq, m), pid := o.pkt, batch := o.batch }

/-- A work item begins. -/
def State.startItem (s : State) (o : Origin) (m : Nat) (x : Member) : State :=
  if pktKind x.bits = 1 then s.startLaunch o m x else s.startEngine o m x

/-- What a packet's work items come with. DESIGN CHOICE (log entry 62): they take the context that the queue has when the packet
begins, and a packet accepted before ENABLE is cleared still begins. -/
def State.originOf (s : State) (p : Pkt) : Origin := ⟨p.queue, p.id, p.seq, (s.queue p.queue).ctx.toNat, p.time, none⟩

/-- A LAUNCH or an ENGINE begins (09 R188). -/
def State.beginItem (s : State) (q kind : Nat) : State :=
  match s.canBegin q kind with
  | none => s
  | some p =>
    match p.members with
    | [] => s
    | x :: _ => (s.beginPkt p).startItem (s.originOf p) 0xFF x

/-- LAUNCH (09 R180, R188). -/
def execLaunch (q : Nat) (s : State) : Host.Outcome State Fault Refusal := .next (s.beginItem q 1)

/-- ENGINE (09 R181, R188). -/
def execEngine (q : Nat) (s : State) : Host.Outcome State Fault Refusal := .next (s.beginItem q 3)

/-- The members of a bundle begin together (09 R190). -/
def State.startItems (s : State) (o : Origin) (ms : List Member) : State :=
  (ms.zipIdx).foldl (fun (s : State) m => s.startItem o m.2 m.1) s

/-- BUNDLE (09 R190). -/
def execBundle (q : Nat) (s : State) : Host.Outcome State Fault Refusal :=
  .next (match s.canBegin q 2 with
    | none => s
    | some p => (s.beginPkt p).startItems (s.originOf p) p.members)

/-- WAIT (09 R191). -/
def execWait (q : Nat) (s : State) : Host.Outcome State Fault Refusal :=
  .next (match s.canBegin q 4 with
    | none => s
    | some p => ((s.beginPkt p).updPkt p.id (fun p => { p with since := s.clock.time })).evalWait p)

/-! ### SIGNAL, WSLOAD, XQCFG, INVLOG -/

/-- A packet has completed but for its completion write. -/
def State.endPkt (s : State) (p : Pkt) : State := s.updPkt p.id (fun p => { p with ended := true })

/-- The store or the atomic add of a SIGNAL at scope sys (09 R181, R191): none where it faults. -/
def State.signalStore (s : State) (ctx die : Nat) (p : BitVec 1024) : Option State :=
  let addr := pktBits p 0x08 63 0
  let v := pktBits p 0x10 63 0
  if pktBits p 0x18 0 0 = 0 then (s.writeVirt ctx die addr 8 (bytesOf 8 v)).toOption
  else
    match s.resolve ctx (.ofDie die) addr 8 8 .rmw with
    | .ok (.phys pa _) =>
      if s.badData pa 8 then none
      else
        let r := (s.noteTlb (.ofDie die) ctx addr).drew.readHome pa 8
        some (r.2.writeHome pa (bytesOf 8 (ofBytes r.1 + v)))
    | .ok (.arg ..) | .error _ => none

/-- SIGNAL (09 R191). -/
def execSignal (q : Nat) (s : State) : Host.Outcome State Fault Refusal :=
  .next (match s.canBegin q 5 with
    | none => s
    | some p =>
      let s := s.beginPkt p
      let s := match s.signalStore (s.queue q).ctx.toNat (qDie q) p.bits with
        | some s => if pktBits p.bits 0x18 1 1 = 1 then s.raiseMsi (BitVec.ofNat 11 (pktBits p.bits 0x18 12 2)) else s
        | none => s.pktError p 0x05 (pktBits p.bits 0x08 63 0)
      (s.endPkt p).evalWaits (qDie q))

/-- The blocks of a WSLOAD from `k` on, 64 bytes each, into every weight store of its mask; the address that faulted
(09 R191). -/
def State.wsCopy (s : State) (ctx die src dst mask : Nat) : Nat → Nat → Option Nat × State
  | _, 0 => (none, s)
  | k, n + 1 =>
    match s.readVirt ctx die (src + 64 * k) 64 64 with
    | .error _ => (some (src + 64 * k), s)
    | .ok (bs, s) =>
      State.wsCopy ((maskDoms mask).foldl (fun (s : State) d => s.wsWrite d (dst + 64 * k) bs) s) ctx die src dst mask (k + 1) n

/-- WSLOAD (09 R191). -/
def execWsload (q : Nat) (s : State) : Host.Outcome State Fault Refusal :=
  .next (match s.canBegin q 6 with
    | none => s
    | some p =>
      let r := (s.beginPkt p).wsCopy (s.queue q).ctx.toNat (qDie q) (pktBits p.bits 0x08 63 0) (pktBits p.bits 0x10 63 0)
        (pktBits p.bits 0x20 3 0) 0 (pktBits p.bits 0x18 63 0 / 64)
      let s := match r.1 with
        | some a => r.2.pktError p 0x05 a
        | none => r.2
      s.endPkt p)

/-- SPILL and SPILLN of a configuration. -/
def spillOf (r : BitVec 512) : Nat × Nat := (recBits r 0x20 47 0, recBits r 0x28 31 0)

/-- An expert queue takes the configuration and the bound bundle of an XQCFG; tokens and batches are kept (20 R361). -/
def State.configure (s : State) (p : Pkt) : State :=
  let n := pktBits p.bits 0x10 8 0
  let x := s.xq n
  let x := { x with cfg := p.cfg, members := p.members, owner := some ((s.queue p.queue).ctx.toNat, p.queue)
                    due := x.due.filter (· != p.id) }
  State.endPkt { s with eng.xqs := Table.put s.eng.xqs n x } p

/-- XQCFG (20 R361): one that comes while tokens wait, or that follows another which waits, takes effect at the next firing slot, and
the packet ends then (09 R191). -/
def execXqcfg (q : Nat) (s : State) : Host.Outcome State Fault Refusal :=
  .next (match s.canBegin q 7 with
    | none => s
    | some p =>
      let s := s.beginPkt p
      let n := pktBits p.bits 0x10 8 0
      let x := s.xq n
      if spillOf p.cfg ≠ spillOf x.cfg ∧ x.tokens.any (fun t => t.spilled.isSome) then (s.drew.pktError p 0x02 s.unstated).endPkt p
      else if x.tokens.isEmpty ∧ x.due.isEmpty then s.configure p
      else { s with eng.xqs := Table.put s.eng.xqs n { x with due := x.due ++ [p.id] } })

/-- One entry is appended to a die's invalidation log; a full log is applied first (30 R489). -/
def State.appendInv (s : State) (die : Nat) (e : InvEntry) : State :=
  let log := Table.read [] s.mm.invlogs die
  let s := if 256 ≤ log.length then (List.range 256).foldl (fun (s : State) c => s.applyInv c die) s else s
  { s with mm.invlogs := Table.put s.mm.invlogs die (Table.read [] s.mm.invlogs die ++ [e]) }

/-- INVLOG (30 R489). -/
def execInvlog (q : Nat) (s : State) : Host.Outcome State Fault Refusal :=
  .next (match s.canBegin q 8 with
    | none => s
    | some p =>
      let e : InvEntry := ⟨(s.queue q).ctx.toNat, pktBits p.bits 0x08 63 0, pktBits p.bits 0x10 31 0⟩
      (s.pkg.doms.foldl (fun (s : State) d => s.appendInv d e) (s.beginPkt p)).endPkt p)

/-! ### Completion -/

/-- A packet has completed: its work items have, or its own effect has been made (09 R189 to R191). -/
def Pkt.complete (p : Pkt) : Bool :=
  let k := pktKind p.bits
  p.begun && (if k = 1 ∨ k = 2 ∨ k = 3 then p.members.all Member.ended else p.ended)

/-- COMPADDR and COMPVAL of a packet that has them. -/
def pktComp (p : BitVec 1024) : Nat × Nat :=
  match pktKind p with
  | 1 => (pktBits p 0x38 47 0, pktBits p 0x40 63 0)
  | 2 | 3 => (pktBits p 0x18 47 0, pktBits p 0x20 63 0)
  | _ => (0, 0)

/-- The packet of a queue whose completion is next in order has completed (09 R188). -/
def State.nextComplete (s : State) (q : Nat) : Option Pkt := (s.qPkts q).head?.filter Pkt.complete

/-- The completion write and the interrupt of a packet, and its PKT_END record (09 R188, R189). -/
def State.completePkt (s : State) (p : Pkt) : State :=
  let q := p.queue
  let c := pktComp p.bits
  let s := if c.1 = 0 ∨ p.lost then s
    else
      match s.writeVirt (s.queue q).ctx.toNat (qDie q) c.1 8 (bytesOf 8 c.2) with
      | .ok s =>
        let l := parseLaunch p.bits
        if pktKind p.bits = 1 ∧ l.irq then s.raiseMsi l.vector else s
      | .error _ => s.pktError p 0x05 c.1
  let err := (((s.fe.pkts.find? (fun x => x.id == p.id)).map Pkt.err).getD 0).toNat
  let s := (s.pktRecord p rPktEnd err).updQueue q (fun r => { r with halted := r.halted || (s.isBundle p.id && err != 0) })
  State.evalWaits { s with fe.pkts := s.fe.pkts.filter (fun x => x.id != p.id) } (qDie q)

/-- COMPLETION_WRITE (09 R189). -/
def execCompletionWrite (q : Nat) (s : State) : Host.Outcome State Fault Refusal :=
  .next (match s.nextComplete q with
    | some p => s.completePkt p
    | none => s)

end Sys2Proof.Machine
end

