-- ==== Sys2Proof/Machine/Experts.lean ====
section
/-! DEFINITION. The firing of expert queues (20 R364, R365). -/

namespace Sys2Proof.Machine

/-- THRESH, MAXB, PRIO and AGE of an expert queue (20 R361). -/
def XQueue.thresh (q : XQueue) : Nat := recBits q.cfg 0 8 0
@[inherit_doc XQueue.thresh]
def XQueue.maxb (q : XQueue) : Nat := recBits q.cfg 0 17 9
@[inherit_doc XQueue.thresh]
def XQueue.prio (q : XQueue) : Nat := recBits q.cfg 0 20 18
@[inherit_doc XQueue.thresh]
def XQueue.age (q : XQueue) : Nat := recBits q.cfg 8 19 0

/-- The oldest token has waited for the queue's AGE (20 R364). -/
def XQueue.expired (q : XQueue) (now : Nat) : Bool := q.tokens.head?.any (fun t => decide (q.age ≤ now - t.time))

/-- A queue is eligible at a firing slot (20 R364). -/
def XQueue.eligible (q : XQueue) (now : Nat) : Bool :=
  q.enabled && !q.tokens.isEmpty && decide (q.batches.length < 2) && (decide (q.thresh ≤ q.tokens.length) || q.expired now)

/-- The order in which a slot chooses (20 R364): expired queues by their oldest token, then the others by PRIO and their oldest
token. -/
def XQueue.before (p q : XQueue) (now : Nat) : Bool :=
  let old (x : XQueue) : Nat := (x.tokens.head?.map Token.order).getD 0
  if p.expired now ≠ q.expired now then p.expired now
  else if p.expired now then decide (old p < old q)
  else if p.prio ≠ q.prio then decide (q.prio < p.prio)
  else decide (old p < old q)

/-- The queue of a die that a slot fires. -/
def State.fireChoice (s : State) (die : Nat) : Option (Nat × XQueue) :=
  let now := s.timeAt die
  ((s.eng.xqs.filter (fun e => e.1 / 128 == die && e.2.eligible now))).foldl (fun (b : Option (Nat × XQueue)) e =>
    match b with
    | none => some e
    | some x => if e.2.before x.2 now then some e else some x) none

/-- In hold mode the XQU of a die waits while a record of it waits (27 R431). -/
def State.xquHeld (s : State) (die : Nat) : Bool := (s.heldRecs die).any (Cmd.blank (.expert 0) 0 0 (.fence [])).sameUnit

/-- A firing slot of a die may begin: 250 ns after the last (20 R364). -/
def State.slotDue (s : State) (die : Nat) : Bool :=
  (match Table.look s.eng.fired die with
    | none => true
    | some t => decide (250 ≤ s.clock.time - t)) && s.pkg.domLive die && !s.xquHeld die

/-- The queue that a firing slot fires, its engine members having room (20 R364, R365). -/
def State.canFire (s : State) (die : Nat) : Option (Nat × XQueue) := (s.fireChoice die).filter (fun e => s.roomFor e.2.members)

/-- The configurations that wait for a firing slot of a die take effect (20 R361). -/
def State.reconfigure (s : State) (die : Nat) : State :=
  let ps := (s.eng.xqs.filter (fun (e : Nat × XQueue) => e.1 / 128 == die)).flatMap (fun (e : Nat × XQueue) =>
    s.fe.pkts.filter (fun p => e.2.due.contains p.id))
  if ps.isEmpty then s
  else ps.foldl (fun (s : State) p => s.configure p) { s with eng.fired := Table.put s.eng.fired die s.clock.time }

/-- A member of a batch is checked again and begins, or has its error record (20 R365). -/
def State.fireMember (s : State) (o : Origin) (die m : Nat) (x : Member) : State :=
  match s.checkMember o.ctx die (s.queue o.queue).ceil.toNat m x.bits with
  | .ok (y, s) => s.startItem o m y
  | .error f => (s.drew.itemError o.queue o.seq o.pkt m o.batch f.code 0 0 (f.detail.getD s.unstated)).itemDone o m

/-- The chip is refilled in order from the spill area (20 R363): the first tokens that are spilled are read there; one that cannot be
read is as it was enqueued (log entry 64). -/
def State.refill (s : State) (ctx die : Nat) (q : XQueue) : List Token → List Token × State
  | [] => ([], s)
  | t :: ts =>
    let r : Token × State := match t.spilled with
      | none => (t, s)
      | some k => match s.readVirt ctx die (q.spillPlace k) 16 16 with
        | .ok (bs, s) => ({ t with entry := BitVec.ofNat 128 (ofBytes bs), spilled := none }, s)
        | .error _ => ({ t with spilled := none }, s.drew)
    let rest := State.refill r.2 ctx die q ts
    (r.1 :: rest.1, rest.2)

/-- A queue fires (20 R365): its oldest tokens make a batch, the chip is refilled in order, and the bound members begin. -/
def State.fire (s : State) (die xq : Nat) (q : XQueue) : State :=
  match q.owner with
  | none => s
  | some (ctx, feq) =>
    let n := min q.tokens.length q.maxb
    let batch : Batch := ⟨q.fires, q.members.map (fun m => pktTagOf m.bits), (q.tokens.take n).map Token.entry, q.members.length⟩
    let left := q.tokens.drop n
    let r := s.refill ctx die q (left.take xqDepth)
    let s := r.2
    let q' := { q with tokens := r.1 ++ left.drop xqDepth, batches := q.batches ++ [batch], fires := q.fires + 1 }
    let s := { s with eng := { s.eng with xqs := Table.put s.eng.xqs xq q', fired := Table.put s.eng.fired die s.clock.time }
                      fe := { s.fe with nextP := s.fe.nextP + 1 } }
    let s := s.emit ctx (32 * die) rFire (xq + n * 2 ^ 9) [q.fires, ((q.tokens.head?).map Token.time).getD 0] false none
    let o : Origin := ⟨feq, s.fe.nextP - 1, (s.queue feq).seq, ctx, s.timeAt die, some (xq, q.fires)⟩
    (q.members.zipIdx).foldl (fun (s : State) p => s.fireMember o die p.2 p.1) s

/-- FIRING_SLOT (20 R361, R364): a slot of a die begins, configurations that wait for it take effect, and one eligible queue fires. -/
def execFiringSlot (die : Nat) (s : State) : Host.Outcome State Fault Refusal :=
  .next (if s.slotDue die then
      let s := s.reconfigure die
      match s.canFire die with
      | some (xq, q) => s.fire die xq q
      | none => s
    else s)

/-- BATCH_COMPLETE (20 R365): a batch whose members have all completed leaves, its untaken tokens with it. -/
def execBatchComplete (xq : Nat) (s : State) : Host.Outcome State Fault Refusal :=
  .next (let q := s.xq xq
    match q.batches.find? (fun b => b.left == 0) with
    | none => s
    | some b => { s with eng.xqs := Table.put s.eng.xqs xq { q with batches := q.batches.filter (fun c => c.fire != b.fire) } })

end Sys2Proof.Machine
end

