-- ==== Sys2Proof/Machine/Placement.lean ====
section
/-! DEFINITION. Placement of teams and crews (08 R157, R158; 09 R184 to R186; 30 R477), the end of teams and of grids (08
R173, R174; 30 R478; 15 R280, R281). -/

namespace Sys2Proof.Machine

/-! ### What fits -/

/-- Sums over the teams that hold a slot of a core. -/
def State.slotSum (s : State) (core slot : Nat) (f : Team → Nat) : Nat :=
  ((s.wk.teams.filter (fun t => t.core == core && t.slot == some slot)).map f).foldl (· + ·) 0

/-- Bytes, counts and tiles that a team is charged; a crew member that has been freed keeps its scratchpad alone (08 R157,
R173). -/
def State.charge (s : State) (t : Team) (f : Launch → Nat) : Nat :=
  if t.freed then 0 else ((s.launchOf t).map f).getD 0
@[inherit_doc State.charge]
def State.spadCharge (s : State) (t : Team) : Nat := ((s.launchOf t).map Launch.spadBytes).getD 0

/-- A team fits in a slot of a core beside the teams there (08 R157, 26 R421). -/
def State.fitsSlot (s : State) (core slot : Nat) (l : Launch) : Bool :=
  let sum (f : Launch → Nat) : Nat := s.slotSum core slot (fun t => s.charge t f)
  let units := (s.core core).partUnits slot
  decide (sum Launch.size + l.size ≤ 2048) && decide (sum Launch.regBytes + l.regBytes ≤ 262144)
  && decide (sum Launch.accum + l.accum ≤ 8) && decide (2 ≤ units)
  && decide (s.slotSum core slot s.spadCharge + l.spadBytes ≤ 16384 * (units - 1))

/-- The barrier quotas of the teams of a core, of all its slots and of the contexts evicted from it. -/
def State.barSum (s : State) (core : Nat) : Nat :=
  ((s.wk.teams.filter (fun t => t.core == core)).map (fun t => s.charge t Launch.bars)).foldl (· + ·) 0

/-- The slot of a core in which a team of a context fits: one of the context's own, or the lowest free one (09 R184). A context that
has been evicted from the core takes a free slot like any other. -/
def State.fit (s : State) (core ctx : Nat) (l : Launch) : Option Nat :=
  let c := s.core core
  if 256 < s.barSum core + l.bars then none
  else if (c.slotOf ctx).isSome then [0, 1, 2].find? (fun k => c.slotCtx k == some ctx && s.fitsSlot core k l)
  else [0, 1, 2].find? (fun k => (c.slotCtx k).isNone && s.fitsSlot core k l)

/-- The numbers from `start` on below `n`, wrapping. -/
def wrapFrom (start n : Nat) : List Nat := (List.range n).map (fun k => (start + k) % n)

/-- The cores that a share's next unit goes to, with the slots: one core, or those of a cluster for a crew (09 R184,
R185). -/
def State.unitCores (s : State) (g : Grid) (sh : Share) : Option (List (Nat × Nat)) :=
  let l := g.launch
  let start (k : Option Nat) : Nat := match k with
    | some c => c + 1
    | none => 0
  let fitting (cores : List Nat) : List (Nat × Nat) := cores.filterMap (fun k => (s.fit k g.ctx l).map (fun x => (k, x)))
  if l.crew ≤ 1 then (fitting ((wrapFrom (start sh.last) 32).map (fun k => 32 * sh.dom + k))).head?.map (fun x => [x])
  else
    (wrapFrom (start sh.last) 8).findSome? (fun cl =>
      let f := fitting ((List.range 4).map (fun k => 32 * sh.dom + 4 * cl + k))
      if l.crew ≤ f.length then some (f.take l.crew) else none)

/-! ### The order of placement -/

/-- A share of a die. -/
def Grid.share? (g : Grid) (die : Nat) : Option Share := g.shares.find? (fun sh => sh.dom == die)

/-- A share has a unit still to place. -/
def Share.waiting (sh : Share) : Bool := decide (sh.next < sh.hi)

/-- A grid comes before another (09 R186): the higher PRIO, the earlier acceptance, the lower queue; then the older. -/
def Grid.before (g h : Grid) : Bool :=
  if g.launch.prio ≠ h.launch.prio then decide (h.launch.prio < g.launch.prio)
  else if g.time ≠ h.time then decide (g.time < h.time)
  else if g.queue ≠ h.queue then decide (g.queue < h.queue)
  else decide (g.id < h.id)

/-- Inserts a grid in placement order. -/
def insertGrid (g : Grid) : List Grid → List Grid
  | [] => [g]
  | h :: hs => if g.before h then g :: h :: hs else h :: insertGrid g hs

/-- A launch has been skipped for 100 µs (09 R186). -/
def State.starving (s : State) (sh : Share) : Bool := sh.starved || sh.skipped.any (fun t => decide (100000 ≤ s.clock.time - t))

/-- The waiting launches of a die in order, none after one that has been skipped for 100 µs (09 R186). -/
def State.waitingGrids (s : State) (die : Nat) : List Grid :=
  let all := (s.fe.grids.filter (fun g => (g.share? die).any Share.waiting)).foldl (fun l g => insertGrid g l) []
  match (all.zipIdx).find? (fun p => (p.1.share? die).any s.starving) with
  | some p => all.take (p.2 + 1)
  | none => all

/-- A launch whose next unit fits now, with its cores. -/
def State.placeable (s : State) (die : Nat) (g : Grid) : Option (Grid × List (Nat × Nat)) :=
  ((g.share? die).bind (s.unitCores g)).map (fun c => (g, c))

/-- The launch that places next on a die (09 R186), and whether that begins a new round. -/
def State.nextPlacement (s : State) (die : Nat) : Option (Grid × List (Nat × Nat) × Bool) :=
  let ws := s.waitingGrids die
  let fresh := ws.filter (fun g => (g.share? die).any (fun sh => !sh.done))
  match fresh.findSome? (s.placeable die) with
  | some p => some (p.1, p.2, false)
  | none => (ws.findSome? (s.placeable die)).map (fun p => (p.1, p.2, true))

def State.updShare (s : State) (grid die : Nat) (f : Share → Share) : State :=
  s.updGrid grid (fun g => { g with shares := g.shares.map (fun sh => if sh.dom = die then f sh else sh) })

/-! ### Placing -/

/-- A thread at its start (01 R7, R17; log entry 3 for its registers), in a cycle (08 R170), with the write numbers of its start and
of its grid's (14 R253, 13 R239). -/
def startThread (l : Launch) (clk now ro n : Nat) : Thread where
  ltid := n
  alive := true
  pc := l.entry
  slot := 0
  next := none
  regs := []
  preds := 0
  flags := 0
  tcfg := BitVec.ofNat 32 (l.strict.toNat + l.nreg * 16)
  pend := []
  stack := []
  wait := .run
  faults := []
  asyncs := []
  frozen := []
  halt := 0
  lastIssue := clk
  since := now
  roSince := ro
  fenced := false
  lrs := []

/-- A team at its start in a cycle, its threads in warps of the group width (08 R155, R162, R166). -/
def startTeam (g : Grid) (clk now id core slot place index : Nat) : Team :=
  let l := g.launch
  let t : Team :=
    { id := id, grid := g.id, ctx := g.ctx, core := core, slot := some slot, place := place, index := index
      crewId := index / max 1 l.crew, crank := index % max 1 l.crew, freed := false, ended := false
      threads := (List.range l.size).map (startThread l clk now g.since), warps := [], nextW := 0, insts := [], nextI := 0, traps := []
      nextT := 0, spad := [], spadLog := [], acc := [], window := [], tseq := 0, tprog := 0 }
  t.form l.width (List.range l.size) none (clk + 1)

/-- The lowest team slot of a core that no team uses (27 R433). -/
def State.freePlace (s : State) (core : Nat) : Nat :=
  let used := (s.wk.teams.filter (fun t => t.core == core)).map Team.place
  ((List.range (used.length + 1)).find? (fun k => !used.contains k)).getD 0

/-- The paused tile commands of a team go on (18 R326, 26 R422). -/
def State.unpauseTile (s : State) (t : Team) : State :=
  { s with eng.cmds := s.eng.cmds.map (fun (c : Cmd) =>
      if c.queue = .tile t.id ∧ c.state = .paused then { c with state := .ready } else c) }

/-- A slot of a core becomes active (26 R422). A switch from another context makes a SWITCH record and applies the die's
invalidation logs (30 R490). -/
def State.activate (s : State) (core k : Nat) (old : Option Nat) : State :=
  let s := s.updCore core (fun c => { c with active := k, req := none, since := s.clock.time })
  let s := (s.wk.teams.filter (fun t => t.core == core && t.slot == some k)).foldl (fun (s : State) t => s.unpauseTile t) s
  match old with
  | none => s
  | some o =>
    let new := ((s.core core).slotCtx k).getD 0
    let s := s.emit new core rSwitch (new % 256 + o % 256 * 256) [] false none
    (dedup ((Table.read [] s.mm.invlogs (dieOf core)).map InvEntry.ctx)).foldl (fun (s : State) x => s.applyInv x (dieOf core)) s

/-- A context takes a slot of a core; where the active slot holds none, the slot becomes active (log entry 29). -/
def State.takeSlot (s : State) (core slot ctx : Nat) : State :=
  let c := s.core core
  let s := s.updCore core (fun c => c.setSlot slot (some ctx))
  if (c.slotCtx c.active).isNone then s.activate core slot none else s

/-- A team is placed on a core (09 R184): its context takes the slot, and the core reads memory anew. -/
def State.placeTeam (s : State) (g : Grid) (index core slot : Nat) : State :=
  let t := startTeam g s.clock.clk s.mm.nextW s.wk.nextTeam core slot (s.freePlace core) index
  let s := { s with wk := { s.wk with teams := s.wk.teams ++ [t], nextTeam := s.wk.nextTeam + 1 } }
  ((s.takeSlot core slot g.ctx).dropClean core).ldcEmpty core

/-- The unit of a launch is placed on cores, its members together (09 R184, R185). -/
def State.placeUnit (s : State) (die : Nat) (g : Grid) (cores : List (Nat × Nat)) (fresh : Bool) : State :=
  match g.share? die with
  | none => s
  | some sh =>
    let ws := s.waitingGrids die
    let s := if fresh then ws.foldl (fun (s : State) w => s.updShare w.id die (fun sh => { sh with done := false })) s else s
    let earlier := (ws.takeWhile (fun w => w.id != g.id)).filter (fun w => (w.share? die).any (fun sh => fresh || !sh.done))
    let s := earlier.foldl (fun (s : State) w => s.updShare w.id die (fun sh =>
      { sh with done := true, skipped := sh.skipped.or (some s.clock.time) })) s
    let c := max 1 g.launch.crew
    let s := (cores.zipIdx).foldl (fun (s : State) p => s.placeTeam g (c * sh.next + p.2) p.1.1 p.1.2) s
    let last := (cores.head?).map (fun p => if c = 1 then coreNo p.1 else coreNo p.1 / 4)
    s.updShare g.id die (fun sh =>
      { sh with next := sh.next + 1, last := last, skipped := none, starved := false, done := true })

/-- A unit is placed where it is the turn of the launch and the unit is of the kind named. -/
def State.placeNext (s : State) (die grid : Nat) (crew : Bool) : State :=
  match s.nextPlacement die with
  | some (g, cores, fresh) =>
    if g.id = grid ∧ decide (1 < g.launch.crew) = crew ∧ s.pkg.domLive die then s.placeUnit die g cores fresh else s
  | none => s

/-- TEAM_PLACE (09 R184). -/
def execTeamPlace (die grid : Nat) (s : State) : Host.Outcome State Fault Refusal := .next (s.placeNext die grid false)

/-- CREW_PLACE (09 R185). -/
def execCrewPlace (die grid : Nat) (s : State) : Host.Outcome State Fault Refusal := .next (s.placeNext die grid true)

/-- A launch is passed over: its next unit does not fit now. -/
def State.passedOver (s : State) (die : Nat) (g : Grid) : Bool :=
  match g.share? die with
  | some sh => sh.waiting && !sh.starved && (s.unitCores g sh).isNone
  | none => false

/-- A skip is to be noted, or has lasted 100 µs (09 R186). -/
def State.canStarve (s : State) (die : Nat) (g : Grid) : Bool :=
  s.passedOver die g && (match (g.share? die).bind Share.skipped with
    | none => true
    | some t => decide (100000 ≤ s.clock.time - t))

/-- PLACEMENT_STARVATION (09 R186): the skip of a launch is noted, and after 100 µs no later launch places before it. -/
def execPlacementStarvation (die grid : Nat) (s : State) : Host.Outcome State Fault Refusal :=
  .next (match s.grid? grid with
    | none => s
    | some g =>
      if s.canStarve die g then
        s.updShare grid die (fun sh => match sh.skipped with
          | none => { sh with skipped := some s.clock.time }
          | some _ => { sh with starved := true })
      else s)

/-! ### The end of a team -/

/-- A team can be freed (08 R173): its threads have exited, its commands have completed and left the window, its side-log
entries have drained, and its children have completed (10 R212). -/
def State.canFree (s : State) (t : Team) : Bool :=
  !t.freed && t.over && t.window.isEmpty && s.eng.cmds.all (fun c => c.team != some t.id) && !s.sideBusy t.id
  && t.slot.isSome && s.fe.grids.all (fun g => !g.parent.any (fun p => p.team == t.id))

/-- A context without a team on a core leaves its slot, and where that was the active one the lowest slot in use becomes active (log
entry 29). -/
def State.leaveSlot (s : State) (core slot : Nat) : State :=
  if s.wk.teams.any (fun t => t.core == core && t.slot == some slot) then s
  else
    let old := (s.core core).slotCtx slot
    let s := s.updCore core (fun c => { c.setSlot slot none with req := c.req.filter (· != slot) })
    let c := s.core core
    match if c.active = slot then [0, 1, 2].find? (fun k => (c.slotCtx k).isSome) else none with
    | some k => s.activate core k old
    | none => s

/-- The teams of the crew of a team. -/
def State.crewOf (s : State) (t : Team) : List Team := s.wk.teams.filter (fun m => m.grid == t.grid && m.crewId == t.crewId)

/-- A team is freed (08 R173): its barriers advance their generations and its accumulator contents go; the scratchpads of a
crew go with its last member. -/
def State.freeTeam (s : State) (t : Team) : State :=
  let s := (s.barsOf t.core t.id).foldl (fun (s : State) ix => s.barFree t.core ix) s
  let s := s.updTeam t.id (fun t => { t with freed := true, acc := [], warps := [], traps := [], insts := [] })
  let crew := s.crewOf t
  if crew.all Team.freed then
    let s := { s with wk := { s.wk with teams := s.wk.teams.filter (fun m => !(m.grid == t.grid && m.crewId == t.crewId)) } }
    crew.foldl (fun (s : State) m => match m.slot with
      | some k => s.leaveSlot m.core k
      | none => s) s
  else s

/-- TEAM_FREE (08 R173). -/
def execTeamFree (team : Nat) (s : State) : Host.Outcome State Fault Refusal :=
  .next (match s.team? team with
    | none => s
    | some t => if s.canFree t then s.freeTeam t else s)

/-! ### The end of a grid -/

/-- A die's share has drained (30 R478): every unit is placed, and no team of the grid on the die is left. -/
def State.shareDone (s : State) (g : Grid) (sh : Share) : Bool :=
  !sh.reported && !sh.waiting && s.wk.teams.all (fun t => !(t.grid == g.id && dieOf t.core == sh.dom) || t.freed)

/-- DIE_SHARE_REPORT (30 R478). -/
def execDieShareReport (die grid : Nat) (s : State) : Host.Outcome State Fault Refusal :=
  .next (match s.grid? grid with
    | none => s
    | some g =>
      if (g.share? die).any (s.shareDone g) then s.updShare grid die (fun sh => { sh with reported := true }) else s)

/-- Some grid descends from the grid. -/
def State.hasChild (s : State) (grid : Nat) : Bool :=
  s.fe.grids.any (fun h => h.parent.any (fun p => p.grid == grid))

/-- A grid can complete (08 R174, 09 R187, 30 R478). -/
def State.canEndGrid (s : State) (g : Grid) : Bool :=
  g.shares.all Share.reported && !s.hasChild g.id && s.wk.teams.all (fun t => t.grid != g.id)

/-- Contributions of a closed epoch in the order in which they are applied (15 R281). -/
def Contrib.before (c d : Contrib) : Bool :=
  let key (x : Contrib) : Nat × Nat := (x.det.map (fun p => (p.1, p.2.toNat))).getD (0, 0)
  if (key c).1 ≠ (key d).1 then decide ((key c).1 < (key d).1)
  else if (key c).2 ≠ (key d).2 then decide ((key c).2 < (key d).2)
  else if c.index ≠ d.index then decide (c.index < d.index)
  else if c.thread ≠ d.thread then decide (c.thread < d.thread)
  else if c.issue ≠ d.issue then decide (c.issue < d.issue)
  else decide (c.n < d.n)

/-- Inserts a contribution in order. -/
def insertContrib (c : Contrib) : List Contrib → List Contrib
  | [] => [c]
  | d :: ds => if c.before d then c :: d :: ds else d :: insertContrib c ds

/-- The ordered contributions of a grid up to an epoch are applied, in order (15 R281). -/
def State.applyEpochs (s : State) (grid epoch : Nat) : State :=
  let mine (c : Contrib) : Bool := c.grid == grid && c.det.any (fun p => decide (p.1 ≤ epoch))
  let cs := (s.mm.contribs.filter mine).foldl (fun l c => insertContrib c l) []
  cs.foldl (fun (s : State) c => s.applyRed c) { s with mm.contribs := s.mm.contribs.filter (fun c => !mine c) }

/-- A grid's release at scope sys (08 R174): the L1s of its dies write their dirty bytes back, every contribution of it has arrived,
and its last epoch is closed and applied (15 R280). -/
def State.releaseGrid (s : State) (g : Grid) : State :=
  let cores := (maskDoms g.launch.diemask.toNat).flatMap (fun (d : Nat) => (List.range 32).map (fun k => 32 * d + k))
  let s := cores.foldl (fun (s : State) k => s.flushL1 k) s
  let s := s.forceReds (fun c => c.grid == g.id)
  let s := s.emit g.ctx (32 * qDie g.queue) rEpoch g.epoch [g.seq.toNat, g.queue] false none
  s.applyEpochs g.id g.epoch

/-- A grid completes (08 R174): after its release, a child arrives on its parent's barrier (10 R212) and another ends its work
item. -/
def State.endGrid (s : State) (g : Grid) : State :=
  let s := s.releaseGrid g
  let s := { s with fe := { s.fe with grids := s.fe.grids.filter (fun h => h.id != g.id) } }
  match g.parent with
  | some p =>
    (match if g.lost then none else p.handle with
      | some h => (s.engineArrive p.core p.team h 5).releaseBars p.team
      | none => s)
  | none =>
    (match g.batch with
      | some (xq, fire) => s.batchDone xq fire
      | none => s.memberDone g.pkt g.member)

/-- GRID_COMPLETE (08 R174, 30 R478). -/
def execGridComplete (grid : Nat) (s : State) : Host.Outcome State Fault Refusal :=
  .next (match s.grid? grid with
    | none => s
    | some g => if s.canEndGrid g then s.endGrid g else s)

/-- EPOCH_APPLY may take place: the epoch is closed, its contributions have all arrived, and earlier epochs are applied (15
R281). -/
def State.canApplyEpoch (s : State) (g : Grid) (epoch : Nat) : Bool :=
  let dets := s.mm.contribs.filterMap (fun c => if c.grid = g.id then c.det.map (fun p => (p.1, c.st)) else none)
  decide (epoch < g.epoch) && dets.any (fun p => p.1 == epoch) && dets.all (fun p => decide (epoch ≤ p.1))
  && dets.all (fun p => p.1 != epoch || p.2 != .flight)
  && !(s.mm.side.any (fun x => x.red.any (fun c => c.grid == g.id && c.det.any (fun p => decide (p.1 ≤ epoch)))))
  && s.eng.cmds.all (fun c => match c.body with
      | .tile w => c.grid != g.id || !w.scatters epoch || c.state == .performed
      | .copy .. | .put .. | .coord .. | .hlk .. | .token .. | .take .. | .fence _ => true)
  && s.wk.teams.all (fun t => t.grid != g.id || t.window.all (fun w => !w.scatters epoch))

/-- EPOCH_APPLY (15 R281). -/
def execEpochApply (grid epoch : Nat) (s : State) : Host.Outcome State Fault Refusal :=
  .next (match s.grid? grid with
    | none => s
    | some g => if s.canApplyEpoch g epoch then s.applyEpochs grid epoch else s)

end Sys2Proof.Machine
end

