-- ==== Sys2Proof/Machine/Peers.lean ====
section
/-! DEFINITION. Puts between devices as they arrive, are acknowledged and are aborted (31 R496, R498). -/

namespace Sys2Proof.Machine

/-- An offer after an answer to the records `idxs` (28 R453). -/
def Offer.answer (o : Offer) (idxs : List (BitVec 32)) (ans : Offer) : Offer :=
  match o with
  | .sent i => if idxs.contains i then ans else o
  | .none | .wanted | .declined | .resolved => o

/-! ### Puts that arrive -/

/-- A put fits its window (31 R498): the entry is in use, incoming and of the port, and holds every byte. Nothing of a put names a
context, so CTX is not compared. -/
def PeerWin.fits (w : PeerWin) (m : PutMsg) : Bool :=
  let n := w.w0.toNat
  bitAt n 0 && bitAt n 1 && bitsAt n 2 2 == m.port && decide (m.off.toNat + m.data.length ≤ bitsAt w.size.toNat 47 0)

/-- The first byte of a put that cannot be written, with the cause of its fault (31 R498). -/
def State.rxFault (s : State) (w : PeerWin) (m : PutMsg) : Option (BitVec 16 × Nat) :=
  let ctx := bitsAt w.w0.toNat 23 16
  let base := bitsAt w.base.toNat 47 0 + m.off.toNat
  let cnt := bitsAt w.cnt.toNat 47 0
  let check (va n : Nat) : Option (BitVec 16 × Nat) :=
    match s.globalPlace ctx (.ofDie s.pkg.master) va n .write with
    | .error c => some (c, va)
    | .ok _ => none
  (((List.range m.data.length).map (fun k => check (base + k) 1)) ++ [check cnt 8]).findSome? id

/-- The bytes of a put are stored one by one at their home slices. -/
def State.rxWrite (s : State) (ctx va : Nat) : List Byte → State
  | [] => s
  | b :: bs =>
    match s.writeVirt ctx s.pkg.master va 1 [b] with
    | .ok s => s.rxWrite ctx (va + 1) bs
    | .error _ => s.rxWrite ctx (va + 1) bs

/-- The physical addresses that a put covers. -/
def State.rxPas (s : State) (ctx va n : Nat) : List Nat :=
  (List.range n).filterMap (fun k =>
    match s.globalPlace ctx (.ofDie s.pkg.master) (va + k) 1 .write with
    | .ok p => (match p with
      | .mem (.phys pa _) => some pa
      | _ => none)
    | .error _ => none)

/-- An acknowledgment leaves at a port. -/
def State.sendAck (s : State) (port : Nat) (code : BitVec 8) : State := { s with pkg.acks := s.pkg.acks ++ [(port, code)] }

/-- A put is performed, or rejected, or met by a page fault that is offered to system software (31 R498); the answer tells that it
waits, with the address. -/
def State.receive (s : State) (m : PutMsg) : Option (Nat × Offer) × State :=
  let w := s.window m.win
  let ctx := bitsAt w.w0.toNat 23 16
  let base := bitsAt w.base.toNat 47 0 + m.off.toNat
  if !w.fits m then (none, s.sendAck m.port 0x14)
  else
    match s.rxFault w m with
    | some (c, va) =>
      if c = 0x12 then
        let entry := (Config.freeBits 32 s.free).toNat
        let r := s.drew.offerFault ctx (32 * s.pkg.master) va 3 1 entry 0xFF false
        (match r.1 with
          | .declined => (none, r.2.sendAck m.port 0x12)
          | o => (some (va, o), r.2))
      else (none, s.sendAck m.port 0x14)
    | none =>
      let pas := s.rxPas ctx base m.data.length
      let s := (s.rxWrite ctx base m.data).cleanse pas
      match s.addCount m.win s.pkg.master m.data.length with
      | .ok s => (none, s.sendAck m.port 0)
      | .error _ => (none, s.sendAck m.port 0x14)

/-- Two puts that are performed one at a time (31 R498): those of one window and port. -/
def PutMsg.same (m n : PutMsg) : Bool := m.port == n.port && m.win == n.win

/-- The puts that may be performed are, in the order in which they came; one that meets a page fault holds the later ones of its
window and port. -/
def State.runRx (s : State) : List RxPut → List RxPut → State
  | held, [] => { s with pkg.rx := held }
  | held, x :: rest =>
    if held.any (fun h => h.msg.same x.msg) then s.runRx (held ++ [x]) rest
    else
      match x.offer with
      | .none | .resolved =>
        (match s.receive x.msg with
          | (none, s) => s.runRx held rest
          | (some (va, o), s) => s.runRx (held ++ [⟨x.msg, va, o⟩]) rest)
      | .declined => (s.sendAck x.msg.port 0x12).runRx held rest
      | .wanted | .sent _ => s.runRx (held ++ [x]) rest

/-- PUT_RECEIVE (31 R498). -/
def execPutReceive (port win : Nat) (off : BitVec 64) (data : List Byte) (s : State) : Host.Outcome State Fault Refusal :=
  .next (if (s.port port).up then s.runRx [] (s.pkg.rx ++ [⟨⟨port, win, off, data⟩, 0, .none⟩]) else s)

/-- System software answers, or has made room in its fault ring: the puts that wait go on. -/
def State.answerRx (s : State) (ctx : Nat) (idxs : List (BitVec 32)) (ans : Offer) : State :=
  let mine (x : RxPut) : Bool := bitsAt (s.window x.msg.win).w0.toNat 23 16 == ctx
  let xs := s.pkg.rx.map (fun (x : RxPut) => if mine x then { x with offer := x.offer.answer idxs ans } else x)
  s.runRx [] xs
@[inherit_doc State.answerRx]
def State.offerRx (s : State) (ctx : Nat) : State :=
  let mine (x : RxPut) : Bool := bitsAt (s.window x.msg.win).w0.toNat 23 16 == ctx && x.offer == .wanted
  let xs := s.pkg.rx.map (fun (x : RxPut) => if mine x then { x with offer := .none } else x)
  s.runRx [] xs

/-! ### Acknowledgments and ports -/

/-- The oldest unacknowledged put through a window. -/
def State.oldestPut (s : State) (port win : Nat) : Option Cmd :=
  (s.eng.cmds.filter (fun c => c.state == .sent && (match c.body with
    | .put _ _ _ _ w => w == win && s.putPort w == port
    | .copy .. | .coord .. | .hlk .. | .token .. | .take .. | .tile _ | .fence _ => false))).foldl
    (fun (b : Option Cmd) c => match b with
      | none => some c
      | some d => if c.pos < d.pos then some c else some d) none

/-- PUT_ACK (31 R498): TXCNT grows and the put completes, or its rejection is delivered. -/
def execPutAck (port win : Nat) (code : BitVec 8) (s : State) : Host.Outcome State Fault Refusal :=
  .next (match s.oldestPut port win with
    | none => s
    | some c =>
      match c.body with
      | .put _ _ _ len w =>
        if code = 0 then s.ackPut c len w
        else s.deliver c.id 0x40 ⟨6, code.toNat, 0, 1⟩
      | _ => s)

/-- PEER_PORT_DOWN (31 R498): the port's unacknowledged puts are aborted and counted. -/
def execPeerPortDown (port : Nat) (s : State) : Host.Outcome State Fault Refusal :=
  .next (let gone := s.eng.cmds.filter (fun c => c.state == .sent && (match c.body with
      | .put _ _ _ _ w => s.putPort w == port
      | .copy .. | .coord .. | .hlk .. | .token .. | .take .. | .tile _ | .fence _ => false))
    let s := gone.foldl (fun (s : State) c => (s.countAbort port).abortCmd c.id) s
    { s with pkg.ports := Table.upd Port.reset s.pkg.ports port (fun p => { p with up := false }) })

end Sys2Proof.Machine
end

