-- ==== Sys2Proof/Machine/Faults.lean ====
section
/-! DEFINITION. Events of warps and memory: packet fetch (03 R72), the return of loads (13 R229), the arrival of reductions (13
R235), the ageing of the rewrite window (19 R329), RW_TABLE (19 R341, R342), trap entry (26 R409, R418) and the answers of
system software to page faults (26 R414 to R417, 28 R453). -/

namespace Sys2Proof.Machine

/-! ### Fetches, loads, reductions, windows -/

/-- The warp may fetch: its context is active, nothing stops it, and its next packet is not latched (09 R193). -/
def State.canFetch (s : State) (team warp : Nat) : Bool :=
  match s.team? team with
  | none => false
  | some t =>
    match t.warp? warp with
    | none => false
    | some w => s.turn.isNone && t.slot == some (s.core t.core).active && s.fetchDue t w

/-- PACKET_FETCH (03 R72, 07 R146, R148). -/
def execPacketFetch (team warp : Nat) (s : State) : Host.Outcome State Fault Refusal :=
  .next (if s.canFetch team warp then s.fetch team warp else s)

/-- The words that a load returns, by their targets. -/
def wordsOfLoad (l : PendLoad) (bs : List Byte) (t : Target) (old : Word) : Word :=
  (((dst l.dst (typeRegs l.ty) (loadValue l.ty bs)).find? (fun p => p.1 == t)).map Prod.snd).getD old

/-- One access returns to a thread and writes its results (13 R229, 03 R66). A load in flight returns to every lane that receives it,
with the value found when it issued or with one that it finds now (14 R257); its sector has arrived. -/
def State.returnLoad (s : State) (team thread id : Nat) : State :=
  match s.mm.loads.find? (fun l => l.id == id && l.team == team && l.rcv.contains thread) with
  | none => s.updThread team thread (fun th => th.landLoad id (fun _ v => v))
  | some l =>
    let bs := s.plainRun l.core l.team l.thread l.pa (accBytes l.ty)
    let f : Target → Word → Word := if Config.freeBool s.free then wordsOfLoad l bs else fun _ v => v
    let s := { s with mm.loads := s.mm.loads.filter (fun x => x.id != id) }
    let s := s.updTeam team (fun t => t.updThreads l.rcv (fun th => th.landLoad id f))
    (s.fillWhere l.core (fun x => x.ids.contains id)).drew.drew

/-- Which of the accesses that a thread waits for returns first is left open (13 R229). -/
def State.nextReturn (s : State) (th : Thread) : Option Nat :=
  match dedup th.loadsDue with
  | [] => none
  | [id] => some id
  | ids => ids[Config.pick s.free % ids.length]?

/-- MEMORY_ACCESS_RETURN (13 R229, 03 R66): an access that a thread waits for returns and writes its results. -/
def execMemoryAccessReturn (team thread : Nat) (s : State) : Host.Outcome State Fault Refusal :=
  .next (match (s.thread? team thread).bind s.nextReturn with
    | some id => s.returnLoad team thread id
    | none => s)

/-- RED_ARRIVAL (13 R235, 15 R278). -/
def execRedArrival (n : Nat) (s : State) : Host.Outcome State Fault Refusal :=
  .next (match s.mm.contribs.find? (fun c => c.n == n) with
    | none => s
    | some c =>
      let way := s.routeHome (dieOf c.core) c.addr
      if s.canArrive c && way.all (fun k => !(s.link k).asleep) then (s.arriveRed n).noteFlits way else s)

/-- Some command of a team's window has reached age 32 cycles, and no listed replay hit holds it (19 R329, 27 R449). -/
def State.windowAged (s : State) (t : Team) : Bool :=
  t.window.any (fun w => !w.due && decide (w.entry + 32 ≤ s.clock.clk) && !s.replayWaits t w)

/-- WINDOW_AGE_EXPIRY (19 R329). -/
def execWindowAgeExpiry (team : Nat) (s : State) : Host.Outcome State Fault Refusal :=
  .next (match s.team? team with
    | none => s
    | some t => if s.windowAged t then s.ageWindow team else s)

/-- A write of RW_TABLE (19 R341, R342): the windows of the context on the die are flushed, and the table is loaded. -/
def State.writeRwTable (s : State) (ctx die : Nat) (v : BitVec 64) : State :=
  let s := (s.wk.teams.filter (fun t => t.ctx == ctx && dieOf t.core == die)).foldl
    (fun (s : State) t => s.flushWindow t.id) s
  let base := 32 * bitsAt v.toNat 47 5
  let n := bitsAt v.toNat 54 48
  let keep := base + n * 2 ^ 48
  let set (s : State) (err bad : Nat) (rules : Table (BitVec 256)) : State :=
    s.updCtx ctx die (fun r => { r with rwTable := BitVec.ofNat 64 (keep + err * 2 ^ 55 + bad * 2 ^ 56), rules := rules })
  if 64 < n then set s 1 0xFF []
  else
    match s.snapshot ctx die 32 base n with
    | .error _ => set s 1 0xFF []
    | .ok (bs, s) =>
      let rules := (List.range n).map (fun k => (k, BitVec.ofNat 256 (ofBytes ((bs.drop (32 * k)).take 32))))
      let bad := ((rules.find? (fun p => !ruleValid p.2)).map Prod.fst).getD 0xFF
      set s 0 bad (rules.filter (fun p => p.2 != 0))

/-- RW_TABLE_WRITE (19 R342). -/
def execRwTableWrite (ctx die : Nat) (v : BitVec 64) (s : State) : Host.Outcome State Fault Refusal :=
  .next (s.writeRwTable ctx die v)

/-! ### Traps -/

/-- TRAP_ENTRY (26 R409): a warp that has raised a trap enters it once a frame is free and its offered faults are answered. -/
def execTrapEntry (team warp : Nat) (s : State) : Host.Outcome State Fault Refusal :=
  .next (if s.turn.isNone then s.enterTrap team warp else s)

/-- Where a thread that takes an asynchronous trap stands: at its next packet, or at the `bwait` that it leaves (26 R418). -/
def Thread.asyncAt (th : Thread) : Option (VAddr × Nat) :=
  match th.wait with
  | .run => some (th.pc, th.slot)
  | .bwait _ _ pc slot => some (pc, slot)
  | .join _ | .rgp _ _ | .tret | .parked _ => none

/-- The warp may take an asynchronous trap of a thread now: it is at an issue opportunity, or waits in `bwait`, outside trap mode, with
no trap of its own to take first (26 R413, R418). -/
def State.canTakeAsync (s : State) (t : Team) (w : Warp) (th : Thread) : Bool :=
  s.turn.isNone && w.trap.isNone && w.want.isEmpty && w.redo.isEmpty && w.fence.isNone && !w.mid && th.asyncAt.isSome
  && t.slot == some (s.core t.core).active && (t.live w).all (fun p => p.2.faults.isEmpty)
  && (match s.stall t w with
    | 0 | 4 => true
    | 3 => s.fetchDue t w || waitsBar w (t.lanesOf w)
    | _ => false)

/-- The oldest asynchronous trap of a thread is taken (26 R418). -/
def State.takeAsync (s : State) (team thread : Nat) : State :=
  match s.team? team with
  | none => s
  | some t =>
    match t.thread? thread with
    | none => s
    | some th =>
      match th.asyncs with
      | [] => s
      | a :: rest =>
        let drop (s : State) : State := s.updThread team thread (fun th => { th with asyncs := rest })
        if !th.alive then (drop s).endTeam team t.index
        else
          match t.warpOf? thread, th.asyncAt with
          | some w, some (pc, slot) =>
            if s.canTakeAsync t w th then
              let s := (drop s).updThread team thread (fun th => { th with wait := .run, pc := pc, slot := slot })
              s.raiseTrap team w.id ⟨3, a.cause, a.sub, a.detail, pc, slot, slot, some [thread], [], some a.cmd, .none, false⟩
            else s
          | _, _ => s

/-- ASYNC_TRAP_TAKE (26 R418). -/
def execAsyncTrapTake (team thread : Nat) (s : State) : Host.Outcome State Fault Refusal := .next (s.takeAsync team thread)

/-! ### Answers to page faults -/

/-- A warp's page faults are answered, and those of its fetch. -/
def Team.answer (t : Team) (idxs : List (BitVec 32)) (ans : Offer) : Team :=
  { t with
    threads := t.threads.map (fun (th : Thread) =>
      { th with faults := th.faults.map (fun (f : LaneFault) => { f with offer := f.offer.answer idxs ans }) })
    warps := t.warps.map (fun (w : Warp) =>
      { w with want := w.want.map (fun (r : TrapReq) => { r with offer := r.offer.answer idxs ans }) }) }

/-- One side-log entry whose page has been mapped is performed (26 R416): a further page fault is offered anew, and any other
fault ends the team. One in a save area is performed once it has entered the side log again (R425). -/
def State.performSide (s : State) (x : SideEntry) : State :=
  if x.stored then { s with mm.side := s.mm.side.map (fun (y : SideEntry) => if y.n = x.n then { y with offer := .resolved } else y) }
  else
  let drop (s : State) : State := { s with mm.side := s.mm.side.filter (fun y => y.n != x.n) }
  let va := x.va.toNat
  match s.team? x.team with
  | none => drop s
  | some t =>
    match s.globalPlace x.ctx (.vector x.core) va x.data.length (if x.red.isSome then .red else .write) with
    | .error c =>
      if c = 0x12 then
        let r := s.drew.offerFault x.ctx x.core va 2 (if x.red.isSome then 2 else 1) (Config.freeBits 32 s.free).toNat 0xFF false
        match r.1 with
        | .declined => (drop r.2).endTeam x.team va
        | o => { r.2 with mm.side := r.2.mm.side.map (fun (y : SideEntry) => if y.n = x.n then { y with offer := o } else y) }
      else (drop s).endTeam x.team va
    | .ok (.mem (.phys pa m)) =>
      (match x.red with
        | none =>
          (((drop s).noteTlb (.vector x.core) x.ctx va).drew.storeMem ⟨x.core, x.team, x.thread, x.scope.toNat, 0, 0, x.n⟩ va pa m
            x.data).watchSide t x
        | some c =>
          if s.pkg.lostHome pa then (drop s).endTeam x.team va
          else (((drop s).noteTlb (.vector x.core) x.ctx va).drew.sendRed m { c with addr := pa }).watchSide t x)
    | .ok _ => (drop s).endTeam x.team va

/-- The side-log entries of answered records: performed in the order they were taken, or dropped with their team (26 R416). -/
def State.answerSide (s : State) (ctx die : Nat) (idxs : List (BitVec 32)) (ans : Offer) : State :=
  (s.mm.side.filter (fun x => x.ctx == ctx && x.die == die && x.offer.answer idxs ans != x.offer)).foldl (fun (s : State) x =>
    if ans = .resolved then s.performSide x
    else State.endTeam { s with mm.side := s.mm.side.filter (fun y => y.n != x.n) } x.team x.va.toNat) s

/-- The oldest side-log entry of a core that waits in a save area although its context has been restored (26 R425). -/
def State.sideDue (s : State) (core : Nat) : Option SideEntry :=
  if s.sideFree core = 0 then none
  else s.mm.side.find? (fun x => x.core == core && x.stored && (s.team? x.team).any (fun t => t.slot.isSome))

/-- It enters the core's side log again, as an entry is free. -/
def State.reenterSide (s : State) (core : Nat) : State :=
  match s.sideDue core with
  | none => s
  | some x =>
    let s := { s with mm.side := s.mm.side.map (fun (y : SideEntry) => if y.n = x.n then { y with stored := false } else y) }
    if x.offer = .resolved then s.performSide { x with stored := false } else s

/-- A held command's page fault is answered (26 R417): it starts again at its boundary, or its fault is delivered. -/
def State.answerHeld (s : State) (idxs : List (BitVec 32)) (ans : Offer) (c : Cmd) : State :=
  match c.state with
  | .held 0x12 access va o =>
    if o.answer idxs ans = o then s
    else if ans = .resolved then s.updCmd c.id (fun c => { c with state := .ready })
    else s.deliver c.id 0x40 ⟨6, 0x12, va.toNat, access.toNat⟩
  | _ => s

/-- The commands of answered records. -/
def State.answerCmds (s : State) (ctx die : Nat) (idxs : List (BitVec 32)) (ans : Offer) : State :=
  (s.eng.cmds.filter (fun c => c.ctx == ctx && c.die == die)).foldl (fun (s : State) c => s.answerHeld idxs ans c) s

/-- The warps of a context on a die go on with whatever has been answered. -/
def State.goOn (s : State) (ctx die : Nat) : State :=
  (s.wk.teams.filter (fun t => t.ctx == ctx && dieOf t.core == die)).foldl (fun (s : State) t =>
    t.warps.foldl (fun (s : State) w => s.takeFaults t.id w.id) s) s

/-- A response of system software (28 R453): it applies to every pending record of the page of the record it names. -/
def State.faultResponse (s : State) (ctx die : Nat) (rec : BitVec 32) (decline : Bool) : State :=
  let fs := (s.ctx ctx die).faults
  match fs.find? (fun f => f.idx == rec) with
  | none => s
  | some f =>
    let idxs := (fs.filter (fun g => g.page == f.page)).map FaultRec.idx
    let ans : Offer := if decline then .declined else .resolved
    let s := s.updCtx ctx die (fun r => { r with faults := r.faults.filter (fun g => g.page != f.page) })
    let s := { s with wk.teams := s.wk.teams.map (fun (t : Team) =>
      if t.ctx = ctx ∧ dieOf t.core = die then t.answer idxs ans else t) }
    let s := ((s.answerSide ctx die idxs ans).answerCmds ctx die idxs ans).goOn ctx die
    if die = s.pkg.master then s.answerRx ctx idxs ans else s

/-- FAULT_RESOLVE (26 R414, R416, R417; 28 R453). -/
def execFaultResolve (ctx die : Nat) (rec : BitVec 32) (s : State) : Host.Outcome State Fault Refusal :=
  .next (s.faultResponse ctx die rec false)

/-- FAULT_DECLINE (26 R414, R416, R417; 28 R453). -/
def execFaultDecline (ctx die : Nat) (rec : BitVec 32) (s : State) : Host.Outcome State Fault Refusal :=
  .next (s.faultResponse ctx die rec true)

/-! ### Faults that wait for room in the ring -/

/-- A fetch fault that waits is offered. -/
def State.offerWant (s : State) (t : Team) (w : Warp) : State :=
  match w.want with
  | r :: _ =>
    if r.offer = .wanted then
      let o := s.offerFetch t r.pc
      o.2.updTeam t.id (fun t => t.updWarp w.id (fun w => { w with want := match w.want with
        | r :: more => { r with offer := o.1 } :: more
        | [] => [] }))
    else s
  | [] => s

/-- A side-log entry that waits is offered; a declined one ends its team. -/
def State.offerSide (s : State) (x : SideEntry) : State :=
  let r := s.drew.offerFault x.ctx x.core x.va.toNat 2 (if x.red.isSome then 2 else 1) (Config.freeBits 32 s.free).toNat 0xFF false
  match r.1 with
  | .declined => State.endTeam { r.2 with mm.side := r.2.mm.side.filter (fun y => y.n != x.n) } x.team x.va.toNat
  | o => { r.2 with mm.side := r.2.mm.side.map (fun (y : SideEntry) => if y.n = x.n then { y with offer := o } else y) }

/-- The sources that wait for room in a fault ring write their records (28 R453). -/
def State.offerWaiting (s : State) (ctx die : Nat) : State :=
  let s := (s.wk.teams.filter (fun t => t.ctx == ctx && dieOf t.core == die)).foldl (fun (s : State) t =>
    t.warps.foldl (fun (s : State) w => s.offerWant t w) s) s
  let s := (s.mm.side.filter (fun x => x.ctx == ctx && x.die == die && x.offer == .wanted)).foldl
    (fun (s : State) x => s.offerSide x) s
  let s := (s.eng.cmds.filter (fun c => c.ctx == ctx && c.die == die)).foldl (fun (s : State) c => s.offerCmd c.id) s
  let s := if die = s.pkg.master then s.offerRx ctx else s
  s.goOn ctx die

end Sys2Proof.Machine
end

