-- ==== Sys2Proof/Machine/Contexts.lean ====
section
/-! DEFINITION. Context slots: requests and triggers of a switch, the switch, eviction and restore (26 R420 to R426, 28
R452). -/

namespace Sys2Proof.Machine

/-- A write of SWITCH_REQ (28 R452): a slot that is active already, or that holds no context, is not requested. -/
def State.requestSwitch (s : State) (core : Nat) (v : BitVec 64) : State :=
  let k := bitsAt v.toNat 1 0
  let c := s.core core
  if k = c.active ∨ (c.slotCtx k).isNone then s else s.updCore core (fun c => { c with req := some k })

/-- SWITCH_REQ (28 R452, 26 R423). -/
def execSwitchReq (core : Nat) (v : BitVec 64) (s : State) : Host.Outcome State Fault Refusal := .next (s.requestSwitch core v)

/-- The teams in a slot of a core that have threads. -/
def State.slotTeams (s : State) (core slot : Nat) : List Team :=
  s.wk.teams.filter (fun t => t.core == core && t.slot == some slot && !t.over)

/-- PRIO of a team's launch, from 1; 0 for none. -/
def State.prioOf (s : State) (t : Team) : Nat := ((s.launchOf t).map (fun l => l.prio + 1)).getD 0

/-- The highest PRIO among some teams, from 1. -/
def State.topPrio (s : State) (ts : List Team) : Nat := (ts.map s.prioOf).foldl max 0

/-- A warp could issue, or fetch its next packet, if its context were active (09 R193). -/
def State.ready (s : State) (t : Team) (w : Warp) : Bool := s.stall t w == 0 || s.fetchDue t w

/-- The slots after the active one, wrapping. -/
def CoreReg.others (c : CoreReg) : List Nat := [(c.active + 1) % 3, (c.active + 2) % 3]

/-- The slot that a time slice's end gives the core to: another resident context with ready warps at the highest PRIO (26
R423, 28 R452). -/
def State.sliceTarget (s : State) (core : Nat) : Option Nat :=
  let c := s.core core
  match c.slotCtx c.active with
  | none => none
  | some ctx =>
    let slice := bitsAt (s.ctx ctx (dieOf core)).sched.toNat 19 0
    let top := s.topPrio ([0, 1, 2].flatMap (s.slotTeams core))
    if slice = 0 ∨ s.clock.time - c.since < 1000 * slice then none
    else c.others.find? (fun k => (s.slotTeams core k).any (fun t => s.prioOf t == top && t.warps.any (s.ready t)))

/-- TIME_SLICE_EXPIRY (26 R423). -/
def execTimeSliceExpiry (core : Nat) (s : State) : Host.Outcome State Fault Refusal :=
  .next (match s.sliceTarget core with
    | some k => s.updCore core (fun c => { c with req := some k })
    | none => s)

/-- The highest PRIO, from 1, among the teams in a slot of a core and the launches of its context that wait for placement on the die
(09 R186, 26 R423). -/
def State.slotPrio (s : State) (core slot : Nat) : Nat :=
  let waiting := (s.fe.grids.filter (fun g => (s.core core).slotCtx slot == some g.ctx && (g.share? (dieOf core)).any Share.waiting)).map
    (fun g => g.launch.prio + 1)
  waiting.foldl max (s.topPrio (s.slotTeams core slot))

/-- The slot that a placement of a higher PRIO waits for (26 R423). -/
def State.prioTarget (s : State) (core : Nat) : Option Nat :=
  let c := s.core core
  c.others.find? (fun k => decide (s.slotPrio core c.active < s.slotPrio core k)
    && c.others.all (fun j => decide (s.slotPrio core j ≤ s.slotPrio core k)))

/-- The switch that a trigger asks for, where none is asked for yet (26 R423). -/
def State.trigger (s : State) (core : Nat) : State :=
  match (s.core core).req, (s.prioTarget core).or (s.sliceTarget core) with
  | none, some k => s.updCore core (fun c => { c with req := some k })
  | some _, _ | none, none => s

/-- In hold mode a core makes no further switch while a SWITCH record of it waits (27 R431). -/
def State.switchHeld (s : State) (core : Nat) : Bool :=
  s.ctxs.any (fun e => e.1 % 4 == dieOf core && bitsAt e.2.traceCtl.toNat 2 1 == 2
    && e.2.recs.any (fun x => x.bits.toNat % 256 == 0x10 && bitsAt x.bits.toNat 16 12 == coreNo core / 4 + core % 4 * 8))

/-- The slot that a core switches to now, where one is asked for and every split group of the active context has completed
(26 R422, R423). A frozen warp is at a boundary already (27 R439). -/
def State.switchTarget (s : State) (core : Nat) : Option Nat :=
  let c := s.core core
  if s.turn.isSome ∨ s.switchHeld core ∨ (s.slotTeams core c.active).any (fun t => t.warps.any (fun w => w.mid && !t.frozen w))
  then none
  else c.req.filter (fun k => (c.slotCtx k).isSome && k != c.active)

/-- The head tile command of a team pauses at its boundary (18 R326, R327; 26 R422). -/
def State.pauseTile (s : State) (t : Team) : State :=
  match s.tileHead t.id with
  | some c =>
    if c.begun ∧ c.state = .ready then
      (s.cmdRecord c rCmdHold (c.pos % 2 ^ 26 + 2 ^ 26)).updCmd c.id (fun c => { c with state := .paused })
    else s
  | none => s

/-- What a context leaves: its windows are flushed and its tile heads pause. Its fixed-latency results keep their distances, since its
outcomes are those of a run without pre-emption (26 R422, R426). -/
def State.drainTeam (s : State) (t : Team) : State := (s.flushWindow t.id).pauseTile t

/-- A resident slot is made active (26 R422). -/
def State.switchTo (s : State) (core k : Nat) : State :=
  let c := s.core core
  let old := c.active
  let s := (s.wk.teams.filter (fun t => t.core == core && t.slot == some old)).foldl (fun (s : State) t => s.drainTeam t) s
  s.activate core k (some ((c.slotCtx old).getD 0))

/-- CONTEXT_SWITCH (26 R422). -/
def execContextSwitch (core : Nat) (s : State) : Host.Outcome State Fault Refusal :=
  .next (match s.switchTarget core with
    | some k => s.switchTo core k
    | none => s)

/-! ### Eviction and restore -/

/-- A context waits for a slot of a core: one evicted from it, or a launch of one that has no slot there (26 R424). -/
def State.slotWanted (s : State) (core : Nat) : Bool :=
  let c := s.core core
  s.wk.teams.any (fun t => t.core == core && t.slot.isNone)
  || s.fe.grids.any (fun g => (g.share? (dieOf core)).any Share.waiting && (c.slotOf g.ctx).isNone)

/-- A command that is within its performance, and not at a boundary, accesses the scratchpads of a slot of a core (26 R424). -/
def State.usesSlot (s : State) (core slot : Nat) (c : Cmd) : Bool :=
  let there (t : Team) : Bool := t.core == core && t.slot == some slot
  (match c.body with
    | .copy .. => c.begun && c.state == .ready && c.pos != 0
    | .put .. | .coord .. | .hlk .. | .token .. | .take .. | .tile _ | .fence _ => false)
  && (s.cmdTeam c).any (fun t => (c.body.spaces).any (fun p => (p.1 == 1 && there t) || (p.1 == 2 && (s.crewMember t p.2).any there)))

/-- A slot can be evicted (26 R424): it is not active, every slot is taken, another context waits for one, and no command is within
an access of its scratchpads. -/
def State.canEvict (s : State) (core slot : Nat) : Bool :=
  let c := s.core core
  s.eng.cmds.all (fun d => !s.usesSlot core slot d) &&
  slot != c.active && c.req != some slot && decide (slot < 3) && [0, 1, 2].all (fun k => (c.slotCtx k).isSome) && s.slotWanted core && s.turn.isNone

/-- CONTEXT_EVICT (26 R424, R425): loads return, tile heads pause, side-log entries go to the save area, and the slot is free. -/
def execContextEvict (core slot : Nat) (s : State) : Host.Outcome State Fault Refusal :=
  .next (if s.canEvict core slot then
      let ts := s.wk.teams.filter (fun t => t.core == core && t.slot == some slot)
      let s := ts.foldl (fun (s : State) t => (s.landThreads t.id (t.threads.map Thread.ltid)).pauseTile t) s
      let s := { s with mm.side := s.mm.side.map (fun (x : SideEntry) =>
        if ts.any (fun t => t.id == x.team) then { x with stored := true } else x) }
      let s := { s with wk.teams := s.wk.teams.map (fun (t : Team) =>
        if t.core = core ∧ t.slot = some slot then { t with slot := none } else t) }
      s.updCore core (fun c => c.setSlot slot none)
    else s)

/-- The slot into which an evicted context can be restored: the lowest free one whose partition takes its teams (26 R421,
R425). -/
def State.restoreSlot (s : State) (core ctx : Nat) : Option Nat :=
  let c := s.core core
  let ts := s.wk.teams.filter (fun t => t.core == core && t.ctx == ctx && t.slot.isNone)
  let need := (ts.map s.spadCharge).foldl (· + ·) 0
  if ts.isEmpty then none
  else [0, 1, 2].find? (fun k => (c.slotCtx k).isNone && decide (2 ≤ c.partUnits k) && decide (need ≤ 16384 * (c.partUnits k - 1)))

/-- CONTEXT_RESTORE (26 R425). -/
def execContextRestore (core ctx : Nat) (s : State) : Host.Outcome State Fault Refusal :=
  .next (match s.restoreSlot core ctx with
    | none => s
    | some k =>
      let s := { s with wk.teams := s.wk.teams.map (fun (t : Team) =>
        if t.core = core ∧ t.ctx = ctx ∧ t.slot = none then { t with slot := some k } else t) }
      s.takeSlot core k ctx)

end Sys2Proof.Machine
end

