-- ==== Sys2Proof/Machine/Debug.lean ====
section
/-! DEFINITION. Debug commands as firmware performs them (27 R436 to R449, 31 R493, R494). -/

namespace Sys2Proof.Machine

/-! ### Capabilities and the mailbox -/

/-- The live capability of a token (27 R436). -/
def Dbg.cap? (d : Dbg) (token : Word) : Option Cap := d.caps.find? (fun c => c.token == token && token != 0)

/-- The tokens of a capability and of those delegated from it, to a depth of `n`. -/
def Dbg.under (d : Dbg) : Nat → List Word → List Word
  | 0, ts => ts
  | n + 1, ts =>
    let more := (d.caps.filter (fun c => c.parent.any ts.contains && !ts.contains c.token)).map Cap.token
    if more.isEmpty then ts else Dbg.under d n (ts ++ more)
@[inherit_doc Dbg.under]
def Dbg.family (d : Dbg) (token : Word) : List Word := d.under d.caps.length [token]

/-- A new token (27 R436): nonzero, and never given before; its value is otherwise open. -/
def State.newToken (s : State) : Word × State :=
  let v : Word := Config.freeBits 32 s.free
  let used := s.dbg.tokens
  let v := if v != 0 && !used.contains v then v
    else ((List.range (used.length + 1)).map (fun k => BitVec.ofNat 32 (k + 1))).find? (fun v => !used.contains v) |>.getD v
  (v, { s.drew with dbg.tokens := v :: used })

/-- Firmware creates the root capability of a context (27 R436). -/
def State.rootCap (s : State) (ctx : Nat) : State :=
  let t := s.newToken
  { t.2 with dbg.caps := t.2.dbg.caps ++ [⟨t.1, ctx, ctx, 15, none⟩] }

/-- A command finishes with its STATUS (31 R493). -/
def State.dbgDone (s : State) (status : Nat) : State :=
  let m := s.dbg.mailbox
  { s with dbg.mailbox := { m with status := BitVec.ofNat 8 status, seqDone := m.seq, busy := false } }

/-- Reply words A0 and A1. -/
def State.reply (s : State) (a0 a1 : Nat) : State :=
  { s with dbg.mailbox := { s.dbg.mailbox with a0 := BitVec.ofNat 64 a0, a1 := BitVec.ofNat 64 a1 } }

/-- What performing a command comes to: done, refused, malformed, or not yet finished. -/
inductive DbgEnd where
  | done (s : State)
  | denied
  | malformed
  | wait (s : State)

/-- A mailbox command of a code (27 R436, 31 R493, R494): its rights are checked, then it is performed. -/
def State.command (s : State) (code rights : Nat) (f : Mailbox → Cap → State → DbgEnd) : State :=
  let m := s.dbg.mailbox
  if !m.busy ∨ m.cmd.toNat ≠ code then s
  else
    match s.dbg.cap? m.token with
    | none => s.dbgDone 1
    | some c =>
      if c.rights.toNat &&& rights ≠ rights then s.dbgDone 1
      else
        match f m c s with
        | .done s => s.dbgDone 0
        | .denied => s.dbgDone 1
        | .malformed => s.dbgDone 2
        | .wait s => s

/-! ### Selectors and scopes -/

/-- The team and thread that a TSEL names for a context (31 R494). -/
def State.tsel (s : State) (ctx : Nat) (v : BitVec 64) : Option (Team × Thread) :=
  let n := v.toNat
  if bitsAt n 15 7 ≠ 0 then none
  else
    (s.wk.teams.find? (fun t => t.ctx == ctx && t.core == 32 * bitsAt n 1 0 + bitsAt n 6 2 && t.index == bitsAt n 63 32
        && !t.freed)).bind
      (fun t => ((t.thread? (bitsAt n 31 16)).filter Thread.alive).map (fun th => (t, th)))

/-- The TSEL of a thread. -/
def tselOf (t : Team) (thread : Nat) : Nat := dieOf t.core + coreNo t.core * 4 + thread * 2 ^ 16 + t.index * 2 ^ 32

/-- What a STOP or a RESUME reaches: cores, teams, and threads of teams. -/
structure Scope where
  cores   : List Nat
  teams   : List Nat
  threads : List (Nat × Nat)

/-- The scope of a command, none where it is malformed (31 R494); DEDUCED (log entry 37): a domain that is not live names nothing. -/
def State.scopeOf (s : State) (ctx : Nat) (m : Mailbox) : Option Scope :=
  let a := m.a0.toNat
  let k := bitsAt a 2 0
  let d := bitsAt a 5 4
  if 512 ≤ a ∨ 4 < k ∨ m.a2 ≠ 0 ∨ m.a3 ≠ 0 ∨ (2 ≤ k ∧ m.a1 ≠ 0) ∨ ((k = 2 ∨ k = 3) ∧ !s.pkg.domLive d) then none
  else
    match k with
    | 0 => (s.tsel ctx m.a1).map (fun p =>
        ⟨[], [], (((p.1.warpOf? p.2.ltid).map (fun w => w.lanes.filterMap id)).getD [p.2.ltid]).map (fun n => (p.1.id, n))⟩)
    | 1 => (s.tsel ctx m.a1).map (fun p => ⟨[], [p.1.id], []⟩)
    | 2 => some ⟨(List.range 4).map (fun j => 32 * d + 4 * bitsAt a 8 6 + j), [], []⟩
    | 3 => some ⟨(List.range 32).map (fun j => 32 * d + j), [], []⟩
    | _ => some ⟨List.range 128, [], []⟩

/-- A thread of a team lies in a scope. -/
def Scope.holds (c : Scope) (t : Team) (n : Nat) : Bool :=
  c.cores.contains t.core || c.teams.contains t.id || c.threads.contains (t.id, n)

/-- The warps of a context with some thread in a scope. -/
def State.warpsIn (s : State) (ctx : Nat) (c : Scope) : List (Nat × Nat) :=
  (s.wk.teams.filter (fun t => t.ctx == ctx)).flatMap (fun t =>
    (t.warps.filter (fun w => w.lanes.any (fun o => o.any (c.holds t)))).map (fun w => (t.id, w.id)))

/-! ### STOP and RESUME -/

/-- A stop under a capability is on its way to a warp, or holds it. -/
def Warp.stopsFor (w : Warp) (token : Word) : Bool := w.stop.any (fun h => h.caps.contains token)
@[inherit_doc Warp.stopsFor]
def Team.frozenBy (t : Team) (w : Warp) (token : Word) : Bool := (t.live w).all (fun p => p.2.frozen.contains token)

/-- The request of a STOP arrives at a warp's core, its trigger (27 R439). -/
def State.postStop (s : State) (k : Nat × Nat) (token : Word) : State :=
  s.updTeam k.1 (fun t => t.updWarp k.2 (fun w =>
    if w.stopsFor token || t.frozenBy w token then w else { w with stop := w.stop ++ [⟨0, [token], s.clock.clk, 0, false⟩] }))

/-- The engines of a scope drain under a capability (27 R440). -/
def State.addDrain (s : State) (c : Cap) (sc : Scope) : State :=
  let d : Drain := ⟨c.token, c.target, sc.cores, sc.teams, sc.threads, !sc.cores.isEmpty, [], []⟩
  if s.dbg.drains.contains d then s else { s with dbg.drains := s.dbg.drains ++ [d] }

/-- STOP (27 R438 to R440): it is done once every warp of its scope has frozen. -/
def execStop (s : State) : Host.Outcome State Fault Refusal :=
  .next (s.command 1 1 (fun m c s =>
    match s.scopeOf c.target m with
    | none => .malformed
    | some sc =>
      let ws := s.warpsIn c.target sc
      let s := ws.foldl (fun (s : State) k => s.postStop k c.token) s
      let s := if bitAt m.a0.toNat 3 then s.addDrain c sc else s
      if ws.all (fun k => (s.team? k.1).all (fun t => (t.warp? k.2).all (fun w => t.frozenBy w c.token))) then .done s else .wait s))

/-- The stops of some capabilities no longer hold a warp's threads that satisfy a test; a warp that nothing holds any more
writes a RESUME record, whose source and step result are those of its last STOP record (27 R434, R438). -/
def State.unfreeze (s : State) (k : Nat × Nat) (caps : List Word) (p : Nat → Bool) : State :=
  match s.team? k.1 with
  | none => s
  | some t =>
    match t.warp? k.2 with
    | none => s
    | some w =>
      let ids := (w.lanes.filterMap id).filter p
      let was := t.frozen w
      let s := s.updTeam k.1 (fun t => t.updThreads ids (fun th =>
        { th with frozen := th.frozen.filter (fun x => !caps.contains x) }))
      match s.team? k.1 with
      | none => s
      | some t' => if was && !t'.frozen w then s.stopRecord t' w rResume (((t'.live w).head?).elim 0 (fun p => p.2.halt)) 0 else s

/-- A DRAIN stop without what lies in a scope (27 R440); what a narrower scope lets go on is listed. -/
def Drain.outside (d : Drain) (s : State) (sc : Scope) : Drain :=
  let core (t : Nat) : Bool := (s.team? t).any (fun m => sc.cores.contains m.core)
  { d with
    cores := d.cores.filter (fun k => !sc.cores.contains k)
    teams := d.teams.filter (fun t => !sc.teams.contains t && !core t)
    threads := d.threads.filter (fun p => !sc.threads.contains p && !sc.teams.contains p.1 && !core p.1)
    freeTeams := dedup (d.freeTeams ++ sc.teams)
    freeThreads := dedup (d.freeThreads ++ sc.threads) }

/-- The stops of some capabilities, on their way to the warps of a team with threads that satisfy a test, are lifted (27 R437, R438). -/
def Team.unstop (t : Team) (caps : List Word) (p : Nat → Bool) : Team :=
  let lift (hs : List Halt) : List Halt :=
    (hs.map (fun h => { h with caps := h.caps.filter (fun c => !caps.contains c) })).filter (fun h => !h.caps.isEmpty)
  { t with warps := t.warps.map (fun (w : Warp) =>
      if w.lanes.any (fun o => o.any p) then { w with stop := lift w.stop } else w) }

/-- RESUME (27 R438, R440): it lifts, within its scope, the stops made under its capability or one delegated from it. -/
def execResume (s : State) : Host.Outcome State Fault Refusal :=
  .next (s.command 2 1 (fun m c s =>
    match s.scopeOf c.target m with
    | none => .malformed
    | some sc =>
      let fam := s.dbg.family c.token
      let s := (s.warpsIn c.target sc).foldl (fun (s : State) k =>
        match s.team? k.1 with
        | none => s
        | some t => (s.updTeam k.1 (fun t => t.unstop fam (sc.holds t))).unfreeze k fam (sc.holds t)) s
      let ds := s.dbg.drains.map (fun (d : Drain) => if fam.contains d.token ∧ d.ctx = c.target then d.outside s sc else d)
      .done { s with dbg.drains := ds.filter (fun d => !(d.cores.isEmpty && d.teams.isEmpty && d.threads.isEmpty)) }))

/-! ### STEP -/

/-- The trap that a thread is in: its warp's, or the one it waits for. -/
def Team.trapOf (t : Team) (n : Nat) : Option Nat :=
  match (t.thread? n).map Thread.wait with
  | some (.parked r) => some r
  | _ => (t.warpOf? n).bind Warp.trap

/-- Tile commands with some of the numbers that are still in a team's window. -/
def Team.windowed (t : Team) (seqs : List Nat) : Bool :=
  t.window.any (fun w => seqs.contains w.cmd.seq || w.orig.any (fun c => seqs.contains c.seq))

/-- The commands that a step has created and that have not completed. -/
def State.stepCmds (s : State) (p : Stepping) : List Cmd :=
  s.eng.cmds.filter (fun c => p.made.contains c.id || (c.team == some p.team && (match c.body with
    | .tile w => p.tseqs.contains w.cmd.seq || w.orig.any (fun x => p.tseqs.contains x.seq)
    | .copy .. | .put .. | .coord .. | .hlk .. | .token .. | .take .. | .fence _ => false)))

/-- The live threads of the stepped warp. -/
def Team.steppedBy (t : Team) (p : Stepping) : List Thread := t.threads.filter (fun th => p.ids.contains th.ltid && th.alive)

/-- Some of the threads wait for a barrier phase; for a region, a regroup point or a return. -/
def waitingBar (ths : List Thread) : Bool := ths.any (fun th => match th.wait with
  | .bwait .. => true
  | .run | .join _ | .rgp .. | .tret | .parked _ => false)
@[inherit_doc waitingBar]
def waitingJoin (ths : List Thread) : Bool := ths.any (fun th => match th.wait with
  | .join _ | .rgp .. | .tret => true
  | .run | .bwait .. | .parked _ => false)

/-- A scoreboarded result of the thread has still to be written. -/
def Thread.owesAny (th : Thread) : Bool := th.pend.any (fun d => match d.src with
  | .fixed _ => false
  | .mem _ | .cmd _ => true)

/-- The result of a step whose part waits for no thread (27 R445, R446): HELD before any wait for results, since a held command may
owe them. -/
def State.stepDone (s : State) (t : Team) (p : Stepping) (ths : List Thread) : Option Nat :=
  let cmds := s.stepCmds p
  let held := cmds.any (fun c => match c.state with
    | .held .. => true
    | .ready | .paused | .sent | .performed => false)
  let whole : Bool := p.whole && (!p.made.isEmpty || !p.tseqs.isEmpty)
  if whole && held then some 7
  else if ths.any Thread.owesAny then none
  else if whole then (if cmds.isEmpty && !t.windowed p.tseqs then some 6 else none)
  else if p.tseqs.isEmpty then some 0
  else if t.windowed p.tseqs then none
  else if p.tseqs.any p.took.contains then some 4 else some 5

/-- The result of a step once it has ended (27 R443 to R446), by the threads that the stepped warp had. DEDUCED (log entry 36): a warp
that waits already issues nothing, and its step ends as blocked. -/
def State.stepResult (s : State) (p : Stepping) : Option Nat :=
  match s.team? p.team with
  | none => some 0
  | some t =>
    let ths := t.steppedBy p
    let asks := t.warps.any (fun w => w.lanes.any (fun o => o.any p.ids.contains)
      && (!w.want.isEmpty || !w.redo.isEmpty || (t.live w).any (fun l => !l.2.faults.isEmpty)))
    if p.ids.any (fun n => (t.trapOf n).any (fun r => decide (p.nextT0 ≤ r))) then some 3
    else if !p.issued && ths.any (fun th => th.wait == .run) then none
    else if asks then none
    else if waitingBar ths then some 1
    else if waitingJoin ths then some 2
    else s.stepDone t p ths

/-- A step ends (27 R443): every warp that its part left, or has formed, is frozen, with its STOP record, and the reply is
made (31 R494). -/
def State.endStep (s : State) (p : Stepping) (result : Nat) : State :=
  let s := match s.team? p.team with
    | none => s
    | some t =>
      let ws := t.warps.filter (fun w => t.frozen w && (w.lanes.contains (some p.thread) || w.id == p.warp0
        || decide (p.nextW0 ≤ w.id)))
      ws.foldl (fun (s : State) w => s.stopRecord t w rStop (3 + result * 2 ^ 4) 0) s
  let low := match s.team? p.team with
    | none => 0
    | some t =>
      let ids := ((t.warpOf? p.thread).map (fun w => (t.live w).map (fun l => l.2.ltid))).getD [p.thread]
      tselOf t (ids.foldl min (ids.headD p.thread))
  let m := s.dbg.mailbox
  { s with dbg := { s.dbg with
      stepping := none
      mailbox := { m with a0 := BitVec.ofNat 64 result, a1 := BitVec.ofNat 64 low,
                          a2 := match p.tseqs with
                            | [] => BitVec.allOnes 64
                            | n :: _ => BitVec.ofNat 64 n } } }

/-- STEP (27 R443 to R446): the frozen warp issues one part; the command ends once the step has. -/
def execStep (s : State) : Host.Outcome State Fault Refusal :=
  .next (s.command 3 1 (fun m c s =>
    match s.dbg.stepping with
    | some p =>
      (match s.stepResult p with
        | some r => .done (s.endStep p r)
        | none => .wait s)
    | none =>
      if 2 ≤ m.a0.toNat ∨ m.a2 ≠ 0 ∨ m.a3 ≠ 0 then .malformed
      else
        match s.tsel c.target m.a1 with
        | none => .malformed
        | some (t, th) =>
          if !(t.warpOf? th.ltid).any t.frozen then .malformed
          else
            let ids := ((t.warpOf? th.ltid).map (fun w => w.lanes.filterMap id)).getD []
            let s := s.updTeam t.id (fun t => t.updThreads ids (fun th => { th with frozen := dedup (th.frozen ++ [c.token]) }))
            let p : Stepping := ⟨c.token, t.id, th.ltid, bitAt m.a0.toNat 0, ((t.warpOf? th.ltid).map Warp.id).getD 0, t.nextW, t.nextT,
              [], [], [], false, ids⟩
            .wait { s with dbg.stepping := some p }))

/-! ### Watchpoints and breakpoints -/

/-- The number of a watchpoint in the package. -/
def watchKey (a : Nat) : Nat := 8 * (8 * bitsAt a 4 3 + bitsAt a 7 5) + bitsAt a 2 0

/-- A watchpoint is enabled for another context than the target (31 R494). -/
def State.watchTaken (s : State) (key target : Nat) : Bool :=
  match Table.look s.dbg.watches key with
  | some w => bitAt w.lo.toNat 60 && bitsAt w.hi.toNat 7 0 != target
  | none => false

/-- SET_WATCH (27 R441, 31 R494). -/
def execSetWatch (s : State) : Host.Outcome State Fault Refusal :=
  .next (s.command 4 1 (fun m c s =>
    let a := m.a0.toNat
    let lo := m.a1.toNat
    let lg := bitsAt lo 56 53
    if 256 ≤ a ∨ !s.pkg.domLive (bitsAt a 4 3) ∨ 2 ^ 62 ≤ lo ∨ 256 ≤ m.a2.toNat ∨ m.a3 ≠ 0 ∨ 12 < lg ∨ bitsAt lo 47 0 % 2 ^ lg ≠ 0 ∨ 2 ≤ bitsAt lo 50 48 then .malformed
    else if s.watchTaken (watchKey a) c.target ∨ m.a2.toNat ≠ c.target then .denied
    else .done { s with dbg.watches := Table.put s.dbg.watches (watchKey a) ⟨m.a1, m.a2, c.token⟩ }))

/-- CLR_WATCH (31 R494). -/
def execClrWatch (s : State) : Host.Outcome State Fault Refusal :=
  .next (s.command 5 1 (fun m c s =>
    let a := m.a0.toNat
    if 256 ≤ a ∨ !s.pkg.domLive (bitsAt a 4 3) ∨ m.a1 ≠ 0 ∨ m.a2 ≠ 0 ∨ m.a3 ≠ 0 then .malformed
    else if s.watchTaken (watchKey a) c.target then .denied
    else .done { s with dbg.watches := Table.del s.dbg.watches (watchKey a) }))

/-- BRK_EN (27 R438, 31 R494). -/
def execBrkEn (s : State) : Host.Outcome State Fault Refusal :=
  .next (s.command 6 1 (fun m c s =>
    if 2 ≤ m.a0.toNat ∨ m.a1 ≠ 0 ∨ m.a2 ≠ 0 ∨ m.a3 ≠ 0 then .malformed
    else if m.a0 = 1 then
      .done { s with dbg.brks := Table.upd [] s.dbg.brks c.target (fun cs => dedup (cs ++ [c.token])) }
    else .done { s with dbg.brks := Table.del s.dbg.brks c.target }))

/-! ### Reading and writing -/

/-- A buffer of `n` bytes lies in physical memory (31 R494). -/
def State.bufOk (s : State) (buf n : Nat) : Bool :=
  buf % 64 == 0 && (n == 0 || (s.pkg.backed buf && s.pkg.backed (buf + n - 1)))

/-- The value of a system register under the System column of 28 R451. -/
def State.sysColumn (s : State) (ctx core team index : Nat) : BitVec 64 :=
  let die := dieOf core
  let r := s.ctx ctx die
  let sync := s.clock.sync
  if index < 0x0A ∨ (0x20 ≤ index ∧ index ≤ 0x23) then
    (match index with
      | 0x01 => r.ptBase
      | 0x02 => r.spillBase
      | 0x03 => r.spillSize
      | 0x04 => r.faultRing
      | 0x05 => BitVec.ofNat 64 r.faultWidx.toNat
      | 0x06 => BitVec.ofNat 64 r.faultRidx.toNat
      | k => s.sysRead ctx die team k)
  else
    match index with
    | 0x0A => r.sched
    | 0x0C => (s.core core).part
    | 0x10 => r.traceCtl
    | 0x11 => r.traceRing
    | 0x12 => BitVec.ofNat 64 r.traceWidx.toNat
    | 0x13 => BitVec.ofNat 64 r.traceRidx.toNat
    | 0x14 => r.sampleCtl
    | 0x18 =>
      if die = s.pkg.master then
        BitVec.ofNat 64 (sync.role.toNat + (if sync.locked then 4 else 0) + sync.interval.toNat * 256
          + sync.offset.toNat * 2 ^ 32)
      else 0
    | k => if 0x40 ≤ k ∧ k ≤ 0x5F then (s.core (32 * die + (k - 0x40))).part else 0

/-- The System column of 28 R451 lets a register be read. -/
def sysReadable (index : Nat) : Bool :=
  decide (index ≤ 0x06) || [0x08, 0x09, 0x0A, 0x0C, 0x18].contains index || (decide (0x10 ≤ index) && decide (index ≤ 0x14))
  || (decide (0x20 ≤ index) && decide (index ≤ 0x23)) || (decide (0x40 ≤ index) && decide (index ≤ 0x5F))

/-- The predicates of a thread as instructions have left them, p7 true (01 R10). -/
def Thread.predWord (th : Thread) : Nat :=
  maskOf ((List.range 8).filter (fun k => k == 7 || th.final (.pred k) != 0))

/-- READ_REG (31 R494): it waits for an engine command's result that the register is owed. TILE_PROG needs the right STOP as well (28
R451). DEDUCED (log entry 37): an index that the System column does not let be read is malformed. -/
def execReadReg (s : State) : Host.Outcome State Fault Refusal :=
  .next (s.command 7 2 (fun m c s =>
    let a := m.a0.toNat
    let kind := bitsAt a 7 0
    let ix := bitsAt a 15 8
    match s.tsel c.target m.a1 with
    | none => .malformed
    | some (t, th) =>
      let give (v : Nat) : DbgEnd := .done { s with dbg.mailbox := { s.dbg.mailbox with a0 := BitVec.ofNat 64 v } }
      let owed (tg : Target) : Bool := th.pend.any (fun p => p.tgt == tg && (match p.src with
        | .cmd _ => true
        | .fixed _ | .mem _ => false))
      let s := s.dropLoads t.id [th.ltid]
      if 2 ^ 16 ≤ a ∨ 6 < kind ∨ (kind ≠ 5 ∧ m.a2 ≠ 0) ∨ m.a3 ≠ 0 then .malformed
      else
        match kind with
        | 0 => if th.nreg ≤ ix then .malformed else if owed (.reg ix) then .wait s else give (th.final (.reg ix)).toNat
        | 1 => if (List.range 7).any (fun k => owed (.pred k)) then .wait s else give th.predWord
        | 2 => give th.flags.toNat
        | 3 => give th.pc.toNat
        | 4 => give th.tcfg.toNat
        | 5 =>
          (match t.trapOf th.ltid with
            | none => .malformed
            | some r =>
              if s.bufOk m.a2.toNat 256 then
                .done (s.writeHome m.a2.toNat ((List.range 256).map (fun k => Table.read 0 (t.frame r) k)))
              else .malformed)
        | _ =>
          if ix = 0x08 ∧ !bitAt c.rights.toNat 0 then .denied
          else if sysReadable ix then give (s.sysColumn c.target t.core t.id ix).toNat else .malformed))

/-- A byte that READ_MEM reads from global virtual memory; none where it reads as zero (31 R494). -/
def State.peekByte (s : State) (ctx die va : Nat) : Option Byte × State :=
  match s.readVirt ctx die va 1 1 with
  | .ok (bs, s) => (bs.head?, s)
  | .error _ => (none, s)

/-- The bytes of READ_MEM in global virtual memory, with the offset of the first that is not read. -/
def State.peek (s : State) (ctx die va : Nat) (n : Nat) : List Byte × Option Nat × State :=
  (List.range n).foldl (fun (r : List Byte × Option Nat × State) k =>
    let b := r.2.2.peekByte ctx die (va + k)
    (b.1.getD 0 :: r.1, r.2.1.or (if b.1.isNone then some k else none), b.2)) ([], none, s)

/-- READ_MEM (31 R494). -/
def execReadMem (s : State) : Host.Outcome State Fault Refusal :=
  .next (s.command 8 2 (fun m c s =>
    let a := m.a0.toNat
    let space := bitsAt a 2 0
    let die := bitsAt a 7 6
    let off := m.a1.toNat
    let n := m.a2.toNat
    let buf := m.a3.toNat
    let put (bs : List Byte) (bad : Option Nat) (s : State) : DbgEnd :=
      .done ((s.writeHome buf bs).reply (if bad.isNone then 1 else 0) (bad.getD (2 ^ 64 - 1)))
    let team : Option Team := s.wk.teams.find? (fun t => t.ctx == c.target && t.core == 32 * die + bitsAt a 12 8
      && t.index == bitsAt a 63 32 && !t.freed)
    if bitsAt a 31 13 ≠ 0 ∨ 3 < space ∨ !s.pkg.domLive die ∨ n = 0 ∨ 2 ^ 20 < n ∨ !s.bufOk buf n then .malformed
    else
      match space with
      | 0 => let r := s.peek c.target die off n
             put r.1.reverse r.2.1 r.2.2
      | 1 =>
        (match team with
          | some t => if s.spadSize t < off + n then .malformed else put (t.spadBytes off n) none s
          | none => .malformed)
      | 2 =>
        (match team with
          | some t =>
            if 16384 < off + n ∨ s.accumOf t ≤ bitsAt a 5 3 then .malformed
            else
              let tile := Table.read [] t.acc (bitsAt a 5 3)
              put ((List.range n).map (fun k => BitVec.ofNat 8 ((Table.read 0 tile ((off + k) / 4)).toNat >>> (8 * ((off + k) % 4)))))
                none s
          | none => .malformed)
      | _ => if 2 ^ 28 < off + n then .malformed else put ((List.range n).map (fun k => s.wsByte die (off + k))) none s))

/-- A stored value replaces every earlier result of a register or predicate (31 R494). -/
def Thread.poke (th : Thread) (tg : Target) (v : Word) : Thread :=
  { th with pend := th.pend.filter (fun p => p.tgt != tg) }.store tg v

/-- WRITE_REG of the PC moves the named thread alone: the threads of its warp form anew, and every resulting warp stops (31
R494). -/
def State.pokePc (s : State) (t : Team) (th : Thread) (pc : VAddr) : State :=
  let s := s.updTeam t.id (fun t =>
    let t := t.updThread th.ltid (fun th => { th with pc := pc, slot := 0, next := none })
    { t with traps := t.traps.map (fun (r : TrapRec) =>
        { r with members := r.members.map (fun (q : Resume) => if q.thread = th.ltid then { q with pc := pc, slot := 0 } else q) }) })
  match t.warpOf? th.ltid with
  | none => s
  | some w =>
    let others := (t.live w).map (fun l => l.2)
    if others.length ≤ 1 then s.updTeam t.id (fun t => t.updWarp w.id (fun w => { w with packet := none }))
    else
      let ids := (others.filter (fun x => x.wait == .run)).map Thread.ltid
      let s := s.form t.id ids none s.soon
      match s.team? t.id with
      | none => s
      | some t' =>
        (t'.warps.filter (fun v => v.lanes.any (fun o => o.any ids.contains))).foldl (fun (s : State) v => s.stopRecord t' v rStop 0 0) s

/-- WRITE_REG (31 R494). KIND 6 writes TILE_PROG alone, which firmware writes on its behalf (28 R451; log entry 37). -/
def execWriteReg (s : State) : Host.Outcome State Fault Refusal :=
  .next (s.command 9 3 (fun m c s =>
    let a := m.a0.toNat
    let kind := bitsAt a 7 0
    let ix := bitsAt a 15 8
    let v := m.a2.toNat
    match s.tsel c.target m.a1 with
    | none => .malformed
    | some (t, th) =>
      let upd (f : Thread → Thread) : DbgEnd := .done (s.updThread t.id th.ltid f)
      if 2 ^ 16 ≤ a ∨ (4 < kind ∧ a ≠ 0x0806) ∨ m.a3 ≠ 0 ∨ th.frozen.isEmpty then .malformed
      else
        match kind with
        | 0 =>
          if th.nreg ≤ ix ∨ 2 ^ 32 ≤ v then .malformed
          else if th.owes (.reg ix) then .wait (s.landThreads t.id [th.ltid])
          else upd (fun th => th.poke (.reg ix) (BitVec.ofNat 32 v))
        | 1 =>
          if 256 ≤ v then .malformed
          else if (List.range 7).any (fun k => th.owes (.pred k)) then .wait (s.landThreads t.id [th.ltid])
          else upd (fun th => (List.range 7).foldl (fun th k => th.poke (.pred k) (if bitAt v k then 1 else 0)) th)
        | 2 => if 64 ≤ v then .malformed else upd (fun th => { th with flags := BitVec.ofNat 6 v })
        | 3 => if 2 ^ 48 ≤ v then .malformed else .done (s.pokePc t th (BitVec.ofNat 48 v))
        | 6 => .done (s.writeTileProg t.id m.a2)
        | _ =>
          if v / 8 ≠ th.tcfg.toNat / 8 then .malformed else upd (fun th => { th with tcfg := BitVec.ofNat 32 v })))

/-! ### Trace, replay and sampling -/

/-- A write of TRACE_CTL and TRACE_RING (27 R430): MODE 3 is ignored, and reserved bits read as zero. -/
def traceCtlValue (old v : Nat) : BitVec 64 :=
  BitVec.ofNat 64 (bitsAt v 0 0 + (if bitsAt v 2 1 = 3 then bitsAt old 2 1 else bitsAt v 2 1) * 2 + bitsAt v 12 4 * 16)
@[inherit_doc traceCtlValue]
def traceRingValue (v : Nat) : BitVec 64 := BitVec.ofNat 64 (bitsAt v 5 0 + bitsAt v 47 12 * 4096)

/-- TRACE_CFG (27 R430, 31 R494). -/
def execTraceCfg (s : State) : Host.Outcome State Fault Refusal :=
  .next (s.command 10 4 (fun m c s =>
    if 4 ≤ m.a0.toNat ∨ !s.pkg.domLive m.a0.toNat ∨ 2 ^ 32 ≤ m.a3.toNat then .malformed
    else .done (s.updCtx c.target m.a0.toNat (fun r => { r with
      traceCtl := traceCtlValue r.traceCtl.toNat m.a1.toNat
      traceRing := traceRingValue m.a2.toNat
      traceRidx := BitVec.ofNat 32 m.a3.toNat
      traceCap := some c.token }))))

/-- REPLAY (27 R449, 31 R494). -/
def execReplay (s : State) : Host.Outcome State Fault Refusal :=
  .next (s.command 11 4 (fun m c s =>
    let a := m.a0.toNat
    let q := a % 128
    let n := m.a2.toNat
    let buf := m.a1.toNat
    let rest := s.dbg.replays.filter (fun r => !(r.ctx == c.target && r.queue == q))
    if 256 ≤ a ∨ m.a3 ≠ 0 ∨ 65536 < n then .malformed
    else if a < 128 then .done { s with dbg.replays := rest }
    else if !s.bufOk buf (64 * n) then .malformed
    else
      let r := (List.range n).foldl (fun (x : List (BitVec 512) × State) k =>
        let y := x.2.readHome (buf + 64 * k) 64
        (BitVec.ofNat 512 (ofBytes y.1) :: x.1, y.2)) ([], s)
      .done { r.2 with dbg.replays := rest ++ [⟨c.target, q, r.1.reverse⟩] }))

/-- A write of SAMPLE_CTL (27 R447): an MLOG or SLOG outside its range is ignored. -/
def sampleCtlValue (old v : Nat) : BitVec 64 :=
  let ml := bitsAt v 5 1
  let sl := bitsAt v 11 7
  BitVec.ofNat 64 (bitsAt v 0 0 + (if 4 ≤ ml ∧ ml ≤ 20 then ml else bitsAt old 5 1) * 2 + bitsAt v 6 6 * 2 ^ 6
    + (if 8 ≤ sl ∧ sl ≤ 20 then sl else bitsAt old 11 7) * 2 ^ 7)

/-- SAMPLE_CFG (27 R447, 31 R494). -/
def execSampleCfg (s : State) : Host.Outcome State Fault Refusal :=
  .next (s.command 12 8 (fun m c s =>
    if 4 ≤ m.a0.toNat ∨ !s.pkg.domLive m.a0.toNat ∨ m.a2 ≠ 0 ∨ m.a3 ≠ 0 then .malformed
    else .done (s.updCtx c.target m.a0.toNat (fun r =>
      { r with sampleCtl := sampleCtlValue r.sampleCtl.toNat m.a1.toNat, sampleCap := some c.token }))))

/-! ### Delegation -/

/-- DELEGATE (27 R436, 31 R494). -/
def execDelegate (s : State) : Host.Outcome State Fault Refusal :=
  .next (s.command 13 0 (fun m c s =>
    let a := m.a0.toNat
    let rights := a % 16
    if 2 ^ 16 ≤ a ∨ bitsAt a 7 4 ≠ 0 ∨ m.a1 ≠ 0 ∨ m.a2 ≠ 0 ∨ m.a3 ≠ 0 then .malformed
    else if rights &&& c.rights.toNat ≠ rights then .denied
    else
      let t := s.newToken
      let s : State := { t.2 with dbg.caps := t.2.dbg.caps ++ [⟨t.1, c.target, bitsAt a 15 8, BitVec.ofNat 4 rights, some c.token⟩] }
      .done { s with dbg.mailbox := { s.dbg.mailbox with a0 := BitVec.ofNat 64 t.1.toNat } }))

/-- What the revocation of some capabilities removes (27 R437). -/
def State.revokeCaps (s : State) (dead : List Word) : State :=
  let has (c : Option Word) : Bool := c.any dead.contains
  let d : Dbg := { s.dbg with
    caps := s.dbg.caps.filter (fun c => !dead.contains c.token)
    watches := s.dbg.watches.filter (fun e => !dead.contains e.2.cap)
    brks := (s.dbg.brks.map (fun e => (e.1, e.2.filter (fun t => !dead.contains t)))).filter (fun e => !e.2.isEmpty)
    drains := s.dbg.drains.filter (fun d => !dead.contains d.token)
    stepping := s.dbg.stepping.filter (fun p => !dead.contains p.token) }
  let off (r : CtxReg) : CtxReg := { r with
    traceCtl := if has r.traceCap then r.traceCtl &&& ~~~1 else r.traceCtl
    sampleCtl := if has r.sampleCap then r.sampleCtl &&& ~~~0x41 else r.sampleCtl }
  let s : State := { s with dbg := d, ctxs := s.ctxs.map (fun e => (e.1, off e.2)), wk.teams := s.wk.teams.map (fun t => t.unstop dead (fun _ => true)) }
  (s.wk.teams.flatMap (fun t => t.warps.map (fun w => (t.id, w.id)))).foldl
    (fun (s : State) k => s.unfreeze k dead (fun _ => true)) s

/-- REVOKE (27 R437, 31 R494): under the capability itself or an ancestor of it. -/
def execRevoke (s : State) : Host.Outcome State Fault Refusal :=
  .next (s.command 14 0 (fun m c s =>
    let tok := BitVec.ofNat 32 m.a0.toNat
    if 2 ^ 32 ≤ m.a0.toNat ∨ m.a1 ≠ 0 ∨ m.a2 ≠ 0 ∨ m.a3 ≠ 0 then .malformed
    else if (s.dbg.cap? tok).isNone ∨ !(s.dbg.family c.token).contains tok then .denied
    else .done (s.revokeCaps (s.dbg.family tok))))

end Sys2Proof.Machine
end

