-- ==== Sys2Proof/Machine/TraceEvents.lean ====
section
/-! DEFINITION. Trace rings and stall samples (27 R430 to R432, R448) and the alignment of timebases (R427 to R429). -/

namespace Sys2Proof.Machine

/-! ### Trace rings -/

/-- The log2 of a trace ring's slots, none where it is not one that EN is effective with (27 R430). -/
def CtxReg.traceLog (r : CtxReg) : Option Nat :=
  let lg := bitsAt r.traceRing.toNat 5 0
  if 7 ≤ lg ∧ lg ≤ 26 then some lg else none

/-- Slots of a record. -/
def TraceRec.slots (x : TraceRec) : Nat := if x.wide then 2 else 1

/-- The ring has no room for a record (27 R431). -/
def CtxReg.traceFull (r : CtxReg) (lg : Nat) (x : TraceRec) : Bool :=
  decide (2 ^ lg < (r.traceWidx - r.traceRidx).toNat + x.slots)

/-- A record with LOST where records were dropped before it (27 R432). -/
def CtxReg.withLost (r : CtxReg) (x : TraceRec) : Nat := x.bits.toNat + (if r.traceLost then 2 ^ 10 else 0)

/-- The slots of a record are written in turn (27 R431). -/
def State.writeSlots (s : State) (ctx die lg bits : Nat) : Nat → Nat → Option State
  | _, 0 => some s
  | k, n + 1 =>
    let r := s.ctx ctx die
    let addr := 4096 * bitsAt r.traceRing.toNat 47 12 + 32 * ((r.traceWidx.toNat + k) % 2 ^ lg)
    match s.writeFresh ctx die addr (bytesOf 32 (bits >>> (256 * k))) with
    | .ok s => State.writeSlots s ctx die lg bits (k + 1) n
    | .error _ => none

/-- The oldest record that waits is written, dropped, or goes on waiting (27 R431). -/
def State.writeRecord (s : State) (ctx die : Nat) : State :=
  let r := s.ctx ctx die
  match r.recs with
  | [] => s
  | x :: rest =>
    let lose (s : State) : State := s.updCtx ctx die (fun r => { r with recs := rest, traceLost := true })
    match r.traceLog with
    | none => lose s
    | some lg =>
      let mode := bitsAt r.traceCtl.toNat 2 1
      if mode ≠ 1 ∧ r.traceFull lg x then (if mode = 2 then s else lose s)
      else
        match s.writeSlots ctx die lg (r.withLost x) 0 x.slots with
        | none => lose s
        | some s => s.updCtx ctx die (fun r =>
            { r with recs := rest, traceLost := false, traceWidx := r.traceWidx + BitVec.ofNat 32 x.slots })

/-- TRACE_RECORD_WRITE (27 R431). -/
def execTraceRecordWrite (ctx die : Nat) (s : State) : Host.Outcome State Fault Refusal := .next (s.writeRecord ctx die)

/-! ### Stall samples -/

/-- The reason that a STALL record gives (27 R448, 09 R193): 0 where the warp has issued in this cycle; one that is ready and has not
issued yet issues in it, or finds no segment or port, which is left open (log entry 25). -/
def State.sampleReason (s : State) (t : Team) (w : Warp) : Nat :=
  if t.slot ≠ some (s.core t.core).active then 11
  else
    let now : Bool := (s.core t.core).cycle == s.clock.clk && (t.live w).any (fun p => p.2.lastIssue == s.clock.clk)
    match s.stall t w with
    | 0 => if now || Config.freeBool s.free then 0 else 8
    | n => if now then 0 else n

/-- A stall sample is due (27 R448). -/
def State.sampleDue (s : State) (core ctx : Nat) : Bool :=
  let ctl := (s.ctx ctx (dieOf core)).sampleCtl.toNat
  bitAt ctl 6 && decide (2 ^ bitsAt ctl 11 7 ≤ s.clock.clk - Table.read 0 (s.core core).taken ctx)

/-- STALL_SAMPLE (27 R448): one STALL record for the next resident warp of the context, round robin in placement order. -/
def execStallSample (core ctx : Nat) (s : State) : Host.Outcome State Fault Refusal :=
  .next (if !s.sampleDue core ctx then s
    else
      let ws := (s.wk.teams.filter (fun t => t.core == core && t.ctx == ctx && t.slot.isSome)).flatMap
        (fun t => t.warps.map (fun w => (t, w)))
      let n := Table.read 0 (s.core core).robin ctx
      let s := s.updCore core (fun c =>
        { c with taken := Table.put c.taken ctx s.clock.clk, robin := Table.put c.robin ctx (n + 1) })
      match ws[n % max 1 ws.length]? with
      | none => s
      | some (t, w) =>
        let live := t.lanesOf w
        (s.emit ctx core rStall (s.sampleReason t w) [((live.head?).map (fun l => l.th.pc.toNat)).getD 0, laneMask live] false
          (some (t.id, w.id))).drew)

/-! ### Timebase alignment -/

/-- The device follows the device on a peer port (27 R428). -/
def State.follows (s : State) (port : Nat) : Bool :=
  s.clock.sync.role.toNat == port + 2 && (Table.read Port.reset s.pkg.ports port).up

/-- A message leaves at a port. -/
def State.sendPtp (s : State) (kind port : Nat) (t : BitVec 64) : State :=
  { s with clock.sync := { s.clock.sync with sent := s.clock.sync.sent ++ [(kind, port, t)] } }

/-- PTP_SYNC (27 R428): a Sync arrives and is timestamped. -/
def execPtpSync (port : Nat) (s : State) : Host.Outcome State Fault Refusal :=
  .next (if s.follows port then { s with clock.sync := { s.clock.sync with t2 := (s.nowAt s.pkg.master) } } else s)

/-- PTP_FOLLOW_UP (27 R428): it brings the Sync's departure, and the device sends a Delay_Req. -/
def execPtpFollowUp (port : Nat) (t1 : BitVec 64) (s : State) : Host.Outcome State Fault Refusal :=
  .next (if s.follows port then
      State.sendPtp { s with clock.sync := { s.clock.sync with t1 := t1, t3 := (s.nowAt s.pkg.master) } } 2 port (s.nowAt s.pkg.master)
    else s)

/-- PTP_DELAY_REQ (27 R428): a grandmaster answers with the time of arrival. -/
def execPtpDelayReq (port : Nat) (s : State) : Host.Outcome State Fault Refusal :=
  .next (if s.clock.sync.role = 1 ∧ (Table.read Port.reset s.pkg.ports port).up then s.sendPtp 3 port (s.nowAt s.pkg.master) else s)

/-- The offset from the master of an exchange by end-to-end delay request and response, in ns (27 R428; PRESUMED from IEEE
1588, log entry 14). -/
def Sync.measured (y : Sync) (t4 : BitVec 64) : Int :=
  (((y.t2.toNat : Int) - y.t1.toNat) - ((t4.toNat : Int) - y.t3.toNat)) / 2

/-- PTP_DELAY_RESP (27 R428, R429): OFFSET and LOCKED, and the forward step that may be made once, before the first LAUNCH. -/
def execPtpDelayResp (port : Nat) (t4 : BitVec 64) (s : State) : Host.Outcome State Fault Refusal :=
  .next (if !s.follows port then s
    else
      let y := s.clock.sync
      let off := y.measured t4
      let near := decide (off.natAbs ≤ 50)
      let n := if near then y.close + 1 else 0
      let jump : Bool := decide (off < 0) && !s.clock.launched && !y.stepped && Config.freeBool s.free
      let y := { y with
        t4 := t4
        offset := BitVec.ofNat 32 (wrapInt 32 (clampInt true 32 off))
        close := n
        locked := if near then y.locked || decide (8 ≤ n) else false
        stepped := y.stepped || jump }
      { s.drew with clock.sync := y, clock.time := if jump then s.clock.time + off.natAbs else s.clock.time })

/-- A Sync is due (27 R428). -/
def State.syncDue (s : State) : Bool :=
  s.clock.sync.role == 1 && decide (2 ^ s.clock.sync.interval.toNat * 1000000 ≤ s.clock.time - s.clock.sync.lastSync)

/-- SYNC_INTERVAL_EXPIRY (27 R428): the grandmaster sends Sync and Follow_Up at its ports that are up. -/
def execSyncIntervalExpiry (s : State) : Host.Outcome State Fault Refusal :=
  .next (if !s.syncDue then s
    else
      let up := [0, 1].filter (fun k => (Table.read Port.reset s.pkg.ports k).up)
      let s := up.foldl (fun (s : State) k => (s.sendPtp 0 k (s.nowAt s.pkg.master)).sendPtp 1 k (s.nowAt s.pkg.master)) s
      { s with clock.sync := { s.clock.sync with lastSync := s.clock.time } })

end Sys2Proof.Machine
end

