-- ==== Sys2Proof/Machine/Links.lean ====
section
/-! DEFINITION. The package's links and dies at run time: link power (30 R481, R482), heartbeats (R483), the loss of a die (R484
to R486), snoops and write-backs (R479, R487). -/

namespace Sys2Proof.Machine

/-! ### Links -/

/-- LINK_IDLE microseconds have passed without a flit on a link in L0 (30 R481); with LINK_IDLE 0 links stay in L0 (R488). -/
def State.linkIdles (s : State) (l : Link) : Bool :=
  l.up && !l.asleep && s.pkg.dctl.linkIdle != 0 && decide (1000 * s.pkg.dctl.linkIdle.toNat ≤ s.clock.time - l.flit)

/-- LINK_IDLE_EXPIRY (30 R481): a link in L0 enters L1. -/
def execLinkIdleExpiry (link : Nat) (s : State) : Host.Outcome State Fault Refusal :=
  .next (if s.linkIdles (s.link link) then s.updLink link (fun l => { l with asleep := true, retries := 0, since := none }) else s)

/-- A message waits for a link in L1 (30 R482): an access of a warp that could issue otherwise, a write-back, or a contribution. -/
def State.linkWanted (s : State) (link : Nat) : Bool :=
  (s.wk.teams.any (fun t => t.slot == some (s.core t.core).active && t.warps.any (fun w => s.stall t w == 10 && (match nextTurn t w with
    | none => false
    | some n => (s.turnIss w n).any (fun i =>
        (s.accessRoutes i ++ (if isRelease i.op i.e then s.releaseRoutes i.core i.team.id else [])).contains link)))))
  || s.mm.wbs.any (fun w => (s.routeHome (dieOf w.core) (256 * w.line)).contains link)
  || s.mm.contribs.any (fun c => c.st == .flight && (s.routeHome (dieOf c.core) c.addr).contains link)

/-- The message that a link in L1 is to carry next starts the wake and waits (30 R482). -/
def State.startWake (s : State) (link : Nat) : State :=
  let l := s.link link
  if l.asleep ∧ l.since.isNone ∧ s.linkWanted link then s.updLink link (fun l => { l with since := some s.clock.time }) else s

/-- LINK_WAKE (30 R481): a link that a message waits for returns to L0. -/
def execLinkWake (link : Nat) (s : State) : Host.Outcome State Fault Refusal :=
  .next (if (s.link link).asleep ∧ (s.link link).since.isSome then
      s.updLink link (fun l => { l with asleep := false, retries := 0, since := none, flit := s.clock.time })
    else s)

/-- WAKE_RETRY (30 R482): a message that has waited 4 µs for a link in L1 is retried, up to three times, 4 µs apart, each with a log
entry. -/
def execWakeRetry (link : Nat) (s : State) : Host.Outcome State Fault Refusal :=
  .next (let l := s.link link
    if l.asleep ∧ l.retries < 3 ∧ l.since.any (fun t => decide (4000 * (l.retries + 1) ≤ s.clock.time - t)) then
      (s.linkLog (link % 4) 1 (l.retries + 1) 0).updLink link (fun l => { l with retries := l.retries + 1 })
    else s)

/-- HEARTBEAT (30 R483). -/
def execHeartbeat (link : Nat) (s : State) : Host.Outcome State Fault Refusal :=
  .next (if (s.link link).up then s.updLink link (fun l => { l with heard := s.clock.time }) else s)

/-! ### Topology -/

/-- OCLASS by the number of live dies (30 R473); of four dies in a path the specification states none. -/
def Pkg.oclass (p : Pkg) (links : Table Link) (free : Nat) : Nat :=
  match [0, 1, 2, 3].countP (bitAt p.liveBits) with
  | 0 => 0
  | 1 => 0
  | 2 => 1
  | 3 => 2
  | _ => if [0, 1, 2, 3].all (fun k => (Table.read Link.reset links k).up) then 3 else free % 4

/-- ENUM_ORDER for the dies and links that work (30 R473). -/
def Pkg.order (p : Pkg) (links : Table Link) (free : Nat) : BitVec 64 :=
  let hops := p.doms.foldl (fun v a => p.doms.foldl (fun v b =>
    v + (if a = b then 0 else p.hops links (p.physOf a) (p.physOf b)) * 2 ^ (8 + 2 * (4 * a + b))) v) 0
  BitVec.ofNat 64 (p.oclass links free + hops + 4 * 2 ^ 40)

/-- ENUM_ORDER follows the links. -/
def State.reorder (s : State) : State :=
  { s.drew with pkg.enumOrder := s.pkg.order s.pkg.links (Config.freeBits 2 s.free).toNat }

/-- HEARTBEAT_LOST (30 R483): heartbeats have been missing on a link for 1 ms; the link fails, and traffic goes round the
ring. A die heard on no link is declared dead by DIE_DECLARED_DEAD. -/
def execHeartbeatLost (link : Nat) (s : State) : Host.Outcome State Fault Refusal :=
  .next (let l := s.link link
    if l.up ∧ 1000000 ≤ s.clock.time - l.heard then
      ((s.linkLog (link % 4) 2 0 0).updLink link (fun l => { l with up := false, asleep := false, retries := 0, since := none })).reorder
    else s)

/-! ### The loss of a die -/

/-- The working links of a die. -/
def State.linksOf (s : State) (phys : Nat) : List Nat := [phys, (phys + 3) % 4].filter (fun k => (s.link k).up)

/-- No link of a die works any more. -/
def State.isolated (s : State) (phys : Nat) : Bool := (s.linksOf phys).isEmpty

/-- A die can be declared dead: it is live, not the last one, and heard on no link, or a retraining of its only live link has failed (30
R483; the outside tells of such a failure, log entry 44). -/
def State.canLose (s : State) (phys : Nat) : Option Nat :=
  match s.pkg.domOf phys with
  | some d => if s.pkg.domLive d ∧ (s.linksOf phys).length ≤ 1 ∧ 2 ≤ s.pkg.doms.length then some d else none
  | none => none

/-- The only live link of a die has failed its retraining: the link log says so (30 R483, R488). -/
def State.retrainFailed (s : State) (phys : Nat) : State := (s.linksOf phys).foldl (fun (s : State) k => s.linkLog (k % 4) 3 0 0) s

/-- The lines that a die holds exclusively, and those whose write-back from it has not arrived (30 R484). -/
def State.heldBy (s : State) (d : Nat) : List Nat :=
  (s.mm.l1.filter (fun e => dieOf e.1 == d)).flatMap (fun e => e.2.excl)
  ++ (s.mm.near.filter (fun c => c.die == d && c.excl)).map NearCopy.line
  ++ (s.mm.wbs.filter (fun w => dieOf w.core == d)).map WriteBack.line

/-- Lines are poisoned at their homes: all four sectors of each (30 R484). -/
def State.poisonLines (s : State) (lines : List Nat) : State :=
  let cs := (lines.filter (fun l => s.pkg.backed (256 * l))).flatMap (fun l => [4 * l, 4 * l + 1, 4 * l + 2, 4 * l + 3])
  { s with mm.poison := cs.foldl (fun p c => if p.contains c then p else c :: p) s.mm.poison }

/-- The enumeration registers and the die status once a domain is lost (30 R484, R486, R473). -/
def Pkg.without (p : Pkg) (d : Nat) : Pkg :=
  let phys := p.physOf d
  let n := p.enumDies.toNat
  let dies := n - 2 ^ (4 + phys) - 2 ^ 8
  let links := [phys, (phys + 3) % 4].foldl (fun t k => Table.put t k Link.reset) p.links
  let p := { p with
    enumDies := BitVec.ofNat 64 dies
    enumSlices := p.enumSlices &&& ~~~(BitVec.ofNat 64 (0xFF * 2 ^ (8 * d)))
    links := links
    dctl := { p.dctl with dieStat := p.dctl.dieStat ||| BitVec.ofNat 8 (3 * 2 ^ (2 * phys)) } }
  { p with master := if p.master = d then (p.doms.head?).getD d else p.master }

/-- What stands on a lost die is gone: its caches, teams, commands, queues and logs. -/
def State.dropDie (s : State) (d : Nat) : State :=
  let away (core : Nat) : Bool := dieOf core != d
  let lostPkts := (s.eng.cmds.filter (fun c => c.die == d && c.team.isNone)).map (fun c => (c.pid, c.batch, (c.pkt.map (fun p => p.2.2)).getD 0))
  let s := { s with
    mm := { s.mm with
      l1 := s.mm.l1.filter (fun e => away e.1)
      ro := s.mm.ro.filter (fun e => away e.1)
      tlb := s.mm.tlb.filter (fun t => t.tlb.die != d)
      near := s.mm.near.filter (fun c => c.die != d && s.pkg.home (256 * c.line) != some d)
      wbs := s.mm.wbs.filter (fun w => dieOf w.core != d)
      loads := s.mm.loads.filter (fun l => away l.core)
      fills := s.mm.fills.filter (fun f => away f.core)
      contribs := s.mm.contribs.filter (fun c => away c.core || c.st != .flight)
      side := s.mm.side.filter (fun x => away x.core)
      invlogs := Table.del s.mm.invlogs d }
    wk := { s.wk with
      teams := s.wk.teams.filter (fun t => away t.core)
      bars := s.wk.bars.filter (fun e => away (e.1 / 256)) }
    eng := { s.eng with
      cmds := (s.eng.cmds.filter (fun c => c.die != d)).map (fun (c : Cmd) => match c.body with
        | .token xq _ _ => if xq / 128 = d then { c with state := .performed } else c
        | .copy .. | .put .. | .coord .. | .hlk .. | .take .. | .tile _ | .fence _ => c)
      objs := s.eng.objs.filter (fun e => e.1 / 4096 != d)
      xqs := s.eng.xqs.filter (fun e => e.1 / 128 != d) }
    cores := s.cores.filter (fun e => away e.1)
    fe := { s.fe with pkts := s.fe.pkts.filter (fun p => qDie p.queue != d) }
    turn := s.turn.filter (fun t => (s.team? t.team).any (fun tm => away tm.core)) }
  lostPkts.foldl (fun (s : State) p =>
    let s := s.updPkt p.1 (fun q => { q with lost := true })
    match p.2.1 with
    | some (xq, fire) => s.batchDone xq fire
    | none => s.memberDone p.1 p.2.2) s

/-- A grid that had a share on a lost die ends (30 R484): its teams elsewhere stop issuing, nothing more of it is placed, and its
error record goes to its master FE's queue, or to queue 0 of the master die. -/
def State.loseGrid (s : State) (d phys : Nat) (g : Grid) : State :=
  let teams := (s.wk.teams.filter (fun t => t.grid == g.id)).map Team.id
  let s := teams.foldl (fun (s : State) t =>
    let ids := ((s.team? t).map (fun m => m.threads.map Thread.ltid)).getD []
    let s := (s.endThreads t ids).updTeam t (fun m => { m with ended := true, warps := [], traps := [] })
    { s with eng.cmds := s.eng.cmds.map (fun (c : Cmd) => if c.team = some t then c.answerless else c) }) s
  let s := s.updGrid g.id (fun g => { g with
    lost := true
    shares := g.shares.map (fun (sh : Share) =>
      if sh.dom = d then { sh with next := sh.hi, reported := true } else { sh with next := sh.hi }) })
  let s := s.updPkt g.pkt (fun p => { p with lost := p.lost || (g.parent.isNone && g.batch.isNone) })
  if qDie g.queue = d then s.errorRecord (32 * s.pkg.master) g.seq none 0x10 g.member 0 0 0 phys
  else s.itemError g.queue g.seq g.pkt g.member g.batch 0x10 0 0 phys

/-- A die is declared dead (30 R484 to R486). -/
def State.loseDie (s : State) (d phys : Nat) : State :=
  let lines := s.heldBy d
  let gone := s.fe.grids.filter (fun g => g.shares.any (fun sh => sh.dom == d && decide (sh.lo < sh.hi)))
  let led := s.pkg.master = d
  let s := { s with pkg := s.pkg.without d }
  let s := if led then { s with
      clock.sync := { s.clock.sync with locked := false, offset := 0, close := 0 }
      pkg.rx := s.pkg.rx.map (fun (x : RxPut) => { x with offer := .none }) } else s
  let s := ((s.dropDie d).poisonLines lines).reorder
  let s := gone.foldl (fun (s : State) g => s.loseGrid d phys g) s
  let s := s.fe.grids.foldl (fun (s : State) g => s.updShare g.id d (fun sh => { sh with reported := true })) s
  let s := if led then s.runRx [] s.pkg.rx else s
  (s.linkLog phys 4 0 0).raiseMsi s.pkg.dctl.mcVec

/-- DIE_DECLARED_DEAD (30 R484). -/
def execDieDeclaredDead (phys : Nat) (s : State) : Host.Outcome State Fault Refusal :=
  .next (match s.canLose phys with
    | some d => (s.retrainFailed phys).loseDie d phys
    | none => s)

/-! ### Snoops and write-backs -/

/-- SNOOP (30 R479, R487): a shared near copy, and the L1 copies that it includes, are dropped, and an exclusive one is given up
with its dirty bytes; a die whose write-back of the line is on its way answers so. -/
def execSnoop (die line : Nat) (s : State) : Host.Outcome State Fault Refusal :=
  .next (if s.mm.wbs.any (fun w => dieOf w.core == die && w.line == line) then s
    else
      let s := (s.mm.l1.filter (fun (e : Nat × L1) => dieOf e.1 == die && e.2.excl.contains line)).foldl
        (fun (s : State) (e : Nat × L1) => s.recallFrom e.1 line e.2) s
      { s with mm := { s.mm with
          near := s.mm.near.filter (fun c => !(c.die == die && c.line == line))
          l1 := s.mm.l1.map (fun (e : Nat × L1) => if dieOf e.1 = die then
            (e.1, { e.2 with sects := e.2.sects.filter (fun c => c / 4 != line || e.2.keeps c) }) else e) } })

/-- A write-back can arrive: no link on its way is in L1 (30 R482). -/
def State.backReady (s : State) (w : WriteBack) : Bool := (s.routeHome (dieOf w.core) (256 * w.line)).all (fun k => !(s.link k).asleep)

/-- WRITE_BACK_ARRIVE (30 R487): the bytes are merged into the line at its home. -/
def execWriteBackArrive (n : Nat) (s : State) : Host.Outcome State Fault Refusal :=
  .next (match s.mm.wbs.find? (fun w => w.n == n) with
    | none => s
    | some w =>
      if s.backReady w then
        (State.landTable { s with mm.wbs := s.mm.wbs.filter (fun x => x.n != n) } w.writes).noteFlits
          (s.routeHome (dieOf w.core) (256 * w.line))
      else s)

end Sys2Proof.Machine
end

