-- ==== Sys2Proof/Machine/HostIO.lean ====
section
/-! DEFINITION. What the host reaches through its two BARs (31 R492, R493, R496, R499, R502): the registers of BAR0 as they read
and as they are written under their field rules (28 R451 to R454, 30 R488), and device memory through BAR2. -/

namespace Sys2Proof.Machine

/-! ### BAR0 as it reads -/

/-- Q_BASE and the other registers of a queue's block, 8 bytes at a time (09 R176); the block of a queue of a dead domain reads as
zero (31 R492). -/
def State.readQueue (s : State) (q off : Nat) : Nat :=
  let r := s.queue q
  if !s.pkg.domLive (qDie q) then 0
  else
    match off with
    | 0x00 => r.base.toNat
    | 0x08 => r.ctl.toNat + (r.stat !(s.qPkts q).isEmpty).toNat * 2 ^ 32
    | 0x10 => r.wridx.toNat + r.rdidx.toNat * 2 ^ 32
    | 0x18 => r.errbase.toNat
    | 0x20 => r.erridx.toNat
    | 0x28 => r.seq.toNat
    | _ => 0

/-- The die-control block (30 R488). -/
def DieCtl.read (d : DieCtl) (off : Nat) : Nat :=
  match off with
  | 0x00 => d.dieStat.toNat + d.linkIdle.toNat * 2 ^ 32 + d.mcVec.toNat * 2 ^ 48
  | 0x08 => d.logBase.toNat
  | 0x10 => d.logIdx.toNat
  | _ => 0

/-- The debug mailbox (31 R493). -/
def Mailbox.read (m : Mailbox) (off : Nat) : Nat :=
  match off with
  | 0x00 => m.cmd.toNat + m.seq.toNat * 256
  | 0x08 => m.token.toNat
  | 0x10 => m.a0.toNat
  | 0x18 => m.a1.toNat
  | 0x20 => m.a2.toNat
  | 0x28 => m.a3.toNat
  | 0x30 => m.status.toNat + m.seqDone.toNat * 256 + (if m.busy then 2 ^ 16 else 0)
  | _ => 0

/-- A peer window's entry (31 R496). -/
def PeerWin.read (w : PeerWin) (off : Nat) : Nat :=
  match off with
  | 0x00 => w.w0.toNat
  | 0x08 => w.base.toNat
  | 0x10 => w.size.toNat
  | _ => w.cnt.toNat

/-- A peer port's status word (31 R496). -/
def Port.status (p : Port) : Nat := (if p.up then 1 else 0) + (if p.rate then 2 else 0) + p.count.toNat * 2 ^ 16

/-- A system register through the window of a context and domain (28 R451): TRACE_*, SAMPLE_CTL and TILE_PROG are not reached. -/
def State.readWindow (s : State) (ctx die index : Nat) : Nat :=
  if !s.pkg.domLive die ∨ index = 0x08 ∨ (0x10 ≤ index ∧ index ≤ 0x14) then 0
  else (s.sysColumn ctx (32 * die) 0 index).toNat

/-- The 8 bytes of BAR0 at a multiple of 8 (31 R492). -/
def State.bar0 (s : State) (off : Nat) : BitVec 64 :=
  BitVec.ofNat 64 (
    if off < 0x2000 then s.readQueue (off / 64) (off % 64)
    else if 0x10000 ≤ off ∧ off < 0x10040 then s.pkg.dctl.read (off - 0x10000)
    else if 0x11000 ≤ off ∧ off < 0x11040 then s.dbg.mailbox.read (off - 0x11000)
    else if 0x12000 ≤ off ∧ off < 0x12800 then (s.window ((off - 0x12000) / 32)).read (off % 32)
    else if off = 0x12800 ∨ off = 0x12808 then (s.port ((off - 0x12800) / 8)).status
    else if 0x13000 ≤ off ∧ off < 0x13400 then
      bitsAt (Table.read 0 s.pkg.bootRecs ((off - 0x13000) / 16)).toNat (8 * (off % 16) + 63) (8 * (off % 16))
    else if off = 0x13400 then s.pkg.alarmCfg.toNat
    else if 0x20000 ≤ off ∧ off < 0x28000 then
      ofBytes ((List.range 8).map (fun k => Table.read 0 s.pkg.msix (off - 0x20000 + k)))
    else if 0x200000 ≤ off ∧ off < 0x400000 then
      let w := (off - 0x200000) / 2048
      s.readWindow (w / 4) (w % 4) ((off % 2048) / 8)
    else 0)

/-! ### Registers as they are written -/

/-- A write in a queue's block (09 R176). DESIGN CHOICE (log entry 62): the ignored bits of Q_BASE and Q_ERRBASE read back as 0. -/
def State.putQueue (s : State) (q off : Nat) (wide : Bool) (v : Nat) : State :=
  if !s.pkg.domLive (qDie q) then s
  else
    match off, wide with
    | 0x00, _ => s.updQueue q (fun r => { r with base := BitVec.ofNat 64 (bitsAt v 47 12 * 4096) })
    | 0x08, _ => s.writeCtl q (BitVec.ofNat 32 v)
    | 0x10, _ => s.writeWridx q (BitVec.ofNat 32 v)
    | 0x18, _ => s.updQueue q (fun r => { r with errbase := BitVec.ofNat 64 (bitsAt v 47 12 * 4096) })
    | _, _ => s

/-- A write in the die-control block (30 R488); `off` is a word's. -/
def DieCtl.put (d : DieCtl) (off v : Nat) : DieCtl :=
  match off with
  | 0x04 => { d with linkIdle := BitVec.ofNat 16 v, mcVec := BitVec.ofNat 11 (bitsAt v 26 16) }
  | 0x08 => { d with logBase := BitVec.ofNat 64 (bitsAt v 47 12 * 4096) }
  | _ => d

/-- A write in the mailbox (31 R493): none has an effect while BUSY; DOOR submits the command, and a code that is none is malformed
at once. -/
def State.putMailbox (s : State) (off v : Nat) : State :=
  let m := s.dbg.mailbox
  let set (m : Mailbox) : State := { s with dbg.mailbox := m }
  if m.busy then s
  else
    match off with
    | 0x00 => set { m with cmd := BitVec.ofNat 8 v, seq := BitVec.ofNat 8 (bitsAt v 15 8) }
    | 0x08 => set { m with token := BitVec.ofNat 32 v }
    | 0x10 => set { m with a0 := BitVec.ofNat 64 v }
    | 0x18 => set { m with a1 := BitVec.ofNat 64 v }
    | 0x20 => set { m with a2 := BitVec.ofNat 64 v }
    | 0x28 => set { m with a3 := BitVec.ofNat 64 v }
    | 0x38 =>
      if bitAt v 0 then
        let s := set { m with busy := true }
        if m.cmd = 0 ∨ 14 < m.cmd.toNat then s.dbgDone 2 else s
      else s
    | _ => s

/-- A write of a peer window's entry (31 R496): while it is VALID, of VALID alone. -/
def PeerWin.put (w : PeerWin) (off v : Nat) : PeerWin :=
  if bitAt w.w0.toNat 0 then
    if off = 0x00 ∧ !bitAt v 0 then { w with w0 := w.w0 - 1 } else w
  else
    match off with
    | 0x00 => { w with w0 := BitVec.ofNat 64 (bitsAt v 8 0 + bitsAt v 23 16 * 2 ^ 16) }
    | 0x08 => { w with base := BitVec.ofNat 64 (bitsAt v 47 0) }
    | 0x10 => { w with size := BitVec.ofNat 64 (bitsAt v 47 0) }
    | _ => { w with cnt := BitVec.ofNat 64 (bitsAt v 47 0) }

/-- A write of ALARM_CFG (31 R502): a field written as 3 stays as it is, and once LOCK is 1 nothing changes. -/
def alarmPut (old : BitVec 9) (v : Nat) : BitVec 9 :=
  if bitAt old.toNat 8 then old
  else
    let field (k : Nat) : Nat :=
      let x := bitsAt v (2 * k + 1) (2 * k)
      (if x = 3 then bitsAt old.toNat (2 * k + 1) (2 * k) else x) * 4 ^ k
    BitVec.ofNat 9 (field 0 + field 1 + field 2 + field 3 + bitsAt v 8 8 * 256)

/-- A write of PART (28 R454): ignored while a slot of the core is resident, or where the partitions exceed 512 KiB. -/
def State.writePart (s : State) (core v : Nat) : State :=
  let c := s.core core
  if c.ctx0.isSome ∨ c.ctx1.isSome ∨ c.ctx2.isSome ∨ 32 < bitsAt v 4 0 + bitsAt v 9 5 + bitsAt v 14 10 then s
  else s.updCore core (fun c => { c with part := BitVec.ofNat 64 (bitsAt v 14 0) })

/-- A write of TB_SYNC (27 R428): an INTERVAL above 10 is ignored, and the register is the master die's. -/
def State.writeSync (s : State) (die v : Nat) : State :=
  if die ≠ s.pkg.master then s
  else
    let n := bitsAt v 11 8
    let n4 := if 10 < n then s.clock.sync.interval else BitVec.ofNat 4 n
    { s with clock.sync := { s.clock.sync with role := BitVec.ofNat 2 v, interval := n4 } }

/-- Spilled contributions of a context exist (28 R454). -/
def State.spills (s : State) (ctx : Nat) : Bool := s.mm.contribs.any (fun c => c.st == .spilled && c.ctx == ctx)

/-- A write of a system register through the window of a context and domain (28 R451 to R454). -/
def State.writeWindow (s : State) (ctx die index v : Nat) : State :=
  let upd (f : CtxReg → CtxReg) : State := s.updCtx ctx die f
  if !s.pkg.domLive die then s
  else
    match index with
    | 0x00 => upd (fun r => { r with trapVec := BitVec.ofNat 64 (bitsAt v 47 4 * 16) })
    | 0x01 => upd (fun r => { r with ptBase := BitVec.ofNat 64 (bitsAt v 47 12 * 4096) })
    | 0x02 => if s.spills ctx then s else upd (fun r => { r with spillBase := BitVec.ofNat 64 (bitsAt v 47 6 * 64) })
    | 0x03 => if s.spills ctx then s else upd (fun r => { r with spillSize := BitVec.ofNat 64 (bitsAt v 31 0) })
    | 0x04 =>
      (upd (fun r => { r with
        faultRing := BitVec.ofNat 64 (bitsAt v 3 0 + bitsAt v 47 12 * 2 ^ 12 + bitsAt v 59 48 * 2 ^ 48) })).offerWaiting ctx die
    | 0x06 => (upd (fun r => { r with faultRidx := BitVec.ofNat 32 v })).offerWaiting ctx die
    | 0x07 => s.faultResponse ctx die (BitVec.ofNat 32 v) (bitAt v 32)
    | 0x09 => s.writeRwTable ctx die (BitVec.ofNat 64 v)
    | 0x0A => upd (fun r => { r with sched := BitVec.ofNat 64 (bitsAt v 19 0) })
    | 0x0B => s.requestSwitch (32 * die) (BitVec.ofNat 64 v)
    | 0x0C => s.writePart (32 * die) v
    | 0x18 => s.writeSync die v
    | k =>
      if 0x40 ≤ k ∧ k ≤ 0x5F then s.writePart (32 * die + (k - 0x40)) v
      else if 0x60 ≤ k ∧ k ≤ 0x7F then s.requestSwitch (32 * die + (k - 0x60)) (BitVec.ofNat 64 v)
      else s

/-! ### A write of BAR0 -/

/-- Every boot step record is cleared (31 R499). -/
def State.clearRecords (s : State) : State := { s with pkg.bootRecs := [] }

/-- BOOT_RECORD_CLEAR (31 R499). -/
def execBootRecordClear (s : State) : Host.Outcome State Fault Refusal := .next s.clearRecords

/-- The 8 bytes that a 4-byte write leaves in a register of 8 (log entry 34). -/
def merge32 (old : BitVec 64) (off v : Nat) : Nat :=
  if off % 8 = 0 then old.toNat / 2 ^ 32 * 2 ^ 32 + v % 2 ^ 32 else old.toNat % 2 ^ 32 + v % 2 ^ 32 * 2 ^ 32

/-- The write-only system registers, whose fields lie in their low halves but for DECLINE (28 R452). -/
def isWriteOnly (index : Nat) : Bool := index == 0x07 || index == 0x0B || (decide (0x60 ≤ index) && decide (index ≤ 0x7F))

/-- The registers of BAR0 that are 8 bytes long and keep what they are given: a 4-byte write changes one half. -/
def isWideReg (off : Nat) : Bool :=
  if off < 0x2000 then decide (off % 64 < 8) || decide (off % 64 / 8 = 3)
  else if off < 0x11000 then decide (off / 8 = 0x10008 / 8)
  else if off < 0x11040 then decide (0x11010 ≤ off) && decide (off < 0x11030)
  else if off < 0x12800 then decide (0x12000 ≤ off)
  else decide (off / 8 = 0x13400 / 8) || (decide (0x200000 ≤ off) && !isWriteOnly (off % 2048 / 8))

/-- A write at `off` of a value for the register there (31 R492). -/
def State.putBar0 (s : State) (off : Nat) (wide : Bool) (v : Nat) : State :=
  if off < 0x2000 then s.putQueue (off / 64) (off % 64) wide v
  else if 0x10000 ≤ off ∧ off < 0x10040 then
    if off = 0x10000 ∧ wide then { s with pkg.dctl := s.pkg.dctl.put 0x04 (v / 2 ^ 32) }
    else { s with pkg.dctl := s.pkg.dctl.put (off - 0x10000) v }
  else if 0x11000 ≤ off ∧ off < 0x11040 then s.putMailbox (off - 0x11000) v
  else if 0x12000 ≤ off ∧ off < 0x12800 then
    { s with pkg.windows := Table.upd PeerWin.reset s.pkg.windows ((off - 0x12000) / 32) (fun w => w.put (off % 32) v) }
  else if off = 0x13000 then (if v % 2 ^ 32 = 0x0B07 then s.clearRecords else s)
  else if off = 0x13400 then { s with pkg.alarmCfg := alarmPut s.pkg.alarmCfg v }
  else if 0x20000 ≤ off ∧ off < 0x28000 then
    let put (t : Table Byte) (p : Byte × Nat) : Table Byte := Table.write 0 t (off - 0x20000 + p.2) p.1
    { s with pkg.msix := ((bytesOf (if wide then 8 else 4) v).zipIdx).foldl put s.pkg.msix }
  else if 0x200000 ≤ off ∧ off < 0x400000 then
    let w := (off - 0x200000) / 2048
    if off % 8 = 0 then s.writeWindow (w / 4) (w % 4) (off % 2048 / 8) v else s
  else s

/-- REGISTER_WRITE (28 R454; 31 R492): a naturally aligned write of 8 or 4 bytes; a 4-byte write changes one half of a register of
8 (log entry 34). -/
def execRegisterWrite (off : BitVec 32) (wide : Bool) (v : BitVec 64) (s : State) : Host.Outcome State Fault Refusal :=
  .next (let a := off.toNat
    if !s.pkg.hostUp ∨ a % (if wide then 8 else 4) ≠ 0 then s
    else if wide then s.putBar0 a true v.toNat
    else if isWideReg a then s.putBar0 (a / 8 * 8) true (merge32 (s.bar0 (a / 8 * 8)) a v.toNat)
    else s.putBar0 a false (v.toNat % 2 ^ 32))

/-! ### BAR2 -/

/-- The bytes that the host reads: all ones where no live domain backs the address (31 R492). -/
def State.hostRead (s : State) : Nat → Nat → List Byte × State
  | _, 0 => ([], s)
  | pa, n + 1 =>
    let r := if s.pkg.backed pa then s.readHome pa 1 else ([0xFF], s)
    let rest := State.hostRead r.2 (pa + 1) n
    (r.1 ++ rest.1, rest.2)

/-- The host's write: bytes that no live domain backs are discarded (31 R492); a sector that it covers is no longer poisoned (30
R484). -/
def State.hostWrite (s : State) (pa : Nat) (bs : List Byte) : State :=
  let t := (bs.zipIdx).foldl (fun (s : State) p => if s.pkg.backed (pa + p.2) then s.writeHome (pa + p.2) [p.1] else s) s
  t.cleanse ((List.range bs.length).filterMap (fun k => if s.pkg.backed (pa + k) then some (pa + k) else none))

/-- HOST_MEMORY_ACCESS (31 R492): an agent at scope sys; what is read stands in `hostData`. -/
def execHostMemoryAccess (write : Bool) (addr : BitVec 64) (data : List Byte) (s : State) : Host.Outcome State Fault Refusal :=
  .next (if !s.pkg.hostUp then s
    else if write then s.hostWrite addr.toNat data
    else
      let r := s.hostRead addr.toNat data.length
      { r.2 with pkg.hostData := r.1 })

end Sys2Proof.Machine
end

