-- ==== Sys2Proof/Machine/Boot.lean ====
section
/-! DEFINITION. Boot (31 R499, R500; 30 R472 to R474), resets (31 R506) and alarms (R501, R502, R505). -/

namespace Sys2Proof.Machine

/-! ### Resets -/

/-- All but the always-on domain is reset, and boot is to begin at a step (31 R506): the timebase, the boot step records, ALARM_CFG
and the key store stay. -/
def State.hardReset (s : State) (step : Nat) : State :=
  { State.reset with
    inputs := s.inputs
    free   := s.free
    clock  := { Clock.reset with time := s.clock.time, dieReset := s.clock.time }
    pkg    := { Pkg.reset with
      present  := s.pkg.present
      enumDies := BitVec.ofNat 64 (2 ^ s.pkg.present - 1)
      bootRecs := s.pkg.bootRecs
      boot     := .due step
      boots    := s.pkg.boots
      alarmCfg := s.pkg.alarmCfg
      alarmN   := s.pkg.alarmN
      keyStore := s.pkg.keyStore } }

/-- POWER_ON_RESET (31 R506, 27 R427): the always-on domain is cleared too; an erased key store stays erased (R502). -/
def execPowerOnReset (s : State) : Host.Outcome State Fault Refusal :=
  .next { State.reset with
    inputs := s.inputs
    free   := s.free
    pkg    := { Pkg.reset with
      present  := s.pkg.present
      enumDies := BitVec.ofNat 64 (2 ^ s.pkg.present - 1)
      boots    := s.pkg.boots
      keyStore := s.pkg.keyStore } }

/-- PORST_N (31 R506): boot begins again at step 1. -/
def execPorstN (s : State) : Host.Outcome State Fault Refusal := .next (s.hardReset 1)

/-- WRST_N (31 R506): boot begins again at step 4; the host link and the peer ports stay trained. -/
def execWrstN (s : State) : Host.Outcome State Fault Refusal :=
  .next (let t := s.hardReset 4
    { t with pkg := { t.pkg with ports := s.pkg.ports, hostUp := s.pkg.hostUp } })

/-! ### Alarms -/

/-- The action of an alarm class (31 R502). -/
def State.alarmAction (s : State) (cls : Nat) : Nat := bitsAt s.pkg.alarmCfg.toNat (2 * cls + 1) (2 * cls)

/-- An alarm (31 R501, R502, R505): it is logged, ALARM_N pulses, and its action is taken. -/
def State.alarm (s : State) (cls die : Nat) : State :=
  let act := s.alarmAction cls
  let s := s.linkLog die 5 cls act
  let s := { s with pkg.alarmN := s.pkg.alarmN + 1 }
  match act with
  | 0 => s
  | 1 => s.hardReset 1
  | _ => State.hardReset { s with pkg.keyStore := false } 1

/-- RAIL_FAULT (31 R501, R506): class 0. -/
def execRailFault (die : Nat) (s : State) : Host.Outcome State Fault Refusal := .next (s.alarm 0 (die % 4))

/-- TEMPERATURE_ALARM (31 R501): class 1. -/
def execTemperatureAlarm (die : Nat) (s : State) : Host.Outcome State Fault Refusal := .next (s.alarm 1 (die % 4))

/-- TAMPER_N (31 R501, R505): class 2. -/
def execTamperN (s : State) : Host.Outcome State Fault Refusal := .next (s.alarm 2 0)

/-- THERMTRIP (31 R505): the device stops its clocks. -/
def execThermtrip (_ : Nat) (s : State) : Host.Outcome State Fault Refusal := .next { s with pkg.clocksOff := true }

/-! ### Boot steps -/

/-- The methods of a step (31 R499). -/
def bootMethods (step : Nat) : Nat :=
  match step with
  | 2 => 2
  | 3 => 4
  | 6 => 3
  | 8 => 2
  | 9 => 2
  | _ => 1

/-- A step that verifies images tries the backup in the same boot (31 R499); the methods of the others are tried at one boot
each (log entry 35). -/
def bootTriesAll (step : Nat) : Bool := step == 2 || step == 9

/-- What came of an instance: whether it passed, the last method, and the attempts. -/
structure Tried where
  pass   : Bool
  method : Nat
  tries  : Nat

/-- The methods of an instance from `m` on, `n` having been tried. -/
def tryMethods (all : Bool) (ok : Nat → Bool) : Nat → Nat → Nat → Tried
  | 0, m, n => ⟨false, m - 1, n⟩
  | k + 1, m, n =>
    if ok m then ⟨true, m, n + 1⟩
    else if all then tryMethods all ok k (m + 1) (n + 1)
    else ⟨false, m, n + 1⟩

/-- A boot in progress: the links that have trained, the dies that work, and whether it goes on. -/
structure BootRun where
  s     : State
  links : List Nat
  dies  : List Nat
  go    : Bool

/-- A field of a boot step record (31 R499). -/
def bootField (r : BitVec 128) (byte : Nat) : Nat := bitsAt r.toNat (8 * byte + 7) (8 * byte)

/-- A boot step record is written (31 R499): `result` 0 passed, 1 failed, 2 skipped, 3 passed by fallback. -/
def State.bootRecord (s : State) (step inst result attempts method : Nat) : State :=
  let r := BitVec.ofNat 128 (step + result * 2 ^ 8 + attempts % 256 * 2 ^ 16 + method * 2 ^ 24 + inst * 2 ^ 32
    + (s.nowAt s.pkg.master).toNat * 2 ^ 64)
  { s with pkg.bootRecs := Table.put s.pkg.bootRecs (4 * step + inst) r }

/-- One instance of a step runs (31 R499): from the method after the one that failed at the previous boot, else from the first. A
third failed verification in a boot raises alarm class 3 (R501). -/
def BootRun.runOne (b : BootRun) (step inst : Nat) (ok : Nat → Bool) : Bool × BootRun :=
  let s := b.s
  let old := Table.read 0 s.pkg.bootRecs (4 * step + inst)
  let failed := bootField old 1 == 1
  let n := bootMethods step
  let m0 := if failed then min (bootField old 3 + 1) (n - 1) else 0
  let t := tryMethods (bootTriesAll step) ok (n - m0) m0 0
  let attempts := if t.pass ∧ t.method = 0 then 1 else t.tries + (if failed then bootField old 2 else 0)
  let s := s.bootRecord step inst (if !t.pass then 1 else if t.method = 0 then 0 else 3) attempts t.method
  let bad := if step = 2 ∨ step = 9 then t.tries - (if t.pass then 1 else 0) else 0
  let before := s.pkg.verFails
  let s := { s with pkg.verFails := before + bad }
  if before < 3 ∧ 3 ≤ before + bad then
    let a := s.alarm 3 0
    let off : Bool := s.alarmAction 3 != 0
    (t.pass, { b with s := a, go := b.go && !off })
  else (t.pass, { b with s := s })

/-- Instances of a step run in order; those that pass are given. -/
def BootRun.runAll (b : BootRun) (step : Nat) (insts : List Nat) (ok : Nat → Nat → Bool) : List Nat × BootRun :=
  insts.foldl (fun (r : List Nat × BootRun) i =>
    if r.2.go then
      let x := r.2.runOne step i (ok i)
      (if x.1 then r.1 ++ [i] else r.1, x.2)
    else r) ([], b)

/-- The record of an instance that a step does not run (31 R499). -/
def BootRun.skip (b : BootRun) (step inst : Nat) : BootRun := { b with s := b.s.bootRecord step inst 2 0 0 }

/-- The boot stops (31 R499). -/
def BootRun.stop (b : BootRun) : BootRun := { b with s := { b.s with pkg.boot := .stopped }, go := false }

/-- A step of the package that must pass. -/
def BootRun.must (b : BootRun) (step : Nat) (ok : Nat → Bool) : BootRun :=
  let r := b.runOne step 0 ok
  if r.1 || !r.2.go then r.2 else r.2.stop

/-- A step of each die: those that fail no longer work, and it is skipped for those that do not. -/
def BootRun.perDie (b : BootRun) (step : Nat) (ok : Nat → Nat → Bool) : BootRun :=
  let b := ((List.range b.s.pkg.present).filter (fun d => !b.dies.contains d)).foldl (fun b d => b.skip step d) b
  let r := b.runAll step b.dies ok
  { r.2 with dies := r.1 }

/-- The dies joined to `seen` by links that trained, to a depth of `n` (30 R472). -/
def joinDies (links dies : List Nat) : Nat → List Nat → List Nat
  | 0, seen => seen
  | n + 1, seen =>
    let near (d : Nat) : Bool := links.any (fun k =>
      (k == d && seen.contains ((k + 1) % 4)) || ((k + 1) % 4 == d && seen.contains k))
    joinDies links dies n (seen ++ dies.filter (fun d => !seen.contains d && near d))

/-- The dies that stay live (30 R472): those connected to the lowest-numbered working die, in ascending order. -/
def liveDies (links dies : List Nat) : List Nat :=
  match dies with
  | [] => []
  | d :: _ => dies.filter (joinDies links dies 3 [d]).contains

/-- Step 9 (31 R499): a die that fails is fenced at once, and what remains connected stays live. -/
def BootRun.frontEnds (b : BootRun) (ok : Nat → Nat → Bool) : BootRun :=
  (List.range b.s.pkg.present).foldl (fun (b : BootRun) d =>
    if !b.go then b
    else if !b.dies.contains d then b.skip 9 d
    else
      let r := b.runOne 9 d (ok d)
      if r.1 then r.2 else { r.2 with dies := liveDies r.2.links (r.2.dies.filter (· != d)) }) b

/-! ### The end of boot -/

/-- Links of a package (30 R471). -/
def bootLinks (present : Nat) : List Nat := if present = 4 then [0, 1, 2, 3] else if present = 2 then [0] else []

/-- The log2 of the largest power of two that does not exceed `n`, up to 36 (30 R474). -/
def dramLog (n : Nat) : Nat := min 36 (Nat.log2 n)

/-- The enumeration of the package whose live dies are given, with the memory that each has (30 R473, R474, R488). DLOG2 has five
bits, which hold no value above 31: its field is then `open5` (log entry 16). -/
def Pkg.enumerate (p : Pkg) (dies : List Nat) (links : Table Link) (caps : List Nat) (open5 : BitVec 5) : Pkg :=
  let n := dies.length
  let dmap := (dies.zipIdx).foldl (fun v e => v + e.1 * 4 ^ e.2) 0
  let range := n = 1 ∨ n = 3
  let dlog := dramLog (caps.foldl min (2 ^ 36))
  let stat := (List.range p.present).foldl (fun v d => v + (if dies.contains d then 1 else 2) * 4 ^ d) 0
  { p with
    enumDies := BitVec.ofNat 64 ((2 ^ p.present - 1) + maskOf dies * 2 ^ 4 + n * 2 ^ 8 + n * 2 ^ 11 + dmap * 2 ^ 16)
    enumSlices := BitVec.ofNat 64 ((2 ^ (8 * n) - 1) + (if range then 0 else 2 ^ 32) + 36 * 2 ^ 33
      + (if dlog < 32 then dlog else open5.toNat) * 2 ^ 39)
    dlog := dlog
    links := links
    master := 0
    dctl := { p.dctl with dieStat := BitVec.ofNat 8 stat } }

/-- The ports that have trained, and those of a warm reset, which stay so (31 R499, R506). -/
def BootRun.ports (b : BootRun) (ok : Nat → Nat → Bool) : BootRun :=
  [0, 1].foldl (fun (b : BootRun) k =>
    if !b.go then b
    else if (b.s.port k).up then b.skip 8 k
    else
      let r := b.runOne 8 k (ok k)
      let half : Bool := bootField (Table.read 0 r.2.s.pkg.bootRecs (32 + k)) 3 == 1
      let up := r.1
      let ps := Table.upd Port.reset r.2.s.pkg.ports k (fun p => { p with up := up, rate := up && half })
      { r.2 with s := { r.2.s with pkg.ports := ps } }) b

/-- Boot ends (30 R472 to R474, 27 R436): the live dies are enumerated, links and the root capabilities stand. -/
def BootRun.finish (b : BootRun) : State :=
  if !b.go then b.s
  else if b.dies.isEmpty then { b.s with pkg.boot := .stopped }
  else
    let s := b.s
    let links : Table Link := b.links.map (fun k => (k, ⟨true, false, 0, s.clock.time, s.clock.time, none⟩))
    let s := { s with pkg := { s.pkg.enumerate b.dies links (b.dies.map Config.installed) (Config.freeBits 5 s.free) with boot := .done } }
    let s := s.drew
    (List.range 256).foldl (fun (s : State) c => s.rootCap c) s.reorder

/-- Step 3 (31 R499): without a trained link the boot goes on without a host. -/
def BootRun.host (b : BootRun) (ok : Nat → Bool) : BootRun :=
  let r := b.runOne 3 0 ok
  { r.2 with s := { r.2.s with pkg.hostUp := r.1 } }

/-- The boot sequence from a step (31 R499). -/
def State.runBoot (s : State) (step : Nat) : State :=
  let n := s.pkg.boots
  let ok (k i m : Nat) : Bool := Config.bootPass n k i m
  let s := { s with pkg := { s.pkg with boots := n + 1, verFails := 0, boot := .done } }
  let b : BootRun := ⟨s, [], List.range s.pkg.present, true⟩
  let b := if step ≤ 1 then b.must 1 (ok 1 0) else b
  let b := if step ≤ 2 ∧ b.go then b.must 2 (ok 2 0) else b
  let b := if step ≤ 3 ∧ b.go then b.host (ok 3 0) else b
  if !b.go then b.s
  else
    let r := b.runAll 4 (bootLinks s.pkg.present) (ok 4)
    let b := { r.2 with links := r.1 }
    let b := b.perDie 5 (ok 5)
    let b := b.perDie 6 (fun d m => ok 6 d m && decide (2 ^ 30 ≤ Config.installed d))
    let b := b.perDie 7 (ok 7)
    let b := b.ports (ok 8)
    (BootRun.frontEnds { b with dies := liveDies b.links b.dies } (ok 9)).finish

/-- BOOT (31 R499). -/
def execBoot (s : State) : Host.Outcome State Fault Refusal :=
  .next (match s.pkg.boot with
    | .due step => s.runBoot step
    | .done | .stopped => s)

/-- PERST_N (31 R506): the host function is reset, and step 3 runs again. -/
def execPerstN (s : State) : Host.Outcome State Fault Refusal :=
  .next (match s.pkg.boot with
    | .done =>
      let n := s.pkg.boots
      let s := { s with pkg := { s.pkg with msix := [], msis := [], hostData := [], boots := n + 1 } }
      (BootRun.host ⟨s, [], [], true⟩ (Config.bootPass n 3 0)).s
    | .due _ | .stopped => s)

end Sys2Proof.Machine
end

