-- ==== Sys2Proof/Machine/Control.lean ====
section
/-! DEFINITION. Control transfers (07 R140 to R146) and reconvergence (10 R206 to R208). -/

namespace Sys2Proof.Machine

/-- Cycles from a transfer taken to the first group at its target, at the least (07 R147): a `ret` to the link of the warp's most
recent `call` is predicted (R144). -/
def Iss.turnaround (i : Iss) : Nat :=
  match i.op with
  | .bra | .call => 3
  | .ret => if i.targets.all (fun p => some (BitVec.ofNat 48 p.2) == i.warp.link) then 3 else 6
  | _ => 6

/-- Each active lane goes to its target at the end of the group (07 R143). -/
def transfer (i : Iss) (s : State) : State :=
  let s := i.targets.foldl (fun s p =>
    s.updThread i.team.id p.1.th.ltid (fun th => { th with next := some (BitVec.ofNat 48 p.2) })) s
  let due := s.clock.clk + i.turnaround
  s.updTeam i.team.id (fun t => t.updWarp i.warp.id (fun w => { w with due := due }))

/-- The link is written in every active lane (07 R143, R144). -/
def link (e : Enc) (i : Iss) (s : State) : State :=
  (s.give i i.act { outs := dst e.d 2 (i.pc + 16).toNat } i.src).updTeam i.team.id (fun t =>
    t.updWarp i.warp.id (fun w => { w with link := some (i.pc + 16) }))

/-- `bra` (07 R143). -/
def execBra (e : Enc) (s : State) : Host.Outcome State Fault Refusal := issued .bra e transfer s

/-- `brx` (07 R143). -/
def execBrx (e : Enc) (s : State) : Host.Outcome State Fault Refusal := issued .brx e transfer s

/-- `brx.rel` (07 R141, R143). -/
def execBrxRel (e : Enc) (s : State) : Host.Outcome State Fault Refusal := issued .brxRel e transfer s

/-- `call` (07 R143, R144). -/
def execCall (e : Enc) (s : State) : Host.Outcome State Fault Refusal := issued .call e (fun i s => transfer i (link e i s)) s

/-- `call.x` (07 R143, R144). -/
def execCallX (e : Enc) (s : State) : Host.Outcome State Fault Refusal := issued .callX e (fun i s => transfer i (link e i s)) s

/-- `ret` (07 R143, R144). -/
def execRet (e : Enc) (s : State) : Host.Outcome State Fault Refusal := issued .ret e transfer s

/-- `exit` (07 R145, 08 R172). -/
def execExit (e : Enc) (s : State) : Host.Outcome State Fault Refusal :=
  issued .exit e (fun i s => (s.endThreads i.team.id (i.act.map (fun l => l.th.ltid))).wakes) s

/-! ### Regions -/

/-- `rgn` (10 R206): one instance counts the active threads and stands on the stack of each. -/
def execRgn (e : Enc) (s : State) : Host.Outcome State Fault Refusal :=
  issued .rgn e (fun i s =>
    let full := i.act.filter (fun l => decide (16 ≤ l.th.stack.length))
    if !full.isEmpty then s.faultAll i 0x20 1 (laneMask full)
    else
      let ids := i.act.map (fun l => l.th.ltid)
      s.updTeam i.team.id (fun t =>
        { t.updThreads ids (fun th => { th with stack := ⟨t.nextI, BitVec.ofNat 48 (regionLabel e i.pc)⟩ :: th.stack }) with
          insts := t.insts ++ [⟨t.nextI, ids, []⟩], nextI := t.nextI + 1 })) s

/-- The top entry of a thread's region stack names the packet. -/
def atJoin (pc : VAddr) (l : Lane) : Bool := (l.th.stack.head?.map Region.label) == some pc

/-- `join` (10 R207): every active thread pops its entry and waits. -/
def execJoin (e : Enc) (s : State) : Host.Outcome State Fault Refusal :=
  issued .join e (fun i s =>
    let bad := i.act.filter (fun l => !atJoin i.pc l)
    if !bad.isEmpty then s.faultAll i 0x20 2 (laneMask bad)
    else
      (i.act.foldl (fun s l =>
        match l.th.stack with
        | [] => s
        | r :: rest => s.updTeam i.team.id (fun t =>
            { t.updThread l.th.ltid (fun th => { th with stack := rest, wait := .join r.inst }) with
              insts := t.insts.map (fun q => if q.id = r.inst then { q with arrived := q.arrived ++ [l.th.ltid] } else q) })) s).wakes) s

/-- `rgp` (10 R208). -/
def execRgp (e : Enc) (s : State) : Host.Outcome State Fault Refusal :=
  issued .rgp e (fun i s =>
    (s.updTeam i.team.id (fun t => t.updThreads (i.act.map (fun l => l.th.ltid))
      (fun th => { th with wait := .rgp i.pc i.turn.slot }))).wakes) s

end Sys2Proof.Machine
end

