-- ==== Sys2Proof/Machine/Packed.lean ====
section
/-! DEFINITION. Packed and saturating integer forms and the sticky-flag form (06 R118 to R124). -/

namespace Sys2Proof.Machine

/-- Element `i` of width `w` of a packed operand, and a packed result (02 R27). -/
def elemOf (w x i : Nat) : Nat := bitsAt x (w * i + w - 1) (w * i)
@[inherit_doc elemOf]
def packElems (w : Nat) (xs : List Nat) : Nat := (xs.zipIdx).foldl (fun n p => n + lowBits w p.1 * 2 ^ (w * p.2)) 0

/-- Element width of a packed type (02 R24). -/
def elemWidth (ty : Nat) : Nat := if ty = 0x10 || ty = 0x11 || ty = 0x12 then 16 else if ty = 0x15 then 4 else 8

/-- An exact element result narrowed (06 R119). -/
def narrowElem (signed sat : Bool) (w : Nat) (v : Int) : Nat × BitVec 6 :=
  if sat then let c := clampInt signed w v; (wrapInt w c, satFlag true v c) else (wrapInt w v, 0)

/-- Results of elements gathered: bits packed and flags ORed (02 R27). -/
def gather (w : Nat) (rs : List FRes) : FRes := (packElems w (rs.map Prod.fst), (rs.map Prod.snd).foldl (· ||| ·) 0)

/-- A packed two-source form (06 R119). -/
def packed2 (op : Op) (f : Int → Int → Int) (e : Enc) : Iss → State → State :=
  let w := elemWidth (typeOf 0x10 e)
  let sg := e.x.aux.toNat % 2 == 0
  alu (fun l =>
    let a := l.src 1 e.a.toNat
    let b := l.opB op e 1 3
    let r := gather w ((List.range (32 / w)).map (fun i =>
      narrowElem sg (e.x.sat == 1) w (f (readInt sg w (elemOf w a i)) (readInt sg w (elemOf w b i)))))
    { outs := dst e.d 1 r.1, flags := r.2 })

/-- `add2` (06 R118). -/
def execAdd2 (e : Enc) (s : State) : Host.Outcome State Fault Refusal := issued .add2 e (packed2 .add2 (· + ·) e) s

/-- `sub2` (06 R118). -/
def execSub2 (e : Enc) (s : State) : Host.Outcome State Fault Refusal := issued .sub2 e (packed2 .sub2 (· - ·) e) s

/-- `mul2` (06 R118). -/
def execMul2 (e : Enc) (s : State) : Host.Outcome State Fault Refusal := issued .mul2 e (packed2 .mul2 (· * ·) e) s

/-- `mac2` (06 R120): the whole exact sum is saturated once. -/
def execMac2 (e : Enc) (s : State) : Host.Outcome State Fault Refusal :=
  issued .mac2 e (alu (fun l =>
    let a := l.src 1 e.a.toNat
    let b := l.opB .mac2 e 1 3
    let p (i : Nat) : Int := toSigned 16 (elemOf 16 a i) * toSigned 16 (elemOf 16 b i)
    let v := toSigned 32 (l.opC e 1) + p 0 + p 1
    let c := clampInt true 32 v
    { outs := dst e.d 1 (wrapInt 32 c), flags := satFlag true v c })) s

/-- One element of `shrn`: the exact quotient rounded once and saturated (06 R121). The amount is cut at 64, beyond
which every quotient rounds the same. -/
def shrnElem (rnd : Nat) (signed : Bool) (w x n : Nat) : FRes :=
  let v := toSigned 32 x
  let q := (roundInt rnd (decide (v < 0)) v.natAbs (-(min 64 n : Nat))).1
  let c := clampInt signed w q
  (wrapInt w c, satFlag true q c)

/-- `shrn` (06 R121). -/
def execShrn (e : Enc) (s : State) : Host.Outcome State Fault Refusal :=
  let ty := typeOf 7 e
  let rnd := e.x.rnd.toNat
  issued .shrn e (alu (fun l =>
    let n := l.opB .shrn e 1 3
    if ty = 0x10 ∨ ty = 0x16 then
      let w := elemWidth ty
      let k := 32 / w
      let a := l.src k e.a.toNat
      let r := gather w ((List.range k).map (fun i => shrnElem rnd true w (bitsAt a (32 * i + 31) (32 * i)) n))
      { outs := dst e.d 1 r.1, flags := r.2 }
    else
      let r := shrnElem rnd (isSigned ty) (typeWidth ty) (l.src 1 e.a.toNat) n
      { outs := dst e.d 1 (extend32 (isSigned ty) (typeWidth ty) r.1), flags := r.2 })) s

/-- `pk2` (06 R122). -/
def execPk2 (e : Enc) (s : State) : Host.Outcome State Fault Refusal :=
  let aux := e.x.aux.toNat
  issued .pk2 e (alu (fun l =>
    let a := l.src 1 e.a.toNat
    let b := l.opB .pk2 e 1 3
    let r := if e.x.sat = 1 then gather 16 [narrowElem true true 16 (toSigned 32 a), narrowElem true true 16 (toSigned 32 b)]
      else gather 16 [(elemOf 16 a (aux % 2), 0), (elemOf 16 b (aux / 2 % 2), 0)]
    { outs := dst e.d 1 r.1, flags := r.2 })) s

/-- `unpk` (06 R123): integer elements are sign-extended. -/
def execUnpk (e : Enc) (s : State) : Host.Outcome State Fault Refusal :=
  let ty := typeOf 0x10 e
  let w := elemWidth ty
  issued .unpk e (alu (fun l =>
    { outs := dst e.d 1 (extend32 (ty == 0x10 || ty == 0x16) w (elemOf w (l.src 1 e.a.toNat) e.x.aux.toNat)) })) s

/-- `sflg` (06 R124): flags are read and, with `.clr`, cleared in one step. -/
def execSflg (e : Enc) (s : State) : Host.Outcome State Fault Refusal :=
  issued .sflg e (fun i s =>
    i.act.foldl (fun s l =>
      let f := s.flagsOf i l
      let mask := if e.x.aux.toNat = 1 then BitVec.ofNat 6 (l.opB .sflg e 1 3) else 0
      (s.give i [l] { outs := dst e.d 1 f.toNat } i.src).updThread i.team.id l.th.ltid
        (fun th => { th with flags := th.flags &&& ~~~mask })) s) s

end Sys2Proof.Machine
end

