-- ==== Sys2Proof/Machine/FloatArith.lean ====
section
/-! DEFINITION. Floating-point arithmetic, half pairs, special functions, division and conversions (06 R125 to R139). -/

namespace Sys2Proof.Machine

/-- The format of a form's type (06 R125). -/
def fmtIn (dflt : Nat) (e : Enc) : Fmt := (fmtOf (typeOf dflt e)).getD f32

/-- A floating form of one, two or three 32-bit sources; its result is zero-extended (02 R26). -/
def float1 (f : Nat → FRes) (e : Enc) : Iss → State → State :=
  alu (fun l => let r := f (l.src 1 e.a.toNat); { outs := dst e.d 1 r.1, flags := r.2 })
@[inherit_doc float1]
def float2 (op : Op) (f : Nat → Nat → FRes) (e : Enc) : Iss → State → State :=
  alu (fun l => let r := f (l.src 1 e.a.toNat) (l.opB op e 1 3); { outs := dst e.d 1 r.1, flags := r.2 })
@[inherit_doc float1]
def float3 (op : Op) (f : Nat → Nat → Nat → FRes) (e : Enc) : Iss → State → State :=
  alu (fun l => let r := f (l.src 1 e.a.toNat) (l.opB op e 1 3) (l.opC e 1); { outs := dst e.d 1 r.1, flags := r.2 })

/-- RND and SAT of an instruction. -/
def rndOf (e : Enc) : Nat := e.x.rnd.toNat
@[inherit_doc rndOf]
def satOf (e : Enc) : Bool := e.x.sat == 1

/-- `fadd` (06 R126). -/
def execFadd (e : Enc) (s : State) : Host.Outcome State Fault Refusal :=
  issued .fadd e (float2 .fadd ((fmtIn 0xC e).add (rndOf e) (satOf e)) e) s

/-- `fsub` (06 R126). -/
def execFsub (e : Enc) (s : State) : Host.Outcome State Fault Refusal :=
  issued .fsub e (float2 .fsub ((fmtIn 0xC e).sub (rndOf e) (satOf e)) e) s

/-- `fmul` (06 R126). -/
def execFmul (e : Enc) (s : State) : Host.Outcome State Fault Refusal :=
  issued .fmul e (float2 .fmul ((fmtIn 0xC e).mul (rndOf e) (satOf e)) e) s

/-- `ffma` (06 R126). -/
def execFfma (e : Enc) (s : State) : Host.Outcome State Fault Refusal :=
  issued .ffma e (float3 .ffma ((fmtIn 0xC e).fma (rndOf e) (satOf e)) e) s

/-- `fmin` (06 R127). -/
def execFmin (e : Enc) (s : State) : Host.Outcome State Fault Refusal :=
  issued .fmin e (float2 .fmin ((fmtIn 0xC e).minmax false) e) s

/-- `fmax` (06 R127). -/
def execFmax (e : Enc) (s : State) : Host.Outcome State Fault Refusal :=
  issued .fmax e (float2 .fmax ((fmtIn 0xC e).minmax true) e) s

/-- The sign bits of a scalar or of both elements of a pair, and the bits of the result (06 R128). -/
def signBits (ty : Nat) : Nat := if ty = 0xC then 0x80000000 else if ty = 0xA ∨ ty = 0xB then 0x8000 else 0x80008000
@[inherit_doc signBits]
def signWidth (ty : Nat) : Nat := if ty = 0xA ∨ ty = 0xB then 16 else 32

/-- `fneg` (06 R128). -/
def execFneg (e : Enc) (s : State) : Host.Outcome State Fault Refusal :=
  let ty := typeOf 0xC e
  issued .fneg e (float1 (fun x => (lowBits (signWidth ty) x ^^^ signBits ty, 0)) e) s

/-- `fabs` (06 R128). -/
def execFabs (e : Enc) (s : State) : Host.Outcome State Fault Refusal :=
  let ty := typeOf 0xC e
  issued .fabs e (float1 (fun x => ((lowBits (signWidth ty) x ||| signBits ty) ^^^ signBits ty, 0)) e) s

/-- `fcmp` (06 R129). -/
def execFcmp (e : Enc) (s : State) : Host.Outcome State Fault Refusal :=
  issued .fcmp e (alu (fun l =>
    let r := (fmtIn 0xC e).compare e.x.c.toNat (l.src 1 e.a.toNat) (l.opB .fcmp e 1 3)
    { outs := dstP e.d r.1, flags := r.2 })) s

/-- `fcls` (06 R130). -/
def execFcls (e : Enc) (s : State) : Host.Outcome State Fault Refusal :=
  issued .fcls e (float1 (fun x => ((fmtIn 0xC e).classify x, 0)) e) s

/-- `frnd` (06 R131). -/
def execFrnd (e : Enc) (s : State) : Host.Outcome State Fault Refusal :=
  issued .frnd e (float1 ((fmtIn 0xC e).integral (rndOf e)) e) s

/-! ### Special functions and division -/

/-- `frcp` (06 R132, R133, R135). -/
def execFrcp (e : Enc) (s : State) : Host.Outcome State Fault Refusal := issued .frcp e (float1 (frcpBits (satOf e)) e) s

/-- `frsq` (06 R132, R133, R135). -/
def execFrsq (e : Enc) (s : State) : Host.Outcome State Fault Refusal := issued .frsq e (float1 (frsqBits (satOf e)) e) s

/-- `fsqrt` (06 R132, R134, R135). -/
def execFsqrt (e : Enc) (s : State) : Host.Outcome State Fault Refusal :=
  issued .fsqrt e (float1 (fsqrtBits (rndOf e) (satOf e)) e) s

/-- `fdiv` (06 R132, R134, R135). -/
def execFdiv (e : Enc) (s : State) : Host.Outcome State Fault Refusal :=
  issued .fdiv e (float2 .fdiv (fdivBits (rndOf e) (satOf e)) e) s

/-- `fex2` (06 R132, R133, R135). -/
def execFex2 (e : Enc) (s : State) : Host.Outcome State Fault Refusal := issued .fex2 e (float1 (fex2Bits (satOf e)) e) s

/-- `flg2` (06 R132, R133, R135). -/
def execFlg2 (e : Enc) (s : State) : Host.Outcome State Fault Refusal := issued .flg2 e (float1 (flg2Bits (satOf e)) e) s

/-- `fsin` (06 R132, R133, R135). -/
def execFsin (e : Enc) (s : State) : Host.Outcome State Fault Refusal := issued .fsin e (float1 (fsinBits (satOf e)) e) s

/-- `fcos` (06 R132, R133, R135). -/
def execFcos (e : Enc) (s : State) : Host.Outcome State Fault Refusal := issued .fcos e (float1 (fcosBits (satOf e)) e) s

/-! ### Half pairs -/

/-- Each element of a pair as the scalar form would compute it (06 R136). -/
def pair2 (f : Nat → Nat → FRes) (x y : Nat) : FRes :=
  gather 16 ([0, 1].map (fun i => f (elemOf 16 x i) (elemOf 16 y i)))
@[inherit_doc pair2]
def pair3 (f : Nat → Nat → Nat → FRes) (x y z : Nat) : FRes :=
  gather 16 ([0, 1].map (fun i => f (elemOf 16 x i) (elemOf 16 y i) (elemOf 16 z i)))

/-- `hadd2` (06 R136). -/
def execHadd2 (e : Enc) (s : State) : Host.Outcome State Fault Refusal :=
  issued .hadd2 e (float2 .hadd2 (pair2 ((fmtIn 0x11 e).add (rndOf e) (satOf e))) e) s

/-- `hmul2` (06 R136). -/
def execHmul2 (e : Enc) (s : State) : Host.Outcome State Fault Refusal :=
  issued .hmul2 e (float2 .hmul2 (pair2 ((fmtIn 0x11 e).mul (rndOf e) (satOf e))) e) s

/-- `hfma2` (06 R136). -/
def execHfma2 (e : Enc) (s : State) : Host.Outcome State Fault Refusal :=
  issued .hfma2 e (float3 .hfma2 (pair3 ((fmtIn 0x11 e).fma (rndOf e) (satOf e))) e) s

/-! ### Conversions -/

/-- One scalar conversion by the cases of 06 R137. -/
def convert (td ts rnd : Nat) (sat : Bool) (x : Nat) : FRes :=
  match fmtOf ts, fmtOf td with
  | none, none => narrow td sat (readInt (isSigned ts) (typeWidth ts) x)
  | none, some g => g.ofInt rnd sat (readInt (isSigned ts) (typeWidth ts) x)
  | some f, none =>
    let r := f.toInt rnd (isSigned td) (typeWidth td) x
    (extend32 (isSigned td) (typeWidth td) (wrapInt (typeWidth td) r.1), r.2)
  | some f, some g => f.convert g rnd sat x

/-- `cvt` (06 R137). -/
def execCvt (e : Enc) (s : State) : Host.Outcome State Fault Refusal :=
  let td := e.x.type.toNat
  let ts := e.x.c.toNat
  issued .cvt e (alu (fun l =>
    let r := convert td ts (rndOf e) (satOf e) (l.src (typeRegs ts) e.a.toNat)
    { outs := dst e.d (typeRegs td) r.1, flags := r.2 })) s

/-- `cvpk` (06 R138): elements come from the words of a and then of b. -/
def execCvpk (e : Enc) (s : State) : Host.Outcome State Fault Refusal :=
  let ty := typeOf 0x11 e
  let g := fmtIn 0x11 e
  let k := 16 / elemWidth ty
  issued .cvpk e (alu (fun l =>
    let ws := wordsOf k (l.src k e.a.toNat) ++ wordsOf k (l.src k e.b.toNat)
    let r := gather (elemWidth ty) (ws.map (fun w => f32.convert g (rndOf e) (satOf e) w.toNat))
    { outs := dst e.d 1 r.1, flags := r.2 })) s

/-- `cvup` (06 R139): each element widens to FP32. -/
def execCvup (e : Enc) (s : State) : Host.Outcome State Fault Refusal :=
  let ty := typeOf 0x11 e
  let g := fmtIn 0x11 e
  let w := elemWidth ty
  let n := if w = 16 then 2 else 4
  issued .cvup e (alu (fun l =>
    let x := l.src 1 e.a.toNat
    let r := gather 32 ((List.range n).map (fun k => g.convert f32 0 false (elemOf w x (4 * e.x.aux.toNat + k))))
    { outs := dst e.d n r.1, flags := r.2 })) s

end Sys2Proof.Machine
end

