-- ==== Sys2Proof/Machine/CrossLane.lean ====
section
/-! DEFINITION. Votes, matches, slides, shuffles, broadcasts, reductions and scans (10 R194 to R205). -/

namespace Sys2Proof.Machine

/-- One result for every active lane. -/
def toAll (i : Iss) (s : State) (r : Res) : State := s.give i i.act r i.src

/-- `vote` (10 R197). -/
def execVote (e : Enc) (s : State) : Host.Outcome State Fault Refusal :=
  issued .vote e (fun i s =>
    let xs := i.act.filter (fun l => l.psrc e.a.toNat)
    toAll i s { outs := match e.x.aux.toNat with
      | 0 => dstP e.d (xs.length == i.act.length)
      | 1 => dstP e.d (!xs.isEmpty)
      | 2 => dstP e.d (xs.isEmpty || xs.length == i.act.length)
      | 3 => dst e.d 2 (laneMask xs)
      | _ => dst e.d 1 xs.length }) s

/-- `match` (10 R198). -/
def execMatchOp (e : Enc) (s : State) : Host.Outcome State Fault Refusal :=
  let n := typeRegs (typeOf 3 e)
  issued .matchOp e (fun i s =>
    i.act.foldl (fun s l =>
      let m := i.act.filter (fun k => k.src n e.a.toNat == l.src n e.a.toNat)
      let same := m.length == i.act.length
      s.give i [l] (if e.x.aux.toNat = 0 then { outs := dst e.d 2 (laneMask m) }
        else { outs := dst e.d 2 (if same then laneMask i.act else 0) ++ dstP e.x.c same }) i.src) s) s

/-- `elect` (10 R199). -/
def execElect (e : Enc) (s : State) : Host.Outcome State Fault Refusal :=
  issued .elect e (fun i s =>
    let low := (i.act.head?.map Lane.lane).getD 0
    i.act.foldl (fun s l => s.give i [l] { outs := dst e.d 1 low ++ dstP e.a (l.lane == low) } i.src) s) s

/-- Element `q` of a sequence of the active lanes' words, and zero for a lane that is not active (10 R200). -/
def slideElem (half : Bool) (act : List Lane) (f : Lane → Nat) (q : Nat) : Nat :=
  match act.find? (fun l => l.lane == (if half then q / 2 else q)) with
  | some l => if half then elemOf 16 (f l) (q % 2) else f l
  | none => 0

/-- Element `j` of the slide (10 R200): `n` lanes, shift `k`, downward with `dn`. -/
def slide (dn half : Bool) (act : List Lane) (a f : Lane → Nat) (n k j : Nat) : Nat :=
  let c := if half then 2 * n else n
  let q : Int := if dn then (j : Int) + k else (c : Int) + j - k
  if q < 0 ∨ 2 * (c : Int) ≤ q then 0
  else
    let m := q.toNat
    slideElem half act (if decide (m < c) == dn then a else f) (m % c)

/-- `sld` (10 R200). -/
def execSld (e : Enc) (s : State) : Host.Outcome State Fault Refusal :=
  let aux := e.x.aux.toNat
  let half := bitAt aux 1
  issued .sld e (fun i s =>
    let k := (e.lit.getD 0).toNat
    let one (j : Nat) : Nat := slide (bitAt aux 0) half i.act (fun l => l.src 1 e.a.toNat) (fun l => l.src 1 e.b.toNat)
      i.warp.lanes.length k j
    i.act.foldl (fun s l =>
      let v := if half then packElems 16 [one (2 * l.lane), one (2 * l.lane + 1)] else one l.lane
      s.give i [l] { outs := dst e.d 1 v } i.src) s) s

/-- The active lane of a number. -/
def Iss.lane? (i : Iss) (k : Int) : Option Lane := i.act.find? (fun l => (l.lane : Int) == k)

/-- `shfl` (10 R201). -/
def execShfl (e : Enc) (s : State) : Host.Outcome State Fault Refusal :=
  let n := typeRegs (typeOf 3 e)
  issued .shfl e (fun i s =>
    i.act.foldl (fun s l =>
      let b : Nat := l.opB .shfl e 1 3
      let k : Int := match e.x.aux.toNat with
        | 0 => b
        | 1 => (l.lane : Int) - b
        | 2 => (l.lane : Int) + b
        | _ => Int.ofNat (l.lane ^^^ b)
      s.give i [l] { outs := dst e.d n (((i.lane? k).getD l).src n e.a.toNat) } i.src) s) s

/-- `lbc` (10 R202). -/
def execLbc (e : Enc) (s : State) : Host.Outcome State Fault Refusal :=
  let n := typeRegs (typeOf 3 e)
  issued .lbc e (fun i s =>
    let b := (i.act.head?.map (fun l => l.opB .lbc e 1 3)).getD 0
    toAll i s { outs := dst e.d n (((i.lane? b).map (fun l => l.src n e.a.toNat)).getD 0) }) s

/-! ### Reductions and scans -/

/-- The default type of an operation (10 R203). -/
def foldType (e : Enc) : Nat := typeOf (if e.x.aux.toNat ≤ 2 then 8 else 3) e

/-- An integer operation on exact values (10 R203); bitwise operations act on patterns of the type. -/
def foldInt (aux w : Nat) (x y : Int) : Int :=
  match aux with
  | 0 => x + y
  | 1 => Min.min x y
  | 2 => Max.max x y
  | 3 => ((wrapInt w x &&& wrapInt w y : Nat) : Int)
  | 4 => ((wrapInt w x ||| wrapInt w y : Nat) : Int)
  | _ => ((wrapInt w x ^^^ wrapInt w y : Nat) : Int)

/-- An f32 step (10 R203 to R205). -/
def foldF32 (aux rnd : Nat) (sat : Bool) (x y : Nat) : FRes :=
  match aux with
  | 0 => f32.add rnd sat x y
  | 1 => f32.minmax false x y
  | _ => f32.minmax true x y

/-- One level of the tree over lane positions: neighbours combined, an absent one skipped (10 R204). -/
def treeLevel (f : Nat → Nat → FRes) : List (Option FRes) → List (Option FRes)
  | x :: y :: rest =>
    (match x, y with
      | none, y => y
      | x, none => x
      | some a, some b => let r := f a.1 b.1; some (r.1, a.2 ||| b.2 ||| r.2)) :: treeLevel f rest
  | l => l

/-- The fixed tree over the 64 lane positions (10 R204). -/
def tree (f : Nat → Nat → FRes) (xs : List (Option FRes)) : Nat → List (Option FRes)
  | 0 => xs
  | n + 1 => tree f (treeLevel f xs) n

/-- A non-empty fold of integers in lane order. -/
def foldInts (aux w : Nat) : List Int → Int
  | [] => 0
  | x :: xs => xs.foldl (foldInt aux w) x

/-- `wrdx` (10 R204). -/
def execWrdx (e : Enc) (s : State) : Host.Outcome State Fault Refusal :=
  let ty := foldType e
  let n := typeRegs ty
  let aux := e.x.aux.toNat
  issued .wrdx e (fun i s =>
    let r : FRes := if ty = 0xC then
        let leaf (k : Nat) : Option FRes := (i.lane? k).map (fun l => (l.src 1 e.a.toNat, 0))
        ((tree (foldF32 aux (rndOf e) (satOf e)) ((List.range 64).map leaf) 6).head?.getD none).getD (0, 0)
      else narrow ty (satOf e) (foldInts aux (typeWidth ty)
        (i.act.map (fun l => readInt (isSigned ty) (typeWidth ty) (l.src n e.a.toNat))))
    toAll i s { outs := dst e.d n r.1, flags := r.2 }) s

/-- What a lane with nothing to fold receives (10 R205). -/
def foldIdentity (aux ty : Nat) : Nat :=
  let w := typeWidth ty
  match aux with
  | 1 => if ty = 0xC then f32.infBits else wrapInt w (intMax (isSigned ty) w)
  | 2 => if ty = 0xC then f32.signBit + f32.infBits else wrapInt w (intMin (isSigned ty) w)
  | 3 => 2 ^ w - 1
  | _ => 0

/-- The fold of a lane of `wscan`: sequential, each f32 step rounded once (10 R205). -/
def scanFold (aux ty rnd : Nat) (sat : Bool) (xs : List Nat) : FRes :=
  match xs with
  | [] => (foldIdentity aux ty, 0)
  | x :: rest =>
    if ty = 0xC then rest.foldl (fun a y => let r := foldF32 aux rnd sat a.1 y; (r.1, a.2 ||| r.2)) (x, 0)
    else narrow ty sat (foldInts aux (typeWidth ty) (xs.map (readInt (isSigned ty) (typeWidth ty))))

/-- `wscan` (10 R205). -/
def execWscan (e : Enc) (s : State) : Host.Outcome State Fault Refusal :=
  let ty := foldType e
  let n := typeRegs ty
  let ex := bitAt e.x.c.toNat 0
  issued .wscan e (fun i s =>
    i.act.foldl (fun s l =>
      let xs := (i.act.filter (fun k => if ex then decide (k.lane < l.lane) else decide (k.lane ≤ l.lane))).map
        (fun k => k.src n e.a.toNat)
      let r := scanFold e.x.aux.toNat ty (rndOf e) (satOf e) xs
      s.give i [l] { outs := dst e.d n r.1, flags := r.2 } i.src) s) s

end Sys2Proof.Machine
end

