-- ==== Sys2Proof/Machine/IntArith.lean ====
section
/-! DEFINITION. Integer arithmetic and address forming (05 R104 to R109). -/

namespace Sys2Proof.Machine

/-- The operands of an integer form as numbers (05 R104): x, y and z at the width and sign of the type. -/
def intA (ty : Nat) (e : Enc) (l : Lane) : Int := readInt (isSigned ty) (typeWidth ty) (l.src (typeRegs ty) e.a.toNat)
@[inherit_doc intA]
def intB (op : Op) (ty : Nat) (e : Enc) (l : Lane) : Int :=
  readInt (isSigned ty) (typeWidth ty) (l.opB op e (typeRegs ty) ty)
@[inherit_doc intA]
def intC (ty : Nat) (e : Enc) (l : Lane) : Int := readInt (isSigned ty) (typeWidth ty) (l.opC e (typeRegs ty))

/-- An exact integer result narrowed once into the destination (05 R93, R104). -/
def intRes (ty : Nat) (e : Enc) (v : Int) : Res :=
  let r := narrow ty (e.x.sat == 1) v
  { outs := dst e.d (typeRegs ty) r.1, flags := r.2 }

/-- `add` (05 R104). -/
def execAdd (e : Enc) (s : State) : Host.Outcome State Fault Refusal :=
  let ty := typeOf 8 e
  issued .add e (alu (fun l => intRes ty e (intA ty e l + intB .add ty e l))) s

/-- `sub` (05 R104). -/
def execSub (e : Enc) (s : State) : Host.Outcome State Fault Refusal :=
  let ty := typeOf 8 e
  issued .sub e (alu (fun l => intRes ty e (intA ty e l - intB .sub ty e l))) s

/-- `mul` (05 R104). -/
def execMul (e : Enc) (s : State) : Host.Outcome State Fault Refusal :=
  let ty := typeOf 8 e
  issued .mul e (alu (fun l => intRes ty e (intA ty e l * intB .mul ty e l))) s

/-- `min` (05 R104). -/
def execMin (e : Enc) (s : State) : Host.Outcome State Fault Refusal :=
  let ty := typeOf 8 e
  issued .min e (alu (fun l => intRes ty e (Min.min (intA ty e l) (intB .min ty e l)))) s

/-- `max` (05 R104). -/
def execMax (e : Enc) (s : State) : Host.Outcome State Fault Refusal :=
  let ty := typeOf 8 e
  issued .max e (alu (fun l => intRes ty e (Max.max (intA ty e l) (intB .max ty e l)))) s

/-- `mad` (05 R104). -/
def execMad (e : Enc) (s : State) : Host.Outcome State Fault Refusal :=
  let ty := typeOf 8 e
  issued .mad e (alu (fun l => intRes ty e (intA ty e l * intB .mad ty e l + intC ty e l))) s

/-- `mulh` (05 R105). -/
def execMulh (e : Enc) (s : State) : Host.Outcome State Fault Refusal :=
  let ty := typeOf 8 e
  let w := typeWidth ty
  issued .mulh e (alu (fun l =>
    { outs := dst e.d (typeRegs ty) (wrapInt w (intA ty e l * intB .mulh ty e l / 2 ^ w)) })) s

/-- `madw` (05 R106): the third source and the result are 64 bits wide. -/
def execMadw (e : Enc) (s : State) : Host.Outcome State Fault Refusal :=
  let ty := typeOf 8 e
  let wide := if isSigned ty then 9 else 4
  issued .madw e (alu (fun l =>
    let z := readInt (isSigned ty) 64 (l.opC e 2)
    let r := narrow wide (e.x.sat == 1) (intA ty e l * intB .madw ty e l + z)
    { outs := dst e.d 2 r.1, flags := r.2 })) s

/-- The carry-in of `addc` and `subc`, and a result with its carry-out (05 R107). -/
def carryIn (e : Enc) (l : Lane) : Int := if l.psrc e.x.c.toNat then 1 else 0
@[inherit_doc carryIn]
def carryRes (e : Enc) (v : Int) (co : Bool) : Res :=
  { outs := dst e.d 1 (wrapInt 32 v) ++ [(.pred (e.x.c.toNat / 16 % 8), if co then 1 else 0)] }

/-- `addc` (05 R107). -/
def execAddc (e : Enc) (s : State) : Host.Outcome State Fault Refusal :=
  issued .addc e (alu (fun l =>
    let v := intA 3 e l + intB .addc 3 e l + carryIn e l
    carryRes e v (decide ((2 ^ 32 : Int) ≤ v)))) s

/-- `subc` (05 R107). -/
def execSubc (e : Enc) (s : State) : Host.Outcome State Fault Refusal :=
  issued .subc e (alu (fun l =>
    let v := intA 3 e l - intB .subc 3 e l - carryIn e l
    carryRes e v (decide (v < 0)))) s

/-- `abs` (05 R108). -/
def execAbs (e : Enc) (s : State) : Host.Outcome State Fault Refusal :=
  let ty := typeOf 8 e
  issued .abs e (alu (fun l => intRes ty e ((intA ty e l).natAbs : Int))) s

/-- `neg` (05 R108). -/
def execNeg (e : Enc) (s : State) : Host.Outcome State Fault Refusal :=
  let ty := typeOf 8 e
  issued .neg e (alu (fun l => intRes ty e (-intA ty e l))) s

/-- `lea` (05 R109). -/
def execLea (e : Enc) (s : State) : Host.Outcome State Fault Refusal :=
  let ty := typeOf 8 e
  issued .lea e (alu (fun l =>
    let ix := readInt (isSigned ty) 32 (l.src 1 e.b.toNat)
    { outs := dst e.d 2 (wrapInt 64 ((l.src 2 e.a.toNat : Int) + ix * 2 ^ e.x.aux.toNat + litInt e)) })) s

end Sys2Proof.Machine
end

