-- ==== Sys2Proof/Machine/Logic.lean ====
section
/-! DEFINITION. Bitwise logic, shifts, fields and bit counts (05 R110 to R114). -/

namespace Sys2Proof.Machine

/-- A bitwise form of two sources at the width of its type (05 R110). -/
def bitwise (op : Op) (f : Nat → Nat → Nat) (e : Enc) : Iss → State → State :=
  let ty := typeOf 3 e
  let n := typeRegs ty
  alu (fun l => { outs := dst e.d n (f (l.src n e.a.toNat) (l.opB op e n ty)) })

/-- Every bit of a `w`-bit pattern inverted. -/
def invert (w x : Nat) : Nat := 2 ^ w - 1 - lowBits w x

/-- `and` (05 R110). -/
def execAnd (e : Enc) (s : State) : Host.Outcome State Fault Refusal := issued .and e (bitwise .and (· &&& ·) e) s

/-- `or` (05 R110). -/
def execOr (e : Enc) (s : State) : Host.Outcome State Fault Refusal := issued .or e (bitwise .or (· ||| ·) e) s

/-- `xor` (05 R110). -/
def execXor (e : Enc) (s : State) : Host.Outcome State Fault Refusal := issued .xor e (bitwise .xor (· ^^^ ·) e) s

/-- `andn` (05 R110). -/
def execAndn (e : Enc) (s : State) : Host.Outcome State Fault Refusal :=
  issued .andn e (bitwise .andn (fun x y => x &&& invert (typeWidth (typeOf 3 e)) y) e) s

/-- A form of one source at the width of its type. -/
def unary (f : Nat → Nat) (n m : Nat) (e : Enc) : Iss → State → State :=
  alu (fun l => { outs := dst e.d m (f (l.src n e.a.toNat)) })

/-- `not` (05 R110). -/
def execNot (e : Enc) (s : State) : Host.Outcome State Fault Refusal :=
  let ty := typeOf 3 e
  issued .not e (unary (invert (typeWidth ty)) (typeRegs ty) (typeRegs ty) e) s

/-- The shift amount: a 32-bit register or a literal, read unsigned (05 R111). -/
def amount (op : Op) (e : Enc) (l : Lane) : Nat := l.opB op e 1 3

/-- `shl` (05 R111): with SAT = 1 the exact product by a power of two is clamped. Its amount is cut at 2^7, beyond which
every nonzero operand clamps and every result is the same. -/
def execShl (e : Enc) (s : State) : Host.Outcome State Fault Refusal :=
  let ty := typeOf 3 e
  issued .shl e (alu (fun l =>
    let x := readInt (isSigned ty) (typeWidth ty) (l.src (typeRegs ty) e.a.toNat)
    let r := narrow ty (e.x.sat == 1) (x * 2 ^ min 128 (amount .shl e l))
    { outs := dst e.d (typeRegs ty) r.1, flags := r.2 })) s

/-- `shr` (05 R111). -/
def execShr (e : Enc) (s : State) : Host.Outcome State Fault Refusal :=
  let ty := typeOf 3 e
  issued .shr e (alu (fun l =>
    { outs := dst e.d (typeRegs ty) (l.src (typeRegs ty) e.a.toNat / 2 ^ min 128 (amount .shr e l)) })) s

/-- `sra` (05 R111). -/
def execSra (e : Enc) (s : State) : Host.Outcome State Fault Refusal :=
  let ty := typeOf 8 e
  let w := typeWidth ty
  issued .sra e (alu (fun l =>
    { outs := dst e.d (typeRegs ty)
        (wrapInt w (toSigned w (l.src (typeRegs ty) e.a.toNat) / 2 ^ min 128 (amount .sra e l))) })) s

/-- A `w`-bit pattern rotated left (05 R111). -/
def rotl (w x n : Nat) : Nat := lowBits w (x * 2 ^ (n % w)) + lowBits w x / 2 ^ (w - n % w)

/-- `rotl` (05 R111). -/
def execRotl (e : Enc) (s : State) : Host.Outcome State Fault Refusal :=
  let ty := typeOf 3 e
  issued .rotl e (alu (fun l =>
    { outs := dst e.d (typeRegs ty) (rotl (typeWidth ty) (l.src (typeRegs ty) e.a.toNat) (amount .rotl e l)) })) s

/-- A field of a pattern, filled beyond its width by its sign or by zeros (05 R112). -/
def extractField (signed : Bool) (w x pos len : Nat) : Nat :=
  let n := min len w
  let v := readInt signed w x / 2 ^ pos
  if n = 0 then 0 else wrapInt w (readInt signed n (wrapInt n v))

/-- `bfx` (05 R112). -/
def execBfx (e : Enc) (s : State) : Host.Outcome State Fault Refusal :=
  let ty := typeOf 3 e
  issued .bfx e (alu (fun l =>
    let b := amount .bfx e l
    { outs := dst e.d (typeRegs ty) (extractField (isSigned ty) (typeWidth ty) (l.src (typeRegs ty) e.a.toNat)
        (bitsAt b 7 0) (bitsAt b 15 8)) })) s

/-- A field inserted into a pattern; bits at or above the width are dropped (05 R113). -/
def insertField (w x base pos len : Nat) : Nat :=
  let mask := (2 ^ min len w - 1) * 2 ^ pos % 2 ^ w
  (base &&& invert w mask) ||| (x * 2 ^ pos &&& mask)

/-- `bfi` (05 R113). -/
def execBfi (e : Enc) (s : State) : Host.Outcome State Fault Refusal :=
  let ty := typeOf 3 e
  let n := typeRegs ty
  issued .bfi e (alu (fun l =>
    let b := amount .bfi e l
    { outs := dst e.d n (insertField (typeWidth ty) (l.src n e.a.toNat) (l.opC e n) (bitsAt b 7 0) (bitsAt b 15 8)) })) s

/-- Leading zeros, one bits and the reversed bits of a `w`-bit pattern (05 R114). -/
def leadingZeros (w x : Nat) : Nat := if lowBits w x = 0 then w else w - 1 - Nat.log2 (lowBits w x)
@[inherit_doc leadingZeros]
def oneBits (w x : Nat) : Nat := ((List.range w).filter (bitAt x)).length
@[inherit_doc leadingZeros]
def reverseBits (w x : Nat) : Nat := maskOf (((List.range w).filter (bitAt x)).map (fun k => w - 1 - k))

/-- `clz` (05 R114). -/
def execClz (e : Enc) (s : State) : Host.Outcome State Fault Refusal :=
  let ty := typeOf 3 e
  issued .clz e (unary (leadingZeros (typeWidth ty)) (typeRegs ty) 1 e) s

/-- `popc` (05 R114). -/
def execPopc (e : Enc) (s : State) : Host.Outcome State Fault Refusal :=
  let ty := typeOf 3 e
  issued .popc e (unary (oneBits (typeWidth ty)) (typeRegs ty) 1 e) s

/-- `brev` (05 R114). -/
def execBrev (e : Enc) (s : State) : Host.Outcome State Fault Refusal :=
  let ty := typeOf 3 e
  issued .brev e (unary (reverseBits (typeWidth ty)) (typeRegs ty) (typeRegs ty) e) s

end Sys2Proof.Machine
end

