-- ==== Sys2Proof/Machine/Move.lean ====
section
/-! DEFINITION. Moves, selection, special registers, comparison and predicate logic (05 R96 to R103). -/

namespace Sys2Proof.Machine

/-- `nop` (05 R97). -/
def execNop (e : Enc) (s : State) : Host.Outcome State Fault Refusal := issued .nop e (fun _ s => s) s

/-- `mov` (05 R98). -/
def execMov (e : Enc) (s : State) : Host.Outcome State Fault Refusal :=
  let ty := typeOf 3 e
  let n := typeRegs ty
  issued .mov e (alu (fun l => { outs := dst e.d n (l.opA .mov e n ty) })) s

/-- `movi` (05 R99). -/
def execMovi (e : Enc) (s : State) : Host.Outcome State Fault Refusal :=
  let v := if typeOf 3 e = 8 then wrapInt 32 (toSigned 16 e.imm16.toNat) else e.imm16.toNat
  issued .movi e (alu (fun _ => { outs := dst e.d 1 v })) s

/-- `movh` (05 R99): it keeps the low half of its destination. -/
def execMovh (e : Enc) (s : State) : Host.Outcome State Fault Refusal :=
  issued .movh e (alu (fun l => { outs := dst e.d 1 (e.imm16.toNat * 2 ^ 16 + lowBits 16 (l.word e.d.toNat).toNat) })) s

/-- Component `k` of a linear index in a box, and of a shape. -/
def indexIn (shape : Nat × Nat × Nat) (n k : Nat) : Nat :=
  match k with
  | 0 => n % shape.1
  | 1 => n / shape.1 % shape.2.1
  | _ => n / (shape.1 * shape.2.1)
@[inherit_doc indexIn]
def extentOf (shape : Nat × Nat × Nat) (k : Nat) : Nat :=
  match k with
  | 0 => shape.1
  | 1 => shape.2.1
  | _ => shape.2.2

/-- %wsphase a time after the die's reset (13 R237, R238). -/
def wsPhase (time : Nat) : Nat :=
  let phase := time % 25600
  phase + (phase / 1600) * 2 ^ 15 + (if phase % 1600 < 400 then 1 else 0) * 2 ^ 19

/-- The value of a special register in a lane (01 R19). -/
def State.special (s : State) (i : Iss) (l : Lane) (k : Nat) : Nat :=
  let g := s.grid? i.team.grid
  let ntid := (g.map (fun g => g.launch.ntid)).getD (1, 1, 1)
  let nteam := (g.map (fun g => g.launch.nteam)).getD (1, 1, 1)
  if k ≤ 2 then indexIn ntid l.th.ltid k
  else if k ≤ 5 then extentOf ntid (k - 3)
  else if k ≤ 8 then indexIn nteam i.team.index (k - 6)
  else if k ≤ 11 then extentOf nteam (k - 9)
  else if k = 12 then i.team.crank
  else if k = 13 then l.lane
  else if k = 14 then l.wwid
  else if k = 16 then laneMask i.live
  else if k = 18 then coreNo i.core
  else if k = 19 then coreNo i.core / 4
  else if k = 20 then i.die
  else if k = 21 then i.ctx
  else if k = 22 then (g.map Grid.depth).getD 0
  else if k = 23 then wsPhase (s.clock.time - s.clock.dieReset)
  else if k = 24 then s.timeAt i.die
  else if k = 26 then s.clock.clk
  else if k = 28 then (s.flagsOf i l).toNat
  else if k = 29 then l.th.tcfg.toNat
  else if k = 30 then (g.map Grid.argAt).getD 0
  else 0

/-- `movs` (05 R101). DESIGN CHOICE (log entry 6): a clock is sampled at the issue, the earliest point that 01 R20 allows. -/
def execMovs (e : Enc) (s : State) : Host.Outcome State Fault Refusal :=
  let k := e.a.toNat
  issued .movs e (fun i s => alu (fun l => { outs := dst e.d (if specialWide k then 2 else 1) (s.special i l k) }) i s) s

/-- `sel` (05 R100). -/
def execSel (e : Enc) (s : State) : Host.Outcome State Fault Refusal :=
  let ty := typeOf 3 e
  let n := typeRegs ty
  issued .sel e (alu (fun l =>
    { outs := dst e.d n (if l.psrc e.x.c.toNat then l.src n e.a.toNat else l.opB .sel e n ty) })) s

/-- An integer condition on `w`-bit patterns (05 R102). -/
def intCond (c w x y : Nat) : Bool :=
  let sx := toSigned w x
  let sy := toSigned w y
  let ux := lowBits w x
  let uy := lowBits w y
  match c with
  | 0 => ux == uy
  | 1 => ux != uy
  | 2 => decide (sx < sy)
  | 3 => decide (sx ≤ sy)
  | 4 => decide (sy < sx)
  | 5 => decide (sy ≤ sx)
  | 6 => decide (ux < uy)
  | 7 => decide (ux ≤ uy)
  | 8 => decide (uy < ux)
  | _ => decide (uy ≤ ux)

/-- `cmp` (05 R102). -/
def execCmp (e : Enc) (s : State) : Host.Outcome State Fault Refusal :=
  let ty := typeOf 8 e
  let n := typeRegs ty
  issued .cmp e (alu (fun l =>
    { outs := dstP e.d (intCond e.x.c.toNat (typeWidth ty) (l.src n e.a.toNat) (l.opB .cmp e n ty)) })) s

/-- `pops` (05 R103). -/
def execPops (e : Enc) (s : State) : Host.Outcome State Fault Refusal :=
  issued .pops e (alu (fun l =>
    let x := l.psrc e.a.toNat
    let y := l.psrc e.b.toNat
    { outs := dstP e.d (match e.x.aux.toNat with
        | 0 => x && y
        | 1 => x || y
        | 2 => x != y
        | _ => x && !y) })) s

end Sys2Proof.Machine
end

