-- ==== Sys2Proof/Machine/Spawn.lean ====
section
/-! DEFINITION. Child launches by `spawn` (10 R210 to R212, 09 R187). -/

namespace Sys2Proof.Machine

/-- Bytes that the thread reads as plain loads, 16 at a time (10 R210); the error is the cause. -/
def State.readPlain (s : State) (i : Iss) (l : Lane) : Nat → Nat → Except (BitVec 16) (List Byte × State)
  | _, 0 => .ok ([], s)
  | va, n + 1 =>
    match s.place i.team i.warp.trap 0 0 va 16 .read with
    | .error c => .error c
    | .ok p =>
      let h : How := ⟨i.core, i.team.id, l.th.ltid, 0, 0, 0, s.mm.nextC⟩
      let r : List Byte × State := match p with
        | .mem (.phys pa m) =>
          (((s.noteTlb (.vector i.core) i.ctx va).drew.numbered).ownReds i.team.id l.th.ltid pa 16).loadBytes h pa 16 m
        | _ => (s.readPlace i.team p 16, s)
      match State.readPlain r.2 i l (va + 16) n with
      | .error c => .error c
      | .ok (bs, s) => .ok (r.1 ++ bs, s)

/-- What a `spawn` shows to watchpoints and to the profiler: the plain loads of its record (10 R210; 27 R442, R447). -/
def Iss.spawnSeen (i : Iss) (before s : State) : State :=
  let va (l : Lane) : Nat := l.src 2 i.e.a.toNat % 2 ^ 48
  let seen := (i.perf.filter (fun p => (before.place i.team i.warp.trap 0 0 (p.1.src 2 i.e.a.toNat) 16 .read).isOk)).map
    (fun p => (⟨p.1.lane, p.1.th.ltid, 0, i.core, va p.1, 128, 0⟩ : Seen))
  (s.watch i.looker true seen).sample i before 0 (i.perf.flatMap (fun p => (List.range 8).map (fun k => (va p.1 + 16 * k, 16))))

/-- The record at a 128-byte aligned address: its fault, or its bits (10 R211). -/
def State.spawnRecord (s : State) (i : Iss) (l : Lane) (va : Nat) : Except (BitVec 16) (BitVec 1024 × State) :=
  if va < 2 ^ 48 ∧ va % 128 ≠ 0 then .error 0x11
  else (s.readPlain i l va 8).map (fun r => (BitVec.ofNat 1024 (ofBytes r.1), r.2))

/-- The header of a child record (09 R179): it must be a LAUNCH of two slots; its TAG has no effect. -/
def spawnHeader (p : BitVec 1024) : Option Nat :=
  if pktBits p 0 7 0 ≠ 1 then some 0x01
  else if pktBits p 0 15 11 ≠ 0 ∨ pktBits p 0 63 32 ≠ 0 then some 0x02
  else if pktBits p 0 9 8 ≠ 1 then some 0x03
  else none

/-- The checks of a child's record (10 R211, 09 R182, R187): the code of R182, or its launch and arguments. -/
def State.spawnCheck (s : State) (i : Iss) (l : Lane) (parent : Grid) (p : BitVec 1024) :
    Except Nat (Launch × List Byte × State) :=
  let c := parseLaunch p
  match spawnHeader p with
  | some n => .error n
  | none =>
    let args : Except Nat (List Byte × State) :=
      if c.argsize = 0 then .ok ([], s)
      else if c.argptr.toNat % 16 ≠ 0 then .error 0x05
      else match s.readPlain i l c.argptr.toNat ((c.argsize + 15) / 16) with
        | .error _ => .error 0x05
        | .ok r => .ok r
    match args with
    | .error n => .error n
    | .ok (bs, s') =>
      if c.compaddr ≠ 0 then .error 0x02
      else
        match s.launchCode none (some parent.launch.diemask.toNat) p with
        | some n => .error n
        | none => .ok ({ c with prio := parent.launch.prio, strict := parent.launch.strict }, bs, s')

/-- One child (10 R210): the checks in the order of R211, then the child is enqueued and its number returned. -/
def spawnOne (e : Enc) (i : Iss) (s : State) (l : Lane) (rcv : List Lane) : State :=
  match s.grid? i.team.grid with
  | none => s
  | some g =>
    let va := l.src 2 e.a.toNat
    if 8 ≤ g.depth then s.faultFor i l (others l rcv) 0x25 0 s.unstated 0
    else
      match s.spawnRecord i l va with
      | .error c => s.faultFor i l (others l rcv) c 0 va 0
      | .ok (p, s1) =>
        let h := BitVec.ofNat 32 (l.src 1 e.b.toNat)
        if e.b ≠ 0xF0 ∧ (s.barIndex i.core i.team.id h).isNone then s.faultFor i l (others l rcv) 0x21 0 h.toNat 0
        else
          match s1.spawnCheck i l g p with
          | .error n => s.faultFor i l (others l rcv) 0x26 0 n 0
          | .ok (c, args, s2) =>
            let id := Table.read 0 s2.fe.spawned i.die
            let s3 := { s2 with fe.spawned := Table.put s2.fe.spawned i.die (id + 1) }
            let child : Grid :=
              ⟨0, i.ctx, g.queue, g.pkt, g.seq, g.member, c, args, 0, 0, g.depth + 1, s3.timeAt i.die, [],
                some ⟨g.id, i.team.id, i.core, if e.b = 0xF0 then none else some h⟩, none, 0, id.toNat, false⟩
            (s3.startGrid child).give i rcv { outs := dst e.d 1 id.toNat } i.src

/-- `spawn` (10 R210 to R212). -/
def execSpawn (e : Enc) (s : State) : Host.Outcome State Fault Refusal :=
  issued .spawn e (fun i s => i.spawnSeen s (i.perf.foldl (fun s p => spawnOne e i s p.1 p.2) s)) s

end Sys2Proof.Machine
end

