-- ==== Sys2Proof/Machine/Dispatch.lean ====
section
/-! DEFINITION. The meaning of every operation and event: one arm and one direct call each. -/

namespace Sys2Proof.Machine

/-- What an operation or an event does to the machine. -/
def exec (i : Instr) (s : State) : Host.Outcome State Fault Refusal :=
  match i with
  | .nop e => Sys2Proof.Machine.execNop e s
  | .mov e => Sys2Proof.Machine.execMov e s
  | .movi e => Sys2Proof.Machine.execMovi e s
  | .movh e => Sys2Proof.Machine.execMovh e s
  | .movs e => Sys2Proof.Machine.execMovs e s
  | .sel e => Sys2Proof.Machine.execSel e s
  | .cmp e => Sys2Proof.Machine.execCmp e s
  | .pops e => Sys2Proof.Machine.execPops e s
  | .add e => Sys2Proof.Machine.execAdd e s
  | .sub e => Sys2Proof.Machine.execSub e s
  | .addc e => Sys2Proof.Machine.execAddc e s
  | .subc e => Sys2Proof.Machine.execSubc e s
  | .mul e => Sys2Proof.Machine.execMul e s
  | .mulh e => Sys2Proof.Machine.execMulh e s
  | .mad e => Sys2Proof.Machine.execMad e s
  | .madw e => Sys2Proof.Machine.execMadw e s
  | .min e => Sys2Proof.Machine.execMin e s
  | .max e => Sys2Proof.Machine.execMax e s
  | .abs e => Sys2Proof.Machine.execAbs e s
  | .neg e => Sys2Proof.Machine.execNeg e s
  | .lea e => Sys2Proof.Machine.execLea e s
  | .and e => Sys2Proof.Machine.execAnd e s
  | .or e => Sys2Proof.Machine.execOr e s
  | .xor e => Sys2Proof.Machine.execXor e s
  | .andn e => Sys2Proof.Machine.execAndn e s
  | .not e => Sys2Proof.Machine.execNot e s
  | .shl e => Sys2Proof.Machine.execShl e s
  | .shr e => Sys2Proof.Machine.execShr e s
  | .sra e => Sys2Proof.Machine.execSra e s
  | .rotl e => Sys2Proof.Machine.execRotl e s
  | .bfx e => Sys2Proof.Machine.execBfx e s
  | .bfi e => Sys2Proof.Machine.execBfi e s
  | .clz e => Sys2Proof.Machine.execClz e s
  | .popc e => Sys2Proof.Machine.execPopc e s
  | .brev e => Sys2Proof.Machine.execBrev e s
  | .add2 e => Sys2Proof.Machine.execAdd2 e s
  | .sub2 e => Sys2Proof.Machine.execSub2 e s
  | .mul2 e => Sys2Proof.Machine.execMul2 e s
  | .mac2 e => Sys2Proof.Machine.execMac2 e s
  | .shrn e => Sys2Proof.Machine.execShrn e s
  | .pk2 e => Sys2Proof.Machine.execPk2 e s
  | .unpk e => Sys2Proof.Machine.execUnpk e s
  | .sflg e => Sys2Proof.Machine.execSflg e s
  | .fadd e => Sys2Proof.Machine.execFadd e s
  | .fsub e => Sys2Proof.Machine.execFsub e s
  | .fmul e => Sys2Proof.Machine.execFmul e s
  | .ffma e => Sys2Proof.Machine.execFfma e s
  | .fmin e => Sys2Proof.Machine.execFmin e s
  | .fmax e => Sys2Proof.Machine.execFmax e s
  | .fneg e => Sys2Proof.Machine.execFneg e s
  | .fabs e => Sys2Proof.Machine.execFabs e s
  | .fcmp e => Sys2Proof.Machine.execFcmp e s
  | .fcls e => Sys2Proof.Machine.execFcls e s
  | .frnd e => Sys2Proof.Machine.execFrnd e s
  | .frcp e => Sys2Proof.Machine.execFrcp e s
  | .frsq e => Sys2Proof.Machine.execFrsq e s
  | .fsqrt e => Sys2Proof.Machine.execFsqrt e s
  | .fdiv e => Sys2Proof.Machine.execFdiv e s
  | .fex2 e => Sys2Proof.Machine.execFex2 e s
  | .flg2 e => Sys2Proof.Machine.execFlg2 e s
  | .fsin e => Sys2Proof.Machine.execFsin e s
  | .fcos e => Sys2Proof.Machine.execFcos e s
  | .hadd2 e => Sys2Proof.Machine.execHadd2 e s
  | .hmul2 e => Sys2Proof.Machine.execHmul2 e s
  | .hfma2 e => Sys2Proof.Machine.execHfma2 e s
  | .cvt e => Sys2Proof.Machine.execCvt e s
  | .cvpk e => Sys2Proof.Machine.execCvpk e s
  | .cvup e => Sys2Proof.Machine.execCvup e s
  | .bra e => Sys2Proof.Machine.execBra e s
  | .brx e => Sys2Proof.Machine.execBrx e s
  | .brxRel e => Sys2Proof.Machine.execBrxRel e s
  | .call e => Sys2Proof.Machine.execCall e s
  | .callX e => Sys2Proof.Machine.execCallX e s
  | .ret e => Sys2Proof.Machine.execRet e s
  | .exit e => Sys2Proof.Machine.execExit e s
  | .vote e => Sys2Proof.Machine.execVote e s
  | .matchOp e => Sys2Proof.Machine.execMatchOp e s
  | .elect e => Sys2Proof.Machine.execElect e s
  | .sld e => Sys2Proof.Machine.execSld e s
  | .shfl e => Sys2Proof.Machine.execShfl e s
  | .lbc e => Sys2Proof.Machine.execLbc e s
  | .wrdx e => Sys2Proof.Machine.execWrdx e s
  | .wscan e => Sys2Proof.Machine.execWscan e s
  | .rgn e => Sys2Proof.Machine.execRgn e s
  | .join e => Sys2Proof.Machine.execJoin e s
  | .rgp e => Sys2Proof.Machine.execRgp e s
  | .spawn e => Sys2Proof.Machine.execSpawn e s
  | .ld e => Sys2Proof.Machine.execLd e s
  | .st e => Sys2Proof.Machine.execSt e s
  | .ldc e => Sys2Proof.Machine.execLdc e s
  | .ldcinv e => Sys2Proof.Machine.execLdcinv e s
  | .prf e => Sys2Proof.Machine.execPrf e s
  | .fence e => Sys2Proof.Machine.execFence e s
  | .atom e => Sys2Proof.Machine.execAtom e s
  | .cas e => Sys2Proof.Machine.execCas e s
  | .red e => Sys2Proof.Machine.execRed e s
  | .redDet e => Sys2Proof.Machine.execRedDet e s
  | .binit e => Sys2Proof.Machine.execBinit e s
  | .barr e => Sys2Proof.Machine.execBarr e s
  | .bexp e => Sys2Proof.Machine.execBexp e s
  | .bwait e => Sys2Proof.Machine.execBwait e s
  | .btry e => Sys2Proof.Machine.execBtry e s
  | .binv e => Sys2Proof.Machine.execBinv e s
  | .cpy e => Sys2Proof.Machine.execCpy e s
  | .cpys e => Sys2Proof.Machine.execCpys e s
  | .cpyw e => Sys2Proof.Machine.execCpyw e s
  | .lrinv e => Sys2Proof.Machine.execLrinv e s
  | .qfence e => Sys2Proof.Machine.execQfence e s
  | .put e => Sys2Proof.Machine.execPut e s
  | .hbld e => Sys2Proof.Machine.execHbld e s
  | .hprb e => Sys2Proof.Machine.execHprb e s
  | .hlk e => Sys2Proof.Machine.execHlk e s
  | .mrg e => Sys2Proof.Machine.execMrg e s
  | .scn e => Sys2Proof.Machine.execScn e s
  | .hfree e => Sys2Proof.Machine.execHfree e s
  | .xenq e => Sys2Proof.Machine.execXenq e s
  | .xtake e => Sys2Proof.Machine.execXtake e s
  | .tmm e => Sys2Proof.Machine.execTmm e s
  | .tmmsp e => Sys2Proof.Machine.execTmmsp e s
  | .tgms e => Sys2Proof.Machine.execTgms e s
  | .tsacc e => Sys2Proof.Machine.execTsacc e s
  | .tzero e => Sys2Proof.Machine.execTzero e s
  | .tst e => Sys2Proof.Machine.execTst e s
  | .tldac e => Sys2Proof.Machine.execTldac e s
  | .ttr e => Sys2Proof.Machine.execTtr e s
  | .tscl e => Sys2Proof.Machine.execTscl e s
  | .tflush e => Sys2Proof.Machine.execTflush e s
  | .trap e => Sys2Proof.Machine.execTrap e s
  | .tret e => Sys2Proof.Machine.execTret e s
  | .brkpt e => Sys2Proof.Machine.execBrkpt e s
  | .sysr e => Sys2Proof.Machine.execSysr e s
  | .sysw e => Sys2Proof.Machine.execSysw e s
  | .tmark e => Sys2Proof.Machine.execTmark e s
  | .packetFetch team warp => Sys2Proof.Machine.execPacketFetch team warp s
  | .memoryAccessReturn team thread => Sys2Proof.Machine.execMemoryAccessReturn team thread s
  | .qWridxWrite q v => Sys2Proof.Machine.execQWridxWrite q v s
  | .qEnable q ctl => Sys2Proof.Machine.execQEnable q ctl s
  | .qResume q => Sys2Proof.Machine.execQResume q s
  | .packetAccept q => Sys2Proof.Machine.execPacketAccept q s
  | .launch q => Sys2Proof.Machine.execLaunch q s
  | .bundle q => Sys2Proof.Machine.execBundle q s
  | .engine q => Sys2Proof.Machine.execEngine q s
  | .wait q => Sys2Proof.Machine.execWait q s
  | .waitEvaluate q => Sys2Proof.Machine.execWaitEvaluate q s
  | .waitTimeout q => Sys2Proof.Machine.execWaitTimeout q s
  | .signal q => Sys2Proof.Machine.execSignal q s
  | .wsload q => Sys2Proof.Machine.execWsload q s
  | .xqcfg q => Sys2Proof.Machine.execXqcfg q s
  | .invlog q => Sys2Proof.Machine.execInvlog q s
  | .teamPlace die grid => Sys2Proof.Machine.execTeamPlace die grid s
  | .crewPlace die grid => Sys2Proof.Machine.execCrewPlace die grid s
  | .placementStarvation die grid => Sys2Proof.Machine.execPlacementStarvation die grid s
  | .teamFree team => Sys2Proof.Machine.execTeamFree team s
  | .dieShareReport die grid => Sys2Proof.Machine.execDieShareReport die grid s
  | .gridComplete grid => Sys2Proof.Machine.execGridComplete grid s
  | .completionWrite q => Sys2Proof.Machine.execCompletionWrite q s
  | .copyPerform cmd => Sys2Proof.Machine.execCopyPerform cmd s
  | .hbldPerform cmd => Sys2Proof.Machine.execHbldPerform cmd s
  | .hprbBuild cmd => Sys2Proof.Machine.execHprbBuild cmd s
  | .hlkPerform cmd => Sys2Proof.Machine.execHlkPerform cmd s
  | .mrgPerform cmd => Sys2Proof.Machine.execMrgPerform cmd s
  | .scnPerform cmd => Sys2Proof.Machine.execScnPerform cmd s
  | .hfreeEffect cmd => Sys2Proof.Machine.execHfreeEffect cmd s
  | .tileProduct cmd => Sys2Proof.Machine.execTileProduct cmd s
  | .tgmsBatch cmd => Sys2Proof.Machine.execTgmsBatch cmd s
  | .tsaccPerform cmd => Sys2Proof.Machine.execTsaccPerform cmd s
  | .tileMove cmd => Sys2Proof.Machine.execTileMove cmd s
  | .tileWholeOp cmd => Sys2Proof.Machine.execTileWholeOp cmd s
  | .commandComplete cmd => Sys2Proof.Machine.execCommandComplete cmd s
  | .windowAgeExpiry team => Sys2Proof.Machine.execWindowAgeExpiry team s
  | .rwTableWrite ctx die v => Sys2Proof.Machine.execRwTableWrite ctx die v s
  | .tileProgWrite team v => Sys2Proof.Machine.execTileProgWrite team v s
  | .redArrival n => Sys2Proof.Machine.execRedArrival n s
  | .epochApply grid epoch => Sys2Proof.Machine.execEpochApply grid epoch s
  | .trapEntry team warp => Sys2Proof.Machine.execTrapEntry team warp s
  | .asyncTrapTake team thread => Sys2Proof.Machine.execAsyncTrapTake team thread s
  | .faultResolve ctx die rec => Sys2Proof.Machine.execFaultResolve ctx die rec s
  | .faultDecline ctx die rec => Sys2Proof.Machine.execFaultDecline ctx die rec s
  | .switchReq core v => Sys2Proof.Machine.execSwitchReq core v s
  | .timeSliceExpiry core => Sys2Proof.Machine.execTimeSliceExpiry core s
  | .contextSwitch core => Sys2Proof.Machine.execContextSwitch core s
  | .contextEvict core slot => Sys2Proof.Machine.execContextEvict core slot s
  | .contextRestore core ctx => Sys2Proof.Machine.execContextRestore core ctx s
  | .tokenAccept cmd => Sys2Proof.Machine.execTokenAccept cmd s
  | .firingSlot die => Sys2Proof.Machine.execFiringSlot die s
  | .batchComplete xq => Sys2Proof.Machine.execBatchComplete xq s
  | .stop => Sys2Proof.Machine.execStop s
  | .resume => Sys2Proof.Machine.execResume s
  | .step => Sys2Proof.Machine.execStep s
  | .setWatch => Sys2Proof.Machine.execSetWatch s
  | .clrWatch => Sys2Proof.Machine.execClrWatch s
  | .brkEn => Sys2Proof.Machine.execBrkEn s
  | .readReg => Sys2Proof.Machine.execReadReg s
  | .readMem => Sys2Proof.Machine.execReadMem s
  | .writeReg => Sys2Proof.Machine.execWriteReg s
  | .traceCfg => Sys2Proof.Machine.execTraceCfg s
  | .replay => Sys2Proof.Machine.execReplay s
  | .sampleCfg => Sys2Proof.Machine.execSampleCfg s
  | .delegate => Sys2Proof.Machine.execDelegate s
  | .revoke => Sys2Proof.Machine.execRevoke s
  | .traceRecordWrite ctx die => Sys2Proof.Machine.execTraceRecordWrite ctx die s
  | .stallSample core ctx => Sys2Proof.Machine.execStallSample core ctx s
  | .ptpSync port => Sys2Proof.Machine.execPtpSync port s
  | .ptpFollowUp port t1 => Sys2Proof.Machine.execPtpFollowUp port t1 s
  | .ptpDelayReq port => Sys2Proof.Machine.execPtpDelayReq port s
  | .ptpDelayResp port t4 => Sys2Proof.Machine.execPtpDelayResp port t4 s
  | .syncIntervalExpiry => Sys2Proof.Machine.execSyncIntervalExpiry s
  | .linkIdleExpiry link => Sys2Proof.Machine.execLinkIdleExpiry link s
  | .linkWake link => Sys2Proof.Machine.execLinkWake link s
  | .wakeRetry link => Sys2Proof.Machine.execWakeRetry link s
  | .heartbeat link => Sys2Proof.Machine.execHeartbeat link s
  | .heartbeatLost link => Sys2Proof.Machine.execHeartbeatLost link s
  | .dieDeclaredDead phys => Sys2Proof.Machine.execDieDeclaredDead phys s
  | .snoop die line => Sys2Proof.Machine.execSnoop die line s
  | .writeBackArrive n => Sys2Proof.Machine.execWriteBackArrive n s
  | .putReceive port win off data => Sys2Proof.Machine.execPutReceive port win off data s
  | .putAck port win code => Sys2Proof.Machine.execPutAck port win code s
  | .peerPortDown port => Sys2Proof.Machine.execPeerPortDown port s
  | .hostMemoryAccess write addr data => Sys2Proof.Machine.execHostMemoryAccess write addr data s
  | .powerOnReset => Sys2Proof.Machine.execPowerOnReset s
  | .porstN => Sys2Proof.Machine.execPorstN s
  | .wrstN => Sys2Proof.Machine.execWrstN s
  | .perstN => Sys2Proof.Machine.execPerstN s
  | .boot => Sys2Proof.Machine.execBoot s
  | .bootRecordClear => Sys2Proof.Machine.execBootRecordClear s
  | .railFault die => Sys2Proof.Machine.execRailFault die s
  | .temperatureAlarm die => Sys2Proof.Machine.execTemperatureAlarm die s
  | .thermtrip die => Sys2Proof.Machine.execThermtrip die s
  | .tamperN => Sys2Proof.Machine.execTamperN s
  | .registerWrite off wide v => Sys2Proof.Machine.execRegisterWrite off wide v s
  | .tokenTransfer cmd => Sys2Proof.Machine.execTokenTransfer cmd s

end Sys2Proof.Machine
end

