-- ==== Sys2Proof/Machine/Schedule.lean ====
section
/-! DEFINITION. What the machine may do next of its own accord, and how one of several enabled steps is chosen (17 R298; log entries 5
and 6). Which warps of a core issue in a cycle follows 08 R160 and R161; the next cycle comes once none is left that can. -/

namespace Sys2Proof.Machine

/-- A step that the machine may take: time passes, a warp issues on segments of its core and ports of its pipe M, an event comes about,
a core evicts a line from its L1, a sector reaches it, a stop takes hold of a warp, or a side-log entry comes back. -/
inductive Choice where
  | pass
  | issue (t : Turn) (core segs ports : Nat)
  | event (i : Instr)
  | evict (core line : Nat)
  | fill (core sector : Nat)
  | halt (team warp : Nat)
  | reenter (core : Nat)
deriving DecidableEq, Repr

/-! ### Time -/

/-- The stops on their way to a warp, but for that of a `brkpt`, which its group's end carries out (27 R439). -/
def Warp.halts (w : Warp) : List Halt := w.stop.filter (fun h => h.source != 2)

/-- The cycles at which something is due: the next issue of a warp of an active context (03 R63), and the last cycle in which a stop can
take hold (27 R439). -/
def State.dues (s : State) : List Nat :=
  s.wk.teams.flatMap (fun t => t.warps.flatMap (fun w =>
    (if t.slot = some (s.core t.core).active then [w.due] else []) ++ w.halts.map (fun h => h.cycle + 12)))

/-- An uncorrectable error strikes (13 R236, R240; log entry 54): words of the weight stores are numbered die by die in turn. -/
def State.strike (s : State) (u : Option (Bool × Nat)) : State :=
  match u with
  | none => s
  | some (true, w) => { s with mm.wsBad := dedup ((w % 4, w / 4) :: s.mm.wsBad) }
  | some (false, b) => { s with mm.bad := dedup (b :: s.mm.bad) }

/-- Time passes, by an amount that is left open (log entry 6), but not beyond the first cycle in which something is due. -/
def State.pass (s : State) : State :=
  let t := s.tick
  let dues := s.dues.filter (fun d => decide (s.clock.clk < d))
  (State.strike { t with clock.clk := dues.foldl min t.clock.clk } (Config.upset t.free)).drew

/-- What time brings about at once: stops take hold 12 cycles after their trigger at the latest (27 R439), a core is asked to switch
(26 R423), and a message that waits for a link in L1 starts its wake (30 R482). -/
def State.overdue (s : State) : State :=
  let s := s.wk.teams.foldl (fun (s : State) t => t.warps.foldl (fun (s : State) w =>
    s.haltWarp t.id w.id (fun h => h.source != 2 && decide (h.cycle + 12 ≤ s.clock.clk))) s) s
  let s := (dedup (s.wk.teams.map Team.core)).foldl (fun (s : State) k => s.trigger k) s
  (s.pkg.links.filter (fun e => e.2.asleep)).foldl (fun (s : State) e => s.startWake e.1) s

/-! ### Issue -/

/-- The segments that a warp of a %wwid occupies (08 R160). -/
def segments (wwid : Nat) : Nat := if wwid ≤ 16 then 1 else if wwid ≤ 32 then 2 else 4

/-- The lowest allowed base whose segments are free among those taken, as the mask of the segments from it on (08 R160). -/
def freeSegments (taken n : Nat) : Option Nat :=
  (((List.range (8 / n)).map (fun k => n * k)).find? (fun b => bitsAt taken (b + n - 1) b == 0)).map (fun b => (2 ^ n - 1) * 2 ^ b)

/-- A warp that is ready to issue (08 R161), with what its place in the order of the candidates rests on: trap mode, age, team and
lowest thread; and the segments and the ports of pipe M that it needs. -/
structure Candidate where
  turn  : Turn
  trap  : Bool
  age   : Nat
  team  : Nat
  low   : Nat
  needs : Nat
  ports : Nat

/-- Some instruction of the turn uses pipe M (03 R55, R63). -/
def State.portsOf (s : State) (w : Warp) (n : Turn) : Nat :=
  if (s.turnIss w n).any (fun i => i.e.guard != 0xF && (Machine.form i.op i.e).pipe == .M) then 1 else 0

/-- A ready warp as a candidate; `team` is its team's distance from the pointer of 08 R161. A warp's age key is the smallest
last-issue cycle among its threads (R170). -/
def State.candidate? (s : State) (t : Team) (team : Nat) (w : Warp) : Option Candidate :=
  let live := (t.lanesOf w).map Lane.th
  match live with
  | [] => none
  | th :: ths =>
    if s.stall t w = 0 then
      (nextTurn t w).map (fun n =>
        { turn := n, trap := w.trap.isSome, age := ths.foldl (fun m x => min m x.lastIssue) th.lastIssue, team := team
          low := ths.foldl (fun m x => min m x.ltid) th.ltid, needs := segments w.lanes.length, ports := s.portsOf w n })
    else none

/-- The candidates of a core in order (08 R161). DESIGN CHOICE (log entry 5): the pointer is the cycle modulo the number of resident
teams of the active context. -/
def State.inOrder (s : State) (core : Nat) : List Candidate :=
  let ts := s.wk.teams.filter (fun t => t.core == core && t.slot == some (s.core core).active)
  let n := ts.length
  let cs := (ts.zipIdx).flatMap (fun p => p.1.warps.filterMap (s.candidate? p.1 ((p.2 + n - s.clock.clk % n) % n)))
  sortBy (fun c => if c.trap then 0 else 1) (sortBy Candidate.age (sortBy Candidate.team (sortBy Candidate.low cs)))

/-- The segments and ports of a core that are taken in this cycle. -/
def State.takenNow (s : State) (core : Nat) : Nat × Nat :=
  let c := s.core core
  if c.cycle = s.clock.clk then (c.segs, c.mUsed) else (0, 0)

/-- The next warp of a core to issue in this cycle: the first candidate that finds a base, and a port where it needs one. -/
def State.nextIssue (s : State) (core : Nat) : Option Choice :=
  let taken := s.takenNow core
  (s.inOrder core).findSome? (fun c =>
    if 2 < taken.2 + c.ports then none
    else (freeSegments taken.1 c.needs).map (fun m => .issue c.turn core m c.ports))

/-- A warp has its turn on segments and ports of its core. -/
def State.occupy (s : State) (t : Turn) (core segs ports : Nat) : State :=
  let taken := s.takenNow core
  { s.updCore core (fun c => { c with cycle := s.clock.clk, segs := taken.1 + segs, mUsed := taken.2 + ports }) with turn := some t }

/-! ### Choices -/

/-- The next state of an outcome, or the state before where there is none. -/
def settled (s : State) (o : Host.Outcome State Fault Refusal) : State :=
  match o with
  | .next t => t
  | .fault _ => s
  | .refused _ => s

/-- The state after a choice. -/
def State.choose (s : State) (c : Choice) : State :=
  match c with
  | .pass => s.pass
  | .issue t core segs ports => s.occupy t core segs ports
  | .event i => settled s (exec i s)
  | .evict core line => s.evict core line
  | .fill core sector => s.fillWhere core (fun f => f.sector == sector)
  | .halt team warp => s.haltWarp team warp (fun h => h.source != 2)
  | .reenter core => s.reenterSide core

/-- A choice is enabled where it changes something. -/
def State.enabled (s : State) (c : Choice) : Bool := s.choose c != s

/-! ### Candidates -/

/-- The events by which an engine performs a command. -/
def Cmd.events (c : Cmd) : List Instr :=
  match c.body with
  | .copy .. | .put .. => [.copyPerform c.id]
  | .coord .. => [.hbldPerform c.id, .hprbBuild c.id, .mrgPerform c.id, .scnPerform c.id, .hfreeEffect c.id]
  | .hlk .. => [.hlkPerform c.id]
  | .token .. => [.tokenAccept c.id]
  | .take .. => [.tokenTransfer c.id]
  | .tile _ => [.tileProduct c.id, .tgmsBatch c.id, .tsaccPerform c.id, .tileMove c.id, .tileWholeOp c.id]
  | .fence _ => []

/-- The events of a team, its warps and its threads. -/
def Team.events (t : Team) : List Instr :=
  t.warps.flatMap (fun w => [.packetFetch t.id w.id, .trapEntry t.id w.id])
  ++ (t.threads.filter (fun th => !th.pend.isEmpty)).map (fun th => .memoryAccessReturn t.id th.ltid)
  ++ (t.threads.filter (fun th => !th.asyncs.isEmpty)).map (fun th => .asyncTrapTake t.id th.ltid)
  ++ [.windowAgeExpiry t.id, .teamFree t.id]

/-- The events of a queue. -/
def queueEvents (q : Nat) : List Instr :=
  [.packetAccept q, .launch q, .bundle q, .engine q, .wait q, .waitEvaluate q, .waitTimeout q, .signal q, .wsload q, .xqcfg q,
    .invlog q, .completionWrite q]

/-- The events of a grid on the live domains. -/
def State.gridEvents (s : State) (g : Grid) : List Instr :=
  s.pkg.doms.flatMap (fun d => [.teamPlace d g.id, .crewPlace d g.id, .placementStarvation d g.id, .dieShareReport d g.id])
  ++ (dedup ((s.mm.contribs.filter (fun c => c.grid == g.id)).filterMap (fun c => c.det.map Prod.fst))).map (.epochApply g.id)
  ++ [.gridComplete g.id]

/-- Cores with a team or with registers that have changed. -/
def State.usedCores (s : State) : List Nat := dedup (s.wk.teams.map Team.core ++ s.cores.map Prod.fst)

/-- Contexts with a team or a grid. -/
def State.usedCtxs (s : State) : List Nat := dedup (s.wk.teams.map Team.ctx ++ s.fe.grids.map Grid.ctx)

/-- The events of a core's context slots and samples. -/
def State.coreEvents (s : State) (core : Nat) : List Instr :=
  [.timeSliceExpiry core, .contextSwitch core, .contextEvict core 0, .contextEvict core 1, .contextEvict core 2]
  ++ s.usedCtxs.flatMap (fun c => [.contextRestore core c, .stallSample core c])

/-- The commands of the debug mailbox in the order of their codes (31 R493). -/
def debugEvents : List Instr :=
  [.stop, .resume, .step, .setWatch, .clrWatch, .brkEn, .readReg, .readMem, .writeReg, .traceCfg, .replay, .sampleCfg, .delegate,
    .revoke]

/-- The next issue of each core. -/
def State.issues (s : State) : List Choice := (dedup (s.wk.teams.map Team.core)).filterMap s.nextIssue

/-- Everything that might come about of itself, other than an issue. Heartbeats, the failure of links, peers, the host, resets and alarms come from
outside, as inputs. -/
def State.others (s : State) : List Choice :=
  let events : List Instr :=
    s.wk.teams.flatMap Team.events
    ++ s.fe.queues.flatMap (fun e => queueEvents e.1)
    ++ s.fe.grids.flatMap s.gridEvents
    ++ s.eng.cmds.flatMap (fun c => c.events ++ [.commandComplete c.id])
    ++ s.mm.contribs.map (fun c => .redArrival c.n)
    ++ s.usedCores.flatMap s.coreEvents
    ++ s.pkg.doms.map .firingSlot
    ++ s.eng.xqs.map (fun e => .batchComplete e.1)
    ++ (if s.dbg.mailbox.busy then debugEvents else [])
    ++ s.ctxs.map (fun e => .traceRecordWrite (e.1 / 4) (e.1 % 4))
    ++ [.syncIntervalExpiry]
    ++ s.pkg.links.flatMap (fun e => [.linkIdleExpiry e.1, .linkWake e.1, .wakeRetry e.1])
    ++ ([0, 1, 2, 3].filter s.isolated).map .dieDeclaredDead
    ++ s.mm.near.map (fun c => .snoop c.die c.line)
    ++ s.mm.wbs.map (fun w => .writeBackArrive w.n)
  let halts := s.wk.teams.flatMap (fun t => (t.warps.filter (fun w => !w.halts.isEmpty)).map (fun w => Choice.halt t.id w.id))
  events.map Choice.event ++ s.mm.l1.flatMap (fun e => e.2.lines.map (Choice.evict e.1))
  ++ s.mm.fills.map (fun f => .fill f.core f.sector) ++ halts ++ s.usedCores.map .reenter

/-- One enabled step is taken; where several are, which one is open (log entry 5). Time passes only once no warp can issue (08 R161). -/
def State.schedule (s : State) : State :=
  let s := s.overdue
  let now := s.issues
  match now ++ (s.others.filter s.enabled) ++ (if now.isEmpty then [Choice.pass] else []) with
  | [] => s
  | [c] => s.choose c
  | cs => (s.drew).choose (cs.getD (Config.pick s.free % cs.length) .pass)

end Sys2Proof.Machine
end

