-- ==== Sys2Proof/Machine/Step.lean ====
section
/-! DEFINITION. One step of the machine: a slot of the warp whose turn it is, a boot that is due, an event of the outside world, or
whatever the machine does next of its own accord. -/

namespace Sys2Proof.Machine

/-- The instruction of a turn: that of its slot in the latched packet, or the one that its warp performs again (03 R53, 26 R414). -/
def turnInstr (w : Warp) (n : Turn) : Option Instr :=
  if n.only.isSome then (w.redo.head?).bind (fun r => if r.instr.op?.isSome then some r.instr else none)
  else w.packet.bind (fun p => slotInstr p n.slot)

/-- A part that has begun issues the instruction of its slot. -/
def State.issueSlot (s : State) (w : Warp) (n : Turn) : Host.Outcome State Fault Refusal :=
  match turnInstr w n with
  | some i => exec i { s with turn := some { n with begun := true } }
  | none => .next { s with turn := none }

/-- The fence that a warp waited for is over: its threads see what its epoch has applied, and an acquire takes effect (14 R260, 15
R280, R281). -/
def State.endFence (s : State) (t : Team) (w : Warp) : State :=
  match w.fence with
  | none => s
  | some f =>
    let s := s.updTeam t.id (fun t => t.updWarp w.id (fun w => { w with fence := none }))
    let s := s.seeOrdered t.grid t.core (f.threads.map (fun n => (t.id, n)))
    if f.acquire then s.acquire t.ctx t.core t.id f.threads f.scope else s

/-- The slots of a part below one of them have issued. -/
def State.issueBelow (w : Warp) (slot : Nat) : Nat → State → State
  | 0, s => s
  | k + 1, s =>
    match s.turn with
    | none => s
    | some n => if n.slot < slot then State.issueBelow w slot k (settled s (s.issueSlot w n)) else s

/-- Some lane of the warp meets a fault in a slot of the part below `slot`: it is reported first (03 R71). -/
def State.faultsBelow (s : State) (w : Warp) (n : Turn) (slot : Nat) : Bool :=
  match (State.issueBelow w slot n.more.length s).team? n.team with
  | none => false
  | some t => (t.lanesOf w).any (fun l => l.th.faults.any (fun f => f.pc == n.pc && decide (f.slot < slot)))

/-- A warp begins a part: the checks of 03 R71 are made, and its first slot issues, or it traps. A group that fails the check of 10
R209 is passed over whole (26 R412). -/
def State.beginPart (s : State) (t : Team) (w : Warp) (n : Turn) : Host.Outcome State Fault Refusal :=
  let s := s.endFence t w
  let s := { s with turn := some n }
  match n.only, w.packet with
  | none, some p =>
    (match s.partFault p (n.slot :: n.more) with
      | some (cause, slot, detail) =>
        if cause = 6 ∧ s.faultsBelow w n slot then (s.startStep n).issueSlot w n
        else
          .next (s.rejectPart (if mixedGroup p n.slot then { n with next := groupAfter p n.slot } else n) cause slot detail 0 .none)
      | none => (s.startStep n).issueSlot w n)
  | _, _ => (s.startStep n).issueSlot w n

/-- The first thread of a warp whose asynchronous trap can be taken (26 R418). -/
def State.asyncOf (s : State) (t : Team) (w : Warp) : Option Nat :=
  ((t.lanesOf w).find? (fun l => !l.th.asyncs.isEmpty && s.canTakeAsync t w l.th)).map (fun l => l.th.ltid)

/-- A warp that has been given its turn begins its next part where nothing holds it back (09 R193); an asynchronous trap that waits for
a thread of it is taken first (26 R418). -/
def State.tryPart (s : State) (n : Turn) : Host.Outcome State Fault Refusal :=
  let idle : State := { s with turn := none }
  match s.team? n.team with
  | none => .next idle
  | some t =>
    match t.warp? n.warp with
    | none => .next idle
    | some w =>
      match idle.asyncOf t w with
      | some n => exec (.asyncTrapTake t.id n) idle
      | none =>
        if s.stall t w = 0 then
          match nextTurn t w with
          | some n => s.beginPart t w n
          | none => .next idle
        else .next idle

/-- The turn of a warp: a part in progress goes on; otherwise the packet is fetched where it is not latched, and a part begins. -/
def State.takeTurn (s : State) (n : Turn) : Host.Outcome State Fault Refusal :=
  match (s.team? n.team).bind (fun t => (t.warp? n.warp).map (fun w => (t, w))) with
  | none => .next { s with turn := none }
  | some (t, w) =>
    if n.begun then s.issueSlot w n
    else if s.fetchDue t w then (settled s (exec (.packetFetch n.team n.warp) { s with turn := none })).tryPart n
    else s.tryPart n

/-- The resets that start the clocks again (31 R505, R506). -/
def Instr.startsClocks (i : Instr) : Bool := i == .powerOnReset || i == .porstN

/-- One step. -/
def step (s : State) : Host.Outcome State Fault Refusal :=
  match s.inputs, s.pkg.clocksOff with
  | i :: rest, true => if Instr.startsClocks i then exec i { s with inputs := rest } else .fault .clocksStopped
  | [], true => .fault .clocksStopped
  | inputs, false =>
    match s.turn, s.pkg.boot, inputs with
    | some n, _, _ => s.takeTurn n
    | none, .due _, _ => exec .boot s
    | none, _, i :: rest => exec i { s with inputs := rest }
    | none, _, [] => .next s.schedule

/-! ### The program of a table row -/

/-- The launch that stands for the loading of a program: one team of one thread with every general register (09 R180). -/
def fetchLaunch (entry : VAddr) : Launch :=
  { entry := entry, nteam := (1, 1, 1), ntid := (1, 1, 1), width := 8, nreg := 30, crew := 1, accum := 0, spad := 0, bars := 0
    prio := 0, rw := 0, strict := 0, diemask := 1, argsize := 0, vector := 0, irq := false, argptr := 0, compaddr := 0
    compval := 0 }

/-- The grid of that launch. -/
def fetchGrid (id : Nat) (entry : VAddr) : Grid :=
  { id := id, ctx := 0, queue := 0, pkt := 0, seq := 0, member := 0xFF, launch := fetchLaunch entry, args := [], depth := 0, time := 0
    argAt := 2 ^ 47, since := 0, shares := [], parent := none, batch := none, epoch := 0, number := 0, lost := false }

/-- The machine after boot, with every die live and 1 GiB on each (30 R473, R474). -/
def State.booted (s : State) : State :=
  { s with pkg := { s.pkg.enumerate [0, 1, 2, 3] s.pkg.links [2 ^ 30] 0 with boot := .done, clocksOff := false } }

/-- The machine with the packet of a table row where its next fetch is made (log entry 15): the dies are live, a page of 1 GiB at 0
is mapped and executable in context 0, the packet lies at 0x2000, and a team of one thread is placed on core 0 that is to fetch it
and to issue the row's instruction. -/
def State.withFetchWord (s : State) (nbits w : Nat) : State :=
  let ps := tablePacket nbits w
  let pc : VAddr := 0x2000
  let s := s.booted
  let mem := ((s.mm.setBytes 0 (bytesOf 8 0x1001)).setBytes 0x1000 (bytesOf 8 0x1F)).setBytes 0x2000 (bytesOf 16 ps.1.toNat)
  let s := { s with mm := mem }
  let s := if (s.ctx 0 0).ptBase = 0 then s else s.updCtx 0 0 (fun r => { r with ptBase := 0 })
  let g := fetchGrid s.fe.nextG pc
  let s := { s with fe := { s.fe with grids := s.fe.grids ++ [g], nextG := s.fe.nextG + 1 } }
  let id := s.wk.nextTeam
  let s := (s.placeTeam g 0 0 0).updThread id 0 (fun th => { th with slot := ps.2 })
  let s := { s with clock.clk := s.clock.clk + 1 }
  { s with turn := some ⟨id, 0, pc, ps.2, ps.2, [], none, 0, false, none, false⟩ }

end Sys2Proof.Machine
end

