-- ==== Sys2Proof/Safety.lean ====
section
/-! DEFINITION. What the statements ask of a state: the canonical form of memory, a part that may issue, a team with nothing left to
trap for, and runs that do not stop. -/

namespace Sys2Proof.Machine

/-- A recorded write lies within its chunk of eight bytes (14 R249). -/
def Write.fits (w : Write) : Prop := w.off + w.bytes.length ≤ 8

/-- Memory is in its canonical form: one list for each content (13 R224; log entry 2), each core's L1 once and in it each chunk once
(13 R230), each chunk's recorded writes once, every write within its chunk, and a write-back's within its line (30 R487). -/
def State.memOk (s : State) : Prop :=
  s.mm.wf = true ∧ Table.sorted s.mm.l1 = true ∧ Table.sorted s.mm.hist = true
  ∧ (∀ c l, (c, l) ∈ s.mm.l1 → Table.sorted l.dirty = true ∧ ∀ k ws w, (k, ws) ∈ l.dirty → w ∈ ws → w.fits)
  ∧ ∀ b, b ∈ s.mm.wbs → Table.sorted b.writes = true ∧ ∀ k ws w, (k, ws) ∈ b.writes → k / 32 = b.line ∧ (w ∈ ws → w.fits)

/-- An instruction issues with its own effect: it has an active lane, its checks hold, its targets are addresses, and nothing that it
needs is missing (03 R55, R71; 07 R146; 09 R193). -/
structure State.Issues (s : State) (op : Op) (e : Enc) (i : Iss) : Prop where
  sees    : s.iss? op e = some i
  legal   : i.illegal = none
  active  : i.act.isEmpty = false
  near    : i.farLanes.isEmpty = true
  unheld  : s.held i = false

/-- The lanes whose performance gives a thread its results: one under U = 1, and otherwise the thread's own if it is active (03 R55,
R56). A thread stands in one lane of its warp; where a state that no run reaches lists it more often, the lanes act in turn. -/
def Iss.givers (i : Iss) (n : Nat) : List Lane := (i.perf.filter (fun p => p.2.any (fun m => m.th.ltid == n))).map Prod.fst

/-- The active lane of a thread. -/
def Iss.actors (i : Iss) (n : Nat) : List Lane := i.act.filter (fun m => m.th.ltid == n)

/-- A number of `n` words written to consecutive registers from a destination code; a code from 0xF0 on discards it (01 R9; 03 R58). -/
def toRegs (code : BitVec 8) (n v : Nat) (tgt : Target) : Option Word :=
  match tgt with
  | .reg k =>
    if code.toNat < 0xF0 ∧ code.toNat ≤ k ∧ k < code.toNat + n then some (BitVec.ofNat 32 (v / 2 ^ (32 * (k - code.toNat)))) else none
  | .pred _ => none

/-- A truth value written to the predicate of bits [2:0] of a code; p7 discards it (01 R10). -/
def toPred (code : BitVec 8) (b : Bool) (tgt : Target) : Option Word :=
  match tgt with
  | .reg _ => none
  | .pred k => if k = code.toNat % 8 ∧ k ≠ 7 then some (if b then 1 else 0) else none

/-- From `s` to `t` the threads of a team have been given results and nothing else has changed: thread `n` has those that `f` names
for the lanes `g n`, none of them readable in this group (03 R53), and the sticky flags that `fl` names have been raised (01 R15). -/
structure State.Gave (s t : State) (team : Nat) (g : Nat → List Lane) (f : Lane → Target → Option Word)
    (fl : Lane → BitVec 6) : Prop where
  rest    : t = { s with wk := { s.wk with teams := t.wk.teams } }
  others  : ∀ k, k ≠ team → t.team? k = s.team? k
  unit    : (t.team? team).map (fun tm => { tm with threads := [] }) = (s.team? team).map (fun tm => { tm with threads := [] })
  threads : ∀ n a, s.thread? team n = some a → ∃ b, t.thread? team n = some b ∧ b = { a with pend := b.pend, flags := b.flags }
    ∧ (∀ tgt base, b.read tgt base = a.read tgt base)
    ∧ (∀ tgt, b.final tgt = (g n).foldl (fun v l => (f l tgt).getD v) (a.final tgt))
    ∧ b.flags = (g n).foldl (fun v l => v ||| fl l) a.flags

/-- An instruction that issues answers a next state: its results are given as `f` and `fl` say, and its slot is finished. -/
def State.Results (s : State) (op : Op) (e : Enc) (f : Lane → Target → Option Word) (fl : Lane → BitVec 6) : Prop :=
  ∀ i, s.Issues op e i → ∃ t, exec (op.instr e) s = .next t.finishSlot ∧ s.Gave t i.team.id i.givers f fl

/-- The same for an instruction that gives every active lane a result of its own, which may depend on the others. -/
def State.LaneResults (s : State) (op : Op) (e : Enc) (f : Iss → Lane → Target → Option Word) (fl : Iss → Lane → BitVec 6) : Prop :=
  ∀ i, s.Issues op e i → ∃ t, exec (op.instr e) s = .next t.finishSlot ∧ s.Gave t i.team.id i.actors (f i) (fl i)

/-- A relation that holds step by step along a list, from `s` to `t`. -/
def Each {α : Type} (r : α → State → State → Prop) : List α → State → State → Prop
  | [], s, t => t = s
  | x :: xs, s, t => ∃ u, r x s u ∧ Each r xs u t

/-- From `s` to `t` nothing has changed but what debugging, tracing and the links keep of an access: stops on their way, trace records,
sampling counts, and when a flit last crossed (27 R430, R439, R441, R447; 30 R481). -/
structure State.Watched (s t : State) : Prop where
  rest    : t = { s with wk := { s.wk with teams := t.wk.teams }, ctxs := t.ctxs, cores := t.cores, free := t.free,
                         pkg := { s.pkg with links := t.pkg.links } }
  threads : ∀ k n, t.thread? k n = s.thread? k n
  links   : ∀ k, t.link k = s.link k ∨ t.link k = { s.link k with flit := s.clock.time }
  idle    : s.dbg.watches = [] → (∀ k c, Nat.testBit (s.ctx k c).sampleCtl.toNat 0 = false) →
              t = { s with pkg := { s.pkg with links := t.pkg.links } }

/-- One performance, by lane `l` for the lanes `rcv`, has met a fault and has done nothing else (26 R407): the thread holds the fault
until its warp takes it. -/
def State.Faulted (s t : State) (i : Iss) (l : Lane) (rcv : List Lane) (cause : BitVec 16) (write : BitVec 8) : Prop :=
  t = { s with wk := { s.wk with teams := t.wk.teams }, free := t.free }
  ∧ ∀ k n a, s.thread? k n = some a → t.thread? k n = some (if k = i.team.id ∧ n = l.th.ltid then
      { a with faults := a.faults ++ [⟨cause, 0, BitVec.ofNat 64 (l.addr i.e), i.turn.pc, i.turn.slot, i.instr, .none, write,
        (rcv.map (fun m => m.th.ltid)).filter (· != l.th.ltid), false⟩] } else a)

/-- The commands of a form are accepted lane by lane in ascending order (17 R296; 21 R369, R371): `ok` says what an accepted one does
and `bad` why one is refused, with its cause and its DETAIL where the specification states one (log entry 12). From the first refused
one on nothing is accepted; its lane holds the fault, which marks every lane not accepted. -/
def State.Accepts (s : State) (j : Instr) (i : Iss) (ps : List (Lane × List Lane)) (ok : Lane × List Lane → State → State → Prop)
    (bad : Lane × List Lane → State → BitVec 16 → Option Nat → Prop) : Prop :=
  ((∀ k p a, ps[k]? = some p → Each ok (ps.take k) s a → ¬∃ c d, bad p a c d) →
    ∃ t : State, exec j s = .next t.finishSlot ∧ Each ok ps s t)
  ∧ ∀ k p a c d, ps[k]? = some p → Each ok (ps.take k) s a → bad p a c d →
    ∃ (t : State) (x : Nat), exec j s = .next t.finishSlot ∧ d.all (· == x) = true
      ∧ t = { a with wk := { a.wk with teams := t.wk.teams }, free := a.free + 1 }
      ∧ ∀ m n y, a.thread? m n = some y → t.thread? m n = some (if m = i.team.id ∧ n = p.1.th.ltid then
          { y with faults := y.faults ++ [⟨c, 0, BitVec.ofNat 64 x, i.turn.pc, i.turn.slot, j, .none, 0,
            (p.2.map (fun l => l.th.ltid)).filter (· != p.1.th.ltid) ++ (ps.drop (k + 1)).map (fun q => q.1.th.ltid), true⟩] } else y)

/-- A byte of global memory as a core finds it at L2 with its own dirty bytes, once every other L1 has given the line up and what is
on its way back has arrived (13 R232, 14 R259, 30 R487). -/
def State.seenBy (s : State) (core x : Nat) : Byte :=
  ((s.recall (some core) (lineOf x)).coreChunk core (chunkOf x)).getD (x % 8) 0

/-- No other core holds a line exclusively, and what the core has stored is backed by a live domain; memory is in its canonical form.
What another core has still to give up is then no part of what this one does. -/
def State.Quiet (s : State) (core : Nat) : Prop :=
  s.memOk ∧ (∀ c l, (c, l) ∈ s.mm.l1 → c ≠ core → l.excl = [])
  ∧ (∀ l k ws, (core, l) ∈ s.mm.l1 → (k, ws) ∈ l.dirty → s.pkg.backed (8 * k) = true)
  ∧ ∀ b k ws, b ∈ s.mm.wbs → (k, ws) ∈ b.writes → s.pkg.backed (8 * k) = true

/-- Every recorded write of a chunk, and every store of it that is dirty in the reader's L1, is one that the reader must find (14 R255,
R257): its value is certain. -/
def State.Certain (s : State) (r : Reader) (chunk : Nat) : Prop :=
  (∀ a, a ∈ Table.read [] s.mm.hist chunk → r.must a = true) ∧ ∀ w, w ∈ (s.l1 r.core).writes chunk → r.mustOwn w = true

/-- The recorded writes of a chunk, made one after the other, give what it holds now. -/
def Told (as : List Arrival) (now : List Byte) : Prop := as.foldl (fun b a => a.write.onto b) (baseOf as now) = now

/-- The recorded writes of a chunk of global memory give what L2 holds. -/
def State.Told (s : State) (chunk : Nat) : Prop := Machine.Told (Table.read [] s.mm.hist chunk) (s.mm.bytes (8 * chunk) 8)

/-- A value that byte `k` of a chunk may be found to have: that of now, that from before every recorded write, or that of a recorded
write or of one of the writes `ws` (14 R257). -/
def FoundIn (as : List Arrival) (ws : List Write) (now : List Byte) (k : Nat) (b : Byte) : Prop :=
  b = now.getD k 0 ∨ b = (baseOf as now).getD k 0
  ∨ ∃ w, (w ∈ as.map Arrival.write ∨ w ∈ ws) ∧ w.off ≤ k ∧ k < w.off + w.bytes.length ∧ b = w.bytes.getD (k - w.off) 0

/-- A value that a read of byte `x` may find: one that L2 has held, or that of a store that is dirty in an L1 or on its way from one
(14 R257). -/
def State.Findable (s : State) (x : Nat) (b : Byte) : Prop :=
  let c := chunkOf x
  FoundIn (Table.read [] s.mm.hist c)
    (s.mm.l1.flatMap (fun (e : Nat × L1) => e.2.writes c) ++ s.mm.wbs.flatMap (fun w => Table.read [] w.writes c))
    (s.mm.bytes (8 * c) 8) (x % 8) b

/-- The chunks of `n` bytes. -/
def chunksOf (pa n : Nat) : List Nat := (List.range ((pa % 8 + n + 7) / 8)).map (fun k => pa / 8 + k)

/-- Every recorded write of the chunks of some bytes of a scratchpad is one that the reader must find: its value is certain (14 R248). -/
def Team.Certain (t : Team) (r : Reader) (off n : Nat) : Prop := ∀ c, c ∈ chunksOf off n →
  Machine.Told (Table.read [] t.spadLog c) (t.spadBytes (8 * c) 8) ∧ ∀ a, a ∈ Table.read [] t.spadLog c → r.mustSpad a = true

/-- The line of no byte is held exclusively by an L1, and no write-back is on its way: what an access at the home slice finds in L2 is
what every core sees there. -/
def State.Settled (s : State) : Prop := s.mm.wbs = [] ∧ ∀ c l, (c, l) ∈ s.mm.l1 → l.excl = []

/-- One error record has been written to queue `q`, about packet `pid` or about none, and the queue has halted (09 R182, R183), or will
when the bundle that it is about has completed (17 R311). -/
structure State.ErrorRecorded (s t : State) (q : Nat) (pid : Option Nat) (seq : BitVec 64) (code member tag sub lane detail : Nat) : Prop where
  rest   : t = { s with mm := t.mm, fe := { s.fe with queues := t.fe.queues, pkts := s.fe.pkts.map (fun p =>
             if some p.id = pid ∧ p.err = 0 then { p with err := BitVec.ofNat 8 code } else p) } }
  reg    : t.queue q = { s.queue q with halted := (s.queue q).halted || !pid.any s.isBundle, err := BitVec.ofNat 8 code, erridx := (s.queue q).erridx + 1 }
  others : ∀ k, k ≠ q → t.queue k = s.queue k
  bytes  : let base := (s.queue q).errbase.toNat / 2 ^ 12 % 2 ^ 36 * 2 ^ 12 + 32 * ((s.queue q).erridx.toNat % 128)
           s.Settled → (∀ k, k < 4 → s.pkg.backed (base + 8 * k) = true) → ∀ x, t.mm.byte x = if base ≤ x ∧ x < base + 32 then
             BitVec.ofNat 8 ((seq.toNat + code * 2 ^ 64 + member * 2 ^ 72 + tag * 2 ^ 80 + q % 256 * 2 ^ 96 + sub * 2 ^ 104 + lane * 2 ^ 112
               + detail % 2 ^ 64 * 2 ^ 128 + s.timeAt (q / 32) % 2 ^ 64 * 2 ^ 192) / 2 ^ (8 * (x - base))) else s.mm.byte x

/-- What an exact integer result `v` becomes at a type: read back it is the value of the type's range that is congruent to `v`, or,
with SAT, the one nearest to `v`, and SAT is raised where that is not `v` (02 R26, R40). -/
def Narrowed (ty : Nat) (sat : Bool) (v : Int) (r : Nat × BitVec 6) : Prop :=
  let w := typeWidth ty
  let lo := intMin (isSigned ty) w
  let hi := intMax (isSigned ty) w
  let x := readInt (isSigned ty) (max 32 w) r.1
  r.1 < 2 ^ max 32 w ∧ lo ≤ x ∧ x ≤ hi
  ∧ (sat = false → (2 ^ w : Int) ∣ v - x ∧ r.2 = 0)
  ∧ (sat = true → (x = v ∨ (v < lo ∧ x = lo) ∨ (hi < v ∧ x = hi)) ∧ r.2 = if x = v then 0 else fSAT)

/-- `q` is the exact quotient `num / 2 ^ n` rounded to an integer by RND (02 R36): to nearest even, toward zero, upward, downward, to
nearest with ties away from zero, half-up. -/
def Rounded (rnd : Nat) (num : Int) (n : Nat) (q : Int) : Prop :=
  let d := q * 2 ^ n - num
  match rnd with
  | 0 => 2 * d.natAbs ≤ 2 ^ n ∧ (2 * d.natAbs = 2 ^ n → q % 2 = 0)
  | 1 => (q * 2 ^ n).natAbs ≤ num.natAbs ∧ d.natAbs < 2 ^ n
  | 2 => 0 ≤ d ∧ d < 2 ^ n
  | 3 => d ≤ 0 ∧ -2 ^ n < d
  | 4 => 2 * d.natAbs ≤ 2 ^ n ∧ (2 * d.natAbs = 2 ^ n → num.natAbs < (q * 2 ^ n).natAbs)
  | _ => 2 * d ≤ 2 ^ n ∧ -2 ^ n < 2 * d

/-! ### Exact values and their rounding -/

/-- A power of two. -/
def pow2 (k : Int) : Rat := (2 : Rat) ^ k

/-- The number that a finite value is (02 R29). -/
def FVal.rat : FVal → Rat
  | .fin neg m e => (if neg then -1 else 1) * (m : Rat) * pow2 e
  | .nan _ | .inf _ => 0

/-- The value with the other sign. -/
def FVal.neg : FVal → FVal
  | .fin neg m e => .fin (!neg) m e
  | .inf neg => .inf (!neg)
  | .nan s => .nan s

/-- `n` is what RND makes of the magnitude `v` (02 R36), by the places `half j` of the multiples of half a unit: to nearest even, toward
zero, upward, downward, to nearest with ties away from zero, half-up. -/
def Nearest (rnd : Nat) (neg : Bool) (half : Nat → Rat) (v : Rat) (n : Nat) : Prop :=
  let low := half (2 * n) ≤ v ∧ v < half (2 * n + 2)
  let high := (n = 0 ∨ half (2 * n - 2) < v) ∧ v ≤ half (2 * n)
  match rnd with
  | 0 => half (2 * n - 1) ≤ v ∧ v ≤ half (2 * n + 1) ∧ (v = half (2 * n - 1) ∨ v = half (2 * n + 1) → n % 2 = 0)
  | 1 => low
  | 2 => if neg then low else high
  | 3 => if neg then high else low
  | 4 => half (2 * n - 1) ≤ v ∧ v < half (2 * n + 1)
  | _ => if neg then (n = 0 ∨ half (2 * n - 1) < v) ∧ v ≤ half (2 * n + 1) else half (2 * n - 1) ≤ v ∧ v < half (2 * n + 1)

/-- An exact magnitude `x` from 0 up, which is not zero and of which `g x = v` for a `g` that increases, rounded once to a format: to the
format's precision and its lower limit (02 R32, R36, R37), delivered as 02 R38 has it where that exceeds the largest finite value, with the
flags of an inexact, of a tiny and of an overflowed result. -/
def Fmt.Rounds (f : Fmt) (rnd : Nat) (sat neg : Bool) (g : Rat → Rat) (v : Rat) (r : FRes) : Prop :=
  let half (k : Int) (j : Nat) : Rat := g (j * pow2 (k - 1))
  let emin : Int := 1 - (f.bias : Int)
  let spans (k : Int) : Prop := half k (2 * 2 ^ f.mbits) ≤ v ∧ v < half k (4 * 2 ^ f.mbits)
  let tiny := ∃ n k, spans k ∧ Nearest rnd neg (half k) v n ∧ (n : Rat) * pow2 k < pow2 emin
  let away := rnd = 0 ∨ rnd = 4 ∨ (rnd = 2 ∧ neg = false) ∨ (rnd = 3 ∧ neg = true)
  ∃ (n : Nat) (k : Int) (m : Nat) (e : Int), f.val f.maxBits = .fin false m e ∧ r.1 < 2 ^ f.width
    ∧ (spans k ∧ emin - f.mbits ≤ k ∨ v < half k (2 * 2 ^ f.mbits) ∧ k = emin - f.mbits) ∧ Nearest rnd neg (half k) v n
    ∧ ((n : Rat) * pow2 k ≤ m * pow2 e → (∃ y h, f.val r.1 = .fin neg y h ∧ (y : Rat) * pow2 h = n * pow2 k)
      ∧ (v = half k (2 * n) → r.2 = 0) ∧ (v ≠ half k (2 * n) → (tiny → r.2 = fNX ||| fUF) ∧ (¬tiny → r.2 = fNX)))
    ∧ ((m : Rat) * pow2 e < n * pow2 k → (f.inf = false ∨ sat = true → f.val r.1 = .fin neg m e ∧ r.2 = fOF ||| fNX ||| fSAT)
      ∧ (f.inf = true → sat = false → r.2 = fOF ||| fNX ∧ (away → f.val r.1 = .inf neg) ∧ (¬away → f.val r.1 = .fin neg m e)))

/-- The pattern of a zero, of an infinity. -/
def Fmt.zero (f : Fmt) (neg : Bool) : Nat := if neg then f.signBit else 0
@[inherit_doc Fmt.zero]
def Fmt.infinity (f : Fmt) (neg : Bool) : Nat := f.zero neg + f.infBits

/-- An exact result `z` rounded once; an exactly zero one has the sign `zneg` and raises nothing (02 R45). -/
def Fmt.Delivers (f : Fmt) (rnd : Nat) (sat zneg : Bool) (z : Rat) (r : FRes) : Prop :=
  (z = 0 → r = (f.zero zneg, 0)) ∧ (z < 0 → f.Rounds rnd sat true (fun t => t) (-z) r) ∧ (0 < z → f.Rounds rnd sat false (fun t => t) z r)

/-- A result is the canonical NaN where an operand is one, and raises NV for a signalling one (02 R31). -/
def Fmt.Quiets (f : Fmt) (vs : List FVal) (r : FRes) : Prop :=
  (FVal.nan true ∈ vs → r = (f.nan, fNV)) ∧ (FVal.nan true ∉ vs → FVal.nan false ∈ vs → r = (f.nan, 0))

/-- A sum (06 R126; 02 R31, R45): an exactly zero one is -0 only where both addends are. -/
def Fmt.Adds (f : Fmt) (rnd : Nat) (sat : Bool) (x y : FVal) (r : FRes) : Prop :=
  f.Quiets [x, y] r
  ∧ (∀ p q, x = .inf p → y = .inf q → (p = q → r = (f.infinity p, 0)) ∧ (p ≠ q → r = (f.nan, fNV)))
  ∧ ∀ p q m e, (x = .inf p ∧ y = .fin q m e ∨ y = .inf p ∧ x = .fin q m e → r = (f.infinity p, 0))
    ∧ ∀ n g, x = .fin p m e → y = .fin q n g → f.Delivers rnd sat (p && q && m == 0 && n == 0) (x.rat + y.rat) r

/-- A product (06 R126). -/
def Fmt.Multiplies (f : Fmt) (rnd : Nat) (sat : Bool) (x y : FVal) (r : FRes) : Prop :=
  f.Quiets [x, y] r
  ∧ (∀ p q, x = .inf p → y = .inf q → r = (f.infinity (p != q), 0))
  ∧ ∀ p q m e, (x = .inf p ∧ y = .fin q m e ∨ y = .inf p ∧ x = .fin q m e →
      (m = 0 → r = (f.nan, fNV)) ∧ (m ≠ 0 → r = (f.infinity (p != q), 0)))
    ∧ ∀ n g, x = .fin p m e → y = .fin q n g → f.Delivers rnd sat (p != q) (x.rat * y.rat) r

/-- A product and a sum, rounded once (06 R126; 02 R41, R45): zero times infinity is invalid whatever the addend, and toward -∞ an exactly
zero sum of addends whose signs differ is -0. -/
def Fmt.Fuses (f : Fmt) (rnd : Nat) (sat : Bool) (x y z : FVal) (r : FRes) : Prop :=
  let sign (u : FVal) (p : Bool) : Prop := u = .inf p ∨ ∃ m e, u = .fin p m e
  let none := ∃ p q e, x = .inf p ∧ y = .fin q 0 e ∨ y = .inf p ∧ x = .fin q 0 e
  (FVal.nan true ∈ [x, y, z] ∨ none → r = (f.nan, fNV))
  ∧ (FVal.nan true ∉ [x, y, z] → ¬none → FVal.nan false ∈ [x, y, z] → r = (f.nan, 0))
  ∧ ∀ p q t, sign x p → sign y q → sign z t → ¬none →
    ((∃ u, x = .inf u ∨ y = .inf u) → (∀ u, z = .inf u → u ≠ (p != q) → r = (f.nan, fNV))
      ∧ ((∀ u, z = .inf u → u = (p != q)) → r = (f.infinity (p != q), 0)))
    ∧ ∀ m e n g, x = .fin p m e → y = .fin q n g → (z = .inf t → r = (f.infinity t, 0))
      ∧ ∀ k h, z = .fin t k h → f.Delivers rnd sat (if rnd = 3 then (p != q) != t || ((p != q) && t) else (p != q) && t) (x.rat * y.rat + z.rat) r

/-- A quotient (06 R134, R135). -/
def Fmt.Divides (f : Fmt) (rnd : Nat) (sat : Bool) (x y : FVal) (r : FRes) : Prop :=
  f.Quiets [x, y] r
  ∧ ∀ p q, (x = .inf p → y = .inf q → r = (f.nan, fNV))
    ∧ ∀ m e, (x = .inf p → y = .fin q m e → r = (f.infinity (p != q), 0)) ∧ (x = .fin p m e → y = .inf q → r = (f.zero (p != q), 0))
      ∧ ∀ n g, x = .fin p m e → y = .fin q n g → (n = 0 → m = 0 → r = (f.nan, fNV)) ∧ (n = 0 → m ≠ 0 → r = (f.infinity (p != q), fDZ))
        ∧ (n ≠ 0 → f.Delivers rnd sat (p != q) (x.rat / y.rat) r)

/-- A value in another format (06 R137; 02 R38): the same value where the formats are the same. -/
def Fmt.Converts (f g : Fmt) (rnd : Nat) (sat : Bool) (a : Nat) (r : FRes) : Prop :=
  let x := f.val a
  let canon := g.inf = true ∨ g.mbits = 3
  (canon → g.Quiets [x] r) ∧ (¬canon → x.isNan = true → r = (0, fNV ||| fSAT))
  ∧ (f = g → x.isNan = false → r = (a % 2 ^ f.width, 0))
  ∧ (f ≠ g → ∀ p, (x = .inf p → (g.inf = false ∨ sat = true → r = (g.zero p + g.maxBits, fSAT)) ∧ (g.inf = true → sat = false → r = (g.infinity p, 0)))
    ∧ ∀ m e, x = .fin p m e → g.Delivers rnd sat p x.rat r)

/-! ### Runs -/

/-- Nothing of a team is left to trap for: no lane has met a fault, and no warp has raised a trap. -/
def Team.calm (t : Team) : Bool := t.threads.all (fun th => th.faults.isEmpty) && t.warps.all (fun w => w.want.isEmpty)

/-- A run of `n` steps that does not stop. -/
def State.runs (s : State) (n : Nat) : Prop := ∃ t, Host.Core.run Sys2Proof.core n s = .next t

end Sys2Proof.Machine
end

