-- ==== Sys2Proof/WellFormed.lean ====
section
/-! DEFINITION. Well-formed instructions: the AUX field names the row that the constructor stands for, and every field holds a value
that the row accepts (03 R70). -/

namespace Sys2Proof

open Machine

/-- OPCODE and AUX name the row of the constructor: one opcode may hold two rows (07 R141, R144; 15 R266). -/
def Instr.named (i : Instr) : Bool :=
  match i.op? with
  | some (op, e) => opOfCode op.code e.x.aux == some op
  | none => true

/-- Every field of an encoded instruction holds an accepted value for a thread with every general register (03 R70). An event has
no encoding. -/
def Instr.fieldsOk (i : Instr) : Bool :=
  match i.op? with
  | some (op, e) => encodingOk 240 op e
  | none => true

/-- A well-formed instruction. -/
def Instr.wf (i : Instr) : Bool := i.named && i.fieldsOk

end Sys2Proof
end

