-- ==== Sys2Proof/Certificates/Slice0/Obligations.lean ====
section
/-! DEFINITION. The statements for the provers. -/

open Sys2Proof Sys2Proof.Machine

/-! ### Results of the integer and logic forms -/

/-- 05 R98 to R100, R102, R103; 06 R129: what the moves, the comparisons and the predicate form write. -/
def Obligations.MoveCompareResults : Prop := ∀ (s : State) (e : Enc),
  s.Results .mov e (fun l => toRegs e.d (typeRegs (typeOf 3 e)) (l.opA .mov e (typeRegs (typeOf 3 e)) (typeOf 3 e))) (fun _ => 0)
  ∧ s.Results .movi e (fun _ => toRegs e.d 1 (if typeOf 3 e = 8 then (e.imm16.signExtend 32).toNat else e.imm16.toNat)) (fun _ => 0)
  ∧ s.Results .movh e (fun l => toRegs e.d 1 (e.imm16 ++ (l.word e.d.toNat).extractLsb' 0 16 : Word).toNat) (fun _ => 0)
  ∧ s.Results .sel e (fun l => toRegs e.d (typeRegs (typeOf 3 e))
      (if l.th.pred (e.x.c.toNat % 8) = Nat.testBit e.x.c.toNat 3 then l.opB .sel e (typeRegs (typeOf 3 e)) (typeOf 3 e)
        else l.src (typeRegs (typeOf 3 e)) e.a.toNat)) (fun _ => 0)
  ∧ (let ty := typeOf 8 e
    let w := typeWidth ty
    let a (l : Lane) : Nat := l.src (typeRegs ty) e.a.toNat
    let b (l : Lane) : Nat := l.opB .cmp e (typeRegs ty) ty
    ∃ r : Lane → Bool, s.Results .cmp e (fun l => toPred e.d (r l)) (fun _ => 0) ∧ ∀ l,
      (e.x.c = 0 → (r l ↔ a l % 2 ^ w = b l % 2 ^ w)) ∧ (e.x.c = 1 → (r l ↔ a l % 2 ^ w ≠ b l % 2 ^ w))
      ∧ (e.x.c = 2 → (r l ↔ toSigned w (a l) < toSigned w (b l))) ∧ (e.x.c = 3 → (r l ↔ toSigned w (a l) ≤ toSigned w (b l)))
      ∧ (e.x.c = 4 → (r l ↔ toSigned w (b l) < toSigned w (a l))) ∧ (e.x.c = 5 → (r l ↔ toSigned w (b l) ≤ toSigned w (a l)))
      ∧ (e.x.c = 6 → (r l ↔ a l % 2 ^ w < b l % 2 ^ w)) ∧ (e.x.c = 7 → (r l ↔ a l % 2 ^ w ≤ b l % 2 ^ w))
      ∧ (e.x.c = 8 → (r l ↔ b l % 2 ^ w < a l % 2 ^ w)) ∧ (e.x.c = 9 → (r l ↔ b l % 2 ^ w ≤ a l % 2 ^ w)))
  ∧ (let x (l : Lane) : Bool := l.th.pred (e.a.toNat % 8) ^^ Nat.testBit e.a.toNat 3
    let y (l : Lane) : Bool := l.th.pred (e.b.toNat % 8) ^^ Nat.testBit e.b.toNat 3
    ∃ r : Lane → Bool, s.Results .pops e (fun l => toPred e.d (r l)) (fun _ => 0) ∧ ∀ l,
      (e.x.aux = 0 → r l = (x l && y l)) ∧ (e.x.aux = 1 → r l = (x l || y l)) ∧ (e.x.aux = 2 → r l = (x l ^^ y l))
      ∧ (e.x.aux = 3 → r l = (x l && !y l)))
  ∧ (let f := fmtIn 0xC e
    let a (l : Lane) : FVal := f.val (l.src 1 e.a.toNat)
    let b (l : Lane) : FVal := f.val (l.opB .fcmp e 1 3)
    let un (l : Lane) : Prop := (a l).isNan ∨ (b l).isNan
    let sig (l : Lane) : Prop := a l = .nan true ∨ b l = .nan true
    ∃ (r : Lane → Bool) (fl : Lane → BitVec 6), s.Results .fcmp e (fun l => toPred e.d (r l)) fl ∧ ∀ l,
      (e.x.c = 0 → (r l ↔ (a l).eq (b l))) ∧ (e.x.c = 1 → (r l ↔ ¬(a l).eq (b l)))
      ∧ (e.x.c = 2 → (r l ↔ (a l).lt false (b l))) ∧ (e.x.c = 3 → (r l ↔ (a l).lt false (b l) ∨ (a l).eq (b l)))
      ∧ (e.x.c = 4 → (r l ↔ (b l).lt false (a l))) ∧ (e.x.c = 5 → (r l ↔ (b l).lt false (a l) ∨ (a l).eq (b l)))
      ∧ (e.x.c = 6 → (r l ↔ ¬un l)) ∧ (e.x.c = 7 → (r l ↔ un l))
      ∧ (e.x.c ∈ [0, 1, 6, 7] → (sig l → fl l = fNV) ∧ (¬sig l → fl l = 0))
      ∧ (e.x.c ∈ [2, 3, 4, 5] → (un l → fl l = fNV) ∧ (¬un l → fl l = 0)))

/-- 05 R104 to R109: the exact result of the integer arithmetic, wrapped or saturated once; products of twice the width, carries, and
addresses. -/
def Obligations.IntegerResults : Prop :=
  (∀ (s : State) (e : Enc),
    let ty := typeOf 8 e
    let x (l : Lane) : Int := readInt (isSigned ty) (typeWidth ty) (l.src (typeRegs ty) e.a.toNat)
    let y (op : Op) (l : Lane) : Int := readInt (isSigned ty) (typeWidth ty) (l.opB op e (typeRegs ty) ty)
    let z (l : Lane) : Int := readInt (isSigned ty) (typeWidth ty) (l.src (typeRegs ty) e.x.c.toNat)
    let gives (op : Op) (v : Lane → Int) : Prop := ∃ r : Lane → Nat × BitVec 6,
      (∀ l, Narrowed ty (e.x.sat == 1) (v l) (r l)) ∧ s.Results op e (fun l => toRegs e.d (typeRegs ty) (r l).1) (fun l => (r l).2)
    gives .add (fun l => x l + y .add l) ∧ gives .sub (fun l => x l - y .sub l) ∧ gives .mul (fun l => x l * y .mul l)
    ∧ gives .mad (fun l => x l * y .mad l + z l)
    ∧ gives .min (fun l => if x l ≤ y .min l then x l else y .min l) ∧ gives .max (fun l => if x l ≤ y .max l then y .max l else x l)
    ∧ gives .abs (fun l => if x l < 0 then -x l else x l) ∧ gives .neg (fun l => -x l))
  ∧ (∀ (s : State) (e : Enc),
    let ty := typeOf 8 e
    let sg := isSigned ty
    let w := typeWidth ty
    let x (l : Lane) : Int := readInt sg w (l.src (typeRegs ty) e.a.toNat)
    let y (op : Op) (l : Lane) : Int := readInt sg w (l.opB op e (typeRegs ty) ty)
    let u (l : Lane) : Nat := (l.src 1 e.a.toNat) % 2 ^ 32
    let v (op : Op) (l : Lane) : Nat := (l.opB op e 1 3) % 2 ^ 32
    let ci (l : Lane) : Nat := if l.th.pred (e.x.c.toNat % 8) = Nat.testBit e.x.c.toNat 3 then 0 else 1
    let co : BitVec 8 := e.x.c >>> 4
    (∃ r : Lane → Nat, s.Results .mulh e (fun l => toRegs e.d (typeRegs ty) (r l)) (fun _ => 0) ∧
      ∀ l, r l < 2 ^ w ∧ readInt sg w (r l) = x l * y .mulh l / 2 ^ w)
    ∧ (∃ r : Lane → Nat × BitVec 6, s.Results .madw e (fun l => toRegs e.d 2 (r l).1) (fun l => (r l).2) ∧
      ∀ l, Narrowed (if sg then 9 else 4) (e.x.sat == 1) (x l * y .madw l + readInt sg 64 (l.src 2 e.x.c.toNat)) (r l))
    ∧ s.Results .addc e (fun l tgt => (toPred co (decide (2 ^ 32 ≤ u l + v .addc l + ci l)) tgt).or
        (toRegs e.d 1 ((u l + v .addc l + ci l) % 2 ^ 32) tgt)) (fun _ => 0)
    ∧ s.Results .subc e (fun l tgt => (toPred co (decide (u l < v .subc l + ci l)) tgt).or
        (toRegs e.d 1 ((2 ^ 33 + u l - v .subc l - ci l) % 2 ^ 32) tgt)) (fun _ => 0)
    ∧ s.Results .lea e (fun l => toRegs e.d 2 (BitVec.ofNat 64 (l.src 2 e.a.toNat)
        + (BitVec.ofInt 64 (readInt sg 32 (l.src 1 e.b.toNat)) <<< e.x.aux.toNat) + (e.lit.getD 0).signExtend 64).toNat) (fun _ => 0))

/-- 05 R110 to R114: the bitwise forms and the bit counts, bit by bit; shifts, the rotation and the bit fields. -/
def Obligations.BitwiseShiftResults : Prop :=
  (∀ (s : State) (e : Enc),
    let ty := typeOf 3 e
    let n := typeRegs ty
    let w := typeWidth ty
    let a (l : Lane) (j : Nat) : Bool := Nat.testBit (l.src n e.a.toNat) j
    let b (op : Op) (l : Lane) (j : Nat) : Bool := Nat.testBit (l.opB op e n ty) j
    let bits (op : Op) (f : Lane → Nat → Bool) : Prop := ∃ r : Lane → Nat,
      s.Results op e (fun l => toRegs e.d n (r l)) (fun _ => 0) ∧ ∀ l j, j < w → Nat.testBit (r l) j = f l j
    bits .and (fun l j => a l j && b .and l j) ∧ bits .or (fun l j => a l j || b .or l j)
    ∧ bits .xor (fun l j => a l j ^^ b .xor l j) ∧ bits .andn (fun l j => a l j && !b .andn l j)
    ∧ bits .not (fun l j => !a l j) ∧ bits .brev (fun l j => a l (w - 1 - j))
    ∧ (∃ r : Lane → Nat, s.Results .clz e (fun l => toRegs e.d 1 (r l)) (fun _ => 0) ∧
      ∀ l, r l ≤ w ∧ (∀ j, w - r l ≤ j → j < w → a l j = false) ∧ (r l < w → a l (w - 1 - r l) = true))
    ∧ s.Results .popc e (fun l => toRegs e.d 1 ((List.range w).countP (a l))) (fun _ => 0))
  ∧ (∀ (s : State) (e : Enc),
    let ty := typeOf 3 e
    let w := typeWidth ty
    let a (l : Lane) : Nat := l.src (typeRegs ty) e.a.toNat
    let n (op : Op) (l : Lane) : Nat := l.opB op e 1 3
    let pos (op : Op) (l : Lane) : Nat := n op l % 2 ^ 8
    let len (op : Op) (l : Lane) : Nat := min (n op l / 2 ^ 8 % 2 ^ 8) w
    let bits (op : Op) (f : Lane → Nat → Bool) : Prop := ∃ r : Lane → Nat,
      s.Results op e (fun l => toRegs e.d (typeRegs ty) (r l)) (fun _ => 0) ∧ ∀ l j, j < w → Nat.testBit (r l) j = f l j
    (∃ r : Lane → Nat × BitVec 6, s.Results .shl e (fun l => toRegs e.d (typeRegs ty) (r l).1) (fun l => (r l).2) ∧
      ∀ l, Narrowed ty (e.x.sat == 1) (readInt (isSigned ty) w (a l) * 2 ^ n .shl l) (r l))
    ∧ bits .shr (fun l j => Nat.testBit (a l) (j + n .shr l))
    ∧ (let sa := typeOf 8 e
      ∃ r : Lane → Nat, s.Results .sra e (fun l => toRegs e.d (typeRegs sa) (r l)) (fun _ => 0) ∧
        ∀ l, r l < 2 ^ typeWidth sa ∧
          toSigned (typeWidth sa) (r l) = toSigned (typeWidth sa) (l.src (typeRegs sa) e.a.toNat) / 2 ^ n .sra l)
    ∧ bits .rotl (fun l j => Nat.testBit (a l) ((j + (w - n .rotl l % w)) % w))
    ∧ (let f (l : Lane) (j : Nat) : Bool :=
        if pos .bfx l + j < w then Nat.testBit (a l) (pos .bfx l + j) else isSigned ty && Nat.testBit (a l) (w - 1)
      bits .bfx (fun l j => if j < len .bfx l then f l j else isSigned ty && decide (0 < len .bfx l) && f l (len .bfx l - 1)))
    ∧ bits .bfi (fun l j => if pos .bfi l ≤ j ∧ j < pos .bfi l + len .bfi l then Nat.testBit (a l) (j - pos .bfi l)
        else Nat.testBit (l.src (typeRegs ty) e.x.c.toNat) j))

/-! ### Events of memory -/

/-- 03 R66, R69, R72, 07 R146, R148, 13 R229, 14 R257, 26 R414: a fetch latches the packet at the warp's address or traps; each byte of it is
one that memory has held since the kernel began. A load that returns writes its results in every lane that it serves: the value found when
it issued, or one that global memory has held. -/
def Obligations.FetchReturnResults : Prop := ∀ (s : State) (t : Team) (w : Warp) (l : Lane) (rest : List Lane), s.team? t.id = some t → t.warp? w.id = some w →
  (s.turn = none → t.slot = some (s.core t.core).active → s.fetchDue t w = true → t.lanesOf w = l :: rest →
    let pc := l.th.pc.toNat
    let tlb : Tlb := .instr t.core
    let since := ((s.grid? t.grid).map Grid.since).getD 0
    let n : Turn := ⟨t.id, w.id, l.th.pc, l.th.slot, l.th.slot, [], none, 0, false, none, false⟩
    let u (x : State) : Prop := exec (.packetFetch t.id w.id) s = .next x
    (pc % 16 ≠ 0 → u (s.rejectPart n 3 0 none 2 .none))
    ∧ (pc % 16 = 0 → (∀ c, s.resolve t.ctx tlb pc 16 16 .fetch = .error c → c ≠ 0x04 → u (s.rejectPart n c 0 (some pc) 2 .none))
      ∧ (s.resolve t.ctx tlb pc 16 16 .fetch = .error 0x04 → ∀ o x, s.offerFault t.ctx t.core pc 0 0 0 0xFF false = (o, x) →
          u (x.rejectPart n 0x04 0 (some pc) 2 o))
      ∧ ∀ pa m, s.resolve t.ctx tlb pc 16 16 .fetch = .ok (.phys pa m) → (s.badData pa 16 = true → u (s.rejectPart n 0x18 0 (some pc) 2 .none))
        ∧ (s.badData pa 16 = false → ∃ (p : BitVec 128) (x : State), x = { s with mm := x.mm, free := x.free }
          ∧ (s.Settled → x.mm = { s.mm with tlb := x.mm.tlb } ∧ (∀ k, k < 16 → BitVec.ofNat 8 (p.toNat / 2 ^ (8 * k)) ∈ s.fetchable since (pa + k))
            ∧ ((∀ c, c ∈ chunksOf pa 16 → s.Told c ∧ (∀ y, y ∈ Table.read [] s.mm.hist c → y.num < since)
                ∧ ∀ k v y, (k, v) ∈ s.mm.l1 → y ∈ v.writes c → y.n < since) → p.toNat = ofBytes (s.mm.bytes pa 16)))
          ∧ (packetOk (Nat.testBit l.th.tcfg.toNat 2) p = false → u (x.rejectPart n 1 0 none 0 .none))
          ∧ (packetOk (Nat.testBit l.th.tcfg.toNat 2) p = true → ∃ y : State, u y ∧ y = { x with wk := { s.wk with teams := y.wk.teams } }
            ∧ ∃ v, y.team? t.id = some v ∧ v.threads = t.threads ∧ v.warp? w.id = some { w with packet := some p }))))
  ∧ ∀ k, ∃ x : State, exec (.memoryAccessReturn t.id k) s = .next x
    ∧ ((∀ a p id, s.thread? t.id k = some a → p ∈ a.pend → p.src ≠ .mem id) → x = s)
    ∧ ∀ a p id, s.thread? t.id k = some a → p ∈ a.pend → p.src = .mem id → x = { s with wk := { s.wk with teams := x.wk.teams }, mm := x.mm, free := x.free }
      ∧ ∃ (id : Nat) (rcv : List Nat) (found : Option (PendLoad × Nat)), (∃ p, p ∈ a.pend ∧ p.src = .mem id) ∧ k ∈ rcv
        ∧ (∀ y v, found = some (y, v) → y ∈ s.mm.loads ∧ y.id = id ∧ y.team = t.id ∧ rcv = y.rcv
          ∧ (accBytes y.ty ∈ [1, 2, 4, 8, 16] → y.pa % accBytes y.ty = 0 → ∃ bs : List Byte, bs.length = accBytes y.ty ∧ v < 2 ^ max 32 (typeWidth y.ty)
            ∧ readInt (isSigned y.ty) (max 32 (typeWidth y.ty)) v = readInt (isSigned y.ty) (typeWidth y.ty) (ofBytes bs)
            ∧ (s.memOk → ∀ j z, bs[j]? = some z → s.Findable (y.pa + j) z)))
        ∧ ∀ j n a, s.thread? j n = some a → ∃ b, x.thread? j n = some b ∧ (¬(j = t.id ∧ n ∈ rcv) → b = a)
          ∧ (j = t.id → n ∈ rcv → b = { a with regs := b.regs, preds := b.preds, pend := b.pend } ∧ (∀ p, p ∈ b.pend → p.src ≠ .mem id)
            ∧ (∀ r, b.final (.reg r) = a.final (.reg r) ∨ ∃ y v, found = some (y, v) ∧ toRegs y.dst (typeRegs y.ty) v (.reg r) = some (b.final (.reg r)))
            ∧ ∀ r, r < 7 → (b.final (.pred r) != 0) = (a.final (.pred r) != 0))

/-- 13 R235, 15 R278 to R281: a plain contribution is applied when it arrives, an ordered one is held in the slice's buffer or in the
spill area or kept, which a closing fence that waits for its epoch takes as a fault; a closed epoch is applied as a whole, in ascending key,
team, thread and program order. No link on the way is in L1 (30 R482). -/
def Obligations.ContributionResults : Prop := ∀ (s : State),
  let n (c : Contrib) : Nat := typeWidth c.type.toNat / 8
  let meets (c d : Contrib) : Prop := c.addr < d.addr + n d ∧ d.addr < c.addr + n c
  let first (c : Contrib) : Prop := c.st = .flight ∧ (c.det = none → ∀ d, d ∈ s.mm.contribs → d.n < c.n → d.st = .flight → d.det = none → meets d c →
    ¬((d.team = c.team ∧ d.thread = c.thread) ∨ d.issue = c.issue))
  (∀ x, (s.link x).asleep = false) →
  (∀ k c, s.mm.contribs.find? (fun c => c.n == k) = some c →
    (¬first c → exec (.redArrival k) s = .next s)
    ∧ (first c → c.det = none → s.Settled → (∀ x, x ∈ chunksOf c.addr (n c) → s.pkg.backed (8 * x) = true) →
      ∃ t : State, exec (.redArrival k) s = .next t ∧ t = { s with mm := t.mm, pkg := { s.pkg with links := t.pkg.links } } ∧ t.mm.contribs = s.mm.contribs.filter (fun x => x.n != k)
        ∧ ∀ x, (t.mm.byte x).toNat = if c.addr ≤ x ∧ x < c.addr + n c then
            atomNew c.opcode c.type.toNat (ofBytes (s.mm.bytes c.addr (n c))) c.val.toNat / 2 ^ (8 * (x - c.addr)) % 2 ^ 8 else (s.mm.byte x).toNat)
    ∧ (first c → c.det ≠ none →
      let held := s.mm.contribs.countP (fun x => x.st == .held && s.pkg.slice x.addr == s.pkg.slice c.addr)
      let spilled := s.mm.contribs.countP (fun x => x.st == .spilled && x.ctx == c.ctx)
      let size := (s.ctx c.ctx (dieOf c.core)).spillSize.toNat % 2 ^ 32
      let put (st : RedState) (t : State) : Prop := t.mm.contribs = s.mm.contribs.map (fun x => if x.n = c.n then { x with st := st } else x)
      ∃ t : State, exec (.redArrival k) s = .next t ∧ (held < 65536 → put .held t
          ∧ t = { s with mm := { s.mm with contribs := t.mm.contribs }, pkg := { s.pkg with links := t.pkg.links } })
        ∧ (65536 ≤ held → spilled < size → put .spilled t)
        ∧ (65536 ≤ held → size ≤ spilled → put .kept t
          ∧ t = { s with mm := { s.mm with contribs := t.mm.contribs }, wk := { s.wk with teams := t.wk.teams }, free := t.free, pkg := { s.pkg with links := t.pkg.links } }
          ∧ ∀ tm y f, s.team? tm.id = some tm → tm.grid = c.grid → tm.warp? y.id = some y → y.fence = some f → f.raised = false →
            (∃ p, c.det = some p ∧ p.1 = f.epoch) → ∃ r, (t.team? tm.id).bind (fun x => x.warp? y.id) =
                some { y with want := y.want ++ [r], fence := some { f with raised := true } }
              ∧ r.kind = 0 ∧ r.cause = 0x50 ∧ r.pc = f.pc ∧ r.slot = f.slot ∧ r.lanes = none)))
  ∧ ∀ id (g : Grid) (epoch : Nat), s.grid? id = some g → epoch < g.epoch →
    (∃ c p, c ∈ s.mm.contribs ∧ c.grid = g.id ∧ c.det = some p ∧ p.1 = epoch) →
    (∀ c p, c ∈ s.mm.contribs → c.grid = g.id → c.det = some p → epoch ≤ p.1 ∧ (p.1 = epoch → c.st ≠ .flight)) →
    (∀ x c p, x ∈ s.mm.side → x.red = some c → c.grid = g.id → c.det = some p → epoch < p.1) →
    (∀ c v y, c ∈ s.eng.cmds → c.body = .tile v → y = v.cmd ∨ y ∈ v.orig → y.op = .tgms → c.grid = g.id → c.state ≠ .performed → epoch < y.epoch) →
    (∀ t v y, t ∈ s.wk.teams → t.grid = g.id → v ∈ t.window → y = v.cmd ∨ y ∈ v.orig → y.op = .tgms → epoch < y.epoch) →
    ∃ cs : List Contrib, exec (.epochApply id epoch) s = .next (cs.foldl (fun x c => State.applyRed x c)
        { s with mm := { s.mm with contribs := s.mm.contribs.filter (fun c => !(c.grid == id && c.det.any (fun p => decide (p.1 ≤ epoch)))) } })
      ∧ cs.Perm (s.mm.contribs.filter (fun c => c.grid == id && c.det.any (fun p => decide (p.1 ≤ epoch))))
      ∧ cs.Pairwise (fun c d => ∀ p q, c.det = some p → d.det = some q → p.2.toNat < q.2.toNat ∨ (p.2 = q.2 ∧ (c.index < d.index ∨ (c.index = d.index
          ∧ (c.thread < d.thread ∨ (c.thread = d.thread ∧ c.issue ≤ d.issue))))))

/-- 30 R479, R487: an invalidating snoop ends a die's copies of a line, its dirty bytes going home, unless the die's write-back of the
line is on its way; a write-back that arrives is merged, byte by byte. -/
def Obligations.SnoopWriteBackResults : Prop := ∀ (s : State) (die line : Nat), s.memOk →
  ((∃ w, w ∈ s.mm.wbs ∧ dieOf w.core = die ∧ w.line = line) → exec (.snoop die line) s = .next s)
  ∧ ((∀ w, w ∈ s.mm.wbs → ¬(dieOf w.core = die ∧ w.line = line)) → ∃ t : State, exec (.snoop die line) s = .next t ∧ t = { s with mm := t.mm }
    ∧ (∀ c, c ∈ t.mm.near → c ∈ s.mm.near ∧ ¬(c.die = die ∧ c.line = line))
    ∧ (∀ c l, (c, l) ∈ t.mm.l1 → dieOf c = die → line ∉ l.excl ∧ ∀ x, x ∈ l.sects → x / 4 = line → l.keeps x = true)
    ∧ (∀ c, dieOf c ≠ die → t.l1 c = s.l1 c)
    ∧ ((∀ c l, (c, l) ∈ s.mm.l1 → dieOf c = die → line ∉ l.excl) → t.mm.cells = s.mm.cells
      ∧ t.mm.near = s.mm.near.filter (fun c => !(c.die == die && c.line == line)) ∧ ∀ c, (t.l1 c).dirty = (s.l1 c).dirty)
    ∧ ∀ core l, s.mm.l1.filter (fun e => dieOf e.1 == die && e.2.excl.contains line) = [(core, l)] → s.mm.wbs = [] → line ∉ l.promo →
      (∀ c, c / 32 = line → s.pkg.backed (8 * c) = true) → ∀ x,
        (lineOf x = line → t.mm.byte x = (s.coreChunk core (chunkOf x)).getD (x % 8) 0) ∧ (lineOf x ≠ line → t.mm.byte x = s.mm.byte x))
  ∧ ∀ k w, s.mm.wbs.find? (fun w => w.n == k) = some w → (∀ x, (s.link x).asleep = false) → ∃ t : State, exec (.writeBackArrive k) s = .next t
    ∧ t = { s with mm := t.mm, pkg := { s.pkg with links := t.pkg.links } } ∧ t.mm.wbs = s.mm.wbs.filter (fun x => x.n != k) ∧ t.mm.l1 = s.mm.l1
    ∧ ((∀ c, c / 32 = w.line → s.pkg.backed (8 * c) = true) → ∀ x, t.mm.byte x =
      ((Table.read [] w.writes (chunkOf x)).foldl (fun b y => y.onto b) (s.mm.bytes (8 * chunkOf x) 8)).getD (x % 8) 0)

/-! ### Events of the front ends -/

/-- 09 R176 to R183: queue registers; a packet is accepted with the queue's sequence number, or fails its first check and leaves an
error record. -/
def Obligations.QueueRegisterResults : Prop := ∀ (s : State) (q : Nat) (v : BitVec 32),
  let r := s.queue q
  let live := s.pkg.domLive (q / 32) = true
  let n := v.toNat / 2 % 2 ^ 5
  let same : Prop := n = r.log2.toNat ∧ v.toNat / 2 ^ 6 % 2 ^ 3 = r.ceil.toNat ∧ v.toNat / 2 ^ 16 % 2 ^ 8 = r.ctx.toNat
  let becomes (t : State) (x : QReg) : Prop := t = { s with fe := { s.fe with queues := t.fe.queues } } ∧ t.queue q = x ∧ ∀ k, k ≠ q → t.queue k = s.queue k
  let fields : QReg := { r with log2 := BitVec.ofNat 5 n, ceil := BitVec.ofNat 3 (v.toNat / 2 ^ 6 % 2 ^ 3), ctx := BitVec.ofNat 8 (v.toNat / 2 ^ 16 % 2 ^ 8) }
  let count := (r.wridx - r.rdidx).toNat
  let slot (k : Nat) : Nat := r.base.toNat / 2 ^ 12 % 2 ^ 36 * 2 ^ 12 + 64 * ((r.rdidx.toNat + k) % 2 ^ r.log2.toNat)
  (¬live → exec (.qWridxWrite q v) s = .next s ∧ exec (.qEnable q v) s = .next s ∧ exec (.qResume q) s = .next s ∧ exec (.packetAccept q) s = .next s)
  ∧ (live → ∃ t : State, exec (.qWridxWrite q v) s = .next t ∧ becomes t { r with wridx := v })
  ∧ (live → Nat.testBit v.toNat 24 = false →
    (r.enable = true → ¬same → exec (.qEnable q v) s = .next s)
    ∧ (r.enable = false ∨ same → ∃ t : State, exec (.qEnable q v) s = .next t
      ∧ (Nat.testBit v.toNat 0 = false → becomes t { fields with enable := false })
      ∧ (Nat.testBit v.toNat 0 = true → ¬(6 ≤ n ∧ n ≤ 16) → becomes t { fields with enable := false, err := 0x02 })
      ∧ (Nat.testBit v.toNat 0 = true → 6 ≤ n → n ≤ 16 → (r.enable = true → becomes t r)
        ∧ (r.enable = false → becomes t { fields with enable := true, rdidx := r.wridx, seq := 0 }))))
  ∧ (live → (∀ p, p ∈ s.fe.pkts → p.queue = q → p.blocked = false) → ∃ t : State, exec (.qResume q) s = .next t ∧ becomes t { r with halted := false })
  ∧ (r.enable = false ∨ r.halted = true ∨ count = 0 → exec (.packetAccept q) s = .next s)
  ∧ (live → r.enable = true → r.halted = false → 2 ^ r.log2.toNat < count → ∃ (t : State) (d : Nat), exec (.packetAccept q) s = .next t
      ∧ s.drew.ErrorRecorded t q none r.seq 0x04 0xFF 0 0 0 d)
  ∧ (live → r.enable = true → r.halted = false → count ≤ 2 ^ r.log2.toNat → count ≠ 0 →
    (s.nextPacket q = none → exec (.packetAccept q) s = .next s)
    ∧ ∀ p k m, s.nextPacket q = some (p, k, m) → ∃ t : State, exec (.packetAccept q) s = .next t
      ∧ (∀ f, m.checkPacket r.ctx.toNat (q / 32) r.ceil.toNat p = .error f → ∃ (u : State) (d : Nat), f.detail.all (· == d) = true
        ∧ m.drew.ErrorRecorded u q none r.seq f.code f.member (p.toNat / 2 ^ 16 % 2 ^ 16) 0 0 d
        ∧ t = { u with fe := { u.fe with queues := t.fe.queues } } ∧ (∀ j, j ≠ q → t.queue j = u.queue j)
        ∧ t.queue q = { u.queue q with seq := (u.queue q).seq + 1, rdidx := (u.queue q).rdidx + BitVec.ofNat 32 k })
      ∧ ∀ c u, m.checkPacket r.ctx.toNat (q / 32) r.ceil.toNat p = .ok (c, u) →
        t = { u with fe := { u.fe with queues := t.fe.queues, pkts := t.fe.pkts, nextP := u.fe.nextP + 1 } } ∧ (∀ j, j ≠ q → t.queue j = u.queue j)
        ∧ t.queue q = { u.queue q with seq := (u.queue q).seq + 1, rdidx := (u.queue q).rdidx + BitVec.ofNat 32 k }
        ∧ t.fe.pkts = u.fe.pkts ++ [{ id := u.fe.nextP, queue := q, seq := r.seq, bits := p, members := c.members, cfg := c.cfg, time := u.timeAt (q / 32)
                                      begun := false, ended := false, since := 0, blocked := false, err := 0, lost := false }])
  ∧ ∀ p k m, s.Settled → s.nextPacket q = some (p, k, m) → m = s ∧ k = p.toNat / 2 ^ 8 % 4 + 1 ∧ k ≤ count
    ∧ ∀ j, j < 64 * min k 2 → BitVec.ofNat 8 (p.toNat / 2 ^ (8 * j)) = s.mm.byte (slot (j / 64) + j % 64)

/-- 09 R179 to R182, 20 R361, 30 R476: the checks of a packet, in their order. -/
def Obligations.PacketCheckResults : Prop := ∀ (s : State) (ctx die ceil : Nat) (p : BitVec 1024),
  let f (off hi lo : Nat) : Nat := p.toNat / 2 ^ (8 * off + lo) % 2 ^ (hi + 1 - lo)
  let kind := f 0 7 0
  let fails (code member : Nat) (d : Option Nat) : Prop := s.checkPacket ctx die ceil p = .error ⟨code, member, d⟩
  let shape := f 0x1C 15 0 * f 0x1C 31 16 * f 0x20 15 0
  let teams := f 0x10 31 0 * f 0x14 31 0 * f 0x18 31 0
  let crew := f 0x20 25 23
  let mask := f 0x28 3 0
  let live (m : Nat) : Prop := m ≠ 0 ∧ ∀ d, d < 4 → Nat.testBit m d = true → s.pkg.domLive d = true
  let zero (fs : List (Nat × Nat × Nat)) : Prop := ∀ x, x ∈ fs → f x.1 x.2.1 x.2.2 = 0
  let plain : List (Nat × Nat × Nat) := [(0x08, 63, 48), (0x20, 31, 30), (0x24, 31, 30), (0x28, 31, 4), (0x2C, 31, 28), (0x30, 63, 48), (0x38, 63, 48), (0x48, 447, 0)]
  let code := s.launchCode (some ceil) none p
  (kind = 0 ∨ 8 < kind → fails 0x01 0xFF (some 0))
  ∧ (1 ≤ kind → kind ≤ 8 → (f 0 15 11 ≠ 0 ∨ f 0 63 32 ≠ 0 ∨ (f 0 10 10 = 1 ∧ kind ≠ 1 ∧ kind ≠ 3) → fails 0x02 0xFF (some 0))
    ∧ (f 0 15 11 = 0 → f 0 63 32 = 0 → f 0 10 10 = 0 ∨ kind = 1 ∨ kind = 3 →
      (f 0 9 8 ≠ (if kind = 1 then 1 else 0) → fails 0x03 0xFF (some 0))
      ∧ (f 0 9 8 = (if kind = 1 then 1 else 0) →
        (kind = 4 → (¬zero [(0x20, 31, 2), (0x28, 191, 0)] → ∃ d, fails 0x02 0xFF (some d))
          ∧ (zero [(0x20, 31, 2), (0x28, 191, 0)] → s.checkPacket ctx die ceil p = .ok (⟨[], 0⟩, s)))
        ∧ (kind = 5 → (¬zero [(0x18, 63, 13), (0x20, 255, 0)] → ∃ d, fails 0x02 0xFF (some d))
          ∧ (zero [(0x18, 63, 13), (0x20, 255, 0)] → s.checkPacket ctx die ceil p = .ok (⟨[], 0⟩, s)))
        ∧ (kind = 6 → (¬zero [(0x20, 63, 4), (0x28, 191, 0)] → ∃ d, fails 0x02 0xFF (some d))
          ∧ (zero [(0x20, 63, 4), (0x28, 191, 0)] → (¬live (f 0x20 3 0) → fails 0x0A 0xFF (some 0x20))
            ∧ (live (f 0x20 3 0) →
              let ok := f 0x10 63 0 % 64 = 0 ∧ f 0x18 63 0 % 64 = 0 ∧ 0 < f 0x18 63 0 ∧ f 0x10 63 0 + f 0x18 63 0 ≤ 2 ^ 28
              (¬ok → fails 0x0C 0xFF none) ∧ (ok → s.checkPacket ctx die ceil p = .ok (⟨[], 0⟩, s)))))
        ∧ (kind = 1 → f 0x2C 15 0 = 0 → (∀ c, code = some c → ∃ d, fails c 0xFF d)
          ∧ (code = none → s.checkPacket ctx die ceil p = .ok (⟨[⟨p, [], false⟩], 0⟩, s))))))
  ∧ (¬zero plain → code = some 0x02)
  ∧ (zero plain → (shape = 0 ∨ 1024 < shape ∨ 2 ^ 32 - 1 < teams → code = some 0x06)
    ∧ (1 ≤ shape → shape ≤ 1024 → teams ≤ 2 ^ 32 - 1 →
      let ok := 1 ≤ f 0x20 22 18 ∧ f 0x20 22 18 ≤ 30 ∧ f 0x24 15 0 ≤ 32768 ∧ f 0x20 29 26 ≤ 8 ∧ f 0x24 20 16 ≤ 16 ∧ 1 ≤ crew ∧ crew ≤ 4
        ∧ f 0x2C 15 0 % 16 = 0 ∧ f 0x2C 15 0 ≤ 4096
      (¬ok → code = some 0x07)
      ∧ (ok → (s.fitsEmpty (parseLaunch p) = false → code = some 0x08)
        ∧ (s.fitsEmpty (parseLaunch p) = true → (teams % crew ≠ 0 → code = some 0x09)
          ∧ (teams % crew = 0 → (¬live mask → code = some 0x0A)
            ∧ (live mask → (ceil < f 0x24 23 21 → code = some 0x0B) ∧ (f 0x24 23 21 ≤ ceil → code = none)))))))

/-- 09 R188 to R191, 20 R361, 30 R477, R489: what each kind of packet does when it begins, and its completion. -/
def Obligations.PacketBeginResults : Prop := ∀ (s : State) (q : Nat) (p : Pkt),
  let f (x : BitVec 1024) (off hi lo : Nat) : Nat := x.toNat / 2 ^ (8 * off + lo) % 2 ^ (hi + 1 - lo)
  let ctx := (s.queue q).ctx.toNat
  let die := q / 32
  let addr := f p.bits 8 63 0
  let tag := f p.bits 0 31 16
  let setPkt (a : State) (g : Pkt → Pkt) : State := { a with fe := { a.fe with pkts := a.fe.pkts.map (fun x => if x.id = p.id then g x else x) } }
  let begun (a b : State) : Prop := b = { setPkt a (fun x => { x with begun := true }) with ctxs := b.ctxs }
    ∧ ∀ k c, { b.ctx k c with recs := (a.ctx k c).recs } = a.ctx k c
  let waits (on : Bool) (a : State) : State := a.updQueue q (fun r => { r with waiting := on })
  let evaluated (a b : State) : Prop :=
    (∀ c, a.readVirt ctx die addr 8 8 = .error c → ∃ u : State, a.ErrorRecorded u q (some p.id) p.seq 0x05 0xFF tag 0 0 addr
      ∧ b = setPkt (waits false u) (fun x => { x with blocked := true }))
    ∧ ∀ bs u, a.readVirt ctx die addr 8 8 = .ok (bs, u) →
      let w := ofBytes bs &&& f p.bits 0x18 63 0
      let v := f p.bits 0x10 63 0
      let holds := (f p.bits 0x20 2 0 = 0 ∧ w = v) ∨ (f p.bits 0x20 2 0 = 1 ∧ w ≠ v) ∨ (f p.bits 0x20 2 0 = 2 ∧ v ≤ w) ∨ (3 ≤ f p.bits 0x20 2 0 ∧ w < v)
      (holds → b = setPkt (waits false u) (fun x => { x with ended := true })) ∧ (¬holds → b = waits true u)
  let item (m : Nat) (x : Member) (a b : State) : Prop :=
    let doms := [0, 1, 2, 3].filter (fun d => Nat.testBit (f x.bits 0x28 3 0) d)
    let e := f x.bits 0x10 1 0
    let cl := 8 * f x.bits 0x10 6 5 + f x.bits 0x10 4 2
    let cmd (a b : State) (body : CmdBody) : Prop := ∃ c, b = { a with eng := { a.eng with cmds := a.eng.cmds ++ [c], nextCmd := a.eng.nextCmd + 1, seqs := b.eng.seqs } }
      ∧ c.id = a.eng.nextCmd ∧ c.queue = (if e = 0 then .feCopy cl else .feCoord cl) ∧ c.ctx = ctx ∧ c.core = 4 * cl ∧ c.team = none
      ∧ c.pkt = some (p.queue, p.seq, m) ∧ c.pid = p.id ∧ c.scope = 5 ∧ c.bar = none ∧ c.body = body ∧ c.state = .ready ∧ c.pos = 0
    (pktKind x.bits = 1 → ∃ g : Grid, b = { a with fe := { a.fe with grids := a.fe.grids ++ [g], nextG := a.fe.nextG + 1 }, clock := { a.clock with launched := true }
                                                   eng := { a.eng with recCache := b.eng.recCache }, mm := { a.mm with tlb := b.mm.tlb, invlogs := b.mm.invlogs }, free := a.free + 1 }
      ∧ g.id = a.fe.nextG ∧ g.ctx = ctx ∧ g.queue = p.queue ∧ g.pkt = p.id ∧ g.seq = p.seq ∧ g.member = m ∧ g.launch = parseLaunch x.bits ∧ g.args = x.snap
      ∧ g.depth = 0 ∧ g.time = p.time ∧ g.parent = none ∧ g.batch = none ∧ g.epoch = 0 ∧ g.lost = false ∧ g.argAt = a.argPlace ctx ∧ g.since = a.mm.nextW ∧ g.shares.length = doms.length
      ∧ ∀ (k : Nat) sh, g.shares[k]? = some sh → let U := g.launch.units
        let n := doms.length
        doms[k]? = some sh.dom ∧ sh.lo = min k (U % n) + k * (U / n) ∧ sh.hi = min (k + 1) (U % n) + (k + 1) * (U / n) ∧ sh.next = sh.lo
        ∧ sh.last = none ∧ (sh.reported = true ↔ sh.lo = sh.hi))
    ∧ (pktKind x.bits ≠ 1 → e = 0 → cmd a b (.copy (snapRec x.snap 0) (snapRec x.snap 1) (snapRec x.snap 2)))
    ∧ (pktKind x.bits ≠ 1 → e ≠ 0 → (∀ h hit u, a.coordAccept ctx (f x.bits 0x10 6 5) (snapRec x.snap 0) = .ok (h, hit, u) →
          cmd u b (.coord (recBits (snapRec x.snap 0) 0 7 0) (snapRec x.snap 0) h hit))
        ∧ ∀ r, a.coordAccept ctx (f x.bits 0x10 6 5) (snapRec x.snap 0) = .error r → a.pkg.domLive (p.queue / 32) = true → ∃ (u : State) (d : Nat),
          a.drew.ErrorRecorded u p.queue (some p.id) p.seq 0x12 m (a.pktTag p.id) 0 0 d ∧ b = u.memberDone p.id m)
  let starts (k : Nat) : Prop := s.canBegin q k = some p
  (∀ k, starts k → pktKind p.bits = k ∧ p ∈ s.fe.pkts ∧ p.queue = q ∧ p.begun = false ∧ s.pkg.domLive die = true
      ∧ (∃ pre rest, s.fe.pkts.filter (fun x => x.queue == q) = pre ++ p :: rest ∧ (∀ x, x ∈ pre → x.begun = true)
        ∧ (f p.bits 0 10 10 = 1 ∨ ∃ h, (pre ++ [p]).head? = some h ∧ h.id = p.id))
      ∧ (k = 6 → ∀ t, t ∈ s.wk.teams → t.freed = true ∨ Nat.testBit (f p.bits 0x20 3 0) (dieOf t.core) = false))
  ∧ (∀ x rest, starts 1 → p.members = x :: rest → ∃ u t : State, exec (.launch q) s = .next t ∧ begun s u ∧ item 0xFF x u t)
  ∧ (∀ x rest, starts 3 → p.members = x :: rest → ∃ u t : State, exec (.engine q) s = .next t ∧ begun s u ∧ item 0xFF x u t)
  ∧ (starts 2 → ∃ u t : State, exec (.bundle q) s = .next t ∧ begun s u ∧ Each (fun m => item m.2 m.1) p.members.zipIdx u t)
  ∧ (starts 4 → ∃ u t : State, exec (.wait q) s = .next t ∧ begun s u ∧ evaluated (setPkt u (fun x => { x with since := s.clock.time })) t)
  ∧ (s.waitOf q = some p → s.pkg.domLive die = true → ∃ t : State, exec (.waitEvaluate q) s = .next t ∧ evaluated s t)
  ∧ (s.waitOf q = some p → s.pkg.domLive die = true → let limit := f p.bits 0x24 31 0
      (limit = 0 ∨ s.clock.time - p.since < 1000 * limit → exec (.waitTimeout q) s = .next s)
      ∧ (limit ≠ 0 → 1000 * limit ≤ s.clock.time - p.since → ∃ (u t : State) (d : Nat), exec (.waitTimeout q) s = .next t
        ∧ s.drew.ErrorRecorded u q (some p.id) p.seq 0x0D 0xFF tag 0 0 d ∧ t = setPkt (waits false u) (fun x => { x with blocked := true })))
  ∧ (s.pkg.domLive die = true → (s.qPkts q).find? Pkt.blocked = some p → ∃ t : State, exec (.qResume q) s = .next t
      ∧ evaluated (setPkt (s.updQueue q (fun r => { r with halted := false })) (fun x => { x with blocked := false, since := s.clock.time })) t)
  ∧ (starts 5 → ∃ u v t : State, exec (.signal q) s = .next t ∧ begun s u
      ∧ t = (setPkt v (fun x => { x with ended := true })).evalWaits die
      ∧ (let irq (a : State) : State := if f p.bits 0x18 1 1 = 1 then { a with pkg := { a.pkg with msis := a.pkg.msis ++ [BitVec.ofNat 11 (f p.bits 0x18 12 2)] } } else a
        let fault : Prop := u.ErrorRecorded v q (some p.id) p.seq 0x05 0xFF tag 0 0 addr
        (f p.bits 0x18 0 0 = 0 → (∀ c, u.writeVirt ctx die addr 8 (bytesOf 8 (f p.bits 0x10 63 0)) = .error c → fault)
          ∧ ∀ w, u.writeVirt ctx die addr 8 (bytesOf 8 (f p.bits 0x10 63 0)) = .ok w → v = irq w)
        ∧ (f p.bits 0x18 0 0 = 1 → (∀ c, u.resolve ctx (.ofDie die) addr 8 8 .rmw = .error c → fault)
          ∧ ∀ pa m, u.resolve ctx (.ofDie die) addr 8 8 .rmw = .ok (.phys pa m) → (u.badData pa 8 = true → fault)
            ∧ (u.badData pa 8 = false → u.Settled → ∃ w : State, v = irq w ∧ w = { u with mm := w.mm, free := u.free + 1 } ∧ ∀ x, w.mm.byte x =
                if pa ≤ x ∧ x < pa + 8 then BitVec.ofNat 8 ((ofBytes (u.mm.bytes pa 8) + f p.bits 0x10 63 0) % 2 ^ 64 / 2 ^ (8 * (x - pa))) else u.mm.byte x))))
  ∧ (starts 6 → let n := f p.bits 0x18 63 0 / 64
      let block (k : Nat) (a b : State) : Prop := ∃ bs u, a.readVirt ctx die (addr + 64 * k) 64 64 = .ok (bs, u) ∧ b = { u with mm := { u.mm with wstore := b.mm.wstore, wsBad := b.mm.wsBad } }
        ∧ ∀ d x, b.wsByte d x = if d < 4 ∧ Nat.testBit (f p.bits 0x20 3 0) d = true ∧ f p.bits 0x10 63 0 + 64 * k ≤ x ∧ x < f p.bits 0x10 63 0 + 64 * k + bs.length
            then bs.getD (x - (f p.bits 0x10 63 0 + 64 * k)) 0 else u.wsByte d x
      ∃ u v t : State, exec (.wsload q) s = .next t ∧ begun s u ∧ t = setPkt v (fun x => { x with ended := true })
        ∧ (Each block (List.range n) u v ∨ ∃ k w c, k < n ∧ Each block (List.range k) u w ∧ w.readVirt ctx die (addr + 64 * k) 64 64 = .error c
            ∧ w.ErrorRecorded v q (some p.id) p.seq 0x05 0xFF tag 0 0 (addr + 64 * k)))
  ∧ (starts 7 → let k := f p.bits 0x10 8 0
      let x := s.xq k
      let moved := (recBits p.cfg 0x20 47 0 ≠ recBits x.cfg 0x20 47 0 ∨ recBits p.cfg 0x28 31 0 ≠ recBits x.cfg 0x28 31 0) ∧ ∃ t, t ∈ x.tokens ∧ t.spilled.isSome = true
      let ends (a : State) : State := setPkt a (fun x => { x with ended := true })
      let sets (a b : State) (y : XQueue) : Prop := b = { a with eng := { a.eng with xqs := b.eng.xqs } } ∧ b.xq k = y ∧ ∀ j, j ≠ k → b.xq j = a.xq j
      ∃ u t : State, exec (.xqcfg q) s = .next t ∧ begun s u
        ∧ (moved → ∃ (v : State) (d : Nat), u.drew.ErrorRecorded v q (some p.id) p.seq 0x02 0xFF tag 0 0 d ∧ t = ends v)
        ∧ (¬moved → x.tokens = [] → x.due = [] → ∃ v : State, sets u v { x with cfg := p.cfg, members := p.members, owner := some (ctx, q) } ∧ t = ends v)
        ∧ (¬moved → x.tokens ≠ [] ∨ x.due ≠ [] → sets u t { x with due := x.due ++ [p.id] }))
  ∧ (starts 8 → s.pkg.doms.Nodup → (∀ d, (Table.read [] s.mm.invlogs d).length < 256) → ∃ u v t : State, exec (.invlog q) s = .next t ∧ begun s u ∧ t = setPkt v (fun x => { x with ended := true })
      ∧ v = { u with mm := { u.mm with invlogs := v.mm.invlogs } } ∧ ∀ d, Table.read [] v.mm.invlogs d = Table.read [] s.mm.invlogs d
        ++ if d ∈ s.pkg.doms then [⟨ctx, f p.bits 8 63 0, f p.bits 0x10 31 0⟩] else [])
  ∧ (s.nextComplete q = some p → p.queue = q → let c := pktComp p.bits
      ∃ u v t : State, exec (.completionWrite q) s = .next t
        ∧ (c.1 = 0 ∨ p.lost = true → u = s)
        ∧ (c.1 ≠ 0 → p.lost = false → (∀ w, s.writeVirt ctx die c.1 8 (bytesOf 8 c.2) = .ok w →
            u = if pktKind p.bits = 1 ∧ f p.bits 0x2C 27 27 = 1 then { w with pkg := { w.pkg with msis := w.pkg.msis ++ [BitVec.ofNat 11 (f p.bits 0x2C 26 16)] } } else w)
          ∧ ∀ x, s.writeVirt ctx die c.1 8 (bytesOf 8 c.2) = .error x → s.pkg.domLive die = true → s.ErrorRecorded u q (some p.id) p.seq 0x05 0xFF tag 0 0 c.1)
        ∧ v = { u with fe := { u.fe with queues := v.fe.queues, pkts := u.fe.pkts.filter (fun x => x.id != p.id) }, ctxs := v.ctxs }
        ∧ (∀ k, k ≠ q → v.queue k = u.queue k)
        ∧ v.queue q = { u.queue q with halted := (u.queue q).halted || (u.isBundle p.id && (u.fe.pkts.find? (fun x => x.id == p.id)).any (fun x => x.err != 0)) }
        ∧ t = v.evalWaits die)

/-! ### Events of placement -/

/-- 08 R157, R173, R174, 09 R184 to R187, 30 R477, R478: which launch places next and where, what a placed team starts with, starvation, and
the end of a team, of a die's share and of a grid. -/
def Obligations.PlacementResults : Prop := ∀ (s : State) (die id : Nat),
  let waits (h : Grid) (sh : Share) : Prop := h ∈ s.fe.grids ∧ h.share? die = some sh ∧ sh.next < sh.hi
  let sum (core k : Nat) (f : Team → Nat) : Nat := ((s.wk.teams.filter (fun t => t.core == core && t.slot == some k)).map f).sum
  let charge (f : Launch → Nat) (t : Team) : Nat := if t.freed then 0 else ((s.launchOf t).map f).getD 0
  let room (core k : Nat) (l : Launch) : Prop := let units := (s.core core).part.toNat / 2 ^ (5 * k) % 2 ^ 5
    sum core k (charge Launch.size) + l.size ≤ 2048 ∧ sum core k (charge Launch.regBytes) + l.regBytes ≤ 262144
    ∧ sum core k (charge Launch.accum) + l.accum ≤ 8 ∧ 2 ≤ units
    ∧ sum core k (fun t => ((s.launchOf t).map Launch.spadBytes).getD 0) + l.spadBytes ≤ 16384 * (units - 1)
  let shares (g h : Grid) (p : Share → Prop) (f : Share → Share) : Prop := h = { g with shares := h.shares } ∧ h.shares.length = g.shares.length
    ∧ ∀ (k : Nat) a, g.shares[k]? = some a → ∃ b, h.shares[k]? = some b ∧ (p a → b = f a) ∧ (¬p a → b = a)
  let only (t : State) (f : Share → Share) : Prop := t = { s with fe := { s.fe with grids := t.fe.grids } } ∧ t.fe.grids.length = s.fe.grids.length
    ∧ ∀ (k : Nat) g, s.fe.grids[k]? = some g → ∃ h, t.fe.grids[k]? = some h ∧ shares g h (fun sh => g.id = id ∧ sh.dom = die) f
  let unpaused (a b : State) : Prop := b.eng.cmds.length = a.eng.cmds.length ∧ ∀ (k : Nat) c, a.eng.cmds[k]? = some c → ∃ d, b.eng.cmds[k]? = some d
    ∧ (d = c ∨ (c.state = .paused ∧ d = { c with state := .ready }))
  (∀ core ctx l, let c := s.core core
    (∃ k, s.fit core ctx l = some k) ↔ ((s.wk.teams.filter (fun t => t.core == core)).map (charge Launch.bars)).sum + l.bars ≤ 256
      ∧ ((∃ k, k < 3 ∧ c.slotCtx k = some ctx ∧ room core k l)
        ∨ ((∀ k, k < 3 → c.slotCtx k ≠ some ctx) ∧ ∃ k, k < 3 ∧ c.slotCtx k = none ∧ room core k l)))
  ∧ (∀ g cores fresh, s.nextPlacement die = some (g, cores, fresh) → ∃ sh, waits g sh ∧ (fresh = false → sh.done = false)
    ∧ (∀ h hs, waits h hs → h.before g = true → hs.starved = false ∧ (∀ n, hs.skipped = some n → s.clock.time - n < 100000) ∧ (fresh = true ∨ hs.done = false → s.unitCores h hs = none))
    ∧ cores.length = max 1 g.launch.crew ∧ cores.Pairwise (fun a b => a.1 < b.1) ∧ (∀ c k, (c, k) ∈ cores → s.fit c g.ctx g.launch = some k)
    ∧ let first := match sh.last with
        | some n => n + 1
        | none => 0
      (g.launch.crew ≤ 1 → ∃ j c k, j < 32 ∧ cores = [(c, k)] ∧ c = 32 * die + (first + j) % 32
        ∧ ∀ i, i < j → s.fit (32 * die + (first + i) % 32) g.ctx g.launch = none)
      ∧ (1 < g.launch.crew → ∃ j, j < 8 ∧ (∀ c k, (c, k) ∈ cores → c / 4 = 8 * die + (first + j) % 8)
        ∧ (∀ c k, c / 4 = 8 * die + (first + j) % 8 → s.fit c g.ctx g.launch = some k → (c, k) ∈ cores ∨ ∀ d, d ∈ cores → d.1 < c)
        ∧ ∀ i, i < j → (List.range 4).countP (fun k => (s.fit (32 * die + 4 * ((first + i) % 8) + k) g.ctx g.launch).isSome) < g.launch.crew))
  ∧ (∀ g cores fresh sh, s.nextPlacement die = some (g, cores, fresh) → g.share? die = some sh → s.pkg.domLive die = true →
    let l := g.launch
    let crew := max 1 l.crew
    ∃ t : State, exec (if 1 < l.crew then .crewPlace die g.id else .teamPlace die g.id) s = .next t
      ∧ t = { s with wk := { s.wk with teams := t.wk.teams, nextTeam := s.wk.nextTeam + crew }, fe := { s.fe with grids := t.fe.grids },
                     cores := t.cores, mm := { s.mm with l1 := t.mm.l1, ro := t.mm.ro }, eng := { s.eng with cmds := t.eng.cmds } }
      ∧ unpaused s t
      ∧ (∃ new, t.wk.teams = s.wk.teams ++ new ∧ new.length = crew ∧ ∀ (j : Nat) m, new[j]? = some m → ∃ c k, cores[j]? = some (c, k)
        ∧ m = { id := s.wk.nextTeam + j, grid := g.id, ctx := g.ctx, core := c, slot := some k, place := m.place, index := crew * sh.next + j,
                crewId := (crew * sh.next + j) / crew, crank := (crew * sh.next + j) % crew, freed := false, ended := false, threads := m.threads,
                warps := m.warps, nextW := m.warps.length, insts := [], nextI := 0, traps := [], nextT := 0, spad := [], spadLog := [], acc := [], window := [],
                tseq := 0, tprog := 0 }
        ∧ (∀ x, x ∈ s.wk.teams → x.core = c → x.place ≠ m.place) ∧ (∀ p, p < m.place → ∃ x, x ∈ s.wk.teams ∧ x.core = c ∧ x.place = p)
        ∧ m.threads = (List.range l.size).map (fun n =>
          { ltid := n, alive := true, pc := l.entry, slot := 0, next := none, regs := [], preds := 0, flags := 0,
            tcfg := BitVec.ofNat 32 (l.strict.toNat + l.nreg * 16), pend := [], stack := [], wait := .run, faults := [], asyncs := [], frozen := [],
            halt := 0, lastIssue := s.clock.clk, since := s.mm.nextW, roSince := g.since, fenced := false, lrs := [] })
        ∧ (0 < l.width → m.warps.length = (l.size + l.width - 1) / l.width ∧ ∀ (i : Nat) w, m.warps[i]? = some w →
            w = { id := i, lanes := (((List.range l.size).drop (i * l.width)).take l.width).map some, packet := none, redo := [], trap := none, want := [],
                  lines := none, fence := none, stop := [], due := s.clock.clk + 1, mid := false, link := none }))
      ∧ (∀ c, ((∀ k, (c, k) ∉ cores) → t.core c = s.core c ∧ t.l1 c = s.l1 c ∧ Table.look t.mm.ro c = Table.look s.mm.ro c)
        ∧ ∀ k, (c, k) ∈ cores → let x := (s.core c).setSlot k (some g.ctx)
          t.core c = (if (s.core c).slotCtx (s.core c).active = none then { x with active := k, req := none, since := s.clock.time } else x)
          ∧ t.l1 c = { s.l1 c with sects := (s.l1 c).sects.filter (fun n => (s.l1 c).excl.contains (n / 4)
              || (s.l1 c).dirty.any (fun (e : Nat × List Write) => e.1 / 8 == n)), since := s.mm.nextW, floor := [] }
          ∧ Table.look t.mm.ro c = none)
      ∧ t.fe.grids.length = s.fe.grids.length ∧ ∀ (k : Nat) a, s.fe.grids[k]? = some a → ∃ b, t.fe.grids[k]? = some b
        ∧ b = { a with shares := b.shares } ∧ b.shares.length = a.shares.length ∧ ∀ (j : Nat) x, a.shares[j]? = some x → ∃ y, b.shares[j]? = some y
          ∧ (x.dom ≠ die → y = x) ∧ (x.dom = die → a.id ≠ g.id → y = { x with done := y.done, skipped := y.skipped })
          ∧ (x.dom = die → a.id = g.id → ∀ c, cores.head? = some c →
              y = { x with next := x.next + 1, last := some (if l.crew ≤ 1 then c.1 % 32 else c.1 % 32 / 4), skipped := none, starved := false, done := true }))
  ∧ (∀ g sh, s.grid? id = some g → g.share? die = some sh → sh.next < sh.hi → sh.starved = false → s.unitCores g sh = none →
    (sh.skipped = none → ∃ t : State, exec (.placementStarvation die id) s = .next t
      ∧ only t (fun sh => if sh.skipped = none then { sh with skipped := some s.clock.time } else { sh with starved := true }))
    ∧ ∀ since, sh.skipped = some since → (s.clock.time - since < 100000 → exec (.placementStarvation die id) s = .next s)
      ∧ (100000 ≤ s.clock.time - since → ∃ t : State, exec (.placementStarvation die id) s = .next t
        ∧ only t (fun sh => if sh.skipped = none then { sh with skipped := some s.clock.time } else { sh with starved := true })))
  ∧ (∀ m, s.team? id = some m → m.freed = false →
    let ready := (∀ th, th ∈ m.threads → th.alive = false) ∧ m.window = [] ∧ (∀ c, c ∈ s.eng.cmds → c.team ≠ some id)
      ∧ (∀ x, x ∈ s.mm.side → x.team ≠ id) ∧ m.slot ≠ none ∧ ∀ g p, g ∈ s.fe.grids → g.parent = some p → p.team ≠ id
    (¬ready → exec (.teamFree id) s = .next s)
    ∧ (ready → ∃ t : State, exec (.teamFree id) s = .next t ∧ t = { s with wk := { s.wk with teams := t.wk.teams, bars := t.wk.bars }, cores := t.cores, ctxs := t.ctxs,
                                                                              mm := { s.mm with tlb := t.mm.tlb, invlogs := t.mm.invlogs }, eng := { s.eng with cmds := t.eng.cmds } }
      ∧ unpaused s t ∧ (∀ k d, { t.ctx k d with recs := (s.ctx k d).recs } = s.ctx k d)
      ∧ (∀ c ix, ix < 256 → t.barEntry c ix = if c = m.core ∧ (s.barEntry c ix).team = some id
          then { BarEntry.reset with gen := (s.barEntry c ix).gen + 1 } else s.barEntry c ix)
      ∧ let after := s.wk.teams.map (fun x => if x.id = id then { x with freed := true, acc := [], warps := [], traps := [], insts := [] } else x)
        let crew (x : Team) : Prop := x.grid = m.grid ∧ x.crewId = m.crewId
        ((∃ x, x ∈ after ∧ crew x ∧ x.freed = false) → t.wk.teams = after ∧ t.cores = s.cores ∧ t.ctxs = s.ctxs ∧ t.mm = s.mm ∧ t.eng = s.eng)
        ∧ ((∀ x, x ∈ after → crew x → x.freed = true) → t.wk.teams = after.filter (fun x => !(x.grid == m.grid && x.crewId == m.crewId))
          ∧ ∀ c, let left (k : Nat) : Prop := (∃ x, x ∈ after ∧ crew x ∧ x.core = c ∧ x.slot = some k) ∧ ∀ x, x ∈ t.wk.teams → ¬(x.core = c ∧ x.slot = some k)
            let old := s.core c
            let new := t.core c
            { new with ctx0 := old.ctx0, ctx1 := old.ctx1, ctx2 := old.ctx2, active := old.active, req := old.req, since := old.since } = old
            ∧ (∀ k, k < 3 → (left k → new.slotCtx k = none) ∧ (¬left k → new.slotCtx k = old.slotCtx k))
            ∧ (¬left old.active → new.active = old.active ∧ new.since = old.since ∧ ∀ k, new.req = some k ↔ old.req = some k ∧ ¬left k)
            ∧ (left old.active → (∃ k, k < 3 ∧ new.slotCtx k ≠ none) → new.slotCtx new.active ≠ none ∧ (∀ k, k < new.active → new.slotCtx k = none)
              ∧ new.since = s.clock.time ∧ new.req = none))))
  ∧ ∀ g, s.grid? id = some g →
    (∀ sh, g.share? die = some sh → sh.reported = false → sh.hi ≤ sh.next → (∀ m, m ∈ s.wk.teams → m.grid = id → m.core / 32 = die → m.freed = true) →
      ∃ t : State, exec (.dieShareReport die id) s = .next t ∧ only t (fun sh => { sh with reported := true }))
    ∧ (let ready := (∀ sh, sh ∈ g.shares → sh.reported = true) ∧ (∀ h p, h ∈ s.fe.grids → h.parent = some p → p.grid ≠ id) ∧ ∀ m, m ∈ s.wk.teams → m.grid ≠ id
      (¬ready → exec (.gridComplete id) s = .next s)
      ∧ (ready → ∃ u v t : State, exec (.gridComplete id) s = .next t ∧ u = { s with mm := u.mm, ctxs := u.ctxs, free := u.free }
        ∧ ((∀ c, c ∈ s.mm.contribs → c.grid ≠ id) → s.mm.wbs = [] → s.memOk → u.mm.contribs = s.mm.contribs
          ∧ (∀ c d, d < 4 → Nat.testBit g.launch.diemask.toNat d = true → c / 32 = d → (u.l1 c).dirty = [])
          ∧ ∀ x, let stored (c : Nat) : Prop := ∃ w, w ∈ (s.l1 c).writes (x / 8) ∧ w.off ≤ x % 8 ∧ x % 8 < w.off + w.bytes.length
            ((∀ c, ¬stored c) → u.mm.byte x = s.mm.byte x)
            ∧ ∀ c, c / 32 < 4 → Nat.testBit g.launch.diemask.toNat (c / 32) = true → stored c → (∀ k, k ≠ c → ¬stored k) → s.pkg.backed (8 * (x / 8)) = true →
              u.mm.byte x = (s.coreChunk c (x / 8)).getD (x % 8) 0)
        ∧ v = { u with fe := { u.fe with grids := u.fe.grids.filter (fun h => h.id != id) } }
        ∧ (∀ p, g.parent = some p → (g.lost = true ∨ p.handle = none → t = v)
          ∧ ∀ h, g.lost = false → p.handle = some h → t = (v.engineArrive p.core p.team h 5).releaseBars p.team)
        ∧ (g.parent = none → ∀ x fire, g.batch = some (x, fire) → t = { v with eng := { v.eng with xqs := t.eng.xqs } } ∧ (∀ j, j ≠ x → t.xq j = v.xq j)
          ∧ t.xq x = { v.xq x with batches := (v.xq x).batches.map (fun b => if b.fire = fire then { b with left := b.left - 1 } else b) })
        ∧ (g.parent = none → g.batch = none → t = { v with fe := { v.fe with pkts := t.fe.pkts } } ∧ t.fe.pkts.length = v.fe.pkts.length
          ∧ ∀ (k : Nat) p, v.fe.pkts[k]? = some p → ∃ q, t.fe.pkts[k]? = some q ∧ q = { p with members := q.members } ∧ q.members.length = p.members.length
            ∧ ∀ (j : Nat) x, p.members[j]? = some x → q.members[j]? = some (if p.id = g.pkt ∧ (g.member = 0xFF ∨ j = g.member) then { x with ended := true } else x))))

/-- 26 R414, R416 to R418, R420 to R425, 28 R452, R453: requests and triggers of a context switch, the switch, eviction and restore;
asynchronous traps; the answers of system software to page faults. -/
def Obligations.ContextResults : Prop := ∀ (s : State) (core : Nat),
  let c := s.core core
  let die := core / 32
  let p (x : Team) : Nat := ((s.launchOf x).map (fun l => l.prio + 1)).getD 0
  let on (k : Nat) (x : Team) : Prop := x ∈ s.wk.teams ∧ x.core = core ∧ x.slot = some k ∧ ∃ th, th ∈ x.threads ∧ th.alive = true
  let waits (k : Nat) (g : Grid) : Prop := g ∈ s.fe.grids ∧ c.slotCtx k = some g.ctx ∧ ∃ sh, g.share? die = some sh ∧ sh.next < sh.hi
  let top (k n : Nat) : Prop := (∀ x, on k x → p x ≤ n) ∧ (∀ g, waits k g → g.launch.prio + 1 ≤ n)
    ∧ (n = 0 ∨ (∃ x, on k x ∧ p x = n) ∨ ∃ g, waits k g ∧ g.launch.prio + 1 = n)
  let k1 := (c.active + 1) % 3
  let k2 := (c.active + 2) % 3
  let becomes (a b : State) (x : CoreReg) : Prop := b = { a with cores := b.cores } ∧ b.core core = x ∧ ∀ j, j ≠ core → b.core j = a.core j
  let paused (id : Nat) (a b : State) : Prop :=
    (∀ h, a.tileHead id = some h → h.begun = true → h.state = .ready → b = { a with eng := { a.eng with cmds := b.eng.cmds }, ctxs := b.ctxs }
      ∧ b.eng.cmds = a.eng.cmds.map (fun x => if x.id = h.id then { x with state := .paused } else x))
    ∧ ((∀ h, a.tileHead id = some h → ¬(h.begun = true ∧ h.state = .ready)) → b = a)
  (∀ v : BitVec 64, let k := v.toNat % 4
    (k = c.active ∨ c.slotCtx k = none → exec (.switchReq core v) s = .next s)
    ∧ (k ≠ c.active → c.slotCtx k ≠ none → ∃ t : State, exec (.switchReq core v) s = .next t ∧ becomes s t { c with req := some k }))
  ∧ (∀ ctx, c.slotCtx c.active = some ctx → let slice := (s.ctx ctx die).sched.toNat % 2 ^ 20
    let ready (k : Nat) : Prop := ∃ x w, on k x ∧ w ∈ x.warps ∧ (s.stall x w = 0 ∨ s.fetchDue x w = true) ∧ ∀ j y, j < 3 → on j y → p y ≤ p x
    (slice = 0 ∨ s.clock.time - c.since < 1000 * slice ∨ (¬ready k1 ∧ ¬ready k2) → exec (.timeSliceExpiry core) s = .next s)
    ∧ (slice ≠ 0 → 1000 * slice ≤ s.clock.time - c.since → ∀ k, (k = k1 ∧ ready k1) ∨ (k = k2 ∧ ready k2 ∧ ¬ready k1) →
      ∃ t : State, exec (.timeSliceExpiry core) s = .next t ∧ becomes s t { c with req := some k }))
  ∧ (c.req ≠ none → s.trigger core = s)
  ∧ (c.req = none → let urgent (k : Nat) : Prop := ∃ n, top k n ∧ (∀ m, top c.active m → m < n) ∧ ∀ j m, j = k1 ∨ j = k2 → top j m → m ≤ n
    ∀ k, (k = k1 ∧ urgent k1) ∨ (k = k2 ∧ urgent k2 ∧ ¬urgent k1) → becomes s (s.trigger core) { c with req := some k })
  ∧ (s.turn = none → s.switchHeld core = false → (∀ x w, on c.active x → w ∈ x.warps → w.mid = false ∨ x.frozen w = true) →
    let asked (k : Nat) : Prop := c.req = some k ∧ c.slotCtx k ≠ none ∧ k ≠ c.active
    ((∀ k, ¬asked k) → exec (.contextSwitch core) s = .next s)
    ∧ ∀ k, asked k → ∃ a v w t : State, exec (.contextSwitch core) s = .next t
      ∧ Each (fun x a b => paused x.id (a.flushWindow x.id) b)
          (s.wk.teams.filter (fun x => x.core == core && x.slot == some c.active)) s a
      ∧ becomes a v { c with active := k, req := none, since := s.clock.time }
      ∧ w = { v with eng := { v.eng with cmds := w.eng.cmds } } ∧ w.eng.cmds.length = v.eng.cmds.length
      ∧ (∀ (j : Nat) x, v.eng.cmds[j]? = some x → ∃ y, w.eng.cmds[j]? = some y
        ∧ (x.state = .paused → (∃ m, m ∈ v.wk.teams ∧ m.core = core ∧ m.slot = some k ∧ x.queue = .tile m.id) → y = { x with state := .ready })
        ∧ (¬(x.state = .paused ∧ ∃ m, m ∈ v.wk.teams ∧ m.core = core ∧ m.slot = some k ∧ x.queue = .tile m.id) → y = x))
      ∧ (let new := (c.slotCtx k).getD 0
        t = { w.emit new core rSwitch (new % 256 + (c.slotCtx c.active).getD 0 % 256 * 256) [] false none with
                mm := { w.mm with tlb := t.mm.tlb, invlogs := t.mm.invlogs } })
      ∧ (∀ d, Table.read [] t.mm.invlogs d = if d = die then [] else Table.read [] w.mm.invlogs d)
      ∧ ∀ e, e ∈ t.mm.tlb ↔ e ∈ w.mm.tlb ∧ ¬(e.tlb.die = die ∧ ∃ i, i ∈ Table.read [] w.mm.invlogs die ∧ i.ctx = e.ctx
          ∧ (i.pages = 0 ∨ (e.va * 2 ^ e.bits < i.va + 4096 * i.pages ∧ i.va < (e.va + 1) * 2 ^ e.bits))))
  ∧ (∀ k, let wanted := (∃ x, x ∈ s.wk.teams ∧ x.core = core ∧ x.slot = none)
        ∨ ∃ g sh, g ∈ s.fe.grids ∧ g.share? die = some sh ∧ sh.next < sh.hi ∧ c.slotOf g.ctx = none
      let ready := k ≠ c.active ∧ c.req ≠ some k ∧ k < 3 ∧ c.ctx0 ≠ none ∧ c.ctx1 ≠ none ∧ c.ctx2 ≠ none ∧ wanted ∧ s.turn = none
      (¬ready → exec (.contextEvict core k) s = .next s)
      ∧ (ready → ∃ a b t : State, exec (.contextEvict core k) s = .next t
        ∧ Each (fun x a b => paused x.id (a.landThreads x.id (x.threads.map Thread.ltid)) b) (s.wk.teams.filter (fun x => x.core == core && x.slot == some k)) s a
        ∧ b = { a with mm := { a.mm with side := b.mm.side }, wk := { a.wk with teams := a.wk.teams.map (fun x => if x.core = core ∧ x.slot = some k then { x with slot := none } else x) } }
        ∧ b.mm.side.length = a.mm.side.length ∧ (∀ (j : Nat) x, a.mm.side[j]? = some x → ∃ y, b.mm.side[j]? = some y
          ∧ ((∃ m, m ∈ s.wk.teams ∧ m.core = core ∧ m.slot = some k ∧ m.id = x.team) → y = { x with stored := true })
          ∧ ((∀ m, m ∈ s.wk.teams → m.core = core → m.slot = some k → m.id ≠ x.team) → y = x))
        ∧ becomes b t (c.setSlot k none)))
  ∧ (∀ ctx k, let mine (x : Team) : Prop := x.core = core ∧ x.ctx = ctx ∧ x.slot = none
    let need := ((s.wk.teams.filter (fun x => x.core == core && x.ctx == ctx && x.slot == none)).map (fun x => ((s.launchOf x).map Launch.spadBytes).getD 0)).sum
    let takes (j : Nat) : Prop := let units := c.part.toNat / 2 ^ (5 * j) % 2 ^ 5
      j < 3 ∧ c.slotCtx j = none ∧ 2 ≤ units ∧ need ≤ 16384 * (units - 1)
    ((∀ x, x ∈ s.wk.teams → ¬mine x) ∨ (∀ j, ¬takes j) → exec (.contextRestore core ctx) s = .next s)
    ∧ ((∃ x, x ∈ s.wk.teams ∧ mine x) → takes k → (∀ j, j < k → ¬takes j) → ∃ (u t : State) (ys : List Team), exec (.contextRestore core ctx) s = .next t
      ∧ u = { s with wk := { s.wk with teams := ys } } ∧ ys.length = s.wk.teams.length
      ∧ (∀ (j : Nat) x, s.wk.teams[j]? = some x → ∃ y, ys[j]? = some y ∧ (mine x → y = { x with slot := some k }) ∧ (¬mine x → y = x))
      ∧ let d := c.setSlot k (some ctx)
        t = { u with cores := t.cores, eng := { u.eng with cmds := t.eng.cmds } } ∧ (∀ j, j ≠ core → t.core j = u.core j)
        ∧ (c.slotCtx c.active ≠ none → t.core core = d ∧ t.eng = u.eng)
        ∧ (c.slotCtx c.active = none → t.core core = { d with active := k, req := none, since := s.clock.time } ∧ t.eng.cmds.length = u.eng.cmds.length
          ∧ ∀ (j : Nat) x, u.eng.cmds[j]? = some x → ∃ y, t.eng.cmds[j]? = some y
            ∧ (x.state = .paused → (∃ m, m ∈ u.wk.teams ∧ m.core = core ∧ m.slot = some k ∧ x.queue = .tile m.id) → y = { x with state := .ready })
            ∧ (¬(x.state = .paused ∧ ∃ m, m ∈ u.wk.teams ∧ m.core = core ∧ m.slot = some k ∧ x.queue = .tile m.id) → y = x))))
  ∧ (∀ m n th a rest, s.team? m.id = some m → m.thread? n = some th → th.asyncs = a :: rest → let dropped := s.updThread m.id n (fun x => { x with asyncs := rest })
    (th.alive = false → exec (.asyncTrapTake m.id n) s = .next (dropped.endTeam m.id m.index))
    ∧ (th.alive = true → ∀ w pc k, m.warpOf? n = some w → ((th.wait = .run ∧ pc = th.pc ∧ k = th.slot) ∨ ∃ h tok, th.wait = .bwait h tok pc k) →
      let free := s.turn = none ∧ w.trap = none ∧ w.want = [] ∧ w.redo = [] ∧ w.fence = none ∧ w.mid = false ∧ m.slot = some (s.core m.core).active
        ∧ (∀ l, l ∈ m.live w → l.2.faults = []) ∧ (s.stall m w = 0 ∨ s.stall m w = 4 ∨ (s.stall m w = 3 ∧ (s.fetchDue m w = true ∨ waitsBar w (m.lanesOf w) = true)))
      (¬free → exec (.asyncTrapTake m.id n) s = .next s)
      ∧ (free → let u := dropped.updThread m.id n (fun x => { x with wait := .run, pc := pc, slot := k })
        let r : TrapReq := ⟨3, a.cause, a.sub, a.detail, pc, k, k, some [n], [], some a.cmd, .none, false⟩
        exec (.asyncTrapTake m.id n) s = .next ((u.updTeam m.id (fun x => x.updWarp w.id (fun y => { y with want := y.want ++ [r] }))).enterTrap m.id w.id))))
  ∧ ∀ ctx rec, let fs := (s.ctx ctx die).faults
    (∀ f, f ∈ fs → f.idx ≠ rec) → exec (.faultResolve ctx die rec) s = .next s ∧ exec (.faultDecline ctx die rec) s = .next s

/-- 26 R414 to R417, 28 R453: an answer applies to every unanswered record of its page. Resolved lanes perform their access again; a warp
traps once, and for all its faulted lanes, when none of its offered faults is left unanswered; held commands and side-log entries go on or end. -/
def Obligations.FaultAnswerResults : Prop := ∀ (s : State) (ctx die : Nat) (rec : BitVec 32) (f : FaultRec),
  (s.ctx ctx die).faults.find? (fun x => x.idx == rec) = some f →
  let sent (o : Offer) : Prop := ∃ g, g ∈ (s.ctx ctx die).faults ∧ g.page = f.page ∧ o = .sent g.idx
  let resolve (t : State) : Prop := exec (.faultResolve ctx die rec) s = .next t
  let decline (t : State) : Prop := exec (.faultDecline ctx die rec) s = .next t
  let closed (t : State) : Prop := (∀ k c, c < 4 → (k, c) ≠ (ctx, die) → t.ctx k c = s.ctx k c)
    ∧ t.ctx ctx die = { s.ctx ctx die with faults := (s.ctx ctx die).faults.filter (fun g => g.page != f.page) }
  ctx < 256 → die < 4 →
  (∃ t : State, resolve t) ∧ (∃ t : State, decline t)
  ∧ (∀ m w, s.mm.side = [] → s.eng.cmds = [] → s.pkg.rx = [] → s.wk.teams.filter (fun x => x.ctx == ctx && dieOf x.core == die) = [m] → s.team? m.id = some m →
    m.warps = [w] → w.redo = [] →
    let team (t : State) (v : Team) : Prop := t = { s with wk := { s.wk with teams := t.wk.teams }, ctxs := t.ctxs } ∧ closed t
      ∧ (∀ k, k ≠ m.id → t.team? k = s.team? k) ∧ t.team? m.id = some v
    let fs := m.faultsOf w
    let again (ps : Lane × LaneFault → Prop) (rs : List Redo) : Prop := rs.Pairwise (fun a b => a.slot ≤ b.slot)
      ∧ ∀ j pc k n, (∃ d, d ∈ rs ∧ d.instr = j ∧ d.pc = pc ∧ d.slot = k ∧ n ∈ d.threads) ↔ (∃ q, q ∈ fs ∧ ps q ∧ q.2.instr = j ∧ q.2.pc = pc ∧ q.2.slot = k)
        ∧ ∃ q, q ∈ fs ∧ ps q ∧ q.2.pc = pc ∧ q.2.slot = k ∧ (n = q.1.th.ltid ∨ n ∈ q.2.also)
    (w.want = [] → fs ≠ [] → (∀ q, q ∈ fs → sent q.2.offer ∨ q.2.offer = .declined ∨ (q.2.offer = .none ∧ q.2.cause ≠ 0x12)) →
      ((∃ q, q ∈ fs ∧ sent q.2.offer) → ∃ (t : State) (v : Team) (rs : List Redo), resolve t ∧ team t v ∧ again (fun q => sent q.2.offer) rs
        ∧ v = { m with threads := v.threads, warps := [{ w with redo := rs }] }
        ∧ ∀ n a, m.thread? n = some a → ∃ b, v.thread? n = some b ∧ b = { a with faults := b.faults }
          ∧ ∀ q, q ∈ fs → q.1.th.ltid = n → ∀ x, x ∈ b.faults ↔ x ∈ a.faults ∧ ¬sent x.offer)
      ∧ ∃ (u t : State) (v : Team) (rs : List Redo) (r : TrapReq) (ids : List Nat) (q : Lane × LaneFault), decline t ∧ t = u.enterTrap m.id w.id ∧ team u v
        ∧ again (fun _ => True) rs ∧ fs.head? = some q ∧ r = ⟨1, q.2.cause, q.2.sub, q.2.detail, q.2.pc, r.slot, r.slot, some ids, rs, none, .none, w.mid⟩
        ∧ (∃ x, x ∈ fs ∧ x.2.slot = r.slot) ∧ (∀ x, x ∈ fs → r.slot ≤ x.2.slot)
        ∧ (∀ n, n ∈ ids ↔ ∃ x, x ∈ fs ∧ (x.1.th.ltid = n ∨ (x.2.marks = true ∧ n ∈ x.2.also)))
        ∧ v = { m with threads := v.threads, warps := [{ w with want := [r] }] }
        ∧ ∀ n a, m.thread? n = some a → ∃ b, v.thread? n = some b ∧ b = { a with faults := b.faults } ∧ (n ∈ ids → b.faults = []))
    ∧ (∀ r, fs = [] → w.want = [r] → sent r.offer → (∀ th, th ∈ m.threads → th.faults = []) →
      (∃ t : State, resolve t ∧ team t { m with warps := [{ w with want := [], packet := none }] })
      ∧ ∃ u t : State, decline t ∧ t = u.enterTrap m.id w.id ∧ team u { m with warps := [{ w with want := [{ r with offer := .declined }] }] }))
  ∧ (∀ c access va o, s.eng.cmds = [c] → c.ctx = ctx → c.die = die → c.state = .held 0x12 access va o → sent o → s.mm.side = [] → s.pkg.rx = [] →
    (∀ m, m ∈ s.wk.teams → ¬(m.ctx = ctx ∧ dieOf m.core = die)) → ∃ u : State, u = { s with ctxs := u.ctxs } ∧ closed u
      ∧ resolve { u with eng := { u.eng with cmds := [{ c with state := .ready }] } }
      ∧ decline (u.deliver c.id 0x40 ⟨6, 0x12, va.toNat, access.toNat⟩))
  ∧ ∀ x, s.mm.side = [x] → x.ctx = ctx → x.die = die → sent x.offer → s.eng.cmds = [] → s.pkg.rx = [] →
    (∀ m, m ∈ s.wk.teams → m.ctx = ctx → dieOf m.core = die → m.warps = [] ∧ ∀ th, th ∈ m.threads → th.faults = []) →
    ∃ u : State, u = { s with mm := { s.mm with side := [] }, ctxs := u.ctxs } ∧ closed u ∧ decline (u.endTeam x.team x.va.toNat)
      ∧ (x.stored = true → resolve { u with mm := { u.mm with side := [{ x with offer := .resolved }] } })
      ∧ ∀ m pa y, x.stored = false → x.red = none → u.team? x.team = some m →
        ({ u with mm := { u.mm with side := [x] } } : State).globalPlace ctx (.vector x.core) x.va.toNat x.data.length .write = .ok (.mem (.phys pa y)) →
        resolve ((u.noteTlb (.vector x.core) ctx x.va.toNat).drew.storeMem ⟨x.core, x.team, x.thread, x.scope.toNat, 0, 0, x.n⟩ x.va.toNat pa y x.data)

/-! ### Events of the engines -/

/-- 17 R297, R301, R302, R307 to R310, 20 R349 to R359, 21 R372, 26 R417 to R419, 31 R498: when a command is performed, what its
performance does, and its completion. -/
def Obligations.EngineResults : Prop := ∀ (s : State) (id : Nat) (c : Cmd), s.cmd? id = some c →
  let u := s.beginCmd id
  let does (e : Instr) (t : State) : Prop := exec e s = .next t
  let runs : Prop := s.canRun c = true
  let done (a : State) : State := { a with eng := { a.eng with cmds := a.eng.cmds.map (fun x => if x.id = id then { x with state := .performed } else x) } }
  let ext (r : BitVec 512) (q : Nat → Int) : Prop := ∀ i, i < 4 → if i < lrNdim r then 0 ≤ q i ∧ q i < lrDim r i else q i = 0
  let addr (r : BitVec 512) (q : Nat → Int) : Nat := (((lrBase r : Int) + q 0 * 2 ^ lrEsize r + (if 1 < lrNdim r then q 1 * lrStride r 1 else 0)
    + (if 2 < lrNdim r then q 2 * lrStride r 2 else 0) + (if 3 < lrNdim r then q 3 * lrStride r 3 else 0)) % 2 ^ 64).toNat
  let signed (w v : Nat) : Int := if v < 2 ^ (w - 1) then v else (v : Int) - 2 ^ w
  (runs ↔ c.state = .ready ∧ ((∀ qs, c.body ≠ .fence qs) → ∃ pre x post, s.eng.cmds = pre ++ x :: post ∧ x.id = id ∧ x.inQueue c.queue = true
      ∧ ∀ y, y ∈ pre → y.inQueue c.queue = false) ∧ ((∃ qs, c.body = .fence qs) → s.atHead c = true)
    ∧ s.resident c = true
    ∧ (c.begun = true ∨ (s.drained c = false ∧ s.engineHeld c = false ∧ (∀ qs, c.body ≠ .fence qs)
      ∧ ∀ unit k, c.queue.served = some (unit, k) → let last := Table.read 4 s.eng.robin unit
        ∀ d j, d ∈ s.eng.cmds → d.queue.served = some (unit, j) → s.canBeginCmd d = true → (k + 4 - last) % 5 ≤ (j + 4 - last) % 5)))
  ∧ (¬runs → ∀ e, e ∈ [.copyPerform id, .hbldPerform id, .hprbBuild id, .hlkPerform id, .mrgPerform id, .scnPerform id, .hfreeEffect id] → does e s)
  ∧ (c.begun = true → u = s) ∧ (c.begun = false → u = { s with eng := { s.eng with cmds := s.eng.cmds.map (fun x => if x.id = id then { x with begun := true } else x), robin := u.eng.robin },
                                                                     ctxs := (s.cmdRecord c rCmdBegin 0).ctxs }
    ∧ (c.queue.served = none → u.eng.robin = s.eng.robin)
    ∧ ∀ unit k, c.queue.served = some (unit, k) → ∀ j, Table.look u.eng.robin j = if j = unit then some k else Table.look s.eng.robin j)
  -- the copy engine
  ∧ (∀ cr src dst, c.body = .copy cr src dst → recBits cr 0 12 12 = 0 → let p := copyPlan cr src dst
    let es (n : Nat) := (p.elems.drop c.pos).take n
    let r (n : Nat) := copyBytes c p (es n) u.drew
    let rank := recBits cr 0 20 19
    let len := recBits cr 0x18 63 0
    (runs → ∃ n, (p.elems.length ≤ c.pos → n = 0) ∧ (c.pos < p.elems.length → 1 ≤ n ∧ c.pos + n ≤ p.elems.length)
      ∧ let v := (r n).2.2.writeCopy c (r n).1
        let w := (v.cleanse (v.copyPlaces c p (c.pos + (r n).1.length / p.size))).countTo id (p.size * c.pos + (r n).1.length)
        (∀ x, (r n).2.1 = some x → does (.copyPerform id) ((w.updCmd id (fun z => { z with pos := 0 })).stopCmd id x))
        ∧ ((r n).2.1 = none → (c.pos + n < p.elems.length → does (.copyPerform id) (w.updCmd id (fun z => { z with pos := z.pos + n })))
          ∧ (p.elems.length ≤ c.pos + n → does (.copyPerform id) (done w))))
    ∧ (recBits cr 0 7 0 = 2 → p = ⟨1, (recBits cr 0 15 13, rank), (recBits cr 0 18 16, rank), (List.range len).map (fun k =>
        ⟨some ((recBits cr 8 63 0 + k) % 2 ^ 64), [], (recBits cr 0x10 63 0 + k) % 2 ^ 64⟩)⟩)
    ∧ (recBits cr 0 7 0 = 3 → p = ⟨1, (0, 0), (recBits cr 0 18 16, rank), (List.range len).map (fun k =>
        ⟨none, [BitVec.ofNat 8 (recBits cr 8 31 0 / 2 ^ (8 * (k % 4)))], (recBits cr 0x10 63 0 + k) % 2 ^ 64⟩)⟩)
    ∧ (recBits cr 0 7 0 = 1 → p.size = 2 ^ lrEsize src ∧ p.src = (lrSpace src, lrRank src) ∧ p.dst = (lrSpace dst, lrRank dst)
      ∧ ∃ f : Nat → Option CopyElem, p.elems = (List.range ((lrBox src 0 + 1) * (lrBox src 1 + 1) * (lrBox src 2 + 1) * (lrBox src 3 + 1))).filterMap f
        ∧ ∀ j, let b (i : Nat) := lrBox src i + 1
          let e (i : Nat) : Nat := match i with
            | 0 => j % b 0
            | 1 => j / b 0 % b 1
            | 2 => j / (b 0 * b 1) % b 2
            | _ => j / (b 0 * b 1 * b 2)
          let at_ (side i : Nat) : Int := signed 32 (recBits cr (0x20 + 16 * side + 4 * i) 31 0) + e i
          let n := 2 ^ lrEsize src
          j < b 0 * b 1 * b 2 * b 3 → (¬ext dst (at_ 1) → f j = none)
            ∧ (ext dst (at_ 1) → ∃ x, f j = some x ∧ x.dst = addr dst (at_ 1) ∧ (ext src (at_ 0) → x.src = some (addr src (at_ 0)))
              ∧ (¬ext src (at_ 0) → x.src = none)
              ∧ x.fill.length = n ∧ ∀ k, k < n → x.fill.getD k 0 = BitVec.ofNat 8 (recBits src 0x34 31 0 / 2 ^ (8 * (k % 4)))))
    ∧ (∀ n, 0 < p.size → ((r n).2.1 = none → (r n).1.length = p.size * (es n).length) ∧ (r n).1.length ≤ p.size * (es n).length
      ∧ ∀ (k : Nat) b, (r n).1[k]? = some b → ∃ x w d, (es n)[k / p.size]? = some x ∧ b.ea = x.dst
        ∧ State.engPlace w c p.dst.1 p.dst.2 x.dst p.size .write = .ok d ∧ b.dst = d.byte (k % p.size)
        ∧ (x.src = none → b.src = none ∧ b.old = x.fill.getD (k % p.size) 0)
        ∧ ∀ ea, x.src = some ea → ∃ v q, State.engPlace v c p.src.1 p.src.2 ea p.size .read = .ok q ∧ b.src = some (q.byte (k % p.size))
          ∧ (s.Settled → ∀ pa m, q = .mem (.phys pa m) → b.old = s.mm.byte (pa + k % p.size)))
    ∧ (∀ n, let v := (r n).2.2
      v.Settled → (∀ b, b ∈ (r n).1 → ∃ pa m, b.dst = .mem (.phys pa m) ∧ v.pkg.backed (8 * (pa / 8)) = true ∧ v.pkg.lostHome pa = false) →
      (r n).1.Pairwise (fun a b => a.dst.pa ≠ b.dst.pa) → (∀ a b, a ∈ (r n).1 → b ∈ (r n).1 → a.src ≠ some b.dst) →
      ∀ x, (v.writeCopy c (r n).1).mm.byte x = match (r n).1.find? (fun b => b.dst.pa == some x) with
        | some b => b.old
        | none => v.mm.byte x))
  ∧ (∀ cr src dst, c.body = .copy cr src dst → recBits cr 0 12 12 = 1 → runs → does (.copyPerform id) (u.runBlocks c cr))
  ∧ (∀ clen ulen pay, decodePayload 0 clen ulen pay = (if clen = ulen then some pay else none)
    ∧ (let words := ulen / 4
      let bit (w : Nat) : Bool := Nat.testBit (pay.getD (w / 8) 0).toNat (w % 8)
      let ones (n : Nat) : Nat := (List.range n).countP bit
      (ulen % 4 = 0 → clen = (ulen + 31) / 32 + 4 * ones words → clen = pay.length → ∃ out, decodePayload 1 clen ulen pay = some out ∧ out.length = ulen
        ∧ ∀ w j, w < words → j < 4 → out.getD (4 * w + j) 0 = if bit w then pay.getD ((ulen + 31) / 32 + 4 * ones w + j) 0 else 0)
      ∧ (ulen % 4 ≠ 0 ∨ (clen = pay.length ∧ clen ≠ (ulen + 31) / 32 + 4 * ones words) → decodePayload 1 clen ulen pay = none))
    ∧ (let total := ((List.range (clen / 2)).map (fun k => (pay.getD (2 * k) 0).toNat + 1)).sum
      (clen % 2 ≠ 0 ∨ total ≠ ulen → decodePayload 2 clen ulen pay = none)
      ∧ (clen % 2 = 0 → total = ulen → decodePayload 2 clen ulen pay = some ((List.range (clen / 2)).flatMap (fun k =>
          List.replicate ((pay.getD (2 * k) 0).toNat + 1) (pay.getD (2 * k + 1) 0))))))
  ∧ (∀ space a off len win, c.body = .put space a off len win → runs →
    let port := (s.window win).w0.toNat / 4 % 2
    let added (x t : State) : Prop := let y := x.updCmd id (fun z => { z with counted := 1 })
      (∀ f, y.addCount win c.die len = .error f → t = y.stopCmd id ⟨6, f.toNat, (s.window win).cnt.toNat % 2 ^ 48, 2⟩)
      ∧ ∀ z, y.addCount win c.die len = .ok z → t = done z
    (c.counted ≠ 0 → ∃ t : State, does (.copyPerform id) t ∧ added u t)
    ∧ (c.counted = 0 → (∀ f, u.sourceBytes c space 0 a.toNat len = .error f → does (.copyPerform id) (u.stopCmd id f))
      ∧ ∀ bs v, u.sourceBytes c space 0 a.toNat len = .ok (bs, v) →
        ((s.port port).up = true → ∃ n, (∀ x, x ∈ v.eng.cmds → x.state = .sent → x.pos < n) ∧ does (.copyPerform id)
          { v with pkg := { v.pkg with sends := v.pkg.sends ++ [⟨port, (s.window win).w0.toNat / 8 % 2 ^ 6, off, bs⟩] },
                     eng := { v.eng with cmds := v.eng.cmds.map (fun x => if x.id = id then { x with state := .sent, pos := n } else x) } })
        ∧ ((s.port port).up = false → ∃ t : State, does (.copyPerform id) t ∧ t = { done v with
              eng := { v.eng with cmds := v.eng.cmds.map (fun x => if x.id = id then { x with state := .performed, aborted := true } else x) },
              pkg := { v.pkg with ports := t.pkg.ports } }
          ∧ t.port port = { v.port port with count := (v.port port).count + 1 } ∧ ∀ k, k ≠ port → t.port k = v.port k)))
  -- hash tables, lookups
  ∧ (∀ op cr h hit, c.body = .coord op cr h hit → runs →
    (op = 1 → let keys := List.range (recBits cr 0x10 31 0)
      (recBits cr 0x28 31 0 ≠ 0 → let r := buildKeys c cr h keys u
        does (.hbldPerform id) (r.2.endRun id r.1))
      ∧ (recBits cr 0x28 31 0 = 0 → (∀ f, u.emptySlots c (u.tableOf c.ctx h) = .error f → does (.hbldPerform id) (u.stopCmd id f))
        ∧ ∀ v, u.emptySlots c (u.tableOf c.ctx h) = .ok v → let r := buildKeys c cr h keys (v.setCount h 0)
          does (.hbldPerform id) (r.2.endRun id r.1)))
    ∧ (op = 2 → (hit = true → (u.building h = true → does (.hprbBuild id) s) ∧ (u.building h = false → does (.hprbBuild id) (done u)))
      ∧ (hit = false → (∀ f, u.buildMap c cr h = .error f → does (.hprbBuild id) (u.drew.stopCmd id f)) ∧ ∀ v, u.buildMap c cr h = .ok v → does (.hprbBuild id) (done v)))
    ∧ (op = 3 → does (.mrgPerform id) (u.runMerge c cr))
    ∧ (op = 4 → let r := scanFrom c cr (recBits cr 0x18 31 0) 0 none u
      does (.scnPerform id) (r.2.endRun id r.1))
    ∧ (op = 5 → let d := h.toNat / 2 ^ 14 % 4
      let ix := h.toNat % 2 ^ 12
      let o := u.obj d ix
      let named := o.body.kind = h.toNat / 2 ^ 12 % 4 ∧ o.gen.toNat = h.toNat / 2 ^ 16 % 2 ^ 8 ∧ o.ctx = c.ctx
      ∃ v : State, does (.hfreeEffect id) ((done v).tryFree d ix) ∧ (¬named → v = u)
        ∧ (named → v = { u with eng := { u.eng with objs := v.eng.objs } } ∧ v.obj d ix = { o with dying := true }
          ∧ ∀ k, k ≠ 4096 * d + ix → Table.look v.eng.objs k = Table.look u.eng.objs k)))
  ∧ (∀ (a : State) (d ix : Nat), let o := a.obj d ix
    let h := mkHandle d ix o.body.kind o.gen
    let busy := o.dying = false ∨ (∃ x, x ∈ a.eng.cmds ∧ x.namesObj h = true)
      ∨ ∃ m w x b, m ∈ a.wk.teams ∧ w ∈ m.window ∧ (x = w.cmd ∨ x ∈ w.orig) ∧ x.op = .tgms ∧ x.block = some b ∧ recBits b 0x30 31 0 = h.toNat
    (busy → a.tryFree d ix = a) ∧ (¬busy → ∃ t : State, a.tryFree d ix = t ∧ t = { a with eng := { a.eng with objs := t.eng.objs, coord := t.eng.coord } }
      ∧ t.obj d ix = { Obj.reset with gen := o.gen + 1 } ∧ (∀ k, k ≠ 4096 * d + ix → Table.look t.eng.objs k = Table.look a.eng.objs k)
      ∧ ∀ k, Table.look t.eng.coord k = (Table.look a.eng.coord k).map (fun x => { x with cache := x.cache.filter (fun e => e.handle != h) })))
  ∧ (∀ (a : Nat → State) (x : TableAt) (k n : Nat) (K : Nat → Nat), let size := 2 ^ x.log
    let start := k * 0x9E3779B97F4A7C15 % 2 ^ 64 / 2 ^ (64 - x.log)
    let ea (j : Nat) : Nat := x.slots + 16 * ((start + j) % size)
    n < size → k ≠ 2 ^ 64 - 1 → (∀ j, j ≤ n → (a j).engNum c (ea j) 8 = .ok (K j, a (j + 1))) → (∀ j, j < n → K j ≠ k ∧ K j ≠ 2 ^ 64 - 1) →
    (K n = 2 ^ 64 - 1 → (a 0).findKey c x k = .ok (some ((start + n) % size, none), a (n + 1)))
    ∧ (K n = k → ∀ ix d, (a (n + 1)).engNum c (ea n + 8) 4 = .ok (ix, d) → (a 0).findKey c x k = .ok (some ((start + n) % size, some ix), d)))
  ∧ (∀ cr h i is (a b : State) k, a.engNum c (recBits cr 8 63 0 + 8 * i) 8 = .ok (k, b) → let x := b.tableOf c.ctx h
    let out := recBits cr 0x20 63 0
    let goes (d : State) (ix : Nat) : Prop := (out = 0 → buildKeys c cr h (i :: is) a = buildKeys c cr h is d)
      ∧ (out ≠ 0 → (∀ f, d.engWrite c 0 0 (out + 4 * i) (bytesOf 4 ix) = .error f → buildKeys c cr h (i :: is) a = (some f, d))
        ∧ ∀ e, d.engWrite c 0 0 (out + 4 * i) (bytesOf 4 ix) = .ok e → buildKeys c cr h (i :: is) a = buildKeys c cr h is e)
    (k = 2 ^ 64 - 1 → buildKeys c cr h (i :: is) a = (some ⟨5, 0, 8 * i, 0⟩, b))
    ∧ (k ≠ 2 ^ 64 - 1 → (∀ slot ix d, b.findKey c x k = .ok (some (slot, some ix), d) → goes d ix)
      ∧ ∀ slot d, b.findKey c x k = .ok (some (slot, none), d) →
        (7 * 2 ^ x.log / 8 < x.count + 1 → buildKeys c cr h (i :: is) a = (some ⟨3, 0, 8 * i, 0⟩, b))
        ∧ (x.count + 1 ≤ 7 * 2 ^ x.log / 8 → let w := d.engWrite c 0 0 (x.slots + 16 * slot) (bytesOf 8 k ++ bytesOf 4 x.count ++ bytesOf 4 0)
          (∀ f, w = .error f → buildKeys c cr h (i :: is) a = (some f, d)) ∧ ∀ e, w = .ok e → goes (e.setCount h (x.count + 1)) x.count)))
  ∧ (∀ dst looks, c.body = .hlk dst looks → runs → (∀ f, lookups c looks u = .error f → does (.hlkPerform id) (u.stopCmd id f))
    ∧ ∀ r v, lookups c looks u = .ok (r, v) → r.map Prod.fst = looks ∧ ∃ w : State, does (.hlkPerform id) (done w)
      ∧ Each (fun (x : Lookup × Nat) a b => b = a.landCmd c x.1.threads (fun _ => BitVec.ofNat 32 x.2)) r v w)
  ∧ (∀ (l : Lookup) ls (a b v : State) r f, a.findKey c (a.tableOf c.ctx l.handle) l.key.toNat = .ok (f, b) → lookups c ls b = .ok (r, v) →
    lookups c (l :: ls) a = .ok ((l, match f with
      | some (_, some ix) => ix
      | _ => 0xFFFFFFFF) :: r, v))
  -- maps, merges, scans
  ∧ (∀ cr f q k, q < 2 ^ 64 → let n (axis : Nat) : Nat := recBits cr 0x20 (8 * axis + 2) (8 * axis)
    let e (axis : Nat) : Nat := match axis with
      | 0 => f % n 0
      | 1 => f / n 0 % n 1
      | _ => f / (n 0 * n 1)
    let at_ (x axis : Nat) : Int := signed 19 (x / 2 ^ (38 - 19 * axis) % 2 ^ 19)
    inputKey cr f q = some k ↔ k < 2 ^ 64 - 1 ∧ k / 2 ^ 57 = q / 2 ^ 57
      ∧ ∀ axis, axis < 3 → at_ k axis = n 3 * at_ q axis + n 4 * ((e axis : Int) - ((n axis - 1) / 2 : Nat)))
  ∧ (∀ (ls : List (List (Nat × Nat))) off w v, let size (k : Nat) : Nat := ((ls.take k).map List.length).sum
    let base := (16 + 16 * ls.length + 63) / 64 * 64;
    (off, w, v) ∈ mapWords ls ↔ (off = 0 ∧ w = 4 ∧ v = ls.length) ∨ (off = 4 ∧ w = 4 ∧ v = 0) ∨ (off = 8 ∧ w = 8 ∧ v = size ls.length)
      ∨ ∃ (f : Nat) (l : List (Nat × Nat)), ls[f]? = some l ∧ ((off = 0x10 + 16 * f ∧ w = 4 ∧ v = l.length) ∨ (off = 0x14 + 16 * f ∧ w = 4 ∧ v = 0)
        ∨ (off = 0x18 + 16 * f ∧ w = 8 ∧ v = base + 8 * size f)
        ∨ ∃ (j : Nat) (p : Nat × Nat), l[j]? = some p ∧ w = 4 ∧ ((off = base + 8 * size f + 8 * j ∧ v = p.1) ∨ (off = base + 8 * size f + 8 * j + 4 ∧ v = p.2))))
  ∧ (∀ mop vt a b, a < 2 ^ 32 → b < 2 ^ 32 → vt < 3 → mop < 5 → mergeValue mop vt (some a) none = a
    ∧ (mop ≠ 1 → mergeValue mop vt none (some b) = b)
    ∧ (vt = 0 → mergeValue 1 vt none (some b) = (b + 2 ^ 31) % 2 ^ 32) ∧ (vt ≠ 0 → mergeValue 1 vt none (some b) = (2 ^ 32 - b) % 2 ^ 32)
    ∧ mergeValue 4 vt (some a) (some b) = a
    ∧ (vt ≠ 0 → mergeValue 0 vt (some a) (some b) = (a + b) % 2 ^ 32 ∧ mergeValue 1 vt (some a) (some b) = (2 ^ 32 + a - b) % 2 ^ 32)
    ∧ (vt = 1 → mergeValue 2 vt (some a) (some b) = (if signed 32 b < signed 32 a then b else a)
      ∧ mergeValue 3 vt (some a) (some b) = (if signed 32 a < signed 32 b then b else a))
    ∧ (vt = 2 → mergeValue 2 vt (some a) (some b) = min a b ∧ mergeValue 3 vt (some a) (some b) = max a b)
    ∧ (vt = 0 → mergeValue 0 vt (some a) (some b) = (f32.add 0 false a b).1 ∧ mergeValue 1 vt (some a) (some b) = (f32.sub 0 false a b).1
      ∧ mergeValue 2 vt (some a) (some b) = (f32.minmax false a b).1 ∧ mergeValue 3 vt (some a) (some b) = (f32.minmax true a b).1))
  ∧ (∀ cr k m (a a' b : State) x y, mergeHead c (recBits cr 8 63 0) (recBits cr 0x20 31 0) m.i m.la a = .ok (x, a') →
    mergeHead c (recBits cr 0x10 63 0) (recBits cr 0x20 63 32) m.j m.lb a' = .ok (y, b) →
    let vt := recBits cr 0x38 9 8
    let step (useA useB : Prop) [Decidable useA] [Decidable useB] (ix v : Nat) : Prop := let m' : Merge :=
        ⟨if useA then m.i + 1 else m.i, if useB then m.j + 1 else m.j, if useA then some ix else m.la, if useB then some ix else m.lb, m.n, m.segs⟩
      let drop := recBits cr 0x38 10 10 = 1 ∧ (v = 0 ∨ (vt = 0 ∧ v = 2 ^ 31))
      let seg := ix / 2 ^ recBits cr 0x38 4 0
      (drop → mergeFrom c cr (k + 1) m a = mergeFrom c cr k m' b)
      ∧ (¬drop → (recBits cr 0x30 63 0 ≠ 0 → recBits cr 0x38 63 32 ≤ seg → mergeFrom c cr (k + 1) m a = .error (⟨5, 0, 8 * m.n, 0⟩, b))
        ∧ (recBits cr 0x30 63 0 = 0 ∨ seg < recBits cr 0x38 63 32 → let w := b.engWrite c 0 0 (recBits cr 0x18 63 0 + 8 * m.n) (bytesOf 4 ix ++ bytesOf 4 v)
          (∀ f, w = .error f → mergeFrom c cr (k + 1) m a = .error (f, b))
          ∧ ∀ d, w = .ok d → mergeFrom c cr (k + 1) m a = mergeFrom c cr k { m' with n := m.n + 1, segs := m.segs ++ [seg] } d))
    (x = none → y = none → mergeFrom c cr (k + 1) m a = .ok (m, b))
    ∧ (∀ i v, x = some (i, v) → y = none → step True False i (mergeValue (recBits cr 0x38 7 5) vt (some v) none))
    ∧ (∀ i v, x = none → y = some (i, v) → step False True i (mergeValue (recBits cr 0x38 7 5) vt none (some v)))
    ∧ ∀ i v j w, x = some (i, v) → y = some (j, w) →
      (i < j → step True False i (mergeValue (recBits cr 0x38 7 5) vt (some v) none))
      ∧ (j < i → step False True j (mergeValue (recBits cr 0x38 7 5) vt none (some w)))
      ∧ (i = j → step True True i (mergeValue (recBits cr 0x38 7 5) vt (some v) (some w))))
  ∧ (∀ cr n i acc (a b : State) x, a.engNum c (recBits cr 8 63 0 + 4 * i) 4 = .ok (x, b) → x < 2 ^ 32 → (∀ y, acc = some y → y < 2 ^ 32) →
    let sum := match acc with
      | none => x
      | some y => if recBits cr 0x18 33 32 = 0 then (f32.add 0 false y x).1 else (y + x) % 2 ^ 32
    let w := b.engWrite c 0 0 (recBits cr 0x10 63 0 + 4 * i) (bytesOf 4 (if recBits cr 0x18 34 34 = 1 then acc.getD 0 else sum))
    (∀ f, w = .error f → scanFrom c cr (n + 1) i acc a = (some f, b)) ∧ ∀ d, w = .ok d → scanFrom c cr (n + 1) i acc a = scanFrom c cr n (i + 1) (some sum) d)
  -- completion
  ∧ (let may := ((∃ qs, c.body = .fence qs) ∧ s.atHead c = true ∧ s.drained c = false) ∨ ((∀ qs, c.body ≠ .fence qs) ∧ c.state = .performed)
    let global := match c.body with
      | .copy cr _ dst => (if recBits cr 0 7 0 = 1 then lrSpace dst else recBits cr 0 18 16) = 0
      | .tile w => w.cmd.op = .tgms ∨ (w.cmd.op = .tst ∧ ∃ b, w.cmd.block = some b ∧ tbSpace b 0 = 0)
      | .coord op _ _ hit => op ≠ 5 ∧ ¬(op = 2 ∧ hit = true)
      | .put .. => True
      | _ => False
    (¬may → does (.commandComplete id) s)
    ∧ (may → (∀ w, c.body ≠ .tile w) → ∃ a b d e t : State, does (.commandComplete id) t
      ∧ a = (if c.aborted then (s.countTo id c.body.destBytes).unowe c else s)
      ∧ b = { a with ctxs := b.ctxs, eng := { a.eng with cmds := a.eng.cmds.filter (fun x => x.id != id), robin := b.eng.robin } }
      ∧ ((∀ qs, c.body ≠ .fence qs) → b.eng.robin = a.eng.robin)
      ∧ (∀ m h, c.team = some m → c.bar = some h → ∃ sc, ((c.scope = 1 ∧ global → sc = 2) ∧ (¬(c.scope = 1 ∧ global) → sc = c.scope.toNat))
          ∧ d = b.engineArrive c.core m h sc)
      ∧ (c.team = none ∨ c.bar = none → d = b)
      ∧ (∀ x f, c.batch = some (x, f) → e = d.batchDone x f) ∧ (∀ q n m, c.batch = none → c.pkt = some (q, n, m) → e = d.memberDone c.pid m)
      ∧ (c.batch = none → c.pkt = none → e = d)
      ∧ (c.team = none → t = e.tryFrees) ∧ ∀ m, c.team = some m → t = (e.tryFrees.drainWindow m 8).releaseBars m))

/-- 18 R312, R317 to R328, 19 R329 to R331, R338, R341, R342, R344, 20 R363 to R365, 21 R379, 22 R385 to R390: a unit of a tile command's work
and its completion, the rewrite window, RW_TABLE, TILE_PROG, and the expert queues. -/
def Obligations.TileEventResults : Prop := ∀ (s : State) (id : Nat) (c : Cmd), s.cmd? id = some c →
  let u := s.beginCmd id
  let does (e : Instr) (t : State) : Prop := exec e s = .next t
  let upd (a : State) (f : Cmd → Cmd) : State := { a with eng := { a.eng with cmds := a.eng.cmds.map (fun x => if x.id = id then f x else x) } }
  let done (a : State) : State := upd a (fun x => { x with state := .performed })
  (s.canRun c = false → ∀ e, e ∈ [.tileProduct id, .tgmsBatch id, .tsaccPerform id, .tileMove id, .tileWholeOp id, .tokenAccept id, .tokenTransfer id] → does e s)
  ∧ (∀ w t, c.body = .tile w → s.cmdTeam c = some t → s.canRun c = true → let op := w.cmd.op
    let i := c.pos
    let goes (e : Instr) (x : State) : Prop := let y := if w.rule.isSome ∧ w.orig = [] then upd x (fun z => { z with body := .tile { w with rule := none } }) else x
      let ends (a : State) (n : Nat) : Prop := ∃ m, a.tileUnits c w.cmd = .ok m ∧ m ≤ n
      (ends y i → does e (done y))
      ∧ (¬ends y i → (∀ f, y.tileUnit c t w.cmd = .error f → does e (y.stopCmd id f))
        ∧ ∀ n v, y.tileUnit c t w.cmd = .ok (n, v) → let z := upd v (fun x => { x with pos := n })
          (ends z n → does e (done z)) ∧ (¬ends z n → ∃ r : State, does e r ∧ r = z.walkAhead { c with pos := n } w.cmd
            ∧ r = { z with mm := r.mm, free := r.free } ∧ (z.Settled → r.mm = { z.mm with tlb := r.mm.tlb })))
    let all (e : Instr) : Prop := (w.first = true → groupWaits t w = true → does e s)
      ∧ (w.first = true → groupWaits t w = false → (∀ x, u.probe c t w = .error x → does e x) ∧ ∀ x, u.probe c t w = .ok x → goes e x) ∧ (w.first = false → goes e u)
    (op = .tmm ∨ op = .tmmsp → all (.tileProduct id)) ∧ (op = .tgms → all (.tgmsBatch id)) ∧ (op = .tsacc → all (.tsaccPerform id))
    ∧ (op = .tst ∨ op = .tldac → all (.tileMove id)) ∧ (op = .tzero ∨ op = .ttr ∨ op = .tscl → all (.tileWholeOp id)))
  -- the units
  ∧ (∀ (w : TileCmd) t (a : State), a.team? t.id = some t → let i := c.pos
    let el (x : State) (k r j : Nat) : Word := ((x.team? t.id).map (fun m => m.elem k r j)).getD 0
    let only (x y : State) : Prop := y = { x with wk := { x.wk with teams := y.wk.teams } } ∧ (∀ k, k ≠ t.id → y.team? k = x.team? k)
      ∧ (y.team? t.id).map (fun m => { m with acc := [] }) = (x.team? t.id).map (fun m => { m with acc := [] })
    let row (x y : State) (k : Nat) (vs : List Nat) : Prop := only x y
      ∧ ∀ k' r j, j < 64 → el y k' r j = if k' = k ∧ r = i ∧ j < vs.length then BitVec.ofNat 32 (vs.getD j 0) else el x k' r j
    (∀ b, w.block = some b → tbN b ≤ 64 → let K := tbK b
      let N := tbN b
      (w.op = .tmm ∨ w.op = .tmmsp → a.tileUnits c w = .ok (tbM b) ∧ (w.op = .tmmsp → keptKs (w.metas.getD i 0) K = none → a.tileUnit c t w = .error ⟨2, 0, i, 0⟩)
        ∧ ∀ ks, (if w.op = .tmmsp then keptKs (w.metas.getD i 0) K else some (List.range K)) = some ks → ∀ av x bs y,
          readElems c b 0 ((if w.op = .tmmsp then List.range ks.length else ks).map (fun k => ((i : Int), k))) a = .ok (av, x) →
          readCols c b ks (List.range N) x = .ok (bs, y) → ∃ v : State, a.tileUnit c t w = .ok (i + 1, v)
          ∧ (tbBsc b = false → row y v (tbAcc b) (bs.zipIdx.map (fun p => productElem b ks av p.1 (el y (tbAcc b) i p.2).toNat)))
          ∧ (tbBsc b = true → only y v ∧ ∀ k r j, j < 64 → el v k r j = if tbPacc b ≤ k ∧ k < tbPacc b + K / 16 ∧ r = i ∧ j < bs.length
              then BitVec.ofNat 32 (partialElem b ks av (bs.getD j []) (k - tbPacc b)) else el y k r j))
      ∧ (w.op = .tsacc → a.tileUnits c w = .ok (tbM b) ∧ ∀ (A : Nat → Nat) (B : Nat → Nat → Nat) (st : Nat → Nat → State), st 0 0 = a →
          (∀ ch, ch < K / 16 → st (ch + 1) 0 = st ch (N + 1)
            ∧ (st ch 0).engNum c (recBits b 0x28 47 0 + i * recBits b 0x28 63 48 + ch) 1 = .ok (A ch, st ch 1)
            ∧ ∀ j, j < N → (st ch (j + 1)).engNum c (recBits b 0x30 47 0 + j * recBits b 0x30 63 48 + ch) 1 = .ok (B j ch, st ch (j + 2))) →
          ∃ v : State, a.tileUnit c t w = .ok (i + 1, v) ∧ row (st (K / 16) 0) v (tbAcc b) ((List.range N).map (fun j =>
            (List.range (K / 16)).foldl (fun r ch => scaledAdd r (el a (tbPacc b + ch) i j).toNat (A ch) (B j ch)) (el a (tbAcc b) i j).toNat)))
      ∧ (w.op = .tldac → a.tileUnits c w = .ok (tbM b) ∧ ∀ vs x, readElems c b 0 ((List.range N).map (fun j => ((i : Int), j))) a = .ok (vs, x) →
          ∃ v : State, a.tileUnit c t w = .ok (i + 1, v) ∧ row x v (tbAcc b) (vs.map (loadElem (tbFmt b 0))))
      ∧ (w.op = .tst → a.tileUnits c w = .ok (tbM b) ∧ ∀ n, moveBytes (tbFmt b 0) = some n →
          let place (j : Nat) : Except (BitVec 16) Place := a.engPlace c (tbSpace b 0) (tbRank b 0) (elemAt b 0 i j).1 n .write
          (∀ j f, j < N → (∀ k, k < j → ∃ p, place k = .ok p) → place j = .error f → a.tileUnit c t w = .error ⟨6, f.toNat, (elemAt b 0 i j).1, 1⟩)
          ∧ ((∀ j, j < N → ∃ p, place j = .ok p) → ∃ x y v : State, a.tileUnit c t w = .ok (i + 1, v)
            ∧ Each (fun j p q => ∃ d, place j = .ok d ∧ q = p.writeAt c d (elemAt b 0 i j).1 (bytesOf n (storeElem (tbFmt b 0) (t.elem (tbAcc b) i j).toNat)))
                (List.range N) a x
            ∧ y = { x with mm := { x.mm with poison := y.mm.poison, bad := y.mm.bad } } ∧ v = y.countTo c.id ((i + 1) * N * n)))
      ∧ (w.op = .tgms → (∀ f, a.pairList c b = .error f → a.tileUnits c w = .error f ∧ a.tileUnit c t w = .error f)
          ∧ ∀ n list x, a.pairList c b = .ok (n, list, x) → a.tileUnits c w = .ok n
          ∧ (i < n → let m := min 64 (n - i)
            (∀ (st : Nat → State) (cs : Nat → List Scatter), st 0 = x →
              (∀ k, k < m → (st k).pairReds c t w b list (i + k) = .ok (cs k, st (k + 1))) →
              ∃ v : State, a.tileUnit c t w = .ok (i + m, v) ∧ Each (fun z p q => q = p.sendScatter c z) ((List.range m).flatMap cs) (st m) v)
            ∧ ∀ (st : Nat → State) (cs : Nat → List Scatter) k f, k < m → st 0 = x →
              (∀ j, j < k → (st j).pairReds c t w b list (i + j) = .ok (cs j, st (j + 1))) → (st k).pairReds c t w b list (i + k) = .error f →
              a.tileUnit c t w = .error f))
      ∧ ∀ (x y : State) list p cs, x.pairReds c t w b list p = .ok (cs, y) → cs.length = N ∧ ∃ (out : Int) (av : List Nat) (bs : Nat → List Nat), -2 ^ 31 ≤ out ∧ out < 2 ^ 31 ∧ ∀ (j : Nat) z, cs[j]? = some z →
          z.addr = (((recBits b 0x28 47 0 : Int) + out * recBits b 0x20 63 32 + 4 * j) % 2 ^ 64).toNat
          ∧ z.red = { n := 0, grid := c.grid, ctx := c.ctx, team := t.id, thread := c.thread, core := c.core, index := t.index, issue := p,
                      det := some (w.epoch, BitVec.ofNat 40 (recBits b 0x38 39 0 + recBits b 0x28 63 48 * 2 ^ 26 + p)), opcode := 0, type := 0xC,
                      addr := z.red.addr, val := BitVec.ofNat 64 (productElem b (List.range K) av (bs j) 0), st := .flight })
    ∧ (w.block = none → w.op = .tzero ∨ w.op = .ttr ∨ w.op = .tscl → a.tileUnits c w = .ok 1 ∧ ∃ v : State, a.tileUnit c t w = .ok (1, v) ∧ only a v
      ∧ ∀ k r j, r < 64 → j < 64 → el v k r j = if k ≠ w.tile.toNat then el a k r j else if w.op = .tzero then 0 else if w.op = .ttr then el a k j r
          else BitVec.ofNat 32 (f32.mul 0 false (el a k r j).toNat w.val.toNat).1))
  ∧ (∀ (b : BitVec 512) (ks av bv : List Nat) (acc : Nat), (fmtOf (tbFmt b 0) = none → productElem b ks av bv acc = (((acc : Int) + ((av.zip bv).map (fun (p : Nat × Nat) => toSigned 8 p.1 * toSigned 8 p.2)).sum) % 2 ^ 32).toNat)
    ∧ ∀ f g, fmtOf (tbFmt b 0) = some f → fmtOf (tbFmt b 1) = some g → productElem b ks av bv acc = (List.range ((tbK b + 15) / 16)).foldl (fun a ch =>
        chunkAdd a (((ks.zip (av.zip bv)).filter (fun p => p.1 / 16 == ch)).map (fun p => prodVal (f.val p.2.1) (g.val p.2.2)))) acc)
  ∧ (∀ m k ks, let at_ (g n : Nat) : Nat := m.toNat / 2 ^ (4 * g + 2 * n) % 4
    keptKs m k = some ks ↔ (∀ g, g < k / 4 → at_ g 0 < at_ g 1) ∧ ks = (List.range (k / 4)).flatMap (fun g => [4 * g + at_ g 0, 4 * g + at_ g 1]))
  -- completion
  ∧ (∀ w, c.body = .tile w → (c.state ≠ .performed → does (.commandComplete id) s)
    ∧ (c.state = .performed → ∃ z a b d e g t : State, does (.commandComplete id) t
      ∧ (w.cmd.op ≠ .tgms → z = s) ∧ (w.cmd.op = .tgms → z = s.forceReds (fun x => x.det.isSome && c.team == some x.team && x.thread == c.thread))
      ∧ a = (if c.aborted then (z.countTo id c.body.destBytes).unowe c else z) ∧ b = { a with ctxs := b.ctxs }
      ∧ (∀ m, c.team = some m → d = { b with wk := { b.wk with teams := b.wk.teams.map (fun x => if x.id = m then
            { x with tprog := BitVec.ofNat 26 (if w.cmd.block.isSome then c.pos else 0) } else x) }, eng := { b.eng with cmds := b.eng.cmds.filter (fun x => x.id != id) } })
      ∧ (c.team = none → d = { b with eng := { b.eng with cmds := b.eng.cmds.filter (fun x => x.id != id) } })
      ∧ (∀ m h, c.team = some m → c.bar = some h → let global := w.cmd.op = .tgms ∨ (w.cmd.op = .tst ∧ ∃ p, w.cmd.block = some p ∧ tbSpace p 0 = 0)
          ∃ sc, (c.scope = 1 → global → sc = 2) ∧ (¬(c.scope = 1 ∧ global) → sc = c.scope.toNat) ∧ e = d.engineArrive c.core m h sc)
      ∧ (c.team = none ∨ c.bar = none → e = d) ∧ (c.batch = none → c.pkt = none → g = e.tryFrees)
      ∧ (c.team = none → c.batch = none → c.pkt = none → t = g) ∧ ∀ m, c.team = some m → c.batch = none → c.pkt = none → t = (g.drainWindow m 8).releaseBars m))
  -- expert queues
  ∧ (∀ xq entry cross, c.body = .token xq entry cross → s.canRun c = true → let q := u.xq xq
    let full := q.tokens.length
    (256 + recBits q.cfg 0x28 31 0 ≤ full → does (.tokenAccept id) s)
    ∧ (full < 256 + recBits q.cfg 0x28 31 0 → ∃ (v t : State) (at_ : Option Nat), does (.tokenAccept id) t ∧ v = { u with mm := v.mm, free := v.free }
      ∧ (full < 256 ∨ q.owner = none → v = u ∧ at_ = none)
      ∧ (256 ≤ full → ∀ o k, q.owner = some (o, k) → let n := q.spillAt % recBits q.cfg 0x28 31 0
          let w := u.writeVirt o (xq / 128) (recBits q.cfg 0x20 47 0 + 16 * n) 16 (bytesOf 16 entry.toNat)
          (∀ z, w = .ok z → v = z ∧ at_ = some n) ∧ ∀ f, w = .error f → v = { u with free := u.free + 1 } ∧ at_ = none)
      ∧ t = done { v with eng := { v.eng with xqs := t.eng.xqs, enqueued := v.eng.enqueued + 1 } } ∧ (∀ k, k ≠ xq → t.xq k = u.xq k)
      ∧ t.xq xq = { q with tokens := q.tokens ++ [⟨entry, s.timeAt (xq / 128), s.eng.enqueued, at_⟩],
                           spillAt := if 256 ≤ full then q.spillAt + 1 else q.spillAt }))
  ∧ (∀ lanes d p, c.body = .take lanes d p → s.canRun c = true → ((s.grid? c.grid).bind Grid.batch = none → does (.tokenTransfer id) (done u))
    ∧ ∀ xq fire, (s.grid? c.grid).bind Grid.batch = some (xq, fire) → let toks := (((s.xq xq).batches.find? (fun b => b.fire == fire)).map Batch.tokens).getD []
      ∃ v t : State, does (.tokenTransfer id) t
        ∧ Each (fun x a b => b = a.landCmd c x.1 (fun g => match toks[x.2]?, g with
            | some e, .reg n => BitVec.ofNat 32 (e.toNat / 2 ^ (32 * (n - d)))
            | none, .reg _ => 0
            | k, .pred _ => if k.isSome then 1 else 0)) lanes.zipIdx u v
        ∧ t = done { v with eng := { v.eng with xqs := t.eng.xqs } } ∧ (∀ k, k ≠ xq → t.xq k = u.xq k)
        ∧ t.xq xq = { u.xq xq with batches := (u.xq xq).batches.map (fun b => if b.fire = fire then { b with tokens := b.tokens.drop lanes.length } else b) })

/-- 18 R327, 19 R329 to R331, R341, R342, 20 R364, R365: the ageing of a window's oldest command, writes of RW_TABLE and TILE_PROG, and the
firing of expert queues. -/
def Obligations.WindowFiringResults : Prop := ∀ (s : State),
  (∀ m, s.team? m.id = some m → let aged (x : Team) (w : WinCmd) : Prop := w.entry + 32 ≤ s.clock.clk ∧ s.replayWaits x w = false
    ((∀ w, w ∈ m.window → w.due = true ∨ ¬aged m w) → exec (.windowAgeExpiry m.id) s = .next s)
    ∧ ((∃ w, w ∈ m.window ∧ w.due = false ∧ aged m w) → ∃ u t : State, exec (.windowAgeExpiry m.id) s = .next t
      ∧ u = { s with wk := { s.wk with teams := s.wk.teams.map (fun x => if x.id = m.id then { x with window := x.window.map (fun w =>
          if w.entry + 32 ≤ s.clock.clk ∧ s.replayWaits x w = false then { w with due := true } else w) } else x) } }
      ∧ t = u.drainWindow m.id m.window.length))
  ∧ (∀ m n, s.team? m.id = some m → m.window = [] → s.drainWindow m.id n = s)
  ∧ (∀ m w ws n, s.team? m.id = some m → m.window = w :: ws →
        let room := ((s.eng.cmds.filter (fun x => x.inQueue (.tile m.id))).length < 32 ∧ s.rewriteHeld m = false)
        (w.due = false ∨ ¬room → s.drainWindow m.id (n + 1) = s)
        ∧ (w.due = true → room → ∃ t : State, s.drainWindow m.id (n + 1) = t.drainWindow m.id n
          ∧ t = { s with wk := { s.wk with teams := t.wk.teams }, eng := { s.eng with cmds := t.eng.cmds, nextCmd := s.eng.nextCmd + 1, seqs := t.eng.seqs },
                               dbg := { s.dbg with stepping := t.dbg.stepping } } ∧ t.team? m.id = some { m with window := ws } ∧ (∀ k, k ≠ m.id → t.team? k = s.team? k)
          ∧ t.eng.cmds = s.eng.cmds ++ [
            { id := s.eng.nextCmd, queue := .tile m.id, seq := w.cmd.seq, ctx := m.ctx, die := m.core / 32, core := m.core,
              team := some m.id, thread := w.cmd.thread, grid := m.grid, pkt := none, pid := 0, batch := none,
              scope := (match w.cmd.block with
                | some b => BitVec.ofNat 3 (recBits b 0x18 42 40)
                | none => 1),
              bar := w.cmd.block.bind (fun b => if recBits b 0x18 43 43 = 1 then some (BitVec.ofNat 32 (recBits b 0x20 31 0)) else none),
              body := .tile w, state := .ready, pos := 0, counted := 0, begun := false, aborted := false }]))
  ∧ (∀ ctx die (v : BitVec 64), let base := 32 * (v.toNat / 2 ^ 5 % 2 ^ 43)
    let n := v.toNat / 2 ^ 48 % 2 ^ 7
    ∃ u w t : State, exec (.rwTableWrite ctx die v) s = .next t ∧ Each (fun m a b => b = a.flushWindow m.id) (s.wk.teams.filter (fun m => m.ctx == ctx && dieOf m.core == die)) s u
      ∧ t = { w with ctxs := t.ctxs } ∧ (∀ k d, 4 * k + d ≠ 4 * ctx + die → t.ctx k d = w.ctx k d)
      ∧ ∃ err bad, t.ctx ctx die = { w.ctx ctx die with rwTable := BitVec.ofNat 64 (base + n * 2 ^ 48 + err * 2 ^ 55 + bad * 2 ^ 56), rules := (t.ctx ctx die).rules }
        ∧ let fails := w = u ∧ err = 1 ∧ bad = 0xFF ∧ (t.ctx ctx die).rules = []
          (64 < n → fails) ∧ (n ≤ 64 → (∀ f, u.snapshot ctx die 32 base n = .error f → fails)
            ∧ ∀ bs x, u.snapshot ctx die 32 base n = .ok (bs, x) → let rule (k : Nat) : BitVec 256 := BitVec.ofNat 256 (ofBytes ((bs.drop (32 * k)).take 32))
              w = x ∧ err = 0 ∧ (∀ k, Table.look (t.ctx ctx die).rules k = if k < n ∧ rule k ≠ 0 then some (rule k) else none)
              ∧ ((∀ k, k < n → ruleValid (rule k) = true) → bad = 0xFF)
              ∧ ∀ k, k < n → ruleValid (rule k) = false → (∀ j, j < k → ruleValid (rule j) = true) → bad = k))
  ∧ (∀ team c w (v : BitVec 64), s.tileHead team = some c → c.body = .tile w → let n := v.toNat % 2 ^ 26
    let ok := ((∃ a b d o, c.state = .held a b d o) ∨ c.state = .paused) ∧ (∀ m, s.tileUnits c w.cmd = .ok m → n ≤ m) ∧ ∀ f, s.tileUnits c w.cmd = .error f → n ≤ c.pos
    (¬ok → exec (.tileProgWrite team v) s = .next s)
    ∧ (ok → exec (.tileProgWrite team v) s = .next { s with eng := { s.eng with cmds := s.eng.cmds.map (fun x => if x.id = c.id then { x with pos := n } else x) } }))
  ∧ (∀ die, let now := s.timeAt die
    let may := (∀ t, Table.look s.eng.fired die = some t → 250 ≤ s.clock.time - t) ∧ s.pkg.domLive die = true ∧ s.xquHeld die = false
    let r := s.reconfigure die
    let ps := (s.eng.xqs.filter (fun (e : Nat × XQueue) => e.1 / 128 == die)).flatMap (fun (e : Nat × XQueue) => s.fe.pkts.filter (fun p => e.2.due.contains p.id))
    (ps = [] → r = s)
    ∧ (ps ≠ [] → Each (fun p a b => let k := p.bits.toNat / 2 ^ (8 * 0x10) % 2 ^ 9
        b = { a with eng := { a.eng with xqs := b.eng.xqs }, fe := { a.fe with pkts := a.fe.pkts.map (fun x => if x.id = p.id then { x with ended := true } else x) } }
        ∧ (∀ j, j ≠ k → b.xq j = a.xq j) ∧ b.xq k = { a.xq k with cfg := p.cfg, members := p.members, owner := some ((a.queue p.queue).ctx.toNat, p.queue), due := (a.xq k).due.filter (· != p.id) })
        ps { s with eng := { s.eng with fired := Table.put s.eng.fired die s.clock.time } } r)
    ∧ (¬may → exec (.firingSlot die) s = .next s)
    ∧ (may →
    let old (q : XQueue) : Option Token := q.tokens.head?
    let expired (q : XQueue) : Prop := ∃ t, old q = some t ∧ recBits q.cfg 8 19 0 ≤ now - t.time
    let ready (k : Nat) (q : XQueue) : Prop := (k, q) ∈ r.eng.xqs ∧ k / 128 = die ∧ recBits q.cfg 0 21 21 = 1 ∧ q.tokens ≠ [] ∧ q.batches.length < 2
      ∧ (recBits q.cfg 0 8 0 ≤ q.tokens.length ∨ expired q)
    let older (p q : XQueue) : Prop := ∃ a b, old p = some a ∧ old q = some b ∧ a.order < b.order
    let first (p q : XQueue) : Prop := (expired p ∧ ¬expired q) ∨ (expired p ∧ expired q ∧ older p q)
      ∨ (¬expired p ∧ ¬expired q ∧ (recBits q.cfg 0 20 18 < recBits p.cfg 0 20 18 ∨ (recBits p.cfg 0 20 18 = recBits q.cfg 0 20 18 ∧ older p q)))
    ((∀ k q, ¬ready k q) → exec (.firingSlot die) s = .next r)
    ∧ ((∃ k q, ready k q) → ∃ k q, ready k q ∧ (∀ j p, ready j p → ¬first p q)
      ∧ (r.roomFor q.members = false ∨ q.owner = none → exec (.firingSlot die) s = .next r)
      ∧ ∀ ctx feq, r.roomFor q.members = true → q.owner = some (ctx, feq) → let n := min q.tokens.length (recBits q.cfg 0 17 9)
        ∃ u t v : State, exec (.firingSlot die) s = .next t
          ∧ u = { v with eng := { v.eng with xqs := u.eng.xqs, fired := u.eng.fired }, fe := { v.fe with nextP := r.fe.nextP + 1 }, ctxs := u.ctxs }
          ∧ Table.look u.eng.fired die = some s.clock.time ∧ (∀ j, j ≠ k → u.xq j = r.xq j)
          ∧ (∃ rest, u.xq k = { q with tokens := rest, fires := q.fires + 1, batches := q.batches ++ [⟨q.fires, q.members.map (fun m => pktTagOf m.bits),
                (q.tokens.take n).map Token.entry, q.members.length⟩] }
            ∧ rest.length = q.tokens.length - n ∧ rest.drop 256 = (q.tokens.drop n).drop 256
            ∧ Each (fun (x : Token × Token) a b => (x.1.spilled = none → x.2 = x.1 ∧ b = a)
                ∧ ∀ m, x.1.spilled = some m → let rd := a.readVirt ctx die (recBits q.cfg 0x20 47 0 + 16 * m) 16 16
                  (∀ bs c, rd = .ok (bs, c) → x.2 = { x.1 with entry := BitVec.ofNat 128 (ofBytes bs), spilled := none } ∧ b = c)
                  ∧ ∀ f, rd = .error f → x.2 = { x.1 with spilled := none } ∧ b = { a with free := a.free + 1 })
              (((q.tokens.drop n).take 256).zip rest) r v)
          ∧ Each (fun x a b => b = a.fireMember ⟨feq, r.fe.nextP, (s.queue feq).seq, ctx, now, some (k, q.fires)⟩ die x.2 x.1) q.members.zipIdx u t)))
  ∧ (∀ (a : State) o die m x, (∀ y b, a.checkMember o.ctx die (a.queue o.queue).ceil.toNat m x.bits = .ok (y, b) → a.fireMember o die m x = b.startItem o m y)
    ∧ ∀ f, a.checkMember o.ctx die (a.queue o.queue).ceil.toNat m x.bits = .error f → ∃ d, f.detail.all (· == d) = true
      ∧ a.fireMember o die m x = (a.drew.itemError o.queue o.seq o.pkt m o.batch f.code 0 0 d).itemDone o m)
  ∧ ∀ xq, let q := s.xq xq
    ((∀ b, b ∈ q.batches → b.left ≠ 0) → exec (.batchComplete xq) s = .next s)
    ∧ ∀ b, q.batches.find? (fun x => x.left == 0) = some b → ∃ t : State, exec (.batchComplete xq) s = .next t
      ∧ t = { s with eng := { s.eng with xqs := t.eng.xqs } } ∧ (∀ k, k ≠ xq → t.xq k = s.xq k)
      ∧ t.xq xq = { q with batches := q.batches.filter (fun x => x.fire != b.fire) }

/-! ### Events of debugging -/

/-- 27 R430, R436 to R447, R449, 31 R493, R494: a debug command is refused without a live token and its rights, ends with STATUS 2 where it is
malformed, and otherwise has its effect. How long a stop takes, that a waiting warp's step ends as blocked, and which registers are malformed are
the model's readings (log entries 23, 36, 37). -/
def Obligations.DebugResults : Prop := ∀ (s : State), let m := s.dbg.mailbox
  let a0 := m.a0.toNat
  let fin (a : State) (st : Nat) : State := { a with dbg := { a.dbg with mailbox :=
    { a.dbg.mailbox with status := BitVec.ofNat 8 st, seqDone := a.dbg.mailbox.seq, busy := false } } }
  let cmds : List (Instr × Nat × Nat) := [(.stop, 1, 1), (.resume, 2, 1), (.step, 3, 1), (.setWatch, 4, 1), (.clrWatch, 5, 1), (.brkEn, 6, 1), (.readReg, 7, 2),
    (.readMem, 8, 2), (.writeReg, 9, 3), (.traceCfg, 10, 4), (.replay, 11, 4), (.sampleCfg, 12, 8), (.delegate, 13, 0), (.revoke, 14, 0)]
  (∀ e k r, (e, k, r) ∈ cmds → (m.busy = false ∨ m.cmd.toNat ≠ k → exec e s = .next s)
    ∧ (m.busy = true → m.cmd.toNat = k → (∀ c, c ∈ s.dbg.caps → c.token = m.token → m.token = 0) ∨
        (∃ c, s.dbg.cap? m.token = some c ∧ ¬∀ j, j < 4 → Nat.testBit r j = true → Nat.testBit c.rights.toNat j = true) → exec e s = .next (fin s 1)))
  ∧ (∀ tok x, x ∈ s.dbg.family tok ↔ ∃ l : List Word, l.head? = some tok ∧ l.getLast? = some x
      ∧ ∀ (j : Nat) a b, l[j]? = some a → l[j + 1]? = some b → ∃ c, c ∈ s.dbg.caps ∧ c.token = b ∧ c.parent = some a)
  ∧ (∀ ctx v t th, s.tsel ctx v = some (t, th) → t ∈ s.wk.teams ∧ t.ctx = ctx ∧ t.core = 32 * (v.toNat % 4) + v.toNat / 4 % 32 ∧ t.index = v.toNat / 2 ^ 32
      ∧ t.freed = false ∧ t.thread? (v.toNat / 2 ^ 16 % 2 ^ 16) = some th ∧ th.alive = true ∧ v.toNat / 2 ^ 7 % 2 ^ 9 = 0)
  ∧ (∀ ctx sc, let k := a0 % 8
      let d := a0 / 2 ^ 4 % 4
      s.scopeOf ctx m = some sc ↔ a0 < 512 ∧ k ≤ 4 ∧ m.a2 = 0 ∧ m.a3 = 0 ∧ (2 ≤ k → m.a1 = 0) ∧ (k = 2 ∨ k = 3 → s.pkg.domLive d = true)
        ∧ (k = 0 → ∃ t th, s.tsel ctx m.a1 = some (t, th) ∧ sc = ⟨[], [], (((t.warpOf? th.ltid).map (fun w => w.lanes.filterMap id)).getD [th.ltid]).map (fun n => (t.id, n))⟩)
        ∧ (k = 1 → ∃ t th, s.tsel ctx m.a1 = some (t, th) ∧ sc = ⟨[], [t.id], []⟩)
        ∧ (k = 2 → sc = ⟨(List.range 4).map (fun j => 32 * d + 4 * (a0 / 2 ^ 6 % 8) + j), [], []⟩)
        ∧ (k = 3 → sc = ⟨(List.range 32).map (fun j => 32 * d + j), [], []⟩) ∧ (k = 4 → sc = ⟨List.range 128, [], []⟩))
  ∧ ∀ c, m.busy = true → s.dbg.cap? m.token = some c →
  let has (r : Nat) : Prop := ∀ j, j < 4 → Nat.testBit r j = true → Nat.testBit c.rights.toNat j = true
  let now (k r : Nat) : Prop := m.cmd.toNat = k ∧ has r
  let bad (e : Instr) : Prop := exec e s = .next (fin s 2)
  let ok (e : Instr) (a : State) : Prop := exec e s = .next (fin a 0)
  let warps (sc : Scope) : List (Nat × Nat) := s.warpsIn c.target sc
  let held (f : Team → Nat → Bool) (g : Team → Warp → Thread → Thread) (k : Nat × Nat) (a b : State) : Prop :=
    b = { a with wk := { a.wk with teams := b.wk.teams }, ctxs := b.ctxs } ∧ (∀ j, j ≠ k.1 → b.team? j = a.team? j)
    ∧ ∀ t w n x, a.team? k.1 = some t → t.warp? k.2 = some w → a.thread? k.1 n = some x → ∃ y, b.thread? k.1 n = some y
      ∧ (some n ∈ w.lanes → f t n = true → y = { g t w x with halt := y.halt }) ∧ (¬(some n ∈ w.lanes ∧ f t n = true) → y = { x with halt := y.halt })
  -- STOP, RESUME, STEP
  (now 1 1 → (s.scopeOf c.target m = none → bad .stop) ∧ ∀ sc, s.scopeOf c.target m = some sc → ∃ a b : State,
      Each (fun k a b => b = { a with wk := { a.wk with teams := a.wk.teams.map (fun t => if t.id = k.1 then { t with warps := t.warps.map (fun w =>
        if w.id = k.2 ∧ (∀ h, h ∈ w.stop → c.token ∉ h.caps) ∧ (∃ l, l ∈ t.live w ∧ c.token ∉ l.2.frozen) then
          { w with stop := w.stop ++ [⟨0, [c.token], s.clock.clk, 0, false⟩] } else w) } else t) } }) (warps sc) s a
      ∧ (let d : Drain := ⟨c.token, c.target, sc.cores, sc.teams, sc.threads, !sc.cores.isEmpty, [], []⟩
        b = if Nat.testBit a0 3 = true ∧ d ∉ s.dbg.drains then { a with dbg := { s.dbg with drains := s.dbg.drains ++ [d] } } else a)
      ∧ (let frozen := ∀ k t w l, k ∈ warps sc → b.team? k.1 = some t → t.warp? k.2 = some w → l ∈ t.live w → c.token ∈ l.2.frozen
        (frozen → ok .stop b) ∧ (¬frozen → exec .stop s = .next b)))
  ∧ (∀ (a : State) team warp (p : Halt → Bool) t w, a.team? team = some t → t.warp? warp = some w → let b := a.haltWarp team warp p
      (w.stop.filter p = [] → b = a)
      ∧ ∀ h hs, w.stop.filter p = h :: hs → b = { a with wk := { a.wk with teams := b.wk.teams }, ctxs := b.ctxs, mm := b.mm }
        ∧ b.mm = { a.mm with loads := a.mm.loads.filter (fun l => !(l.team == team && l.rcv.any (fun n => w.lanes.contains (some n)))) }
        ∧ (∀ j, j ≠ team → b.team? j = a.team? j) ∧ ∃ t', b.team? team = some t'
        ∧ t'.warps = t.warps.map (fun x => if x.id = warp then { x with stop := x.stop.filter (fun h => !p h) } else x)
        ∧ ∀ n x, t.thread? n = some x → ∃ y, t'.thread? n = some y ∧ (some n ∉ w.lanes → y = x)
          ∧ (some n ∈ w.lanes → y = { x.land with
            frozen := dedup (x.frozen ++ (h.caps ++ hs.flatMap Halt.caps)), halt := if t.frozen w then x.halt else h.source }))
  ∧ (now 2 1 → (s.scopeOf c.target m = none → bad .resume) ∧ ∀ sc, s.scopeOf c.target m = some sc → ∃ a t : State, ok .resume t
      ∧ Each (fun k a b => held (fun t n => sc.holds t n) (fun _ _ x => { x with frozen := x.frozen.filter (fun y => !(s.dbg.family c.token).contains y) }) k a b
        ∧ ∀ t t', a.team? k.1 = some t → b.team? k.1 = some t' → t'.warps = t.warps.map (fun w => if w.lanes.any (fun o => o.any (sc.holds t)) then
            { w with stop := (w.stop.map (fun h => { h with caps := h.caps.filter (fun y => !(s.dbg.family c.token).contains y) })).filter (fun h => !h.caps.isEmpty) }
          else w)) (warps sc) s a
      ∧ t = { a with dbg := { a.dbg with drains := t.dbg.drains } }
      ∧ (let core (n : Nat) : Bool := (s.team? n).any (fun m => sc.cores.contains m.core)
        let cut (d : Drain) : Drain := ⟨d.token, d.ctx, d.cores.filter (fun k => !sc.cores.contains k), d.teams.filter (fun n => !sc.teams.contains n && !core n),
          d.threads.filter (fun n => !sc.threads.contains n && !sc.teams.contains n.1 && !core n.1), d.fe,
          dedup (d.freeTeams ++ sc.teams), dedup (d.freeThreads ++ sc.threads)⟩
        t.dbg.drains = (s.dbg.drains.map (fun d => if d.token ∈ s.dbg.family c.token ∧ d.ctx = c.target then cut d else d)).filter
          (fun d => !(d.cores.isEmpty && d.teams.isEmpty && d.threads.isEmpty))))
  ∧ (now 3 1 → (∀ p, s.dbg.stepping = some p → (s.stepResult p = none → exec .step s = .next s)
        ∧ ∀ r, s.stepResult p = some r → ∃ a : State, ok .step a ∧ a = { s with wk := { s.wk with teams := a.wk.teams }, ctxs := a.ctxs, dbg := a.dbg }
          ∧ a.dbg = { s.dbg with stepping := none, mailbox := { m with a0 := BitVec.ofNat 64 r, a1 := a.dbg.mailbox.a1, a2 := match p.tseqs with
              | [] => BitVec.allOnes 64
              | n :: _ => BitVec.ofNat 64 n } })
      ∧ (s.dbg.stepping = none → (2 ≤ a0 ∨ m.a2 ≠ 0 ∨ m.a3 ≠ 0 ∨ s.tsel c.target m.a1 = none → bad .step)
        ∧ ∀ t th, a0 < 2 → m.a2 = 0 → m.a3 = 0 → s.tsel c.target m.a1 = some (t, th) →
          ((∀ w, t.warpOf? th.ltid = some w → t.frozen w = false) → bad .step)
          ∧ ∀ w, t.warpOf? th.ltid = some w → t.frozen w = true → ∃ x : State, exec .step s = .next x
            ∧ x = { s with
                wk := { s.wk with teams := s.wk.teams.map (fun y => if y.id = t.id then { y with threads := y.threads.map (fun z =>
                  if some z.ltid ∈ w.lanes then { z with frozen := dedup (z.frozen ++ [c.token]) } else z) } else y) },
                dbg := { s.dbg with stepping := some ⟨c.token, t.id, th.ltid, Nat.testBit a0 0, w.id, t.nextW, t.nextT, [], [], [], false, w.lanes.filterMap id⟩ } }))
  ∧ (∀ (p : Stepping) t, s.team? p.team = some t → let r := s.stepResult p
      let of (th : Thread) : Prop := th ∈ t.threads ∧ th.ltid ∈ p.ids ∧ th.alive = true
      let trapped := ∃ n k, n ∈ p.ids ∧ t.trapOf n = some k ∧ p.nextT0 ≤ k
      let early := p.issued = false ∧ ∃ th, of th ∧ th.wait = .run
      let asks := ∃ w, w ∈ t.warps ∧ (∃ n, n ∈ p.ids ∧ some n ∈ w.lanes) ∧ (w.want ≠ [] ∨ w.redo ≠ [] ∨ ∃ l, l ∈ t.live w ∧ l.2.faults ≠ [])
      let bar := ∃ th h k pc n, of th ∧ th.wait = .bwait h k pc n
      let region := ∃ th, of th ∧ ((∃ n, th.wait = .join n) ∨ (∃ pc n, th.wait = .rgp pc n) ∨ th.wait = .tret)
      let owes := ∃ th q, of th ∧ q ∈ th.pend ∧ ∀ n, q.src ≠ .fixed n
      let left := t.windowed p.tseqs = false
      let whole := p.whole = true ∧ (p.made ≠ [] ∨ p.tseqs ≠ [])
      let hung := ∃ x a b d o, x ∈ s.stepCmds p ∧ x.state = .held a b d o
      (trapped → r = some 3) ∧ (¬trapped → early ∨ asks → r = none)
      ∧ (¬trapped → ¬early → ¬asks → (bar → r = some 1) ∧ (¬bar → region → r = some 2)
        ∧ (¬bar → ¬region → (whole → hung → r = some 7)
          ∧ (¬(whole ∧ hung) → (owes → r = none) ∧ (¬owes →
            (whole → (s.stepCmds p = [] ∧ left → r = some 6) ∧ (¬(s.stepCmds p = [] ∧ left) → r = none))
            ∧ (¬whole → (p.tseqs = [] → r = some 0)
              ∧ (p.tseqs ≠ [] → (¬left → r = none) ∧ (left → (∃ n, n ∈ p.tseqs ∧ n ∈ p.took) → r = some 4) ∧ (left → (∀ n, n ∈ p.tseqs → n ∉ p.took) → r = some 5))))))))
  -- SET_WATCH, CLR_WATCH, BRK_EN
  ∧ (let die := a0 / 2 ^ 3 % 4
      let key := 8 * (8 * die + a0 / 2 ^ 5 % 8) + a0 % 8
      let taken := ∃ w, Table.look s.dbg.watches key = some w ∧ Nat.testBit w.lo.toNat 60 = true ∧ w.hi.toNat % 2 ^ 8 ≠ c.target
      let lg := m.a1.toNat / 2 ^ 53 % 2 ^ 4
      let form := a0 < 256 ∧ s.pkg.domLive die = true ∧ m.a1.toNat < 2 ^ 62 ∧ m.a2.toNat < 256 ∧ m.a3 = 0 ∧ lg ≤ 12 ∧ m.a1.toNat % 2 ^ 48 % 2 ^ lg = 0
        ∧ m.a1.toNat / 2 ^ 48 % 8 < 2
      let clr := a0 < 256 ∧ s.pkg.domLive die = true ∧ m.a1 = 0 ∧ m.a2 = 0 ∧ m.a3 = 0
      let table (w : Table Watch) : State := { s with dbg := { s.dbg with watches := w } }
      (now 4 1 → (¬form → bad .setWatch) ∧ (form → taken ∨ m.a2.toNat ≠ c.target → exec .setWatch s = .next (fin s 1))
        ∧ (form → ¬taken → m.a2.toNat = c.target → ∃ w, ok .setWatch (table w) ∧ ∀ k, Table.look w k = if k = key then some ⟨m.a1, m.a2, c.token⟩ else Table.look s.dbg.watches k))
      ∧ (now 5 1 → (¬clr → bad .clrWatch) ∧ (clr → taken → exec .clrWatch s = .next (fin s 1))
        ∧ (clr → ¬taken → ∃ w, ok .clrWatch (table w) ∧ ∀ k, Table.look w k = if k = key then none else Table.look s.dbg.watches k))
      ∧ (now 6 1 → let form := a0 < 2 ∧ m.a1 = 0 ∧ m.a2 = 0 ∧ m.a3 = 0
        (¬form → bad .brkEn) ∧ (form → ∃ w, ok .brkEn { s with dbg := { s.dbg with brks := w } } ∧ ∀ k t, t ∈ Table.read [] w k ↔
          if k = c.target then (a0 = 1 ∧ (t = c.token ∨ t ∈ Table.read [] s.dbg.brks k)) else t ∈ Table.read [] s.dbg.brks k)))
  -- READ_REG, READ_MEM, WRITE_REG
  ∧ (now 7 2 → (s.tsel c.target m.a1 = none → bad .readReg) ∧ ∀ t th, s.tsel c.target m.a1 = some (t, th) → let kind := a0 % 2 ^ 8
      let ix := a0 / 2 ^ 8 % 2 ^ 8
      let owed (g : Target) := ∃ p n, p ∈ th.pend ∧ p.tgt = g ∧ p.src = .cmd n
      let x : State := { s with mm := { s.mm with loads := s.mm.loads.filter (fun l => !(l.team == t.id && l.rcv.contains th.ltid)) } }
      let is (v : Nat) : Prop := ok .readReg { x with dbg := { s.dbg with mailbox := { m with a0 := BitVec.ofNat 64 v } } }
      (2 ^ 16 ≤ a0 ∨ 6 < kind ∨ (kind ≠ 5 ∧ m.a2 ≠ 0) ∨ m.a3 ≠ 0 → bad .readReg)
      ∧ (a0 < 2 ^ 16 → m.a3 = 0 → (m.a2 = 0 → (kind = 0 → (th.nreg ≤ ix → bad .readReg) ∧ (ix < th.nreg → (owed (.reg ix) → exec .readReg s = .next x)
            ∧ (¬owed (.reg ix) → is (th.final (.reg ix)).toNat)))
          ∧ (kind = 1 → ((∃ k, k < 7 ∧ owed (.pred k)) → exec .readReg s = .next x) ∧ ((∀ k, k < 7 → ¬owed (.pred k)) → ∃ v, is v ∧ v < 2 ^ 8 ∧ Nat.testBit v 7 = true
            ∧ ∀ k, k < 7 → Nat.testBit v k = (th.final (.pred k) != 0)))
          ∧ (kind = 2 → is th.flags.toNat) ∧ (kind = 3 → is th.pc.toNat) ∧ (kind = 4 → is th.tcfg.toNat)
          ∧ (kind = 6 → (ix = 0x08 → ¬has 1 → exec .readReg s = .next (fin s 1)) ∧ (sysReadable ix = false → bad .readReg)
            ∧ (sysReadable ix = true → (ix = 0x08 → has 1) → is (x.sysColumn c.target t.core t.id ix).toNat)))
        ∧ (kind = 5 → (t.trapOf th.ltid = none ∨ s.bufOk m.a2.toNat 256 = false → bad .readReg) ∧ ∀ r, t.trapOf th.ltid = some r → s.bufOk m.a2.toNat 256 = true →
            ok .readReg (x.writeHome m.a2.toNat ((List.range 256).map (fun k => Table.read 0 (t.frame r) k))))))
  ∧ (now 8 2 → let space := a0 % 8
      let die := a0 / 2 ^ 6 % 4
      let off := m.a1.toNat
      let n := m.a2.toNat
      let form := a0 / 2 ^ 13 % 2 ^ 19 = 0 ∧ space ≤ 3 ∧ s.pkg.domLive die = true ∧ 1 ≤ n ∧ n ≤ 2 ^ 20 ∧ s.bufOk m.a3.toNat n = true
      let team (t : Team) : Prop := s.wk.teams.find? (fun t => t.ctx == c.target && t.core == 32 * die + a0 / 2 ^ 8 % 2 ^ 5 && t.index == a0 / 2 ^ 32 && !t.freed) = some t
      let put (bs : List Byte) (gap : Option Nat) (x : State) : Prop := ∃ y z : State, ok .readMem z ∧ y = x.writeHome m.a3.toNat bs
        ∧ z = { y with dbg := { y.dbg with mailbox := { y.dbg.mailbox with a0 := if gap.isNone then 1 else 0, a1 := BitVec.ofNat 64 (gap.getD (2 ^ 64 - 1)) } } }
      (¬form → bad .readMem)
      ∧ (form → (space = 0 → let r := s.peek c.target die off n
          put r.1.reverse r.2.1 r.2.2)
        ∧ (space = 1 ∨ space = 2 → (∀ t, ¬team t) → bad .readMem)
        ∧ (space = 1 → ∀ t, team t → (s.spadSize t < off + n → bad .readMem) ∧ (off + n ≤ s.spadSize t → put (t.spadBytes off n) none s))
        ∧ (space = 2 → ∀ t, team t → (16384 < off + n ∨ s.accumOf t ≤ a0 / 2 ^ 3 % 8 → bad .readMem)
          ∧ (off + n ≤ 16384 → a0 / 2 ^ 3 % 8 < s.accumOf t → put ((List.range n).map (fun k =>
              BitVec.ofNat 8 ((t.elem (a0 / 2 ^ 3 % 8) ((off + k) / 256) ((off + k) / 4 % 64)).toNat / 2 ^ (8 * ((off + k) % 4))))) none s))
        ∧ (space = 3 → (2 ^ 28 < off + n → bad .readMem) ∧ (off + n ≤ 2 ^ 28 → put ((List.range n).map (fun k => s.wsByte die (off + k))) none s))))
  ∧ (now 9 3 → (s.tsel c.target m.a1 = none → bad .writeReg) ∧ ∀ t th, s.tsel c.target m.a1 = some (t, th) → let kind := a0 % 2 ^ 8
      let ix := a0 / 2 ^ 8 % 2 ^ 8
      let v := m.a2.toNat
      let set (f : Thread → Thread) : Prop := ok .writeReg (s.updThread t.id th.ltid f)
      let poked (f : Thread → Thread) (g : Target) (x : Word) : Prop := ∀ y, (f y).final g = x ∧ (∀ k, k ≠ g → (f y).final k = y.final k)
      (2 ^ 16 ≤ a0 ∨ (4 < kind ∧ a0 ≠ 0x0806) ∨ m.a3 ≠ 0 ∨ th.frozen = [] → bad .writeReg)
      ∧ (a0 < 2 ^ 16 → m.a3 = 0 → th.frozen ≠ [] →
        (kind = 0 → (th.nreg ≤ ix ∨ 2 ^ 32 ≤ v → bad .writeReg) ∧ (ix < th.nreg → v < 2 ^ 32 →
            (th.owes (.reg ix) = true → exec .writeReg s = .next (s.landThreads t.id [th.ltid]))
            ∧ (th.owes (.reg ix) = false → ∃ f, set f ∧ poked f (.reg ix) (BitVec.ofNat 32 v))))
        ∧ (kind = 1 → (256 ≤ v → bad .writeReg) ∧ (v < 256 → ((∃ k, k < 7 ∧ th.owes (.pred k) = true) → exec .writeReg s = .next (s.landThreads t.id [th.ltid]))
            ∧ ((∀ k, k < 7 → th.owes (.pred k) = false) → ∃ f, set f ∧ ∀ y, (∀ k, k < 7 → ((f y).final (.pred k) != 0) = Nat.testBit v k)
              ∧ ∀ k, (f y).final (.reg k) = y.final (.reg k))))
        ∧ (kind = 2 → (64 ≤ v → bad .writeReg) ∧ (v < 64 → set (fun x => { x with flags := BitVec.ofNat 6 v })))
        ∧ (kind = 3 → (2 ^ 48 ≤ v → bad .writeReg) ∧ (v < 2 ^ 48 → ok .writeReg (s.pokePc t th (BitVec.ofNat 48 v))))
        ∧ (a0 = 0x0806 → ok .writeReg (s.writeTileProg t.id m.a2))
        ∧ (kind = 4 → (v / 8 ≠ th.tcfg.toNat / 8 → bad .writeReg) ∧ (v / 8 = th.tcfg.toNat / 8 → set (fun x => { x with tcfg := BitVec.ofNat 32 v })))))
  -- TRACE_CFG, REPLAY, SAMPLE_CFG
  ∧ (let old := s.ctx c.target a0
      let sets (e : Instr) (r : CtxReg) : Prop := ∃ x : State, ok e x ∧ x = { s with ctxs := x.ctxs } ∧ x.ctx c.target a0 = r
        ∧ ∀ k d, 4 * k + d ≠ 4 * c.target + a0 → x.ctx k d = s.ctx k d
      let n := m.a1.toNat
      (now 10 4 → (4 ≤ a0 ∨ s.pkg.domLive a0 = false ∨ 2 ^ 32 ≤ m.a3.toNat → bad .traceCfg)
        ∧ (a0 < 4 → s.pkg.domLive a0 = true → m.a3.toNat < 2 ^ 32 → sets .traceCfg { old with
            traceCtl := BitVec.ofNat 64 (n % 2 + (if n / 2 % 4 = 3 then old.traceCtl.toNat / 2 % 4 else n / 2 % 4) * 2 + n / 2 ^ 4 % 2 ^ 9 * 2 ^ 4),
            traceRing := BitVec.ofNat 64 (m.a2.toNat % 2 ^ 6 + m.a2.toNat / 2 ^ 12 % 2 ^ 36 * 2 ^ 12), traceRidx := BitVec.ofNat 32 m.a3.toNat, traceCap := some c.token }))
      ∧ (now 12 8 → (4 ≤ a0 ∨ s.pkg.domLive a0 = false ∨ m.a2 ≠ 0 ∨ m.a3 ≠ 0 → bad .sampleCfg)
        ∧ (a0 < 4 → s.pkg.domLive a0 = true → m.a2 = 0 → m.a3 = 0 → sets .sampleCfg { old with
            sampleCtl := BitVec.ofNat 64 (n % 2 + (if 4 ≤ n / 2 % 2 ^ 5 ∧ n / 2 % 2 ^ 5 ≤ 20 then n / 2 % 2 ^ 5 else old.sampleCtl.toNat / 2 % 2 ^ 5) * 2 + n / 2 ^ 6 % 2 * 2 ^ 6
              + (if 8 ≤ n / 2 ^ 7 % 2 ^ 5 ∧ n / 2 ^ 7 % 2 ^ 5 ≤ 20 then n / 2 ^ 7 % 2 ^ 5 else old.sampleCtl.toNat / 2 ^ 7 % 2 ^ 5) * 2 ^ 7), sampleCap := some c.token })))
  ∧ (now 11 4 → let q := a0 % 2 ^ 7
      let k := m.a2.toNat
      let rest := s.dbg.replays.filter (fun r => !(r.ctx == c.target && r.queue == q))
      (256 ≤ a0 ∨ m.a3 ≠ 0 ∨ 65536 < k → bad .replay)
      ∧ (m.a3 = 0 → k ≤ 65536 → (a0 < 128 → ok .replay { s with dbg := { s.dbg with replays := rest } })
        ∧ (128 ≤ a0 → a0 < 256 → (s.bufOk m.a1.toNat (64 * k) = false → bad .replay)
          ∧ (s.bufOk m.a1.toNat (64 * k) = true → ∃ (x : State) (hs : List (BitVec 512)), ok .replay { x with dbg := { s.dbg with replays := rest ++ [⟨c.target, q, hs⟩] } }
            ∧ hs.length = k ∧ x = { s with mm := x.mm } ∧ (s.Settled → x.mm.cells = s.mm.cells ∧ ∀ (j : Nat) h, hs[j]? = some h → h.toNat = ofBytes (s.mm.bytes (m.a1.toNat + 64 * j) 64))))))
  -- DELEGATE, REVOKE
  ∧ (now 13 0 → let rights := a0 % 16
      let form := a0 < 2 ^ 16 ∧ a0 / 16 % 16 = 0 ∧ m.a1 = 0 ∧ m.a2 = 0 ∧ m.a3 = 0
      (¬form → bad .delegate) ∧ (form → ¬has rights → exec .delegate s = .next (fin s 1))
      ∧ (form → has rights → ∃ tok, ok .delegate { s.drew with dbg := { s.dbg with
            tokens := tok :: s.dbg.tokens, mailbox := { m with a0 := BitVec.ofNat 64 tok.toNat },
            caps := s.dbg.caps ++ [⟨tok, c.target, a0 / 2 ^ 8, BitVec.ofNat 4 rights, some c.token⟩] } }
        ∧ (s.dbg.tokens.length + 1 < 2 ^ 32 → tok ≠ 0 ∧ tok ∉ s.dbg.tokens)))
  ∧ (now 14 0 → let tok := BitVec.ofNat 32 a0
      let form := a0 < 2 ^ 32 ∧ m.a1 = 0 ∧ m.a2 = 0 ∧ m.a3 = 0
      let dead := s.dbg.family tok
      (¬form → bad .revoke) ∧ (form → s.dbg.cap? tok = none ∨ tok ∉ s.dbg.family c.token → exec .revoke s = .next (fin s 1))
      ∧ (form → s.dbg.cap? tok ≠ none → tok ∈ s.dbg.family c.token → ∃ x : State, ok .revoke x
        ∧ x = { s with dbg := x.dbg, ctxs := x.ctxs, wk := { s.wk with teams := x.wk.teams } }
        ∧ (∀ y, y ∈ x.dbg.caps ↔ y ∈ s.dbg.caps ∧ y.token ∉ dead) ∧ (∀ y, y ∈ x.dbg.watches ↔ y ∈ s.dbg.watches ∧ y.2.cap ∉ dead)
        ∧ (∀ t w h, t ∈ x.wk.teams → w ∈ t.warps → (∃ n, some n ∈ w.lanes) → h ∈ w.stop → ∀ k, k ∈ h.caps → k ∉ dead)
        ∧ (∀ y, y ∈ x.dbg.drains ↔ y ∈ s.dbg.drains ∧ y.token ∉ dead) ∧ (∀ y, x.dbg.stepping = some y ↔ s.dbg.stepping = some y ∧ y.token ∉ dead)
        ∧ (∀ k d, (∀ t, (s.ctx k d).traceCap = some t → t ∈ dead → Nat.testBit (x.ctx k d).traceCtl.toNat 0 = false)
          ∧ (∀ t, (s.ctx k d).sampleCap = some t → t ∈ dead → Nat.testBit (x.ctx k d).sampleCtl.toNat 0 = false ∧ Nat.testBit (x.ctx k d).sampleCtl.toNat 6 = false)
          ∧ (((∀ t, (s.ctx k d).traceCap = some t → t ∉ dead) → (x.ctx k d).traceCtl = (s.ctx k d).traceCtl)))
        ∧ ∀ k n a, s.thread? k n = some a → ∃ b, x.thread? k n = some b ∧ b = { a with frozen := b.frozen, halt := b.halt }
          ∧ ((∃ t w, s.team? k = some t ∧ w ∈ t.warps ∧ t.warp? w.id = some w ∧ some n ∈ w.lanes) → b.frozen = a.frozen.filter (fun y => !dead.contains y))))

/-! ### Events of traces, time and links -/

/-- 27 R428, R429, R431, R448; 30 R472, R473, R481 to R486: trace records reach their ring, samples are taken, timebases are aligned, and
links sleep, wake, fail and lose dies. The reason of a sample of a ready warp is open, and so is the step forward that R429 allows; the
offset of an exchange is the model's (log entry 14), and so is OCLASS of four dies in a path (log entry 28). -/
def Obligations.TraceTimeLinkResults : Prop := ∀ (s : State),
  let does (e : Instr) (t : State) : Prop := exec e s = .next t
  let now := BitVec.ofNat 64 (s.timeAt s.pkg.master)
  let logged (a b : State) (byte8 kind byte10 byte11 : Nat) : Prop := let base := a.pkg.dctl.logBase.toNat
    let p := base + 16 * (a.pkg.dctl.logIdx.toNat % 256)
    (base = 0 → b = a) ∧ (base ≠ 0 → b = { a with mm := b.mm, pkg := { a.pkg with dctl := { a.pkg.dctl with logIdx := a.pkg.dctl.logIdx + 1 } } }
      ∧ (a.Settled → base % 4096 = 0 → a.pkg.backed p = true → a.pkg.backed (p + 8) = true → ∀ x, b.mm.byte x = if p ≤ x ∧ x < p + 16 then
          BitVec.ofNat 8 ((a.timeAt a.pkg.master % 2 ^ 64 + byte8 * 2 ^ 64 + kind * 2 ^ 72 + byte10 * 2 ^ 80 + byte11 * 2 ^ 88) / 2 ^ (8 * (x - p)))
        else a.mm.byte x))
  -- trace rings
  (∀ ctx die, let e := Instr.traceRecordWrite ctx die
    let r := s.ctx ctx die
    let sets (a t : State) (q : CtxReg) : Prop := t = { a with ctxs := t.ctxs } ∧ t.ctx ctx die = q
      ∧ ∀ k d, 4 * k + d ≠ 4 * ctx + die → t.ctx k d = a.ctx k d
    (r.recs = [] → does e s)
    ∧ ∀ x rest, r.recs = x :: rest → let n := if x.wide then 2 else 1
      let lg := r.traceRing.toNat % 2 ^ 6
      let mode := r.traceCtl.toNat / 2 % 4
      let on := 7 ≤ lg ∧ lg ≤ 26
      let room := (r.traceWidx - r.traceRidx).toNat + n ≤ 2 ^ lg
      let lost : Prop := ∃ t, does e t ∧ sets s t { r with recs := rest, traceLost := true }
      let bits := x.bits.toNat + if r.traceLost then 2 ^ 10 else 0
      let slot (a : State) (k : Nat) := a.writeFresh ctx die (r.traceRing.toNat / 2 ^ 12 % 2 ^ 36 * 2 ^ 12 + 32 * ((r.traceWidx.toNat + k) % 2 ^ lg))
        (bytesOf 32 (bits / 2 ^ (256 * k)))
      let wrote (a : State) : Prop := ∃ t, does e t
        ∧ sets a t { r with recs := rest, traceLost := false, traceWidx := r.traceWidx + BitVec.ofNat 32 n }
      (¬on → lost) ∧ (on → ¬room → (mode = 2 → does e s) ∧ (mode ≠ 1 → mode ≠ 2 → lost))
      ∧ (on → room ∨ mode = 1 → (∀ c, slot s 0 = .error c → lost) ∧ ∀ a, slot s 0 = .ok a → (n = 1 → wrote a)
        ∧ (n = 2 → (∀ c, slot a 1 = .error c → lost) ∧ ∀ b, slot a 1 = .ok b → wrote b)))
  -- stall samples
  ∧ (∀ core ctx, let e := Instr.stallSample core ctx
    let c := s.core core
    let ctl := (s.ctx ctx (dieOf core)).sampleCtl.toNat
    let due := Nat.testBit ctl 6 = true ∧ 2 ^ (ctl / 2 ^ 7 % 2 ^ 5) ≤ s.clock.clk - Table.read 0 c.taken ctx
    let n := Table.read 0 c.robin ctx
    let ws := (s.wk.teams.filter (fun t => t.core == core && t.ctx == ctx && t.slot.isSome)).flatMap (fun t => t.warps.map (fun w => (t, w)))
    let counted (u : State) : Prop := u = { s with cores := u.cores } ∧ (∀ k, k ≠ core → u.core k = s.core k)
      ∧ u.core core = { c with taken := Table.put c.taken ctx s.clock.clk, robin := Table.put c.robin ctx (n + 1) }
    (¬due → does e s) ∧ (due → ws = [] → ∃ u, does e u ∧ counted u)
    ∧ (due → ∀ t w, ws[n % ws.length]? = some (t, w) → ∃ (u v : State) (m : Nat), counted u ∧ does e v
      ∧ (let issued := c.cycle = s.clock.clk ∧ ∃ p, p ∈ t.live w ∧ p.2.lastIssue = s.clock.clk
        (t.slot ≠ some c.active → m = 11) ∧ (t.slot = some c.active → (issued → m = 0)
          ∧ (¬issued → (u.stall t w ≠ 0 → m = u.stall t w % 2 ^ 32) ∧ (u.stall t w = 0 → m ∈ [0, 8]))))
      ∧ (s.traces ctx (dieOf core) rStall = false → v = { u with free := s.free + 1 })
      ∧ (s.traces ctx (dieOf core) rStall = true → let live := t.lanesOf w
        let pc := (live.head?.map (fun l => l.th.pc.toNat)).getD 0
        v = { u with free := s.free + 1, ctxs := v.ctxs } ∧ (∀ k d, 4 * k + d ≠ 4 * ctx + dieOf core → v.ctx k d = s.ctx k d)
        ∧ v.ctx ctx (dieOf core) = { s.ctx ctx (dieOf core) with recs := (s.ctx ctx (dieOf core)).recs ++ [⟨BitVec.ofNat 512 (0x0F
            + core % 32 / 4 * 2 ^ 12 + core % 4 * 2 ^ 15 + dieOf core * 2 ^ 17 + ctx % 256 * 2 ^ 24 + m * 2 ^ 32 + s.timeAt (dieOf core) % 2 ^ 64 * 2 ^ 64
            + pc * 2 ^ 128 + laneMask live % 2 ^ 64 * 2 ^ 192), false, some (t.id, w.id), s.warpThreads (some (t.id, w.id))⟩] })))
  -- alignment of timebases
  ∧ (let y := s.clock.sync
    let sync (z : Sync) : State := { s with clock := { s.clock with sync := z } }
    (∀ port, let follows := y.role.toNat = port + 2 ∧ (s.port port).up = true
      (¬follows → does (.ptpSync port) s ∧ ∀ t, does (.ptpFollowUp port t) s ∧ does (.ptpDelayResp port t) s)
      ∧ (follows → does (.ptpSync port) (sync { y with t2 := now })
        ∧ ∀ t, does (.ptpFollowUp port t) (sync { y with t1 := t, t3 := now, sent := y.sent ++ [(2, port, now)] })
          ∧ (let off : Int := (((y.t2.toNat : Int) - y.t1.toNat) - ((t.toNat : Int) - y.t3.toNat)) / 2
            let z := { y with t4 := t, offset := BitVec.ofInt 32 (max (-2 ^ 31) (min (2 ^ 31 - 1) off)) }
            ∃ jump : Bool, (jump = true → off < 0 ∧ s.clock.launched = false ∧ y.stepped = false)
              ∧ does (.ptpDelayResp port t) { s with
                free := s.free + 1
                clock := { s.clock with
                  time := s.clock.time + if jump then off.natAbs else 0
                  sync := if off.natAbs ≤ 50 then { z with close := y.close + 1, locked := y.locked || decide (8 ≤ y.close + 1), stepped := y.stepped || jump }
                    else { z with close := 0, locked := false, stepped := y.stepped || jump } } }))
      ∧ does (.ptpDelayReq port) (if y.role = 1 ∧ (s.port port).up = true then sync { y with sent := y.sent ++ [(3, port, now)] } else s))
    ∧ does .syncIntervalExpiry (if y.role = 1 ∧ 2 ^ y.interval.toNat * 1000000 ≤ s.clock.time - y.lastSync then
        sync { y with sent := y.sent ++ ([0, 1].filter (fun k => (s.port k).up)).flatMap (fun k => [(0, k, now), (1, k, now)]), lastSync := s.clock.time } else s))
  -- links
  ∧ (∀ k, let l := s.link k
    let sets (a t : State) (x : Link) : Prop := t = { a with pkg := { a.pkg with links := t.pkg.links } } ∧ t.link k = x ∧ ∀ j, j ≠ k → t.link j = a.link j
    let idle := l.up = true ∧ l.asleep = false ∧ s.pkg.dctl.linkIdle ≠ 0 ∧ 1000 * s.pkg.dctl.linkIdle.toNat ≤ s.clock.time - l.flit
    (¬idle → does (.linkIdleExpiry k) s)
    ∧ (idle → ∃ t, does (.linkIdleExpiry k) t ∧ sets s t { l with asleep := true, retries := 0, since := none })
    ∧ sets s (s.startWake k) (if l.asleep = true ∧ l.since = none ∧ s.linkWanted k = true then { l with since := some s.clock.time } else l)
    ∧ (l.asleep = false ∨ l.since = none → does (.linkWake k) s)
    ∧ (l.asleep = true → l.since ≠ none → ∃ t, does (.linkWake k) t ∧ sets s t { l with asleep := false, retries := 0, since := none, flit := s.clock.time })
    ∧ (let late := ∃ t, l.since = some t ∧ 4000 * (l.retries + 1) ≤ s.clock.time - t
      (l.asleep = false ∨ 3 ≤ l.retries ∨ ¬late → does (.wakeRetry k) s)
      ∧ (l.asleep = true → l.retries < 3 → late → ∃ a t, does (.wakeRetry k) t ∧ logged s a (k % 4) 1 (l.retries + 1) 0 ∧ sets a t { l with retries := l.retries + 1 }))
    ∧ (l.up = false → does (.heartbeat k) s) ∧ (l.up = true → ∃ t, does (.heartbeat k) t ∧ sets s t { l with heard := s.clock.time })
    ∧ (l.up = false ∨ s.clock.time - l.heard < 1000000 → does (.heartbeatLost k) s)
    ∧ (l.up = true → 1000000 ≤ s.clock.time - l.heard → ∃ (a b t : State) (f : Nat), f < 4 ∧ does (.heartbeatLost k) t ∧ logged s a (k % 4) 2 0 0
      ∧ sets a b { l with up := false, asleep := false, retries := 0, since := none }
      ∧ t = { b with free := b.free + 1, pkg := { b.pkg with enumOrder := b.pkg.order b.pkg.links f } }))
  -- ENUM_ORDER
  ∧ (∀ (p : Pkg) (links : Table Link) (free : Nat), let n := [0, 1, 2, 3].countP (fun k => Nat.testBit p.enumDies.toNat (4 + k))
    let up (k : Nat) : Prop := (Table.read Link.reset links (k % 4)).up = true
    let way (a n : Nat) : Prop := ∀ j, j < n → up (a + j) ∧ Nat.testBit p.enumDies.toNat (4 + (a + j) % 4) = true
    let v := (p.order links free).toNat
    v / 2 ^ 40 = 4 ∧ v / 2 ^ 2 % 2 ^ 6 = 0
    ∧ (n ≤ 1 → v % 4 = 0) ∧ (n = 2 → v % 4 = 1) ∧ (n = 3 → v % 4 = 2) ∧ (n = 4 → (up 0 ∧ up 1 ∧ up 2 ∧ up 3) → v % 4 = 3)
    ∧ ∀ a b, a < 4 → b < 4 → let h := v / 2 ^ (8 + 2 * (4 * a + b)) % 4
      let x := p.physOf a
      let y := p.physOf b
      (a = b ∨ p.domLive a = false ∨ p.domLive b = false → h = 0)
      ∧ (a ≠ b → p.domLive a = true → p.domLive b = true → x ≠ y → let m := (y + 4 - x) % 4
        (way x m → h ≤ m) ∧ (way y (4 - m) → h ≤ 4 - m) ∧ ((way x m ∨ way y (4 - m)) → (h = m ∧ way x m) ∨ (h = 4 - m ∧ way y (4 - m)))))
  -- the loss of a die
  ∧ (∀ phys, let e := Instr.dieDeclaredDead phys
    (s.canLose phys = none → does e s)
    ∧ ∀ d, s.canLose phys = some d → s.pkg.domLive d = true ∧ s.pkg.physOf d = phys ∧ ((s.link phys).up = false ∨ (s.link ((phys + 3) % 4)).up = false)
      ∧ 2 ≤ s.pkg.doms.length ∧ ∃ t : State, does e t ∧ t.clock.time = s.clock.time ∧ t.pkg.bootRecs = s.pkg.bootRecs ∧ t.pkg.windows = s.pkg.windows
        ∧ t.pkg.enumDies = (s.pkg.without d).enumDies ∧ t.pkg.enumSlices = (s.pkg.without d).enumSlices ∧ t.pkg.master = (s.pkg.without d).master
        ∧ t.pkg.dctl.dieStat = s.pkg.dctl.dieStat ||| BitVec.ofNat 8 (3 * 2 ^ (2 * phys))
        ∧ t.pkg.msis.getLast? = some s.pkg.dctl.mcVec
        ∧ (s.pkg.master = d → t.clock.sync = { s.clock.sync with locked := false, offset := 0, close := 0 })
        ∧ (s.pkg.master ≠ d → t.clock.sync = s.clock.sync)
        ∧ (∀ m, m ∈ t.wk.teams → dieOf m.core ≠ d) ∧ (∀ c, c ∈ t.eng.cmds → c.die ≠ d) ∧ (∀ c, c ∈ t.mm.near → c.die ≠ d) ∧ (∀ w, w ∈ t.mm.wbs → dieOf w.core ≠ d)
        ∧ (∀ m g, m ∈ t.wk.teams → s.grid? m.grid = some g → (∃ sh, sh ∈ g.shares ∧ sh.dom = d ∧ sh.lo < sh.hi) → m.ended = true)
        ∧ (∀ i, Table.look t.mm.l1 i ≠ none → dieOf i ≠ d))
  ∧ (∀ (p : Pkg) (d : Nat), let q := p.without d
    let phys := p.physOf d
    Nat.testBit p.enumDies.toNat (4 + phys) = true → 1 ≤ p.enumDies.toNat / 2 ^ 8 % 8 →
        (∀ k, k < 4 → q.physOf k = p.physOf k) ∧ q.nboot = p.nboot
        ∧ (∀ k, k < 4 → Nat.testBit q.enumDies.toNat (4 + k) = (decide (k ≠ phys) && Nat.testBit p.enumDies.toNat (4 + k)))
        ∧ q.enumDies.toNat / 2 ^ 8 % 8 = p.enumDies.toNat / 2 ^ 8 % 8 - 1
        ∧ (p.master = d → ∀ m, m < 4 → q.domLive m = true → q.master < 4 ∧ q.domLive q.master = true ∧ q.master ≤ m))

/-! ### Events of boot, resets and alarms -/

/-- 31 R499 to R502, R505, R506; 30 R472 to R474, R488: what power-on, the resets, the alarms and the boot sequence leave. Which instance of
a step passes, and the memory that a die finds, are open (log entry 8); when a method is tried is the model's reading (log entry 35). -/
def Obligations.BootResetResults : Prop := ∀ (s : State),
  let does (e : Instr) (t : State) : Prop := exec e s = .next t
  let hard (x : State) (step : Nat) : State := { State.reset with
    inputs := x.inputs
    free := x.free
    clock := { Clock.reset with time := x.clock.time, dieReset := x.clock.time }
    pkg := { Pkg.reset with
      present := x.pkg.present
      enumDies := BitVec.ofNat 64 (2 ^ x.pkg.present - 1)
      bootRecs := x.pkg.bootRecs
      boot := .due step
      boots := x.pkg.boots
      alarmCfg := x.pkg.alarmCfg
      alarmN := x.pkg.alarmN
      keyStore := x.pkg.keyStore } }
  let logged (a b : State) (byte8 kind byte10 byte11 : Nat) : Prop := let base := a.pkg.dctl.logBase.toNat
    let p := base + 16 * (a.pkg.dctl.logIdx.toNat % 256)
    (base = 0 → b = a) ∧ (base ≠ 0 → b = { a with mm := b.mm, pkg := { a.pkg with dctl := { a.pkg.dctl with logIdx := a.pkg.dctl.logIdx + 1 } } }
      ∧ (a.Settled → base % 4096 = 0 → a.pkg.backed p = true → a.pkg.backed (p + 8) = true → ∀ x, b.mm.byte x = if p ≤ x ∧ x < p + 16 then
          BitVec.ofNat 8 ((a.timeAt a.pkg.master % 2 ^ 64 + byte8 * 2 ^ 64 + kind * 2 ^ 72 + byte10 * 2 ^ 80 + byte11 * 2 ^ 88) / 2 ^ (8 * (x - p)))
        else a.mm.byte x))
  let alarm (x y : State) (cls die : Nat) : Prop := let act := x.pkg.alarmCfg.toNat / 4 ^ cls % 4
    ∃ a, logged x a die 5 cls act ∧ let u : State := { a with pkg := { a.pkg with alarmN := a.pkg.alarmN + 1 } }
      (act = 0 → y = u) ∧ (act = 1 → y = hard u 1) ∧ (2 ≤ act → y = { hard u 1 with pkg := { (hard u 1).pkg with keyStore := false } })
  let rec_ (x : State) (k i : Nat) : BitVec 128 := Table.read 0 x.pkg.bootRecs (4 * k + i)
  let field (r : BitVec 128) (byte : Nat) : Nat := r.toNat / 2 ^ (8 * byte) % 2 ^ 8
  let methods (k : Nat) : Nat := if k = 3 then 4 else if k = 6 then 3 else if k = 2 ∨ k = 8 ∨ k = 9 then 2 else 1
  -- instance `i` of step `k` has run: method `m` was the last, `n` verifications or trainings failed, and the record is `new`
  let tried (old new : BitVec 128) (k i : Nat) (ok : Nat → Bool) (n : Nat) : Prop :=
    let m0 := if field old 1 = 1 then min (field old 3 + 1) (methods k - 1) else 0
    ∃ m, m0 ≤ m ∧ m < methods k ∧ (k ≠ 2 → k ≠ 9 → m = m0) ∧ (∀ j, m0 ≤ j → j < m → ok j = false)
      ∧ (ok m = false → k = 2 ∨ k = 9 → m + 1 = methods k) ∧ n = m - m0 + (if ok m then 0 else 1)
      ∧ new = BitVec.ofNat 128 (k + (if ok m then (if m = 0 then 0 else 3) else 1) * 2 ^ 8
          + (if ok m = true ∧ m = 0 then 1 else m + 1 - m0 + if field old 1 = 1 then field old 2 else 0) % 2 ^ 8 * 2 ^ 16
          + m * 2 ^ 24 + i * 2 ^ 32 + s.timeAt s.pkg.master % 2 ^ 64 * 2 ^ 64)
  let ran (t : State) (k i : Nat) (ok : Nat → Bool) : Prop := ∃ n, tried (rec_ s k i) (rec_ t k i) k i ok n
  let skipped (t : State) (k i : Nat) : Prop := rec_ t k i = BitVec.ofNat 128 (k + 2 * 2 ^ 8 + i * 2 ^ 32 + s.timeAt s.pkg.master % 2 ^ 64 * 2 ^ 64)
  let pass (t : State) (k i : Nat) : Bool := field (rec_ t k i) 1 == 0 || field (rec_ t k i) 1 == 3
  -- resets and alarms
  does .powerOnReset { State.reset with
    inputs := s.inputs
    free := s.free
    pkg := { Pkg.reset with
      present := s.pkg.present
      enumDies := BitVec.ofNat 64 (2 ^ s.pkg.present - 1)
      boots := s.pkg.boots
      keyStore := s.pkg.keyStore } }
  ∧ does .porstN (hard s 1)
  ∧ does .wrstN { hard s 4 with pkg := { (hard s 4).pkg with ports := s.pkg.ports, hostUp := s.pkg.hostUp } }
  ∧ (∀ die, (∃ t, does (.railFault die) t ∧ alarm s t 0 (die % 4)) ∧ (∃ t, does (.temperatureAlarm die) t ∧ alarm s t 1 (die % 4))
    ∧ does (.thermtrip die) { s with pkg := { s.pkg with clocksOff := true } })
  ∧ (∃ t, does .tamperN t ∧ alarm s t 2 0)
  ∧ does .bootRecordClear { s with pkg := { s.pkg with bootRecs := [] } }
  -- one instance of a step
  ∧ (∀ (links dies : List Nat) (go : Bool) (k i : Nat) (ok : Nat → Bool), let r := BootRun.runOne ⟨s, links, dies, go⟩ k i ok
    r.2.links = links ∧ r.2.dies = dies ∧ (∀ j, j ≠ 4 * k + i → Table.read 0 r.2.s.pkg.bootRecs j = Table.read 0 s.pkg.bootRecs j)
    ∧ (i < 4 → k < 10 → r.1 = pass r.2.s k i ∧ ∃ n, tried (rec_ s k i) (rec_ r.2.s k i) k i ok n
      ∧ let bad := if k = 2 ∨ k = 9 then n else 0
        let u : State := { s with pkg := { s.pkg with bootRecs := r.2.s.pkg.bootRecs, verFails := s.pkg.verFails + bad } }
        (3 ≤ s.pkg.verFails ∨ s.pkg.verFails + bad < 3 → r.2.s = u ∧ r.2.go = go)
        ∧ (s.pkg.verFails < 3 → 3 ≤ s.pkg.verFails + bad → alarm u r.2.s 3 0
          ∧ r.2.go = (go && s.pkg.alarmCfg.toNat / 4 ^ 3 % 4 == 0))))
  -- the dies that stay live
  ∧ (∀ (links dies : List Nat) (d : Nat), dies.Sublist [0, 1, 2, 3] → (d ∈ liveDies links dies ↔ d ∈ dies ∧ ∃ p : List Nat,
      p.head? = dies.head? ∧ p.getLast? = some d ∧ (∀ x, x ∈ p → x ∈ dies) ∧ ∀ (j : Nat) a b, p[j]? = some a → p[j + 1]? = some b →
        ∃ k, k ∈ links ∧ ((k = a ∧ b = (k + 1) % 4) ∨ (k = b ∧ a = (k + 1) % 4))))
  -- PERST_N
  ∧ (s.pkg.boot ≠ .done → does .perstN s)
  ∧ (s.pkg.boot = .done → ∃ t : State, does .perstN t ∧ ran t 3 0 (Config.bootPass s.pkg.boots 3 0) ∧ (∀ j, j ≠ 12 → Table.read 0 t.pkg.bootRecs j = Table.read 0 s.pkg.bootRecs j)
    ∧ t = { s with pkg := { s.pkg with
        msix := []
        msis := []
        hostData := []
        boots := s.pkg.boots + 1
        bootRecs := t.pkg.bootRecs
        hostUp := pass t 3 0 } })
  -- boot
  ∧ ((∀ step, s.pkg.boot ≠ .due step) → does .boot s)
  ∧ (∀ step, s.pkg.boot = .due step → s.pkg.present ∈ [1, 2, 4] → ∃ t : State, does .boot t ∧ t.clock.time = s.clock.time ∧ t.inputs = s.inputs
    ∧ t.pkg.boots = s.pkg.boots + 1 ∧ t.pkg.present = s.pkg.present ∧ t.pkg.boot ∈ [.done, .stopped, .due 1]
    ∧ (let n := s.pkg.boots
      let ok (k i : Nat) := Config.bootPass n k i
      (step ≤ 1 → ran t 1 0 (ok 1 0) ∧ (pass t 1 0 = false → t.pkg.boot = .stopped))
      ∧ (step ≤ 1 → pass t 1 0 = false ∨ (ran t 2 0 (ok 2 0) ∧ (pass t 2 0 = false → t.pkg.boot = .stopped)))
      ∧ (step = 2 → ran t 2 0 (ok 2 0) ∧ (pass t 2 0 = false → t.pkg.boot = .stopped))
      ∧ (t.pkg.boot = .done → let dies := List.range s.pkg.present
        let links := (if s.pkg.present = 4 then [0, 1, 2, 3] else if s.pkg.present = 2 then [0] else [] : List Nat)
        let up := links.filter (pass t 4)
        let after (m : Nat) : List Nat := (List.range m).foldl (fun (x : List Nat) d => if field (rec_ t 9 d) 1 = 1 then liveDies up (x.filter (· != d)) else x)
          (liveDies up (dies.filter (fun d => pass t 5 d && pass t 6 d && pass t 7 d)))
        let live := after s.pkg.present
        live ≠ [] ∧ t = { s with mm := t.mm, dbg := t.dbg, pkg := t.pkg, free := t.free }
        ∧ (if step ≤ 3 then ran t 3 0 (ok 3 0) ∧ t.pkg.hostUp = pass t 3 0 else t.pkg.hostUp = s.pkg.hostUp)
        ∧ (∀ k, k ∈ links → ran t 4 k (ok 4 k)) ∧ (∀ k, t.link k = if k ∈ up then ⟨true, false, 0, s.clock.time, s.clock.time, none⟩ else Link.reset)
        ∧ (∀ d, d ∈ dies → ran t 5 d (ok 5 d)
          ∧ (if pass t 5 d then ran t 6 d (fun m => ok 6 d m && decide (2 ^ 30 ≤ Config.installed d)) else skipped t 6 d)
          ∧ (if pass t 6 d then ran t 7 d (ok 7 d) else skipped t 7 d)
          ∧ (if d ∈ after d then ran t 9 d (ok 9 d) else skipped t 9 d))
        ∧ (∀ k, k < 2 → if (s.port k).up then skipped t 8 k ∧ t.port k = s.port k
            else ran t 8 k (ok 8 k) ∧ t.port k = { s.port k with up := pass t 8 k, rate := pass t 8 k && field (rec_ t 8 k) 3 == 1 })
        ∧ t.pkg.master = 0 ∧ (∃ f, f < 4 ∧ t.pkg.enumOrder = t.pkg.order t.pkg.links f)
        ∧ (∀ d, d < 4 → t.pkg.dctl.dieStat.toNat / 4 ^ d % 4 = if d < s.pkg.present then (if d ∈ live then 1 else 2) else 0)
        ∧ (let v := t.pkg.enumDies.toNat
          v % 2 ^ 4 = 2 ^ s.pkg.present - 1 ∧ (∀ d, d < 4 → Nat.testBit v (4 + d) = live.contains d) ∧ v / 2 ^ 8 % 8 = live.length ∧ v / 2 ^ 11 % 8 = live.length
          ∧ v / 2 ^ 14 % 4 = 0 ∧ (∀ i, i < 4 → v / 2 ^ (16 + 2 * i) % 4 = live.getD i 0) ∧ v / 2 ^ 24 = 0)
        ∧ (let v := t.pkg.enumSlices.toNat
          v % 2 ^ 32 = 2 ^ (8 * live.length) - 1 ∧ v / 2 ^ 32 % 2 = (if live.length = 2 ∨ live.length = 4 then 1 else 0) ∧ v / 2 ^ 33 % 2 ^ 6 = 36 ∧ v / 2 ^ 44 = 0
          ∧ (t.pkg.dlog < 32 → v / 2 ^ 39 % 2 ^ 5 = t.pkg.dlog) ∧ t.pkg.dlog ≤ 36 ∧ (∀ d, d ∈ live → 2 ^ t.pkg.dlog ≤ Config.installed d)
          ∧ (t.pkg.dlog < 36 → ∃ d, d ∈ live ∧ Config.installed d < 2 ^ (t.pkg.dlog + 1)))
        ∧ ∀ c, c < 256 → ∃ cap, cap ∈ t.dbg.caps ∧ cap.target = c ∧ cap.holder = c ∧ cap.rights = 15 ∧ cap.parent = none)))

/-! ### Packed, flag and floating forms -/

/-- 06 R119 to R123: packed elements, the dot product, and narrowing shifts. -/
def Obligations.PackedResults : Prop := ∀ (s : State) (e : Enc),
  let ty := typeOf 0x10 e
  let w := if ty = 0x10 then 16 else 8
  let sg := !Nat.testBit e.x.aux.toNat 0
  let el (w n i : Nat) : Nat := n / 2 ^ (w * i) % 2 ^ w
  let a (l : Lane) : Nat := l.src 1 e.a.toNat
  let b (op : Op) (l : Lane) : Nat := l.opB op e 1 3
  let pairs (op : Op) (f : Int → Int → Int) : Prop := (ty = 0x10 ∨ ty = 0x16) → ∃ r : Lane → Nat × BitVec 6,
    s.Results op e (fun l => toRegs e.d 1 (r l).1) (fun l => (r l).2) ∧ ∀ l,
      let v (i : Nat) : Int := f (readInt sg w (el w (a l) i)) (readInt sg w (el w (b op l) i))
      (e.x.sat = 0 → (r l).2 = 0 ∧ ∀ i, i < 32 / w → (2 ^ w : Int) ∣ v i - el w (r l).1 i)
      ∧ (e.x.sat = 1 → (∀ i, i < 32 / w → readInt sg w (el w (r l).1 i) = clampInt sg w (v i))
        ∧ (r l).2 = if ∀ i, i < 32 / w → clampInt sg w (v i) = v i then 0 else fSAT)
  pairs .add2 (· + ·) ∧ pairs .sub2 (· - ·) ∧ pairs .mul2 (· * ·)
  ∧ (∃ r : Lane → Nat × BitVec 6, s.Results .mac2 e (fun l => toRegs e.d 1 (r l).1) (fun l => (r l).2) ∧ ∀ l,
      Narrowed 8 true (toSigned 32 (l.src 1 e.x.c.toNat) + toSigned 16 (el 16 (a l) 0) * toSigned 16 (el 16 (b .mac2 l) 0)
        + toSigned 16 (el 16 (a l) 1) * toSigned 16 (el 16 (b .mac2 l) 1)) (r l))
  ∧ (let td := typeOf 7 e
    (td = 7 ∨ td = 2 ∨ td = 6 ∨ td = 1) → e.x.rnd.toNat < 6 → ∃ (q : Lane → Int) (r : Lane → Nat × BitVec 6),
      s.Results .shrn e (fun l => toRegs e.d 1 (r l).1) (fun l => (r l).2) ∧ ∀ l,
        Rounded e.x.rnd.toNat (toSigned 32 (a l)) (b .shrn l) (q l) ∧ Narrowed td true (q l) (r l))
  ∧ (let td := typeOf 7 e
    let n := if td = 0x10 then 2 else 4
    let w := 32 / n
    (td = 0x10 ∨ td = 0x16) → e.x.rnd.toNat < 6 → ∃ (q : Lane → Nat → Int) (r : Lane → Nat × BitVec 6),
      s.Results .shrn e (fun l => toRegs e.d 1 (r l).1) (fun l => (r l).2) ∧ ∀ l,
        (∀ k, k < n → Rounded e.x.rnd.toNat (toSigned 32 (el 32 (l.src n e.a.toNat) k)) (b .shrn l) (q l k)
          ∧ toSigned w (el w (r l).1 k) = clampInt true w (q l k))
        ∧ (r l).2 = if ∀ k, k < n → clampInt true w (q l k) = q l k then 0 else fSAT)
  ∧ (∃ r : Lane → Nat × BitVec 6, s.Results .pk2 e (fun l => toRegs e.d 1 (r l).1) (fun l => (r l).2) ∧ ∀ l,
      (e.x.sat = 0 → r l = (el 16 (a l) (e.x.aux.toNat % 2) + 2 ^ 16 * el 16 (b .pk2 l) (e.x.aux.toNat / 2 % 2), 0))
      ∧ (e.x.sat = 1 → let x := clampInt true 16 (toSigned 32 (a l))
        let y := clampInt true 16 (toSigned 32 (b .pk2 l))
        toSigned 16 (el 16 (r l).1 0) = x ∧ toSigned 16 (el 16 (r l).1 1) = y
        ∧ (r l).2 = if x = toSigned 32 (a l) ∧ y = toSigned 32 (b .pk2 l) then 0 else fSAT))
  ∧ (∃ r : Lane → Nat, s.Results .unpk e (fun l => toRegs e.d 1 (r l)) (fun _ => 0) ∧ ∀ l,
      let w := if ty = 0x10 ∨ ty = 0x11 ∨ ty = 0x12 then 16 else if ty = 0x15 then 4 else 8
      let x := el w (a l) e.x.aux.toNat
      r l < 2 ^ 32 ∧ if ty = 0x10 ∨ ty = 0x16 then toSigned 32 (r l) = toSigned w x else r l = x)

/-- 06 R126 to R128, R130, R131; 02 R29 to R32, R36 to R38, R41, R45: the floating forms of pipe A: every one that issues answers a next
state that holds its result, which is the exact value rounded once, the smaller or larger operand, the class or an integral value. -/
def Obligations.FloatResults : Prop := ∀ (s : State) (e : Enc),
  let f := fmtIn 0xC e
  let rnd := e.x.rnd.toNat
  let sat := e.x.sat == 1
  let ty := typeOf 0xC e
  let a (l : Lane) : Nat := l.src 1 e.a.toNat
  let b (op : Op) (l : Lane) : Nat := l.opB op e 1 3
  let x (l : Lane) : FVal := f.val (a l)
  let y (op : Op) (l : Lane) : FVal := f.val (b op l)
  let gives (op : Op) (p : Lane → FRes → Prop) : Prop := ∃ r : Lane → FRes,
    s.Results op e (fun l => toRegs e.d 1 (r l).1) (fun l => (r l).2) ∧ ∀ l, p l (r l)
  let signs (op : Op) (g : Bool → Bool) : Prop := ∃ r : Lane → Nat, s.Results op e (fun l => toRegs e.d 1 (r l)) (fun _ => 0)
    ∧ ∀ l j, j < 32 → Nat.testBit (r l) j =
      if ty = 0xA ∨ ty = 0xB then decide (j < 16) && (if j = 15 then g (Nat.testBit (a l) j) else Nat.testBit (a l) j)
      else if j = 31 ∨ (ty ≠ 0xC ∧ j = 15) then g (Nat.testBit (a l) j) else Nat.testBit (a l) j
  -- an operand that the other one does not precede, -0 being below +0
  let picks (op : Op) (before : FVal → FVal → Bool) : Prop := gives op (fun l r => let u := x l
    let v := y op l
    r.2 = (if u = .nan true ∨ v = .nan true then fNV else 0)
    ∧ (u.isNan = true → v.isNan = true → r.1 = f.nan) ∧ (u.isNan = true → v.isNan = false → r.1 = b op l % 2 ^ f.width)
    ∧ (u.isNan = false → v.isNan = true → r.1 = a l % 2 ^ f.width)
    ∧ (u.isNan = false → v.isNan = false → (r.1 = a l % 2 ^ f.width ∧ before v u = false) ∨ (r.1 = b op l % 2 ^ f.width ∧ before u v = false)))
  (∀ op, op ∈ [Op.fadd, .fsub, .fmul, .ffma, .fmin, .fmax, .fneg, .fabs, .fcls, .frnd] → ∀ i, s.Issues op e i →
    ∃ t : State, exec (op.instr e) s = .next t.finishSlot ∧ t = { s with wk := { s.wk with teams := t.wk.teams } })
  ∧ gives .fadd (fun l => f.Adds rnd sat (x l) (y .fadd l)) ∧ gives .fsub (fun l => f.Adds rnd sat (x l) (y .fsub l).neg)
  ∧ gives .fmul (fun l => f.Multiplies rnd sat (x l) (y .fmul l))
  ∧ gives .ffma (fun l => f.Fuses rnd sat (x l) (y .ffma l) (f.val (l.src 1 e.x.c.toNat)))
  ∧ picks .fmin (FVal.lt true) ∧ picks .fmax (fun u v => v.lt true u)
  ∧ (∀ u v : FVal, (∀ p q m e n g, u = .fin p m e → v = .fin q n g → (u.lt false v = true ↔ u.rat < v.rat)
      ∧ (u.lt true v = true ↔ u.rat < v.rat ∨ (m = 0 ∧ n = 0 ∧ p = true ∧ q = false)))
    ∧ ∀ p d, (u.lt d (.inf p) = true ↔ p = false ∧ u.isNan = false ∧ u ≠ .inf false) ∧ (FVal.lt d (.inf p) v = true ↔ p = true ∧ v.isNan = false ∧ v ≠ .inf true))
  ∧ gives .fcls (fun l r => let low := pow2 (1 - (f.bias : Int))
    r.2 = 0 ∧ (x l = .nan true → r.1 = 2 ^ 8) ∧ (x l = .nan false → r.1 = 2 ^ 9) ∧ (x l = .inf true → r.1 = 1) ∧ (x l = .inf false → r.1 = 2 ^ 7)
    ∧ ∀ p m h, x l = .fin p m h → let z := (x l).rat
      (z = 0 → r.1 = if p then 2 ^ 3 else 2 ^ 4) ∧ (z < 0 → r.1 = if z ≤ -low then 2 ^ 1 else 2 ^ 2) ∧ (0 < z → r.1 = if low ≤ z then 2 ^ 6 else 2 ^ 5))
  ∧ gives .frnd (fun l r => f.Quiets [x l] r ∧ (∀ p, x l = .inf p → r = (a l % 2 ^ f.width, 0))
    ∧ ∀ p m h, x l = .fin p m h → (m = 0 → r = (a l % 2 ^ f.width, 0)) ∧ (m ≠ 0 → let v := m * pow2 h
      ∃ (n k : Nat) (g : Int), Nearest rnd p (fun j => j * pow2 (-1)) v n ∧ f.val r.1 = .fin p k g ∧ k * pow2 g = n ∧ r.1 < 2 ^ f.width
        ∧ r.2 = if v = n then 0 else fNX))
  ∧ signs .fneg (fun x => !x) ∧ signs .fabs (fun _ => false)

/-- 06 R132 to R139; 02 R29 to R32, R36 to R40: special functions, division, half pairs and conversions: every one that issues answers a next
state that holds its result. Quotients, roots, pairs and conversions are exact values rounded once; of the elementary functions, the special
operands, the exact cases, the sign and the flag of an inexact result (that they are correctly rounded is UNVERIFIED of the model, log entry 9).
That frcp of ±2^127 and ±2^-127 raises no flag is 02 R32 (log entry 10). -/
def Obligations.ConvertedResults : Prop := ∀ (s : State) (e : Enc),
  let rnd := e.x.rnd.toNat
  let sat := e.x.sat == 1
  let a (l : Lane) : Nat := l.src 1 e.a.toNat
  let b (op : Op) (l : Lane) : Nat := l.opB op e 1 3
  let x (l : Lane) : FVal := f32.val (a l)
  let gives (op : Op) (n : Nat) (p : Lane → FRes → Prop) : Prop := ∃ r : Lane → FRes,
    s.Results op e (fun l => toRegs e.d n (r l).1) (fun l => (r l).2) ∧ ∀ l, p l (r l)
  let h := fmtIn 0x11 e
  let el (w n i : Nat) : Nat := n / 2 ^ (w * i) % 2 ^ w
  -- the elements of a result of `w` bits each, with their flags
  let each (op : Op) (n w k : Nat) (p : Lane → Nat → FRes → Prop) : Prop := gives op n (fun l r => ∃ c : Nat → FRes,
    (∀ i, i < k → p l i (c i) ∧ el w r.1 i = (c i).1 % 2 ^ w) ∧ ∀ j, r.2.getLsbD j = (List.range k).any (fun i => (c i).2.getLsbD j))
  let nx (r : FRes) : Prop := r.2.getLsbD 4 = true
  let ends (sat : Bool) (r : FRes) : Prop := r = if sat then (f32.maxBits, fOF ||| fNX ||| fSAT) else (f32.infBits, fOF ||| fNX)
  -- a root of a number that is not negative; the sign of a zero is kept
  let root (op : Op) (zero pos : Lane → Bool → FRes → Prop) (inf : FRes) : Prop := gives op 1 (fun l r => f32.Quiets [x l] r ∧ (x l = .inf true → r = (f32.nan, fNV))
    ∧ (x l = .inf false → r = inf) ∧ ∀ p m k, x l = .fin p m k → (m = 0 → zero l p r) ∧ (m ≠ 0 → p = true → r = (f32.nan, fNV)) ∧ (m ≠ 0 → p = false → pos l p r))
  let turn (op : Op) (zero : Lane → FRes) : Prop := gives op 1 (fun l r => f32.Quiets [x l] r ∧ (∀ p, x l = .inf p → r = (f32.nan, fNV))
    ∧ ∀ p m k, x l = .fin p m k → (m = 0 → r = zero l) ∧ (m ≠ 0 → nx r ∧ r.1 < 2 ^ 32))
  let w := if typeOf 0x11 e = 0x10 ∨ typeOf 0x11 e = 0x11 ∨ typeOf 0x11 e = 0x12 then 16 else if typeOf 0x11 e = 0x15 then 4 else 8
  (∀ op, op ∈ [Op.frcp, .frsq, .fsqrt, .fdiv, .fex2, .flg2, .fsin, .fcos, .hadd2, .hmul2, .hfma2, .cvt, .cvpk, .cvup] → ∀ i, s.Issues op e i →
    ∃ t : State, exec (op.instr e) s = .next t.finishSlot ∧ t = { s with wk := { s.wk with teams := t.wk.teams } })
  ∧ gives .frcp 1 (fun l => f32.Divides 0 sat (f32.val 0x3F800000) (x l)) ∧ gives .fdiv 1 (fun l => f32.Divides rnd sat (x l) (f32.val (b .fdiv l)))
  ∧ root .fsqrt (fun l _ r => r = (a l % 2 ^ 32, 0)) (fun l _ => f32.Rounds rnd sat false (fun t => t * t) (x l).rat) (f32.infBits, 0)
  ∧ root .frsq (fun _ p r => r = (f32.infinity p, fDZ)) (fun l _ => f32.Rounds 0 sat false (fun t => t * t * (x l).rat) 1) (0, 0)
  ∧ gives .fex2 1 (fun l r => f32.Quiets [x l] r ∧ (x l = .inf true → r = (0, 0)) ∧ (x l = .inf false → r = (f32.infBits, 0))
    ∧ ∀ p m k, x l = .fin p m k → let z := (x l).rat
      (128 ≤ z → ends sat r) ∧ (z ≤ -150 → r = (0, fUF ||| fNX))
      ∧ (-150 < z → z < 128 → (∀ n : Int, z = n → r.2 = 0 ∧ r.1 < 2 ^ 32 ∧ ∃ m k, f32.val r.1 = .fin false m k ∧ m * pow2 k = pow2 n)
        ∧ ((∀ n : Int, z ≠ n) → nx r ∧ r.1 < 2 ^ 31)))
  ∧ root .flg2 (fun _ _ r => r = (f32.infinity true, fDZ)) (fun l _ r => let z := (x l).rat
      (∀ n : Int, z = pow2 n → r.2 = 0 ∧ (n = 0 → r.1 = 0) ∧ (f32.val r.1).isNan = false ∧ (∀ p, f32.val r.1 ≠ .inf p) ∧ (f32.val r.1).rat = n)
      ∧ ((∀ n : Int, z ≠ pow2 n) → nx r ∧ r.1 < 2 ^ 32 ∧ (2 ^ 31 ≤ r.1 ↔ z < 1))) (f32.infBits, 0)
  ∧ turn .fsin (fun l => (a l % 2 ^ 32, 0)) ∧ turn .fcos (fun _ => (0x3F800000, 0))
  -- half pairs
  ∧ each .hadd2 1 16 2 (fun l i => h.Adds rnd sat (h.val (el 16 (a l) i)) (h.val (el 16 (b .hadd2 l) i)))
  ∧ each .hmul2 1 16 2 (fun l i => h.Multiplies rnd sat (h.val (el 16 (a l) i)) (h.val (el 16 (b .hmul2 l) i)))
  ∧ each .hfma2 1 16 2 (fun l i => h.Fuses rnd sat (h.val (el 16 (a l) i)) (h.val (el 16 (b .hfma2 l) i)) (h.val (el 16 (l.src 1 e.x.c.toNat) i)))
  -- conversions
  ∧ (let td := e.x.type.toNat
    let ts := e.x.c.toNat
    let v (l : Lane) : Nat := l.src (typeRegs ts) e.a.toNat
    gives .cvt (typeRegs td) (fun l r =>
      (fmtOf ts = none → let z := readInt (isSigned ts) (typeWidth ts) (v l)
        (fmtOf td = none → Narrowed td sat z r) ∧ ∀ g, fmtOf td = some g → g.Delivers rnd sat false (z : Rat) r)
      ∧ ∀ f, fmtOf ts = some f → let y := f.val (v l)
        (∀ g, fmtOf td = some g → f.Converts g rnd sat (v l) r)
        ∧ (fmtOf td = none → let n := typeWidth td
          let got := readInt (isSigned td) (max 32 n) r.1
          let lo := intMin (isSigned td) n
          let hi := intMax (isSigned td) n
          r.1 < 2 ^ max 32 n ∧ (y.isNan = true → r = (0, fNV ||| fSAT)) ∧ (∀ p, y = .inf p → got = (if p then lo else hi) ∧ r.2 = fNV ||| fSAT)
          ∧ ∀ p m k, y = .fin p m k → ∃ q : Nat, Nearest rnd p (fun j => j * pow2 (-1)) (m * pow2 k) q ∧ let z : Int := if p then -(q : Int) else q
            (lo ≤ z → z ≤ hi → got = z ∧ r.2 = if (z : Rat) = y.rat then 0 else fNX)
            ∧ (z < lo → got = lo ∧ r.2 = fNV ||| fSAT) ∧ (hi < z → got = hi ∧ r.2 = fNV ||| fSAT))))
  ∧ (let k := 16 / w
    each .cvpk 1 w (32 / w) (fun l i => f32.Converts h rnd sat (if i < k then el 32 (l.src k e.a.toNat) i else el 32 (l.src k e.b.toNat) (i - k))))
  ∧ (let n := if w = 16 then 2 else 4
    each .cvup n 32 n (fun l i => h.Converts f32 0 false (el w (a l) (4 * e.x.aux.toNat + i))))
/-! ### Events of the peer ports -/

/-- 31 R496, R498: a put that arrives is performed, rejected or held at a page fault, an acknowledgment completes a put or delivers its
rejection, and a port that goes down aborts what is unacknowledged. The puts that came before wait, each for system software or for an
earlier one of its window and port. -/
def Obligations.PeerPortResults : Prop := ∀ (s : State) (port win : Nat),
  let does (e : Instr) (t : State) : Prop := exec e s = .next t
  let w := s.window win
  let f := w.w0.toNat
  let ctx := f / 2 ^ 16 % 2 ^ 8
  let cnt := w.cnt.toNat % 2 ^ 48
  let up := (s.port port).up = true
  -- arrival
  (∀ (off : BitVec 64) (data : List Byte), let e := Instr.putReceive port win off data
    let n := data.length
    let m : PutMsg := ⟨port, win, off, data⟩
    let base := w.base.toNat % 2 ^ 48 + off.toNat
    let acked (a : State) (code : BitVec 8) : State := { a with pkg := { a.pkg with acks := a.pkg.acks ++ [(port, code)] } }
    let fits := Nat.testBit f 0 = true ∧ Nat.testBit f 1 = true ∧ f / 2 ^ 2 % 2 = port ∧ off.toNat + n ≤ w.size.toNat % 2 ^ 48
    let behind := ∃ x, x ∈ s.pkg.rx ∧ x.msg.port = port ∧ x.msg.win = win
    let place (va k : Nat) := s.globalPlace ctx (.ofDie s.pkg.master) va k .write
    let bad (va : Nat) (c : BitVec 16) : Prop := (∃ k, k < n ∧ va = base + k ∧ place va 1 = .error c ∧ ∀ j, j < k → ∃ p, place (base + j) 1 = .ok p)
      ∨ (va = cnt ∧ place cnt 8 = .error c ∧ ∀ j, j < n → ∃ p, place (base + j) 1 = .ok p)
    (¬up → does e s)
    ∧ (up → (∀ (j : Nat) x, s.pkg.rx[j]? = some x → x.offer = .wanted ∨ (∃ r, x.offer = .sent r)
        ∨ ∃ (i : Nat) (y : RxPut), i < j ∧ s.pkg.rx[i]? = some y ∧ y.msg.port = x.msg.port ∧ y.msg.win = x.msg.win) →
      (behind → does e { s with pkg := { s.pkg with rx := s.pkg.rx ++ [⟨m, 0, .none⟩] } })
      ∧ (¬behind → (¬fits → does e (acked s 0x14))
        ∧ (fits → (∀ va c, bad va c → (c ≠ 0x12 → does e (acked s 0x14))
            ∧ (c = 0x12 → ∃ x, x < 2 ^ 32 ∧ let r := s.drew.offerFault ctx (32 * s.pkg.master) va 3 1 x 0xFF false
              (r.1 = .declined → does e (acked r.2 0x12))
              ∧ (r.1 ≠ .declined → does e { r.2 with pkg := { r.2.pkg with rx := s.pkg.rx ++ [⟨m, va, r.1⟩] } })))
          ∧ ((∀ va c, ¬bad va c) → let x := s.rxWrite ctx base data
            ∃ u : State, u = { x with mm := { x.mm with poison := u.mm.poison, bad := u.mm.bad } }
              ∧ (∀ c, c ∈ u.mm.poison ↔ c ∈ x.mm.poison ∧ ∃ k, k < 64 ∧ ∀ j t, j < n → place (base + j) 1 ≠ .ok (.mem (.phys (64 * c + k) t)))
              ∧ (∀ c, c ∈ u.mm.bad ↔ c ∈ x.mm.bad ∧ ∃ k, k < 32 ∧ ∀ j t, j < n → place (base + j) 1 ≠ .ok (.mem (.phys (32 * c + k) t)))
              ∧ (∀ c, u.addCount win s.pkg.master n = .error c → does e (acked u 0x14)) ∧ ∀ v, u.addCount win s.pkg.master n = .ok v → does e (acked v 0))))))
  ∧ (∀ (a : State) ctx va b bs, a.rxWrite ctx va [] = a ∧ (∀ c, a.writeVirt ctx a.pkg.master va 1 [b] = .error c → a.rxWrite ctx va (b :: bs) = a.rxWrite ctx (va + 1) bs)
    ∧ ∀ v, a.writeVirt ctx a.pkg.master va 1 [b] = .ok v → a.rxWrite ctx va (b :: bs) = v.rxWrite ctx (va + 1) bs)
  ∧ (∀ die n, (∀ c, s.readVirt ctx die cnt 8 8 = .error c → s.addCount win die n = .error c)
    ∧ ∀ bs u, s.readVirt ctx die cnt 8 8 = .ok (bs, u) → s.addCount win die n = u.writeVirt ctx die cnt 8 (bytesOf 8 (ofBytes bs + n)))
  -- acknowledgment
  ∧ (∀ (code : BitVec 8), let e := Instr.putAck port win code
    let mine (c : Cmd) : Prop := c.state = .sent ∧ f / 2 ^ 2 % 2 = port ∧ ∃ sp a off len, c.body = .put sp a off len win
    ((∀ c, c ∈ s.eng.cmds → ¬mine c) → does e s)
    ∧ ∀ c, s.cmd? c.id = some c → mine c → (∀ d, d ∈ s.eng.cmds → mine d → d = c ∨ c.pos < d.pos) →
      (code = 0 → ∀ sp a off len, c.body = .put sp a off len win → let y := s.updCmd c.id (fun z => { z with counted := 1 })
        (∀ x, y.addCount win c.die len = .error x → does e (y.stopCmd c.id ⟨6, x.toNat, cnt, 2⟩))
        ∧ ∀ z, y.addCount win c.die len = .ok z → does e { z with eng := { z.eng with cmds := z.eng.cmds.map (fun x => if x.id = c.id then { x with state := .performed } else x) } })
      ∧ (code ≠ 0 → ∀ t, c.team = some t → (∃ th, s.thread? t c.thread = some th ∧ th.alive = true) → ∃ x : BitVec 64, x.toNat % 2 ^ 8 = code.toNat
        ∧ does e ((s.drew.updCmd c.id (fun z => { z with state := .held 0x40 6 x .none })).updThread t c.thread
            (fun th => { th with asyncs := th.asyncs ++ [⟨c.id, 0x40, 6, x⟩] }))))
  -- a port goes down
  ∧ (let gone (c : Cmd) : Bool := match c.body with
      | .put _ _ _ _ w => c.state == .sent && (s.window w).w0.toNat / 2 ^ 2 % 2 == port
      | _ => false
    let ids := (s.eng.cmds.filter gone).map Cmd.id
    ∃ t : State, does (.peerPortDown port) t ∧ (∀ k, k ≠ port → t.port k = s.port k)
      ∧ t.port port = { s.port port with up := false, count := (s.port port).count + BitVec.ofNat 16 ids.length }
      ∧ t = { s with
        pkg := { s.pkg with ports := t.pkg.ports }
        eng := { s.eng with cmds := s.eng.cmds.map (fun c => if ids.contains c.id then { c with state := .performed, aborted := true } else c) } })

/-! ### Events of the host -/

/-- 31 R492, R493, R496, R499, R502; 28 R451, R452, R454; 30 R488; 09 R176: what the host's writes of BAR0 and its accesses of BAR2 do.
A 4-byte write of a register of 8 changes one half of it (the model's reading, log entry 34). -/
def Obligations.HostWindowResults : Prop := ∀ (s : State),
  let does (e : Instr) (t : State) : Prop := exec e s = .next t
  -- BAR2
  (∀ write addr data, let e := Instr.hostMemoryAccess write addr data
    let a := addr.toNat
    let n := data.length
    (s.pkg.hostUp = false → does e s)
    ∧ (s.pkg.hostUp = true → write = true → ∃ t : State, does e t ∧ t = { s with mm := t.mm } ∧ (s.Settled → s.pkg.enumSlices.toNat / 2 ^ 33 % 2 ^ 6 = 36 →
        (∀ x, t.mm.byte x = if a ≤ x ∧ x < a + n ∧ s.pkg.backed x = true then data.getD (x - a) 0 else s.mm.byte x)
        ∧ (∀ c, c ∈ t.mm.poison ↔ c ∈ s.mm.poison ∧ ¬(a ≤ 64 * c ∧ 64 * c + 64 ≤ a + n ∧ ∀ k, k < 64 → s.pkg.backed (64 * c + k) = true))
        ∧ ∀ c, c ∈ t.mm.bad ↔ c ∈ s.mm.bad ∧ ¬(a ≤ 32 * c ∧ 32 * c + 32 ≤ a + n ∧ ∀ k, k < 32 → s.pkg.backed (32 * c + k) = true)))
    ∧ (s.pkg.hostUp = true → write = false → ∃ t : State, does e t ∧ t = { s with mm := t.mm, pkg := { s.pkg with hostData := t.pkg.hostData } }
      ∧ (s.Settled → t.mm = s.mm ∧ t.pkg.hostData = (List.range n).map (fun k => if s.pkg.backed (a + k) then s.mm.byte (a + k) else 0xFF))))
  -- BAR0
  ∧ (∀ (off : BitVec 32) (wide : Bool) (v : BitVec 64), let e := Instr.registerWrite off wide v
    let a := off.toNat
    let n := v.toNat
    (s.pkg.hostUp = false ∨ a % (if wide then 8 else 4) ≠ 0 → does e s)
    ∧ (s.pkg.hostUp = true → a % (if wide then 8 else 4) = 0 →
      -- one half of a register of 8 bytes
      (wide = false → isWideReg a = true → let old := (s.bar0 (a / 8 * 8)).toNat
        exec e s = exec (.registerWrite (BitVec.ofNat 32 (a / 8 * 8)) true
          (BitVec.ofNat 64 (if a % 8 = 0 then old / 2 ^ 32 * 2 ^ 32 + n % 2 ^ 32 else n % 2 ^ 32 * 2 ^ 32 + old % 2 ^ 32))) s)
      -- queues
      ∧ (a < 0x2000 → let q := a / 64
        let becomes (x : QReg) : Prop := ∃ t, does e t ∧ t = { s with fe := { s.fe with queues := t.fe.queues } } ∧ t.queue q = x ∧ ∀ k, k ≠ q → t.queue k = s.queue k
        let page := BitVec.ofNat 64 (n / 2 ^ 12 % 2 ^ 36 * 2 ^ 12)
        (s.pkg.domLive (q / 32) = false → does e s)
        ∧ (s.pkg.domLive (q / 32) = true → (wide = true → a % 64 = 0 → becomes { s.queue q with base := page }) ∧ (wide = true → a % 64 = 0x18 → becomes { s.queue q with errbase := page })
          ∧ (a % 64 = 8 → exec e s = exec (.qEnable q (BitVec.ofNat 32 n)) s) ∧ (a % 64 = 0x10 → exec e s = exec (.qWridxWrite q (BitVec.ofNat 32 n)) s)
          ∧ (a % 64 ∉ [0, 4, 8, 0x10, 0x18, 0x1C] → does e s)))
      -- the die-control block
      ∧ (let dctl (d : DieCtl) : State := { s with pkg := { s.pkg with dctl := d } }
        let d := s.pkg.dctl
        let links (x : Nat) : DieCtl := { d with linkIdle := BitVec.ofNat 16 x, mcVec := BitVec.ofNat 11 (x / 2 ^ 16) }
        (wide = true → a = 0x10000 → does e (dctl (links (n / 2 ^ 32)))) ∧ (wide = false → a = 0x10004 → does e (dctl (links (n % 2 ^ 32))))
        ∧ (wide = true → a = 0x10008 → does e (dctl { d with logBase := BitVec.ofNat 64 (n / 2 ^ 12 % 2 ^ 36 * 2 ^ 12) })))
      -- the debug mailbox
      ∧ (let m := s.dbg.mailbox
        let mail (x : Mailbox) : State := { s with dbg := { s.dbg with mailbox := x } }
        (m.busy = true → 0x11000 ≤ a → a < 0x11040 → does e s)
        ∧ (m.busy = false → (a = 0x11000 → does e (mail { m with cmd := BitVec.ofNat 8 n, seq := BitVec.ofNat 8 (n / 2 ^ 8) }))
          ∧ (a = 0x11008 → does e (mail { m with token := BitVec.ofNat 32 n }))
          ∧ (wide = true → (a = 0x11010 → does e (mail { m with a0 := v })) ∧ (a = 0x11018 → does e (mail { m with a1 := v }))
            ∧ (a = 0x11020 → does e (mail { m with a2 := v })) ∧ (a = 0x11028 → does e (mail { m with a3 := v })))
          ∧ (a = 0x11038 → (Nat.testBit n 0 = false → does e s)
            ∧ (Nat.testBit n 0 = true → (m.cmd.toNat ∈ List.range' 1 14 → does e (mail { m with busy := true }))
              ∧ (m.cmd.toNat ∉ List.range' 1 14 → does e (mail { m with status := 2, seqDone := m.seq, busy := false }))))))
      -- peer windows
      ∧ (0x12000 ≤ a → a < 0x12800 → wide = true → let k := (a - 0x12000) / 32
        let w := s.window k
        ∃ t, does e t ∧ t = { s with pkg := { s.pkg with windows := t.pkg.windows } } ∧ (∀ j, j ≠ k → t.window j = s.window j)
          ∧ (Nat.testBit w.w0.toNat 0 = true → (a % 32 = 0 → Nat.testBit n 0 = false → t.window k = { w with w0 := w.w0 - 1 })
            ∧ (a % 32 ≠ 0 ∨ Nat.testBit n 0 = true → t.window k = w))
          ∧ (Nat.testBit w.w0.toNat 0 = false → let x := BitVec.ofNat 64 (n % 2 ^ 48)
            (a % 32 = 0 → t.window k = { w with w0 := BitVec.ofNat 64 (n % 2 ^ 9 + n / 2 ^ 16 % 2 ^ 8 * 2 ^ 16) }) ∧ (a % 32 = 8 → t.window k = { w with base := x })
            ∧ (a % 32 = 0x10 → t.window k = { w with size := x }) ∧ (a % 32 = 0x18 → t.window k = { w with cnt := x })))
      -- boot step records and ALARM_CFG
      ∧ (a = 0x13000 → (n % 2 ^ 32 = 0x0B07 → does e { s with pkg := { s.pkg with bootRecs := [] } }) ∧ (n % 2 ^ 32 ≠ 0x0B07 → does e s))
      ∧ (wide = true → a = 0x13400 → let old := s.pkg.alarmCfg.toNat
        ∃ c : BitVec 9, does e { s with pkg := { s.pkg with alarmCfg := c } } ∧ (Nat.testBit old 8 = true → c = s.pkg.alarmCfg)
          ∧ (Nat.testBit old 8 = false → (∀ k, k < 4 → c.toNat / 4 ^ k % 4 = if n / 4 ^ k % 4 = 3 then old / 4 ^ k % 4 else n / 4 ^ k % 4)
            ∧ Nat.testBit c.toNat 8 = Nat.testBit n 8))
      -- the MSI-X table
      ∧ (0x20000 ≤ a → a < 0x28000 → ∃ t, does e t ∧ t = { s with pkg := { s.pkg with msix := t.pkg.msix } }
        ∧ ∀ j, Table.read 0 t.pkg.msix j = if a ≤ j + 0x20000 ∧ j + 0x20000 < a + (if wide then 8 else 4) then BitVec.ofNat 8 (n / 2 ^ (8 * (j + 0x20000 - a)))
          else Table.read 0 s.pkg.msix j)
      -- places that are not written
      ∧ (a ∈ [0x11004, 0x1100C, 0x11030, 0x11034, 0x1103C] ∨ (wide = false ∧ a = 0x10000) ∨ (0x2000 ≤ a ∧ a < 0x10000) ∨ (0x10010 ≤ a ∧ a < 0x11000)
        ∨ (0x11040 ≤ a ∧ a < 0x12000) ∨ (0x12800 ≤ a ∧ a < 0x20000 ∧ a ≠ 0x13000 ∧ a ≠ 0x13400 ∧ a ≠ 0x13404) ∨ (0x28000 ≤ a ∧ a < 0x200000) ∨ 0x400000 ≤ a → does e s)
      -- context windows
      ∧ (0x200000 ≤ a → a < 0x400000 → let k := (a - 0x200000) / 2048
        let ctx := k / 4
        let die := k % 4
        let i := a % 2048 / 8
        let x := if wide then n else n % 2 ^ 32
        let r := s.ctx ctx die
        let reg (y : CtxReg) : Prop := ∃ t, does e t ∧ t = { s with ctxs := t.ctxs } ∧ t.ctx ctx die = y ∧ ∀ c d, 4 * c + d ≠ 4 * ctx + die → t.ctx c d = s.ctx c d
        let spilled := ∃ c, c ∈ s.mm.contribs ∧ c.st = .spilled ∧ c.ctx = ctx
        let at8 (m : Nat) := BitVec.ofNat 64 (n / 2 ^ m % 2 ^ (48 - m) * 2 ^ m)
        let part (core : Nat) : Prop := let c := s.core core
          (c.ctx0 = none ∧ c.ctx1 = none ∧ c.ctx2 = none ∧ n % 2 ^ 5 + n / 2 ^ 5 % 2 ^ 5 + n / 2 ^ 10 % 2 ^ 5 ≤ 32 → ∃ t, does e t ∧ t = { s with cores := t.cores }
            ∧ t.core core = { c with part := BitVec.ofNat 64 (n % 2 ^ 15) } ∧ ∀ j, j ≠ core → t.core j = s.core j)
          ∧ (¬(c.ctx0 = none ∧ c.ctx1 = none ∧ c.ctx2 = none ∧ n % 2 ^ 5 + n / 2 ^ 5 % 2 ^ 5 + n / 2 ^ 10 % 2 ^ 5 ≤ 32) → does e s)
        (s.pkg.domLive die = false → does e s)
        ∧ (s.pkg.domLive die = true →
          (wide = true ∨ a % 8 = 0 → (i = 0x0B → exec e s = exec (.switchReq (32 * die) (BitVec.ofNat 64 x)) s)
            ∧ (0x60 ≤ i → i ≤ 0x7F → exec e s = exec (.switchReq (32 * die + (i - 0x60)) (BitVec.ofNat 64 x)) s)
            ∧ (i = 7 → exec e s = if Nat.testBit x 32 then exec (.faultDecline ctx die (BitVec.ofNat 32 x)) s else exec (.faultResolve ctx die (BitVec.ofNat 32 x)) s))
          ∧ (wide = false → a % 8 = 4 → i = 7 ∨ i = 0x0B ∨ (0x60 ≤ i ∧ i ≤ 0x7F) → does e s)
          ∧ (wide = true → (i = 0 → reg { r with trapVec := at8 4 }) ∧ (i = 1 → reg { r with ptBase := at8 12 })
            ∧ (i = 2 → (spilled → does e s) ∧ (¬spilled → reg { r with spillBase := at8 6 }))
            ∧ (i = 3 → (spilled → does e s) ∧ (¬spilled → reg { r with spillSize := BitVec.ofNat 64 (n % 2 ^ 32) }))
            ∧ (i = 4 ∨ i = 6 → ∃ u : State, does e (u.offerWaiting ctx die) ∧ u = { s with ctxs := u.ctxs } ∧ (∀ c d, 4 * c + d ≠ 4 * ctx + die → u.ctx c d = s.ctx c d)
              ∧ u.ctx ctx die = if i = 4 then { r with faultRing := BitVec.ofNat 64 (n % 2 ^ 4 + n / 2 ^ 12 % 2 ^ 36 * 2 ^ 12 + n / 2 ^ 48 % 2 ^ 12 * 2 ^ 48) }
                else { r with faultRidx := BitVec.ofNat 32 n })
            ∧ (i = 9 → exec e s = exec (.rwTableWrite ctx die v) s) ∧ (i = 0x0A → reg { r with sched := BitVec.ofNat 64 (n % 2 ^ 20) })
            ∧ (i = 0x0C → part (32 * die)) ∧ (0x40 ≤ i → i ≤ 0x5F → part (32 * die + (i - 0x40)))
            ∧ (i = 0x18 → let y := s.clock.sync
              (die ≠ s.pkg.master → does e s) ∧ (die = s.pkg.master → does e { s with clock := { s.clock with sync := { y with
                role := BitVec.ofNat 2 n, interval := if n / 2 ^ 8 % 2 ^ 4 ≤ 10 then BitVec.ofNat 4 (n / 2 ^ 8) else y.interval } } }))
            ∧ (i ∈ [5, 8, 0x0D, 0x0E, 0x0F] ∨ (0x10 ≤ i ∧ i < 0x40 ∧ i ≠ 0x18) ∨ 0x80 ≤ i → does e s))))))

/-! ### Encoding, the step, reset -/

/-- 03 R47 to R52, R57, R60: the packet of a well-formed instruction is legal and gives the instruction back, and a slot that decodes holds
the words and the slot control of the instruction that it decodes to, so that no bit of an encoding is dropped. -/
def Obligations.EncodingRoundTrip : Prop :=
  (∀ i ps, i.wf = true → encode i = some ps → decodeSlot ps.1 ps.2 = .ok i ∧ packetOk true ps.1 = true
    ∧ decodeBytes ((List.range 16).map (fun k => BitVec.ofNat 8 (ps.1.toNat / 2 ^ (8 * k)))) ps.2 = .ok i)
  ∧ (∀ (op : Op) (e : Enc), encode (op.instr e) ≠ none)
  ∧ ∀ p s i, decodeSlot p s = .ok i → ∃ op e, i = op.instr e ∧ i.op? = some (op, e) ∧ i.named = true
    ∧ slotWord p s = instrWord op e ∧ slotCtl p s = instrCtl e
    ∧ (∀ x, e.ext = some x → s + 1 ≤ 2 ∧ slotWord p (s + 1) = x.word) ∧ ∀ l, e.lit = some l → s + (if e.ext.isSome then 2 else 1) ≤ 2
      ∧ slotWord p (s + if e.ext.isSome then 2 else 1) = l

/-- Words that the specification writes out, with the instructions that they stand for (03 R57, R60, R67 and the examples of 03, 04, 05, 06,
07, 10, 12, 15, 16, 20, 21, 22, 23, 24, 25, 28, 29 and 31). -/
def Obligations.WrittenWords : Prop :=
  let e (d a b : BitVec 8) (x : Option Ext) (l : Option Word) : Enc := ⟨7, 0, 0, d, a, b, x, l⟩
  let is (w : Word) (i : Instr) (x : Option Word) (l : Option Word) : Prop := decodeWords 0x1C0 w x l = .ok i
  is 0x42040102 (.fmul (e 4 1 2 none none)) none none
  ∧ is 0x43080203 (.ffma (e 8 2 3 (some ⟨4, 0x0C, 1, 0, 0, 0, 0, 0, 0⟩) none)) (some 0x04610000) none
  ∧ is 0x010A0400 (.mov (e 10 4 0 none none)) none none
  ∧ is 0x12080004 (.addc (e 8 0 4 (some ⟨0x1F, 0, 0, 0, 0, 0, 0, 0, 0⟩) none)) (some 0x1F000000) none
  ∧ is 0x04021E00 (.movs (e 2 30 0 none none)) none none
  ∧ is 0x2B100E00 (.clz (e 16 14 0 (some ⟨0, 4, 0, 0, 0, 0, 0, 0, 0⟩) none)) (some 0x00200000) none
  ∧ is 0x330A0203 (.mac2 (e 10 2 3 (some ⟨10, 0, 0, 0, 0, 0, 0, 0, 0⟩) none)) (some 0x0A000000) none
  ∧ is 0x340C0A00 (.shrn (e 12 10 0 (some ⟨0, 0x10, 5, 0, 0, 0, 0, 0, 0⟩) (some 15))) (some 0x00850000) (some 15)
  ∧ is 0x37140000 (.sflg (e 20 0 0 (some ⟨0, 0, 0, 0, 0, 0, 0, 0, 1⟩) (some 0x20))) (some 1) (some 0x20)
  ∧ is 0x621E0000 (.call (e 30 0 0 none (some 0xC0))) none (some 0xC0)
  ∧ is 0x61001B00 (.brxRel (e 0 27 0 (some ⟨0, 0, 0, 0, 0, 0, 0, 0, 1⟩) (some 0x10))) (some 1) (some 0x10)
  ∧ is 0x64000000 (.exit (e 0 0 0 none none)) none none
  ∧ is 0x72F00100 (.elect (e 0xF0 1 0 none none)) none none
  ∧ is 0x73050209 (.sld (e 5 2 9 (some ⟨0, 0, 0, 0, 0, 0, 0, 0, 3⟩) (some 3))) (some 3) (some 3)
  ∧ is 0x710A0900 (.matchOp (e 10 9 0 (some ⟨0, 3, 0, 0, 0, 0, 0, 0, 0⟩) none)) (some 0x00180000) none
  ∧ is 0x79000000 (.join (e 0 0 0 none none)) none none
  ∧ is 0x80060400 (.ld (e 6 4 0 (some ⟨0, 0, 0, 0, 6, 1, 0, 0, 0⟩) none)) (some 0x00006200) none
  ∧ is 0x85000000 (.fence (e 0 0 0 (some ⟨0, 0, 0, 0, 3, 2, 0, 0, 0⟩) none)) (some 0x00003400) none
  ∧ is 0x86F0120C (.atom (e 0xF0 18 12 (some ⟨0, 3, 0, 0, 1, 0, 0, 1, 0⟩) none)) (some 0x00181008) none
  ∧ is 0x88000206 (.redDet (e 0 2 6 (some ⟨8, 0x0C, 0, 0, 3, 0, 0, 0, 1⟩) none)) (some 0x08603001) none
  ∧ is 0x93001618 (.bwait (e 0 22 24 none none)) none none
  ∧ is 0xA114080C (.cpys (e 20 8 12 (some ⟨1, 0, 0, 0, 2, 0, 0, 0, 1⟩) none)) (some 0x01002001) none
  ∧ is 0xA514080C (.put (e 20 8 12 (some ⟨13, 0, 0, 0, 5, 0, 0, 0, 0⟩) none)) (some 0x0D005000) none
  ∧ is 0xA9221E1C (.hprb (e 34 30 28 (some ⟨0, 0, 0, 0, 3, 0, 0, 0, 0⟩) none)) (some 0x00003000) none
  ∧ is 0xAE001018 (.xenq (e 0 16 24 (some ⟨0, 0, 0, 0, 3, 0, 0, 0, 0⟩) none)) (some 0x00003000) none
  ∧ is 0xAF100200 (.xtake (e 16 2 0 none none)) none none
  ∧ is 0xB1000409 (.tmmsp (e 0 4 9 (some ⟨0, 0, 0, 0, 0, 0, 0, 0, 1⟩) none)) (some 1) none
  ∧ is 0xB5002000 (.tst (e 0 32 0 none (some 0x40))) none (some 0x40)
  ∧ is 0xB8010000 (.tscl (e 1 0 0 none (some 0x40400000))) none (some 0x40400000)
  ∧ is 0xC2000000 (.brkpt (e 0 0 0 none none)) none none
  ∧ is 0xC30A0800 (.sysr (e 10 8 0 none none)) none none
  ∧ is 0xC400080C (.sysw (e 0 8 12 none none)) none none
  ∧ decodeWords 0x1C0 0x08000000 none none = .error .reservedOpcode
  ∧ decodeSlot 0x63001E0000000000000000001C0F03C0 2 = .ok (.ret (e 0 30 0 none none))
  ∧ decodeBytes [0x80, 0x04, 0x80, 0x9D, 0x03, 0x02, 0x08, 0x43, 0x00, 0x00, 0x61, 0x04, 0x00, 0x05, 0x0C, 0x01] 0
      = .ok (.ffma ⟨2, 0, 0, 8, 2, 3, some ⟨4, 0x0C, 1, 0, 0, 0, 0, 0, 0⟩, none⟩)
  ∧ decodeBytes [0x80, 0x04, 0x80, 0x9D, 0x03, 0x02, 0x08, 0x43, 0x00, 0x00, 0x61, 0x04, 0x00, 0x05, 0x0C, 0x01] 1 = .error .notInstruction
  ∧ decodeBytes [0x80, 0x04, 0x80, 0x9D, 0x03, 0x02, 0x08, 0x43, 0x00, 0x00, 0x61, 0x04, 0x00, 0x05, 0x0C, 0x01] 2
      = .ok (.mov ⟨7, 0, 3, 12, 5, 0, none, none⟩)

/-- 03 R53, R54, R69, R71, R72; 07 R146, R148; 26 R418; 31 R499, R505, R506: a step runs the instruction that the packet of the warp whose turn it is
decodes to, once the part that begins with it has passed its checks; the packet is fetched first where it is not latched, and an
asynchronous trap that waits for a thread of the warp comes before a part. A slot of a part in
progress goes on. Without a turn a boot that is due runs, then an event of the outside world, and else what the machine does of itself. -/
def Obligations.StepRunsDecoded : Prop := ∀ (s : State),
  (s.pkg.clocksOff = true → (∀ i rest, s.inputs = i :: rest → i = .powerOnReset ∨ i = .porstN → step s = exec i { s with inputs := rest })
    ∧ ((∀ i rest, s.inputs = i :: rest → i ≠ .powerOnReset ∧ i ≠ .porstN) → step s = .fault .clocksStopped))
  ∧ (s.pkg.clocksOff = false → s.turn = none → ((∃ k, s.pkg.boot = .due k) → step s = exec .boot s)
    ∧ ((∀ k, s.pkg.boot ≠ .due k) → (∀ i rest, s.inputs = i :: rest → step s = exec i { s with inputs := rest })
      ∧ (s.inputs = [] → step s = .next s.schedule)))
  ∧ ∀ n t w, s.pkg.clocksOff = false → s.turn = some n → s.team? n.team = some t → t.warp? n.warp = some w →
    let begins (v : State) (t : Team) (w : Warp) : Prop := w.fence = none → w.redo = [] → ∀ p l ls, w.packet = some p → t.lanesOf w = l :: ls →
      let part := partOf p l.th.slot
      let m : Turn := ⟨t.id, w.id, l.th.pc, l.th.slot, l.th.slot, part.1, part.2.1, part.2.2, false, none, false⟩
      let u : State := { v with turn := some m }
      let ends (slot : Nat) : Prop := u.faultsBelow w m slot = true
      (∀ c slot d, u.partFault p (m.slot :: m.more) = some (c, slot, d) → ¬(c = 6 ∧ ends slot) →
        step s = .next (u.rejectPart (if mixedGroup p m.slot then { m with next := groupAfter p m.slot } else m) c slot d 0 .none))
      ∧ ((∀ c slot d, u.partFault p (m.slot :: m.more) = some (c, slot, d) → c = 6 ∧ ends slot) → ∀ i, decodeSlot p m.slot = .ok i → ∃ x : State, step s = exec i x
        ∧ x = { v with turn := some { m with begun := true }, dbg := { v.dbg with stepping := x.dbg.stepping } } ∧ (v.dbg.stepping = none → x.dbg.stepping = none))
    let tries (v : State) : Prop := let idle : State := { v with turn := none }
      ∀ t w, v.team? n.team = some t → t.warp? n.warp = some w → (∀ k, idle.asyncOf t w = some k → step s = exec (.asyncTrapTake t.id k) idle)
        ∧ (idle.asyncOf t w = none → (v.stall t w ≠ 0 → step s = .next idle) ∧ (v.stall t w = 0 → begins v t w))
    (n.begun = true → n.only = none → ∀ p i, w.packet = some p → decodeSlot p n.slot = .ok i → step s = exec i s)
    ∧ (n.begun = true → n.only ≠ none → ∀ r rs, w.redo = r :: rs → r.instr.op? ≠ none → step s = exec r.instr s)
    ∧ (n.begun = false → s.fetchDue t w = false → tries s)
    ∧ (n.begun = false → s.fetchDue t w = true → ∃ u, exec (.packetFetch t.id w.id) { s with turn := none } = .next u ∧ tries u)

/-- What reset leaves, where the specification gives it: 09 R176 (queues), 15 R283 (barriers), 19 R341, 26 R421, 27 R427, R428, R430, R436,
R441, R447, 28 R452, 30 R473, R488, 31 R493, R496, R499, R502. The values of the registers that the specification gives none are the model's
(log entries 3 and 4) and are not stated. Memory is in its canonical form. -/
def Obligations.ResetLeaves : Prop := let s := State.reset
  s.memOk ∧ s.pkg.boot = .due 1 ∧ s.clock.time = 0 ∧ s.turn = none ∧ s.wk.teams = [] ∧ s.eng.cmds = [] ∧ s.fe.pkts = [] ∧ s.fe.grids = []
  ∧ (∀ q, let r := s.queue q
    r.enable = false ∧ r.log2 = 0 ∧ r.ceil = 0 ∧ r.ctx = 0 ∧ r.halted = false ∧ r.err = 0)
  ∧ (∀ c d, let r := s.ctx c d
    r.trapVec = 0 ∧ r.ptBase = 0 ∧ r.spillBase = 0 ∧ r.spillSize = 0 ∧ r.faultRing = 0 ∧ r.sched = 0 ∧ r.traceCtl = 0 ∧ r.traceRing = 0
    ∧ r.sampleCtl.toNat % 2 = 0 ∧ r.sampleCtl.toNat / 2 % 2 ^ 5 = 4 ∧ r.sampleCtl.toNat / 2 ^ 6 % 2 = 0 ∧ r.sampleCtl.toNat / 2 ^ 7 % 2 ^ 5 = 8)
  ∧ (∀ c, let p := (s.core c).part.toNat
    p % 2 ^ 5 = 10 ∧ p / 2 ^ 5 % 2 ^ 5 = 11 ∧ p / 2 ^ 10 % 2 ^ 5 = 11)
  ∧ s.clock.sync.role = 0 ∧ s.clock.sync.locked = false ∧ s.clock.sync.interval = 0 ∧ s.clock.sync.offset = 0
  ∧ s.dbg.caps = [] ∧ (∀ k, Table.look s.dbg.watches k = none) ∧ (let m := s.dbg.mailbox
    m.cmd = 0 ∧ m.seq = 0 ∧ m.token = 0 ∧ m.a0 = 0 ∧ m.a1 = 0 ∧ m.a2 = 0 ∧ m.a3 = 0 ∧ m.status = 0 ∧ m.seqDone = 0 ∧ m.busy = false)
  ∧ (∀ w, s.window w = ⟨0, 0, 0, 0⟩) ∧ s.pkg.alarmCfg = 0x025 ∧ (∀ k, Table.read 0 s.pkg.bootRecs k = 0)
  ∧ s.pkg.dctl.linkIdle = 20 ∧ s.pkg.dctl.mcVec = 0 ∧ s.pkg.dctl.logBase = 0 ∧ s.pkg.dctl.logIdx = 0 ∧ s.pkg.enumOrder.toNat / 2 ^ 40 % 2 ^ 8 = 4
  ∧ s.pkg.keyStore = true

/-- 13 R224; 27 R427, R429; 28 R451; 31 R496, R502, R506: a step keeps memory in its canonical form; the timebase never decreases but at
power-on; a key store that has been erased stays erased; and what only system software writes, no step of the machine's own changes: table
bases, trap vectors, fault rings and spill areas of contexts, the peer windows and ALARM_CFG. -/
def Obligations.StepKeepsMachine : Prop := ∀ (s t : State), step s = .next t →
  (s.memOk → t.memOk)
  ∧ (s.inputs.head? ≠ some .powerOnReset → s.clock.time ≤ t.clock.time)
  ∧ (s.pkg.keyStore = false → t.pkg.keyStore = false)
  ∧ (s.inputs = [] → s.pkg.boot = .done → t.pkg.windows = s.pkg.windows ∧ t.pkg.alarmCfg = s.pkg.alarmCfg ∧ ∀ c d,
      (t.ctx c d).ptBase = (s.ctx c d).ptBase ∧ (t.ctx c d).trapVec = (s.ctx c d).trapVec ∧ (t.ctx c d).faultRing = (s.ctx c d).faultRing
      ∧ (t.ctx c d).spillBase = (s.ctx c d).spillBase ∧ (t.ctx c d).spillSize = (s.ctx c d).spillSize)

/-! ### Cross-lane forms -/

/-- 10 R197 to R199, R202: a vote, a match, an election and a broadcast over the active lanes. -/
def Obligations.VoteResults : Prop := ∀ (s : State) (e : Enc),
  let p (l : Lane) : Bool := l.th.pred (e.a.toNat % 8) ^^ Nat.testBit e.a.toNat 3
  let n := typeRegs (typeOf 3 e)
  let a (l : Lane) : Nat := l.src n e.a.toNat
  (∃ r : Iss → Target → Option Word, s.LaneResults .vote e (fun i _ => r i) (fun _ _ => 0) ∧ ∀ i,
    (e.x.aux = 0 → r i = toPred e.d (i.act.all p)) ∧ (e.x.aux = 1 → r i = toPred e.d (i.act.any p))
    ∧ (e.x.aux = 2 → r i = toPred e.d (i.act.all p || !i.act.any p))
    ∧ (e.x.aux = 3 → ∃ m, r i = toRegs e.d 2 m ∧ ∀ k, Nat.testBit m k = i.act.any (fun l => l.lane == k && p l))
    ∧ (e.x.aux = 4 → r i = toRegs e.d 1 (i.act.countP p)))
  ∧ (∃ r : Iss → Lane → Target → Option Word, s.LaneResults .matchOp e r (fun _ _ => 0) ∧ ∀ i l,
      (e.x.aux = 0 → ∃ m, r i l = toRegs e.d 2 m ∧ ∀ k, Nat.testBit m k = i.act.any (fun x => x.lane == k && a x == a l))
      ∧ (e.x.aux = 1 → ∃ m, (∀ tgt, r i l tgt = (toPred e.x.c (i.act.all (fun x => a x == a l)) tgt).or (toRegs e.d 2 m tgt))
        ∧ ∀ k, Nat.testBit m k = (i.act.all (fun x => a x == a l) && i.act.any (fun x => x.lane == k))))
  ∧ (∃ low : Iss → Nat, s.LaneResults .elect e
      (fun i l tgt => (toPred e.a (l.lane == low i) tgt).or (toRegs e.d 1 (low i) tgt)) (fun _ _ => 0) ∧
      ∀ i, s.Issues .elect e i → (∃ l, l ∈ i.act ∧ l.lane = low i) ∧ ∀ l, l ∈ i.act → low i ≤ l.lane)
  ∧ (∃ r : Iss → Nat, s.LaneResults .lbc e (fun i _ => toRegs e.d n (r i)) (fun _ _ => 0) ∧
      ∀ i, s.Issues .lbc e i → ∃ l, l ∈ i.act ∧ (∀ x, x ∈ i.act → l.lane ≤ x.lane)
        ∧ (∀ x, x ∈ i.act → x.lane = l.opB .lbc e 1 3 → r i = a x)
        ∧ ((∀ x, x ∈ i.act → x.lane ≠ l.opB .lbc e 1 3) → r i = 0))

/-- 10 R200, R201: slides and shuffles. -/
def Obligations.SlideResults : Prop := ∀ (s : State) (e : Enc),
  let n := typeRegs (typeOf 3 e)
  let dn := Nat.testBit e.x.aux.toNat 0
  let half := Nat.testBit e.x.aux.toNat 1
  let k := (e.lit.getD 0).toNat
  (∃ r : Iss → Lane → Nat, s.LaneResults .sld e (fun i l => toRegs e.d 1 (r i l)) (fun _ _ => 0) ∧ ∀ i, s.Issues .sld e i → ∀ l,
      let word (code : BitVec 8) (j : Nat) : Nat := ((i.act.find? (fun x => x.lane == j)).map (fun x => x.src 1 code.toNat)).getD 0
      let el (code : BitVec 8) (j : Nat) : Nat := if half then word code (j / 2) / 2 ^ (16 * (j % 2)) % 2 ^ 16 else word code j
      let c := if half then 2 * i.warp.lanes.length else i.warp.lanes.length
      let joined (q : Nat) : Nat :=
        if q < c then el (if dn then e.a else e.b) q else if q < 2 * c then el (if dn then e.b else e.a) (q - c) else 0
      let one (j : Nat) : Nat := if dn then joined (j + k) else if k ≤ c + j then joined (c + j - k) else 0
      r i l = if half then one (2 * l.lane) + 2 ^ 16 * one (2 * l.lane + 1) else one l.lane)
  ∧ (∃ r : Iss → Lane → Nat, s.LaneResults .shfl e (fun i l => toRegs e.d n (r i l)) (fun _ _ => 0) ∧
      ∀ i, s.Issues .shfl e i → ∀ l, l ∈ i.act →
        let b := l.opB .shfl e 1 3
        let from? (x : Lane) : Prop := (e.x.aux = 0 ∧ x.lane = b) ∨ (e.x.aux = 1 ∧ x.lane + b = l.lane)
          ∨ (e.x.aux = 2 ∧ x.lane = l.lane + b) ∨ (e.x.aux = 3 ∧ x.lane = l.lane ^^^ b)
        (∀ x, x ∈ i.act → from? x → r i l = x.src n e.a.toNat)
        ∧ ((∀ x, x ∈ i.act → ¬from? x) → r i l = l.src n e.a.toNat))

/-- 10 R203 to R205: reductions and scans. -/
def Obligations.FoldResults : Prop := ∀ (s : State) (e : Enc),
  let ty := typeOf (if e.x.aux.toNat ≤ 2 then 8 else 3) e
  let n := typeRegs ty
  let w := typeWidth ty
  let sg := isSigned ty
  let rnd := e.x.rnd.toNat
  let sat := e.x.sat == 1
  let bits (l : Lane) : Nat := l.src n e.a.toNat
  let x (l : Lane) : Int := readInt sg w (bits l)
  let op (a b : FRes) : FRes :=
    let r := if e.x.aux = 0 then f32.add rnd sat a.1 b.1 else f32.minmax (e.x.aux != 1) a.1 b.1
    (r.1, a.2 ||| b.2 ||| r.2)
  let ints (ls : List Lane) (r : FRes) : Prop :=
    (e.x.aux = 0 → Narrowed ty sat (ls.map x).sum r)
    ∧ (e.x.aux = 1 → e.x.sat = 0 → r.2 = 0 ∧ (∀ l, l ∈ ls → readInt sg w r.1 ≤ x l) ∧ ∃ l, l ∈ ls ∧ readInt sg w r.1 = x l)
    ∧ (e.x.aux = 2 → e.x.sat = 0 → r.2 = 0 ∧ (∀ l, l ∈ ls → x l ≤ readInt sg w r.1) ∧ ∃ l, l ∈ ls ∧ readInt sg w r.1 = x l)
    ∧ (e.x.aux = 3 → e.x.sat = 0 → r.2 = 0 ∧ ∀ j, j < w → Nat.testBit r.1 j = ls.all (fun l => Nat.testBit (bits l) j))
    ∧ (e.x.aux = 4 → e.x.sat = 0 → r.2 = 0 ∧ ∀ j, j < w → Nat.testBit r.1 j = ls.any (fun l => Nat.testBit (bits l) j))
    ∧ (e.x.aux = 5 → e.x.sat = 0 → r.2 = 0 ∧ ∀ j, j < w →
        Nat.testBit r.1 j = decide (ls.countP (fun l => Nat.testBit (bits l) j) % 2 = 1))
  (∃ r : Iss → FRes, s.LaneResults .wrdx e (fun i _ => toRegs e.d n (r i).1) (fun i _ => (r i).2) ∧
      ∀ i, s.Issues .wrdx e i → (ty ≠ 0xC → ints i.act (r i))
        ∧ (ty = 0xC → ∃ t : Nat → Nat → Option FRes,
            (∀ k, t 0 k = (i.act.find? (fun l => l.lane == k)).map (fun l => (bits l, 0)))
            ∧ (∀ v k, t (v + 1) k = match t v (2 * k), t v (2 * k + 1) with
              | none, b => b
              | a, none => a
              | some a, some b => some (op a b))
            ∧ (t 6 0).getD (0, 0) = r i))
  ∧ (∃ r : Iss → Lane → FRes, s.LaneResults .wscan e (fun i l => toRegs e.d n (r i l).1) (fun i l => (r i l).2) ∧
      ∀ i, s.Issues .wscan e i → ∀ l, l ∈ i.act →
        let ls := i.act.filter (fun k => if Nat.testBit e.x.c.toNat 0 then decide (k.lane < l.lane) else decide (k.lane ≤ l.lane))
        (ls = [] → (r i l).2 = 0 ∧ (r i l).1 =
          if e.x.aux = 1 then if ty = 0xC then 0x7F800000 else (intMax sg w).toNat
          else if e.x.aux = 2 then if ty = 0xC then 0xFF800000 else if sg then 2 ^ (w - 1) else 0
          else if e.x.aux = 3 then 2 ^ w - 1 else 0)
        ∧ (ls ≠ [] → ty ≠ 0xC → ints ls (r i l))
        ∧ (∀ l0 rest, ls = l0 :: rest → ty = 0xC → r i l = rest.foldl (fun v k => op v (bits k, 0)) (bits l0, 0)))

/-! ### Special registers, control transfers and regions -/

/-- 05 R97, R101 with the table of 01 R19 (log entries 6, 7 and 57: a clock is read at the issue, and where an argument
block lies and how far a die's timebase is behind are free), 06 R124: `nop` does nothing; `movs` reads a special register; `sflg` reads the sticky flags and,
with `.clr`, clears them in the active lanes. -/
def Obligations.SpecialRegisterResults : Prop := ∀ (s : State) (e : Enc) (i : Iss),
  (s.Issues .sflg e i →
    ∃ t : State, exec (.sflg e) s = .next t.finishSlot ∧ t = { s with wk := { s.wk with teams := t.wk.teams } }
      ∧ (∀ k, k ≠ i.team.id → t.team? k = s.team? k)
      ∧ (∀ n a, s.thread? i.team.id n = some a → i.actors n = [] → t.thread? i.team.id n = some a)
      ∧ ∀ n a l, s.thread? i.team.id n = some a → i.actors n = [l] → ∃ b, t.thread? i.team.id n = some b
        ∧ b = { a with pend := b.pend, flags := b.flags }
        ∧ (∀ tgt, b.final tgt = (toRegs e.d 1 a.flags.toNat tgt).getD (a.final tgt))
        ∧ b.flags = if e.x.aux = 1 then a.flags &&& ~~~(BitVec.ofNat 6 (l.opB .sflg e 1 3)) else a.flags)
  ∧ (s.Issues .nop e i → exec (.nop e) s = .next s.finishSlot)
  ∧ (s.Issues .movs e i → ∃ (t : State) (v : Lane → Nat), exec (.movs e) s = .next t.finishSlot
      ∧ s.Gave t i.team.id i.givers
        (fun l => toRegs e.d (if e.a = 16 ∨ e.a = 24 ∨ e.a = 26 ∨ e.a = 30 then 2 else 1) (v l)) (fun _ => 0)
      ∧ ∀ l, (e.a = 12 → v l = i.team.crank) ∧ (e.a = 13 → v l = l.lane) ∧ (e.a = 14 → v l = l.wwid)
        ∧ (e.a = 16 → ∀ k, Nat.testBit (v l) k = i.live.any (fun x => x.lane == k))
        ∧ (e.a = 18 → v l = i.team.core % 32) ∧ (e.a = 19 → v l = i.team.core % 32 / 4) ∧ (e.a = 20 → v l = i.team.core / 32)
        ∧ (e.a = 21 → v l = i.team.ctx)
        ∧ (e.a = 23 → ∃ phase, phase = (s.clock.time - s.clock.dieReset) % 25600 ∧
          v l = phase + 2 ^ 15 * (phase / 1600) + if phase % 1600 < 400 then 2 ^ 19 else 0)
        ∧ (e.a = 24 → v l ≤ s.clock.time ∧ s.clock.time ≤ v l + 4) ∧ (e.a = 26 → v l = s.clock.clk)
        ∧ (∀ th, s.thread? i.team.id l.th.ltid = some th → e.a = 28 → v l = th.flags.toNat) ∧ (e.a = 29 → v l = l.th.tcfg.toNat)
        ∧ ∀ g, s.grid? i.team.grid = some g →
          (e.a = 0 → v l = l.th.ltid % g.launch.ntid.1) ∧ (e.a = 1 → v l = l.th.ltid / g.launch.ntid.1 % g.launch.ntid.2.1)
          ∧ (e.a = 2 → v l = l.th.ltid / (g.launch.ntid.1 * g.launch.ntid.2.1))
          ∧ (e.a = 3 → v l = g.launch.ntid.1) ∧ (e.a = 4 → v l = g.launch.ntid.2.1) ∧ (e.a = 5 → v l = g.launch.ntid.2.2)
          ∧ (e.a = 6 → v l = i.team.index % g.launch.nteam.1) ∧ (e.a = 7 → v l = i.team.index / g.launch.nteam.1 % g.launch.nteam.2.1)
          ∧ (e.a = 8 → v l = i.team.index / (g.launch.nteam.1 * g.launch.nteam.2.1))
          ∧ (e.a = 9 → v l = g.launch.nteam.1) ∧ (e.a = 10 → v l = g.launch.nteam.2.1) ∧ (e.a = 11 → v l = g.launch.nteam.2.2)
          ∧ (e.a = 22 → v l = g.depth) ∧ (e.a = 30 → v l = g.argAt))

/-- 07 R141 to R144: each active lane goes to its target at the end of its group, and a call writes its link, which the warp keeps for the
prediction of a `ret`; R147: the warp issues again after three cycles, or after six. -/
def Obligations.TransferResults : Prop := ∀ (s : State) (e : Enc),
  let lit : BitVec 64 := (e.lit.getD 0).signExtend 64
  let here (i : Iss) : BitVec 64 := i.turn.pc.setWidth 64
  let pair (l : Lane) : BitVec 64 := BitVec.ofNat 64 (l.src 2 e.a.toNat)
  let goes (op : Op) (target : Iss → Lane → BitVec 64) (links : Bool) (waits : List Nat) : Prop := ∀ i, s.Issues op e i →
    ∃ t : State, exec (op.instr e) s = .next t.finishSlot ∧ t = { s with wk := { s.wk with teams := t.wk.teams } }
      ∧ (∀ k, k ≠ i.team.id → t.team? k = s.team? k)
      ∧ (∃ d, d ∈ waits ∧ (t.team? i.team.id).map (fun tm => { tm with threads := [] }) =
        (s.team? i.team.id).map (fun tm => { tm.updWarp i.warp.id (fun w =>
          { w with due := s.clock.clk + d, link := if links then some (i.turn.pc + 16) else w.link }) with threads := [] }))
      ∧ (∀ n a, s.thread? i.team.id n = some a → i.actors n = [] → t.thread? i.team.id n = some a)
      ∧ ∀ n a l, s.thread? i.team.id n = some a → i.actors n = [l] → ∃ b p, t.thread? i.team.id n = some b
        ∧ b = { a with next := b.next, pend := b.pend } ∧ p ∈ i.act ∧ (e.u = 0 → p = l) ∧ (e.u = 1 → ∀ x, x ∈ i.act → p.lane ≤ x.lane)
        ∧ (∃ T : BitVec 48, b.next = some T ∧ T.setWidth 64 = target i p)
        ∧ ∀ tgt, b.final tgt = ((if links then toRegs e.d 2 ((i.turn.pc + 16).toNat) tgt else none).getD (a.final tgt))
  goes .bra (fun i _ => here i + lit) false [3] ∧ goes .brx (fun _ l => pair l + lit) false [6]
  ∧ goes .brxRel (fun i l => here i + (BitVec.ofNat 32 (l.src 1 e.a.toNat)).signExtend 64 * 16 + lit) false [6]
  ∧ goes .call (fun i _ => here i + lit) true [3] ∧ goes .callX (fun _ l => pair l + lit) true [6]
  ∧ goes .ret (fun _ l => pair l) false [3, 6]

/-- 07 R145, 08 R168, 10 R206 to R208: the active threads of `exit` end, nothing pending is written and they leave every region instance;
a region is opened, reached and left, and a region-stack trap is met where its rule says so. -/
def Obligations.RegionResults : Prop := ∀ (s : State) (e : Enc) (i : Iss),
  let label : BitVec 48 := (i.turn.pc.setWidth 64 + (e.lit.getD 0).signExtend 64).setWidth 48
  let rest (t : State) : Prop := t = { s with wk := { s.wk with teams := t.wk.teams }, turn := t.turn }
    ∧ ∀ k, k ≠ i.team.id → t.team? k = s.team? k
  let faults (op : Op) (sub : BitVec 8) (bad : Lane → Bool) : Prop := (∃ l, l ∈ i.act ∧ bad l) →
    ∃ t : State, exec (op.instr e) s = .next t.finishSlot ∧ rest t ∧ ∀ n a, s.thread? i.team.id n = some a → (i.actors n).length ≤ 1 →
      ∃ m : Nat, (∀ k, k < 64 → Nat.testBit m k = i.act.any (fun l => bad l && l.lane == k))
        ∧ t.thread? i.team.id n = some (if i.actors n = [] then a else
          { a with faults := a.faults ++ [⟨0x20, sub, BitVec.ofNat 64 m, i.turn.pc, i.turn.slot, op.instr e, .none, 0, [], false⟩] })
  (s.Issues .exit e i →
    ∃ t : State, exec (.exit e) s = .next t.finishSlot ∧ t.mm = { s.mm with loads := t.mm.loads } ∧ t.fe = s.fe ∧ t.clock = s.clock
      ∧ (∀ k, k ≠ i.team.id → t.team? k = s.team? k)
      ∧ (∀ n a, s.thread? i.team.id n = some a → i.actors n = [] → t.thread? i.team.id n = some a)
      ∧ (∀ n a, s.thread? i.team.id n = some a → i.actors n ≠ [] → ∃ b, t.thread? i.team.id n = some b
        ∧ b = { a with alive := false, pend := [], wait := .run, stack := [], faults := [], next := none })
      ∧ ∀ u r, t.team? i.team.id = some u → r ∈ u.insts → r.counted ≠ []
        ∧ ∀ l, l ∈ i.act → l.th.ltid ∉ r.counted ∧ l.th.ltid ∉ r.arrived)
  ∧ (s.Issues .rgn e i → (∀ l, l ∈ i.act → l.th.stack.length < 16) → ∃ t : State, exec (.rgn e) s = .next t.finishSlot ∧ rest t
    ∧ (∀ n a, s.thread? i.team.id n = some a → t.thread? i.team.id n = some (if i.actors n = [] then a else
        { a with stack := ⟨i.team.nextI, label⟩ :: a.stack }))
    ∧ ∃ u, t.team? i.team.id = some u ∧ u = { i.team with
        threads := u.threads, insts := i.team.insts ++ [⟨i.team.nextI, i.act.map (fun l => l.th.ltid), []⟩], nextI := i.team.nextI + 1 })
  ∧ (s.Issues .rgn e i → faults .rgn 1 (fun l => decide (16 ≤ l.th.stack.length)))
  ∧ (s.Issues .join e i → (∀ l, l ∈ i.act → ∃ r rs, l.th.stack = r :: rs ∧ r.label = i.turn.pc) →
      ∃ t : State, exec (.join e) s = .next t.finishSlot ∧ rest t
        ∧ (∀ n a, s.thread? i.team.id n = some a → i.actors n = [] → t.thread? i.team.id n = some a)
        ∧ (∀ n a l r rs, s.thread? i.team.id n = some a → i.actors n = [l] → l.th.stack = r :: rs →
          t.thread? i.team.id n = some { a with stack := rs, wait := .join r.inst })
        ∧ ∃ u, t.team? i.team.id = some u ∧ u = { i.team with
          threads := u.threads
          insts := i.team.insts.map (fun q => { q with
            arrived := q.arrived ++ (i.act.filter (fun l => l.th.stack.head?.any (fun r => r.inst == q.id))).map (fun l => l.th.ltid) }) })
  ∧ (s.Issues .join e i → faults .join 2 (fun l => !((l.th.stack.head?.map Region.label) == some i.turn.pc)))
  ∧ (s.Issues .rgp e i → ∃ t : State, exec (.rgp e) s = .next t.finishSlot ∧ rest t
      ∧ ∀ n a, s.thread? i.team.id n = some a → t.thread? i.team.id n = some (if i.actors n = [] then a else
          { a with wait := .rgp i.turn.pc i.turn.slot }))

/-! ### The end of a part, visibility and formation -/

/-- 03 R54, R63, 07 R143: once the last instruction of a part has issued, the threads of its warp stand at their targets, at the
part that follows in the packet, or at the next packet; nothing that they hold has changed, nor anything outside the team. The part
is one that begins and ends no wait, in a team with nothing left to trap or to stop for. -/
def Obligations.PartEnd : Prop := ∀ (s : State) (t : Turn) (tm : Team) (w : Warp), s.turn = some t → t.more = [] → t.only = none →
  t.wake = false → s.team? t.team = some tm → tm.warp? t.warp = some w → tm.calm = true → (∀ v, v ∈ tm.warps → v.stop = []) →
  (∀ a, a ∈ tm.threads → some a.ltid ∈ w.lanes → a.wait = .run) →
  s.dbg.stepping = none →
  ∃ u : State, u = s.finishSlot ∧ u = { s with wk := { s.wk with teams := u.wk.teams }, turn := none, issueN := s.issueN + 1 }
    ∧ (∀ k, k ≠ t.team → u.team? k = s.team? k)
    ∧ ∀ n a, tm.thread? n = some a → (some n ∉ w.lanes → u.thread? t.team n = some a)
      ∧ (some n ∈ w.lanes → ∃ b, u.thread? t.team n = some b
        ∧ b = { a with pc := b.pc, slot := b.slot, next := none, regs := b.regs, preds := b.preds, pend := b.pend, lastIssue := s.clock.clk }
        ∧ (∀ T, a.next = some T → b.pc = T ∧ b.slot = 0)
        ∧ (a.next = none → (∀ k, t.next = some k → b.pc = t.pc ∧ b.slot = k) ∧ (t.next = none → b.pc = t.pc + 16 ∧ b.slot = 0))
        ∧ (∀ k, b.final (.reg k) = a.final (.reg k)) ∧ ∀ k, k < 7 → (b.final (.pred k) != 0) = (a.final (.pred k) != 0))

/-- 03 R64 to R66: after a distance a thread reads the last of the fixed-latency results whose latency it covers, and after a taken
transfer or a formation the last of all; a result still on its way from memory or an engine is not read. -/
def Obligations.VisibleResults : Prop := ∀ (a : Thread) (n : Nat),
  let value (shows : Pend → Bool) (tgt : Target) (v : Word) : Word :=
    a.pend.foldl (fun v p => if p.tgt == tgt && shows p then p.val else v) v
  let covered (p : Pend) : Bool := match p.src with
    | .fixed d => decide (d ≤ n)
    | .mem _ | .cmd _ => false
  let fixed (p : Pend) : Bool := match p.src with
    | .fixed _ => true
    | .mem _ | .cmd _ => false
  (∀ k, (a.age n).reg k = value covered (.reg k) (Table.read 0 a.regs k))
  ∧ (∀ k, k < 7 → (a.age n).pred k = (value covered (.pred k) (if Nat.testBit a.preds.toNat k then 1 else 0) != 0))
  ∧ (a.age n).pred 7 = true
  ∧ (∀ k, a.allSeen.reg k = value fixed (.reg k) (Table.read 0 a.regs k))
  ∧ ∀ k, k < 7 → a.allSeen.pred k = (value fixed (.pred k) (if Nat.testBit a.preds.toNat k then 1 else 0) != 0)

/-- 08 R163 to R166: a formation of threads that run puts each of them, and no other, into one new warp; a warp's threads share
their packet address and slot, stand in the team's order, and are no more than the group width. -/
def Obligations.FormationResults : Prop := ∀ (t : Team) (w due : Nat) (ids : List Nat), 0 < w →
  ∃ kept new : List Warp, (t.form w ids none due).warps = kept ++ new
    ∧ (∀ v, v ∈ new → v.due = due ∧ v.lanes ≠ [] ∧ v.lanes.length ≤ w ∧ ∃ ths : List Thread, v.lanes = ths.map (fun a => some a.ltid)
        ∧ ths.Sublist t.threads ∧ ∀ a b, a ∈ ths → b ∈ ths → a.pc = b.pc ∧ a.slot = b.slot)
    ∧ (new.flatMap Warp.lanes).Perm ((t.threads.filter (fun a => a.alive && ids.contains a.ltid)).map (fun a => some a.ltid))
    ∧ new.Pairwise (fun u v => u.id < v.id)
    ∧ (∀ v, v ∈ kept → (∃ n, some n ∈ v.lanes) ∧ ∀ n, some n ∈ v.lanes → n ∉ ids)
    ∧ ∀ n a, t.thread? n = some a → ∃ b, (t.form w ids none due).thread? n = some b
      ∧ b = { a with regs := b.regs, preds := b.preds, pend := b.pend, wait := if n ∈ ids then .run else a.wait }

/-! ### Memory accesses -/

/-- 07 R151, 15 R267: the address of an access. 07 R152, 15 R268, 26 R411: its faults, each before those that follow it, in a scratchpad,
in the weight store and in a trap frame; in the global space, those that come before and after translation, those of poisoned data (13
R236, R240; 30 R474, R484), and those in an argument block (01 R23, 09 R180). -/
def Obligations.AccessChecks : Prop := ∀ (s : State) (i : Iss) (l : Lane),
  let ea := l.addr i.e
  let n := accBytes (typeOf 3 i.e)
  let p := i.place s l
  let space := i.e.x.space
  let k := accKind i.op
  let spad (m : Team) (q : Except (BitVec 16) Place) : Prop :=
    (s.spadSize m < ea + n → q = .error 0x14)
    ∧ (ea + n ≤ s.spadSize m → ea < s.spadSize m → ea % n ≠ 0 → q = .error 0x11)
    ∧ (ea + n ≤ s.spadSize m → ea < s.spadSize m → ea % n = 0 →
        (k ≠ .read → s.hitsBar m.core m.id ea n = true → q = .error 0x17)
        ∧ (k = .read ∨ s.hitsBar m.core m.id ea n = false → q = .ok (.spad m.id ea)))
  ea = (BitVec.ofNat 64 (l.src 2 i.e.a.toNat) + (i.e.lit.getD 0).signExtend 64).toNat
  ∧ (space = 0 → 2 ^ 48 ≤ ea → p = .error 0x10) ∧ (space = 0 → ea < 2 ^ 48 → ea % n ≠ 0 → p = .error 0x11)
  ∧ (space = 0 → ea < 2 ^ 48 → ea % n = 0 → ∀ g off, s.argHit i.ctx ea = some (g, off) →
      (s.argSize g < off + n → p = .error 0x12)
      ∧ (off + n ≤ s.argSize g → p = if k = .read then .ok (.mem (.arg g off)) else .error 0x13))
  ∧ (space = 0 → ea < 2 ^ 48 → ea % n = 0 → s.argHit i.ctx ea = none →
      (s.translate (.vector i.core) i.ctx ea = none → p = .error 0x12)
      ∧ ∀ pte bits, s.translate (.vector i.core) i.ctx ea = some (pte, bits) →
        let pa := 4096 * (pte / 2 ^ 12 % 2 ^ 36) + ea % 2 ^ bits
        let rd := Nat.testBit pte 2
        let wr := Nat.testBit pte 3
        let place := Place.mem (.phys pa (pte / 2 ^ 6 % 4))
        let reads : Prop := k = .read ∨ k = .rmw
        let whole : Prop := s.poisoned pa = false ∧ s.poisoned (pa + n - 1) = false ∧ s.uncorrectable pa n = false
        ((k = .read ∧ rd = false) ∨ (k = .write ∧ wr = false) ∨ ((k = .rmw ∨ k = .red) ∧ (rd && wr) = false) → p = .error 0x13)
        ∧ ((k = .read ∧ rd = true) ∨ (k = .write ∧ wr = true) ∨ ((k = .rmw ∨ k = .red) ∧ (rd && wr) = true) →
          (reads → s.pkg.backed pa = true → whole → p = .ok place)
          ∧ (reads → (s.pkg.backed pa = false ∨ ¬whole) → p = .error 0x18)
          ∧ (¬reads → p = if s.pkg.backed pa = true ∨ s.pkg.lostHome pa = true then .ok place else .error 0x18)))
  ∧ (space = 1 → i.warp.trap = none → spad i.team p)
  ∧ (space = 1 → ∀ r, i.warp.trap = some r → if 0x100000 ≤ ea ∧ ea + n ≤ 0x100100 then
        (ea % n ≠ 0 → p = .error 0x11) ∧ (ea % n = 0 → p = .ok (.frame r (ea - 0x100000))) else spad i.team p)
  ∧ (space = 2 → s.crewSize i.team ≤ rankOf i.op i.e → p = .error 0x15)
  ∧ (space = 2 → rankOf i.op i.e < s.crewSize i.team → ∀ m, s.crewMember i.team (rankOf i.op i.e) = some m →
      (m.freed = true → k ≠ .read → p = .error 0x15) ∧ (m.freed = false ∨ k = .read → spad m p))
  ∧ (space = 3 → k ≠ .read → p = .error 0x16)
  ∧ (space = 3 → k = .read → (2 ^ 28 < ea + n → p = .error 0x14)
      ∧ (ea + n ≤ 2 ^ 28 → ea < 2 ^ 28 → ea % n ≠ 0 → p = .error 0x11)
      ∧ (ea + n ≤ 2 ^ 28 → ea < 2 ^ 28 → ea % n = 0 → p = if s.wsPoisoned (dieOf i.core) ea n = true then .error 0x18 else .ok (.ws ea)))

/-- 07 R151, 10 R213, R214, 13 R231, R233, 15 R270: each performance of a load gives its lanes the bytes of its place, or meets its
fault. Every byte is one that the place has held or that a store has on its way to it (14 R257); it is the present one where every write
that the place has recorded must be found (14 R248, R255), where the load's scope reaches L2 or its page is not cached (14 R259), and
where the core has acquired every write of it (14 R256). A regrouping load leaves the ordering keys of its lanes. -/
def Obligations.LoadResults : Prop := ∀ (s : State) (e : Enc) (i : Iss), s.Issues .ld e i →
  let ty := typeOf 3 e
  let n := accBytes ty
  let scope := e.x.scope.toNat
  let loaded (p : Lane × List Lane) (a b : State) : Prop :=
    let r := a.reader i.core i.team.id p.1.th.ltid
    (∀ c, i.place a p.1 = .error c → a.Faulted b i p.1 p.2 c 0)
    ∧ ∀ q, i.place a p.1 = .ok q → ∃ (m : State) (v : Nat) (bs : List Byte), m = { a with mm := m.mm, free := m.free }
      ∧ m.Gave b i.team.id (fun k => if p.2.any (fun r => r.th.ltid == k) then [p.1] else []) (fun _ => toRegs e.d (typeRegs ty) v) (fun _ => 0)
      ∧ v < 2 ^ max 32 (typeWidth ty)
      ∧ readInt (isSigned ty) (max 32 (typeWidth ty)) v = readInt (isSigned ty) (typeWidth ty) (ofBytes bs)
      ∧ ((∀ pa mt, q ≠ .mem (.phys pa mt)) → m.mm.cells = a.mm.cells
        ∧ ((∀ o off, q ≠ .spad o off) ∨ scope ≠ 0 → bs = a.readPlace i.team q n)
        ∧ ∀ o off tm, q = .spad o off → a.team? o = some tm → (tm.Certain r off n → bs = a.readPlace i.team q n)
          ∧ ∀ k, k < n → ∃ x, bs[k]? = some x
            ∧ FoundIn (Table.read [] tm.spadLog (chunkOf (off + k))) [] (tm.spadBytes (8 * chunkOf (off + k)) 8) ((off + k) % 8) x)
      ∧ ∀ pa mt, q = .mem (.phys pa mt) → bs.length = n ∧ (a.mm.contribs = [] → m.mm.contribs = []
        ∧ (a.memOk → ∀ k, k < n → ∃ x, bs[k]? = some x ∧ a.Findable (pa + k) x)
        ∧ (a.Quiet i.core → a.Settled → m.Quiet i.core ∧ m.Settled ∧ (mt = 0 → m.mm.cells = a.mm.cells)
          ∧ (mt ≠ 0 ∨ 2 ≤ scope ∨ e.x.cache = 3
              ∨ (scope = 0 ∧ ∀ c, c ∈ chunksOf pa n → a.Told c ∧ a.Certain r c)
              ∨ (scope = 1 ∧ ∀ c, c ∈ chunksOf pa n → a.Told c ∧ ∀ x, x ∈ Table.read [] a.mm.hist c →
                  x.num < (a.l1 i.core).since ∨ x.write.cores.contains i.core = true) →
            ∀ k, k < n → bs[k]? = some (a.seenBy i.core (pa + k)))))
  ∃ u v t : State, exec (.ld e) s = .next t.finishSlot ∧ Each loaded i.perf s u ∧ (i.acqHalf u).Watched v
    ∧ (Nat.testBit e.x.aux.toNat 0 = false ∨ i.turn.only ≠ none → t = v)
    ∧ (Nat.testBit e.x.aux.toNat 0 = true → i.turn.only = none →
      ∃ keys, t = v.updTeam i.team.id (fun tm => tm.updWarp i.warp.id (fun w => { w with lines := some keys }))
      ∧ keys.map Prod.fst = (i.perf.flatMap Prod.snd).map (fun l => l.th.ltid)
      ∧ ∀ p l, p ∈ i.perf → l ∈ p.2 → (l.th.ltid, p.1.addr e / 2 ^ 8 % 2 ^ 40) ∈ keys)

/-- 13 R239, 15 R271 to R273: the read-only path and prefetch. A byte is one that global memory has held or a store has on its way to
it, and the present one at L2 where every write that has reached it came before the thread's last `ldcinv` or its start, or where its page
is not cached; `ldcinv` makes that point the present one and empties the core's cache; a prefetch gives no result and changes no byte. -/
def Obligations.ReadOnlyResults : Prop := ∀ (s : State) (e : Enc) (i : Iss),
  let ty := typeOf 3 e
  let n := accBytes ty
  let loaded (p : Lane × List Lane) (a b : State) : Prop :=
    (∀ c, i.place a p.1 = .error c → a.Faulted b i p.1 p.2 c 0)
    ∧ ∀ q, i.place a p.1 = .ok q → ∃ (m : State) (v : Nat) (bs : List Byte), m = { a with mm := m.mm, free := m.free }
      ∧ m.Gave b i.team.id (fun k => if p.2.any (fun r => r.th.ltid == k) then [p.1] else []) (fun _ => toRegs e.d (typeRegs ty) v) (fun _ => 0)
      ∧ v < 2 ^ max 32 (typeWidth ty)
      ∧ readInt (isSigned ty) (max 32 (typeWidth ty)) v = readInt (isSigned ty) (typeWidth ty) (ofBytes bs)
      ∧ ((∀ pa mt, q ≠ .mem (.phys pa mt)) → bs = a.readPlace i.team q n ∧ m.mm = a.mm)
      ∧ ∀ pa mt, q = .mem (.phys pa mt) → bs.length = n ∧ (a.memOk → ∀ k, k < n → ∃ x, bs[k]? = some x ∧ a.Findable (pa + k) x)
        ∧ (a.Quiet i.core → a.Settled → m.Quiet i.core ∧ m.Settled ∧ (mt = 0 → m.mm.cells = a.mm.cells)
          ∧ (mt ≠ 0 → ∀ k, k < n → bs[k]? = some (a.seenBy i.core (pa + k)))
          ∧ (mt = 0 → ∀ th, a.thread? i.team.id p.1.th.ltid = some th →
              (∀ c, c ∈ chunksOf pa n → a.Told c ∧ ∀ x, x ∈ Table.read [] a.mm.hist c → x.num < th.roSince) →
              ∀ k, k < n → bs[k]? = some (a.mm.byte (pa + k))))
  (s.Issues .ldc e i → ∃ u t : State, exec (.ldc e) s = .next t.finishSlot ∧ Each loaded i.perf s u ∧ u.Watched t)
  ∧ (s.Issues .ldcinv e i → ∃ t : State, exec (.ldcinv e) s = .next t.finishSlot
      ∧ t = { s with mm := { s.mm with ro := t.mm.ro }, wk := { s.wk with teams := t.wk.teams } }
      ∧ Table.look t.mm.ro i.core = none ∧ (∀ c, c ≠ i.core → Table.look t.mm.ro c = Table.look s.mm.ro c)
      ∧ ∀ k m a, s.thread? k m = some a → t.thread? k m = some
          (if k = i.team.id ∧ ∃ l, l ∈ i.act ∧ l.th.ltid = m then { a with roSince := s.mm.nextW } else a))
  ∧ (s.Issues .prf e i → ∃ u t : State, exec (.prf e) s = .next t.finishSlot ∧ u = { s with mm := u.mm, free := u.free } ∧ u.Watched t
      ∧ (s.Settled → u.mm = { s.mm with tlb := u.mm.tlb, fills := u.mm.fills, near := u.mm.near, nextC := u.mm.nextC }
        ∧ (e.x.aux ≠ 0 → u.mm.fills = s.mm.fills) ∧ (e.x.aux = 2 → u.mm.near = s.mm.near)))

/-- 07 R151, R153, 13 R231, R233, 15 R269, R270: each performance of a store writes its bytes and no others, retires into the side log
on a page fault, or meets its fault. The core finds the bytes from then on; they are at L2 where the store is atomic at scope crew or wider,
where its policy or its page sends it there (14 R259), and otherwise L2 holds what it held, or what the core wrote before where a line had
to leave L1. -/
def Obligations.StoreResults : Prop := ∀ (s : State) (e : Enc) (i : Iss), s.Issues .st e i →
  let ty := typeOf 3 e
  let n := accBytes ty
  let cache := e.x.cache.toNat
  let stored (p : Lane × List Lane) (a b : State) : Prop :=
    ∃ bs : List Byte, bs.length = n ∧ ofBytes bs = p.1.src (typeRegs ty) e.b.toNat % 2 ^ (8 * n)
      ∧ (∀ c, i.place a p.1 = .error c → c ≠ 0x12 → a.Faulted b i p.1 p.2 c 1)
      ∧ (i.place a p.1 = .error 0x12 → ∀ o r, a.drew.offerFault i.ctx i.core (p.1.addr e) 2 1 (Config.freeBits 32 (a.free + 1)).toNat 0xFF false = (o, r) →
          (o ≠ .declined → b.wk = r.wk ∧ b.mm.cells = r.mm.cells ∧ ∃ x, b.mm.side = r.mm.side ++ [x] ∧ x.thread = p.1.th.ltid ∧ x.team = i.team.id
            ∧ x.va = BitVec.ofNat 64 (p.1.addr e) ∧ x.data = bs ∧ x.red = none ∧ x.offer = o)
          ∧ (o = .declined → b = r.drew.endTeam i.team.id (p.1.addr e)))
      ∧ ∀ q, i.place a p.1 = .ok q →
        ((∀ pa mt, q ≠ .mem (.phys pa mt)) → b = a.drew.writePlace i.team (.ofThread i.core i.team.id p.1.th.ltid) q bs)
        ∧ ∀ pa mt, q = .mem (.phys pa mt) →
          let through : Prop := mt ≠ 0 ∨ 2 ≤ e.x.scope.toNat ∨ cache = 3 ∨ cache = 4 ∨ cache = 5
          let mine (x : Nat) : Prop := pa ≤ x ∧ x < pa + n
          (a.mm.contribs = [] → a.pkg.backed pa = true → (∀ c, c ∈ chunksOf pa n → a.pkg.backed (8 * c) = true) → a.Quiet i.core →
            b = { a with mm := b.mm, free := b.free } ∧ b.mm.contribs = [] ∧ b.Quiet i.core
            ∧ (∀ x, (mine x → b.seenBy i.core x = bs.getD (x - pa) 0) ∧ (¬mine x → b.seenBy i.core x = a.seenBy i.core x))
            ∧ (through → ∀ x, mine x → b.mm.byte x = bs.getD (x - pa) 0)
            ∧ (a.Settled → b.Settled ∧ ∀ x, ¬(through ∧ mine x) → b.mm.byte x = a.mm.byte x ∨ b.mm.byte x = a.seenBy i.core x))
  ∃ u t : State, exec (.st e) s = .next t.finishSlot ∧ Each stored i.perf (i.relHalf s) u ∧ u.Watched t

/-- 15 R275 to R277: the new value of an atomic operation, and of a compare-and-swap. -/
def Obligations.AtomicResults : Prop := ∀ (s : State) (e : Enc) (i : Iss),
  let ty := typeOf 3 e
  let n := accBytes ty
  let w := typeWidth ty
  let sg := isSigned ty
  let op := e.x.c.toNat
  let next (l : Lane) (old new : Nat) : Prop :=
    let b := l.src (typeRegs ty) e.b.toNat
    (ty ≠ 0xC → new < 2 ^ w ∧ (op = 0 → (2 ^ w : Int) ∣ (new : Int) - (old + b))
      ∧ (op = 1 → readInt sg w new = min (readInt sg w old) (readInt sg w b)) ∧ (op = 2 → readInt sg w new = max (readInt sg w old) (readInt sg w b))
      ∧ (op = 3 → ∀ j, j < w → Nat.testBit new j = (Nat.testBit old j && Nat.testBit b j))
      ∧ (op = 4 → ∀ j, j < w → Nat.testBit new j = (Nat.testBit old j || Nat.testBit b j))
      ∧ (op = 5 → ∀ j, j < w → Nat.testBit new j = (Nat.testBit old j ^^ Nat.testBit b j))
      ∧ (op = 6 → new = b % 2 ^ w) ∧ (op = 7 → new = if b % 2 ^ w ≤ old then 0 else old + 1))
    ∧ (ty = 0xC → new = (if op = 0 then f32.add 0 false old b else f32.minmax (op != 1) old b).1)
  let swap (l : Lane) (old : Nat) (new : Option Nat) : Prop :=
    new = if old = l.src (typeRegs ty) e.b.toNat % 2 ^ w then some (l.src (typeRegs ty) e.x.c.toNat % 2 ^ w) else none
  let done (f : Lane → Nat → Option Nat → Prop) (p : Lane × List Lane) (a b : State) : Prop :=
    (∀ c, i.place a p.1 = .error c → a.Faulted b i p.1 p.2 c 2)
    ∧ ∀ q, i.place a p.1 = .ok q → ∃ (m : State) (old : Nat) (new : Option Nat), old < 2 ^ w ∧ f p.1 old new
      ∧ m.Gave b i.team.id (fun k => if p.2.any (fun r => r.th.ltid == k) then [p.1] else []) (fun _ => toRegs e.d (typeRegs ty) old) (fun _ => 0)
      ∧ ((∀ pa mt, q ≠ .mem (.phys pa mt)) → old = ofBytes (a.readPlace i.team q n)
        ∧ m = match new with
          | some x => a.drew.numbered.writePlace i.team (.ofThread i.core i.team.id p.1.th.ltid) q ((List.range n).map (fun k => BitVec.ofNat 8 (x / 2 ^ (8 * k))))
          | none => a.drew.numbered)
      ∧ ∀ pa mt, q = .mem (.phys pa mt) → m = { a with mm := m.mm, free := m.free } ∧ (a.mm.contribs = [] → a.Quiet i.core →
        (∀ c, c ∈ chunksOf pa n → a.pkg.backed (8 * c) = true) → m.mm.contribs = [] ∧ m.Quiet i.core
        ∧ (∀ k, k < n → (a.seenBy i.core (pa + k)).toNat = old / 2 ^ (8 * k) % 2 ^ 8)
        ∧ (∀ x, (m.seenBy i.core x).toNat = if pa ≤ x ∧ x < pa + n then new.getD old / 2 ^ (8 * (x - pa)) % 2 ^ 8 else (a.seenBy i.core x).toNat)
        ∧ (mt = 0 → lineOf pa ∈ (m.l1 i.core).excl)
        ∧ (mt ≠ 0 → (∀ x, pa ≤ x → x < pa + n → m.mm.byte x = m.seenBy i.core x) ∧ lineOf pa ∉ (m.l1 i.core).excl))
  (s.Issues .atom e i → ∃ u t : State, exec (.atom e) s = .next t.finishSlot
    ∧ Each (done (fun l old new => ∃ x, new = some x ∧ next l old x)) i.perf (i.relHalf s) u ∧ (i.acqHalf u).Watched t)
  ∧ (s.Issues .cas e i → ∃ u t : State, exec (.cas e) s = .next t.finishSlot
    ∧ Each (done swap) i.perf (i.relHalf s) u ∧ (i.acqHalf u).Watched t)

/-- 15 R278 to R280: each performance of a reduction sends one contribution, with the grid's epoch and the key where it is ordered,
retires into the side log on a page fault, or meets its fault. No byte that its core finds changes before the contribution arrives. -/
def Obligations.ReductionResults : Prop := ∀ (s : State) (e : Enc) (i : Iss),
  let ty := typeOf 3 e
  let sent (det : Bool) (p : Lane × List Lane) (a b : State) : Prop :=
    let c (num pa : Nat) : Contrib :=
      { n := num, grid := i.team.grid, ctx := i.team.ctx, team := i.team.id, thread := p.1.th.ltid, core := i.team.core,
        index := i.team.index, issue := a.issueN
        det := if det then some (((a.grid? i.team.grid).map Grid.epoch).getD 0, BitVec.ofNat 40 (p.1.src 2 e.x.c.toNat)) else none
        opcode := e.d.toNat, type := BitVec.ofNat 5 ty, addr := pa, val := BitVec.ofNat 64 (p.1.src (typeRegs ty) e.b.toNat), st := .flight }
    (∀ f, i.place a p.1 = .error f → f ≠ 0x12 → a.Faulted b i p.1 p.2 f 2)
    ∧ (i.place a p.1 = .error 0x12 → ∀ o r, a.drew.offerFault i.ctx i.core (p.1.addr e) 2 2 (Config.freeBits 32 (a.free + 1)).toNat 0xFF false = (o, r) →
        (o ≠ .declined → b.wk = r.wk ∧ b.mm.cells = r.mm.cells ∧ ∃ x, b.mm.side = r.mm.side ++ [x] ∧ x.thread = p.1.th.ltid ∧ x.team = i.team.id
          ∧ x.va = BitVec.ofNat 64 (p.1.addr e) ∧ x.offer = o ∧ x.red = some (c 0 0))
        ∧ (o = .declined → b = r.drew.endTeam i.team.id (p.1.addr e)))
    ∧ ∀ pa mt, i.place a p.1 = .ok (.mem (.phys pa mt)) → (a.pkg.lostHome pa = true → b = a.drew.endTeam i.team.id (p.1.addr e))
      ∧ (a.pkg.lostHome pa = false → mt ≠ 2 → b = { a with mm := b.mm, free := a.free + 1 } ∧ b.mm.nextC = a.mm.nextC + 2
        ∧ b.mm.contribs = a.mm.contribs ++ [c (a.mm.nextC + 1) pa]
        ∧ (a.Quiet i.core → b.Quiet i.core ∧ ∀ x, b.seenBy i.core x = a.seenBy i.core x))
      ∧ (a.pkg.lostHome pa = false → mt = 2 → det = false → a.mm.contribs = [] → b = { a with mm := b.mm, free := a.free + 1 }
        ∧ b.mm.nextC = a.mm.nextC + 2 ∧ b.mm.contribs = [])
  (s.Issues .red e i → ∃ u t : State, exec (.red e) s = .next t.finishSlot ∧ Each (sent false) i.perf (i.relHalf s) u ∧ u.Watched t)
  ∧ (s.Issues .redDet e i → ∃ u t : State, exec (.redDet e) s = .next t.finishSlot ∧ Each (sent true) i.perf s u ∧ u.Watched t)

/-- 14 R253, R258 to R260, 13 R231, 15 R274, R280, 19 R331, 30 R490: a release leaves no load of its threads outstanding, and from scope crew
on what its core finds is at L2 and nothing is dirty in its L1; an acquire makes its threads find, from scope crew on, every write that had
reached L2, and leaves from scope pkg on no pending invalidation of its context. A fence flushes the rewrite window, releases and acquires as
its order says, at scope team it makes the later returning atomics of its threads releases, and, where it closes an epoch, it advances the
epoch number of its grid and makes its warp wait for that epoch. -/
def Obligations.FenceResults : Prop :=
  (∀ (s : State) (team core ctx scope : Nat) (ids : List Nat),
    let t := s.acquire ctx core team ids scope
    (∀ n a, (s.release team core ids scope).thread? team n = some a → n ∈ ids → ∀ p, p ∈ a.pend → ∀ id, p.src ≠ .mem id)
    ∧ (s.mm.contribs = [] → (s.release team core ids scope).mm.contribs = []
      ∧ (2 ≤ scope → s.Quiet core → ((s.release team core ids scope).l1 core).dirty = [] ∧ ((s.release team core ids scope).l1 core).promo = []
        ∧ ((∀ w, w ∈ s.mm.wbs → w.core = core) → (s.release team core ids scope).mm.wbs = []
          ∧ ∀ x, (s.release team core ids scope).mm.byte x = s.seenBy core x)))
    ∧ t = { s with mm := t.mm, wk := { s.wk with teams := t.wk.teams } } ∧ t.mm.cells = s.mm.cells ∧ t.mm.hist = s.mm.hist
    ∧ (scope < 2 → t.mm = s.mm)
    ∧ (∀ k n a, s.thread? k n = some a → t.thread? k n = some (if k = team ∧ n ∈ ids then { a with since := s.mm.nextW } else a))
    ∧ (2 ≤ scope → ∀ n a c, s.thread? team n = some a → n ∈ ids → ∀ x, x ∈ Table.read [] s.mm.hist c → x.num < s.mm.nextW →
        (t.reader core team n).must x = true)
    ∧ (4 ≤ scope → ∀ x, x ∈ Table.read [] t.mm.invlogs (dieOf core) → x.ctx ≠ ctx))
  ∧ (∀ (s : State) (e : Enc) (i : Iss), s.Issues .fence e i →
    let o := e.x.order.toNat
    let scope := e.x.scope.toNat
    let ids := i.act.map (fun l => l.th.ltid)
    let closing : Prop := (o = 2 ∨ o = 3 ∨ o = 4) ∧ (scope = 3 ∨ scope = 4 ∨ scope = 5)
    let u := if o = 1 then s.flushWindow i.team.id else (s.flushWindow i.team.id).release i.team.id i.team.core ids scope
    let mark (x : State) : State := if o ≠ 1 ∧ scope = 1
      then x.updTeam i.team.id (fun tm => tm.updThreads ids (fun th => { th with fenced := true })) else x
    let acq (x : State) : State := if o = 2 then x else x.acquire i.team.ctx i.team.core i.team.id ids scope
    ∃ t : State, exec (.fence e) s = .next t.finishSlot
      ∧ (¬closing → t = acq (mark u))
      ∧ (closing → ∀ g, u.grid? i.team.grid = some g → ∃ v : State, t = acq v ∧ v.grid? g.id = some { g with epoch := g.epoch + 1 }
        ∧ (u.mm.contribs = [] → v.mm = u.mm ∧ (∀ k, k ≠ i.team.id → v.team? k = u.team? k)
          ∧ ∀ tm w, u.team? i.team.id = some tm → tm.warp? i.warp.id = some w →
            ∃ tm' w', v.team? i.team.id = some tm' ∧ tm'.warp? i.warp.id = some w' ∧ tm'.threads = tm.threads
              ∧ w' = { w with fence := some ⟨g.epoch, ids, o != 2, scope, i.turn.pc, i.turn.slot, false⟩ })))
/-! ### Barriers -/

/-- 15 R283, R285, R286: `binit` allocates the lowest free entry for each performance in turn and writes the object, or fails in every
lane (log entry 12: the handle part of DETAIL is free there). -/
def Obligations.BarrierInitResults : Prop := ∀ (s : State) (e : Enc) (i : Iss), s.Issues .binit e i →
  let core := i.team.core
  let off (p : Lane × List Lane) : Nat := p.1.src 1 e.a.toNat
  let count (p : Lane × List Lane) : Nat := p.1.opB .binit e 1 3
  let held (a : State) : Nat := (List.range 256).countP (fun k => (a.barEntry core k).team == some i.team.id)
  let quota := ((s.launchOf i.team).map Launch.bars).getD 0
  let free (a : State) (ix : Nat) : Prop := ix < 256 ∧ (a.barEntry core ix).team = none ∧ ∀ k, k < ix → (a.barEntry core k).team ≠ none
  let bad (p : Lane × List Lane) (a : State) (c : BitVec 16) : Prop :=
    if off p % 16 ≠ 0 ∨ a.hitsBar core i.team.id (off p) 16 = true then c = 0x17
    else if s.spadSize i.team < off p + 16 then c = 0x14
    else if quota ≤ held a then c = 0x22
    else if count p = 0 ∨ 4095 < count p then c = 0x23
    else c = 0x22 ∧ ∀ k, k < 256 → (a.barEntry core k).team ≠ none
  let made (p : Lane × List Lane) (a b : State) : Prop := ∃ ix m, free a ix
    ∧ m = (a.setBar core ix ⟨(a.barEntry core ix).gen, some i.team.id, off p, [], 0, []⟩).writeSpad i.team.id .ofAgent (off p)
        (bytesOf 16 (count p + ix * 2 ^ 96 + (a.barEntry core ix).gen.toNat * 2 ^ 104))
    ∧ m.Gave b i.team.id (fun n => if p.2.any (fun r => r.th.ltid == n) then [p.1] else [])
        (fun _ => toRegs e.d 1 (ix + 2 ^ 8 * (a.barEntry core ix).gen.toNat)) (fun _ => 0)
  ((∀ k p a, i.perf[k]? = some p → Each made (i.perf.take k) s a → ¬∃ c, bad p a c) →
    ∃ t : State, exec (.binit e) s = .next t.finishSlot ∧ Each made i.perf s t)
  ∧ ∀ k p a c, i.perf[k]? = some p → Each made (i.perf.take k) s a → (∀ j q b, j < k → i.perf[j]? = some q → Each made (i.perf.take j) s b → ¬∃ c, bad q b c) →
    bad p a c → ∃ t : State, exec (.binit e) s = .next t.finishSlot ∧ t.mm = s.mm ∧ t.wk.bars = s.wk.bars
      ∧ ∃ h : Nat, h < 2 ^ 32 ∧ ∀ n x l, s.thread? i.team.id n = some x → i.actors n = [l] → t.thread? i.team.id n = some
        { x with faults := x.faults ++ [⟨c, 0, BitVec.ofNat 64 (h + p.1.lane * 2 ^ 32), i.turn.pc, i.turn.slot, .binit e, .none, 0, [], false⟩] }

/-- 15 R282, R287, R288, R290: one update of a barrier object. ARRIVED and PENDING take what the update adds, an engine's or child's
arrival beyond EXPECT being held with its scope; when ARRIVED equals EXPECT and PENDING is 0 the phase advances, with the widest scope
among its own arrivals, and the arrivals that are held are counted into the next. -/
def Obligations.BarrierUpdateResults : Prop := ∀ (s : State) (core team ix arrive late : Nat) (bytes : Int) (scope : Nat) (t : Team),
  s.team? team = some t →
  let x := s.barEntry core ix
  let o := t.barObj x.off
  let u := s.barUpdate core team ix arrive late bytes scope
  let fit := min late (o.expect - (o.arrived + arrive))
  let sum := o.arrived + arrive + fit
  o.expect < 4096 → sum < 4096 → (-2 ^ 31 ≤ o.pending + bytes ∧ o.pending + bytes < 2 ^ 31) →
  let wide := if 0 < arrive + fit then max x.cur scope else x.cur
  let held := x.held ++ List.replicate (late - fit) scope
  u.mm = { s.mm with nextW := u.mm.nextW } ∧ u.fe = s.fe ∧ (∀ k, k ≠ team → u.team? k = s.team? k) ∧ (∀ k, k < 256 → k ≠ ix → u.barEntry core k = s.barEntry core k)
  ∧ (u.barEntry core ix).team = x.team ∧ (u.barEntry core ix).gen = x.gen ∧ (u.barEntry core ix).off = x.off
  ∧ ∃ v, u.team? team = some v ∧ v.threads = t.threads
    ∧ (∀ k, k < x.off ∨ x.off + 16 ≤ k → v.spadByte k = t.spadByte k)
    ∧ (v.barObj x.off).expect = o.expect
    ∧ (¬(sum = o.expect ∧ o.pending + bytes = 0) → (v.barObj x.off).arrived = sum ∧ (v.barObj x.off).phase = o.phase
        ∧ (v.barObj x.off).pending = o.pending + bytes ∧ (u.barEntry core ix).held = held
        ∧ (u.barEntry core ix).cur = wide ∧ (u.barEntry core ix).done = x.done)
    ∧ (sum = o.expect → o.pending + bytes = 0 → held.length < o.expect → (v.barObj x.off).arrived = held.length
        ∧ (v.barObj x.off).phase = o.phase + 1 ∧ (v.barObj x.off).pending = 0 ∧ (u.barEntry core ix).held = []
        ∧ Table.read 0 (u.barEntry core ix).done o.phase.toNat = wide ∧ (∀ y, y ∈ held → y ≤ (u.barEntry core ix).cur))

/-- 15 R285, R287, R288, R290: `barr` and `bexp` give each lane the phase before the update and update every barrier once, or fail in
every lane. -/
def Obligations.BarrierArriveResults : Prop := ∀ (s : State) (e : Enc),
  let adds (op : Op) (arr : Bool) (bytes : Lane → Nat) : Prop := ∀ i, s.Issues op e i →
    let core := i.team.core
    let index (l : Lane) : Option Nat := s.barIndex core i.team.id (BitVec.ofNat 32 (l.src 1 e.a.toNat))
    let obj (ix : Nat) : BarObj := i.team.barObj (s.barEntry core ix).off
    let on (ps : List (Lane × List Lane)) (ix : Nat) : List Lane := (ps.map Prod.fst).filter (fun l => index l == some ix)
    let tooMany (ps : List (Lane × List Lane)) (ix : Nat) : Prop := (arr = true ∧ (obj ix).expect < (obj ix).arrived + (on ps ix).length)
      ∨ 2 ^ 31 ≤ (obj ix).pending + ((on ps ix).map bytes).sum
    ((∀ p, p ∈ i.perf → ∃ ix, index p.1 = some ix ∧ ¬tooMany i.perf ix) →
      ∃ (u v w t : State) (sums : List BarSum), exec (op.instr e) s = .next t.finishSlot
        ∧ u = (if arr then s.release i.team.id core (i.act.map (fun l => l.th.ltid)) 1 else s)
        ∧ (if arr then u.Gave v i.team.id i.givers (fun l => toRegs e.d 1 ((index l).map (fun ix => (obj ix).phase.toNat)).get!) (fun _ => 0) else v = u)
        ∧ Each (fun b x y => y = x.barUpdate core i.team.id b.index b.arrive 0 b.bytes 1) sums v w ∧ t = { w with turn := t.turn }
        ∧ (sums.map BarSum.index).Nodup ∧ (∀ p ix, p ∈ i.perf → index p.1 = some ix → ix ∈ sums.map BarSum.index)
        ∧ ∀ b, b ∈ sums → (arr = true → b.arrive = (on i.perf b.index).length) ∧ (arr = false → b.arrive = 0)
          ∧ b.bytes = ((on i.perf b.index).map bytes).sum)
    ∧ ∀ k p, i.perf[k]? = some p → (∀ j q, j < k → i.perf[j]? = some q → ∃ ix, index q.1 = some ix ∧ ¬tooMany (i.perf.take (j + 1)) ix) →
      ∀ c, (index p.1 = none ∧ c = 0x21) ∨ (∃ ix, index p.1 = some ix ∧ tooMany (i.perf.take (k + 1)) ix ∧ c = 0x23) →
        ∃ t : State, exec (op.instr e) s = .next t.finishSlot ∧ t.mm = s.mm ∧ t.wk.bars = s.wk.bars
          ∧ ∀ n x l, s.thread? i.team.id n = some x → i.actors n = [l] → t.thread? i.team.id n = some { x with faults := x.faults ++
            [⟨c, 0, BitVec.ofNat 64 (p.1.src 1 e.a.toNat + p.1.lane * 2 ^ 32), i.turn.pc, i.turn.slot, op.instr e, .none, 0, [], false⟩] }
  adds .barr true (fun _ => 0) ∧ (e.x.aux = 0 → adds .bexp false (fun l => l.opB .bexp e 1 3))
  ∧ (e.x.aux = 1 → adds .bexp true (fun l => l.opB .bexp e 1 3))

/-- 15 R283, R285, R289, R290, 19 R331: waiting for a phase, testing it, and ending a barrier. -/
def Obligations.BarrierWaitResults : Prop := ∀ (s : State) (e : Enc) (i : Iss),
  let core := i.team.core
  let handle (l : Lane) : Word := BitVec.ofNat 32 (l.src 1 e.a.toNat)
  let live (a : State) (l : Lane) : Prop := ∃ ix, a.barIndex core i.team.id (handle l) = some ix
  let complete (a : State) (l : Lane) (token : Word) : Prop := ∃ ix d, a.barIndex core i.team.id (handle l) = some ix
    ∧ (i.team.barObj (a.barEntry core ix).off).phase = token + BitVec.ofNat 32 d ∧ 1 ≤ d ∧ d < 2 ^ 31
  let widest (a : State) (l : Lane) (token : Word) : Nat :=
    ((a.barIndex core i.team.id (handle l)).map (fun ix => Table.read 0 (a.barEntry core ix).done token.toNat)).getD 0
  let ids (p : Lane × List Lane) : List Nat := p.2.map (fun l => l.th.ltid)
  let fails (op : Op) (l : Lane) (c : BitVec 16) : Prop := ∃ t : State, exec (op.instr e) s = .next t.finishSlot ∧ t.mm = s.mm ∧ t.wk.bars = s.wk.bars
    ∧ ∀ n x k, s.thread? i.team.id n = some x → i.actors n = [k] → t.thread? i.team.id n = some { x with faults := x.faults ++
      [⟨c, 0, BitVec.ofNat 64 (l.src 1 e.a.toNat + l.lane * 2 ^ 32), i.turn.pc, i.turn.slot, op.instr e, .none, 0, [], false⟩] }
  (s.Issues .bwait e i → (∀ p, p ∈ i.perf → live s p.1) → ∃ t : State, exec (.bwait e) s = .next t.finishSlot
    ∧ Each (fun p a b => let token := BitVec.ofNat 32 (p.1.opB .bwait e 1 3)
        (complete a p.1 token → b = a.acquire i.team.ctx core i.team.id (ids p) (widest a p.1 token))
        ∧ (¬complete a p.1 token → b = { a with wk := { a.wk with teams := b.wk.teams } } ∧ ∀ k n x, a.thread? k n = some x → b.thread? k n = some
            (if k = i.team.id ∧ p.2.any (fun l => l.th.ltid == n) then { x with wait := .bwait (handle p.1) token i.turn.pc i.turn.slot } else x)))
      i.perf (s.flushWindow i.team.id) t)
  ∧ (s.Issues .btry e i → (∀ p, p ∈ i.perf → live s p.1) → ∃ t : State, exec (.btry e) s = .next t.finishSlot
    ∧ Each (fun p a b => let token := BitVec.ofNat 32 (p.1.opB .btry e 1 3)
        ∃ (m : State) (r : Bool), (r = true ↔ complete a p.1 token)
          ∧ a.Gave m i.team.id (fun n => if p.2.any (fun l => l.th.ltid == n) then [p.1] else []) (fun _ => toPred e.d r) (fun _ => 0)
          ∧ b = if r then m.acquire i.team.ctx core i.team.id (ids p) (widest a p.1 token) else m) i.perf s t)
  ∧ (s.Issues .binv e i → (∀ k p a, i.perf[k]? = some p →
        Each (fun q x y => y = x.barFree core (q.1.src 1 e.a.toNat % 2 ^ 8)) (i.perf.take k) s a → live a p.1 ∧ a.barBusy i.team.id (handle p.1) = false) →
      ∃ t : State, exec (.binv e) s = .next t.finishSlot ∧ Each (fun q x y => y = x.barFree core (q.1.src 1 e.a.toNat % 2 ^ 8)) i.perf s t)
  ∧ (∀ k ix (a : State), ix < 256 → (a.barFree core ix).barEntry core ix = { BarEntry.reset with gen := (a.barEntry core ix).gen + 1 }
      ∧ (k < 256 → k ≠ ix → (a.barFree core ix).barEntry core k = a.barEntry core k))
  ∧ ∀ op, op = .bwait ∨ op = .btry ∨ op = .binv → s.Issues op e i → ∀ p rest, i.perf = p :: rest →
      (¬live s p.1 → fails op p.1 0x21) ∧ (op = .binv → live s p.1 → s.barBusy i.team.id (handle p.1) = true → fails op p.1 0x24)

/-! ### Engine commands -/

/-- 17 R296, R297, R305, R306, 21 R371, R374, 27 R433: a command enters at the tail of its queue, whole; a record is readable if every check
passes; a snapshot comes from the cluster's record cache or from memory, and stays in the cache; one from the cache holds every store that the
thread had made to the record when it last performed `lrinv` of it. -/
def Obligations.QueueEntryResults : Prop := ∀ (s : State) (i : Iss) (l : Lane) (q : QueueId) (scope : Nat) (bar : Option Word) (body : CmdBody)
    (tlb : Tlb) (ctx core team va : Nat) (th : Thread) (ids vas : List Nat),
  let t := s.enter i l q scope bar body
  let cached (x : State) : List RecEntry := Table.read [] x.eng.recCache (clusterOf core)
  let unreadable (v : Nat) (c : BitVec 16) : Prop := s.resolve i.ctx tlb v 64 64 .read = .error c
    ∨ ∃ pa m, s.resolve i.ctx tlb v 64 64 .read = .ok (.phys pa m) ∧ s.badData pa 64 = true ∧ c = 0x18
  (t = { s with eng := { s.eng with cmds := t.eng.cmds, nextCmd := s.eng.nextCmd + 1, seqs := t.eng.seqs }, ctxs := t.ctxs }
    ∧ (∀ k c, { t.ctx k c with recs := (s.ctx k c).recs } = s.ctx k c)
    ∧ (∀ k, Table.read 0 t.eng.seqs k = Table.read 0 s.eng.seqs k + if k = 256 * q.code + i.ctx then 1 else 0)
    ∧ ∃ c, t.eng.cmds = s.eng.cmds ++ [c] ∧ c.id = s.eng.nextCmd ∧ c.queue = q ∧ c.ctx = i.ctx ∧ c.core = i.core ∧ c.die = i.die
      ∧ c.team = some i.team.id ∧ c.thread = l.th.ltid ∧ c.grid = i.team.grid ∧ c.pkt = none ∧ c.scope = BitVec.ofNat 3 scope
      ∧ c.bar = bar ∧ c.body = body ∧ c.state = .ready ∧ c.pos = 0 ∧ c.counted = 0 ∧ c.aborted = false)
  ∧ (s.badRecord i tlb vas = none ↔ ∀ v, v ∈ vas → ¬∃ c, unreadable v c)
  ∧ (∀ c v, s.badRecord i tlb vas = some ⟨c, v⟩ ↔ ∃ k : Nat, vas[k]? = some v ∧ unreadable v c ∧ ∀ (j : Nat) w, j < k → vas[j]? = some w → ¬∃ c, unreadable w c)
  ∧ (∀ r m, s.layoutRecord ctx core team th va = .ok (r, m) →
      ((∃ x, x ∈ cached s ∧ x.ctx = ctx ∧ x.addr = va ∧ x.snap = r ∧ ∀ n, Table.look th.lrs va = some n → ∀ pa mt,
          s.resolve ctx (.copy (clusterOf core)) va 64 64 .read = .ok (.phys pa mt) → ∀ k a, k < 8 → a ∈ Table.read [] s.mm.hist (chunkOf pa + k) →
          a.write.threads.contains (team, th.ltid) = true → a.write.n < n → a.num < x.num)
        ∨ ∃ n, s.readRecord ctx (.copy (clusterOf core)) va = .ok (r, n))
      ∧ (cached m).length ≤ 32 ∧ (∃ x, (cached m).head? = some x ∧ x.ctx = ctx ∧ x.addr = va ∧ x.snap = r ∧ ∀ y, y ∈ cached m → y = x ∨ y ∈ cached s)
      ∧ ∀ k, k ≠ clusterOf core → Table.look m.eng.recCache k = Table.look s.eng.recCache k)
  ∧ (∀ c, s.layoutRecord ctx core team th va = .error c → s.readRecord ctx (.copy (clusterOf core)) va = .error c)
  ∧ (∀ x, x ∈ cached (s.dropRecord ctx core team ids va) ↔ x ∈ cached s ∧ ¬(x.ctx = ctx ∧ x.addr = va))
  ∧ ∀ k n a, s.thread? k n = some a → (s.dropRecord ctx core team ids va).thread? k n = some
      (if k = team ∧ n ∈ ids then { a with lrs := Table.put a.lrs va s.mm.nextW } else a)

/-- 21 R369 to R375, 17 R299, R305, R307, 31 R497: the copy forms, `put`, `lrinv` and `qfence`. -/
def Obligations.CopyResults : Prop := ∀ (s : State) (e : Enc) (i : Iss),
  let scope := e.x.scope.toNat
  let named (a : State) (l : Lane) (b : Option Word) : Prop := (e.d = 0xF0 ∧ b = none)
    ∨ (e.d ≠ 0xF0 ∧ b = some (BitVec.ofNat 32 (l.src 1 e.d.toNat)) ∧ (a.barIndex i.core i.team.id (BitVec.ofNat 32 (l.src 1 e.d.toNat))).isSome = true)
  let stale (a : State) (l : Lane) (c : BitVec 16) (d : Option Nat) : Prop := e.d ≠ 0xF0 ∧ c = 0x21 ∧ d = some (l.src 1 e.d.toNat % 2 ^ 32)
    ∧ a.barIndex i.core i.team.id (BitVec.ofNat 32 (l.src 1 e.d.toNat)) = none
  let record (r : BitVec 512) (op : Nat) (b : Option Word) (comp sspace dspace rank src dst len : Nat) (coord : Nat → Nat) : Prop :=
    recBits r 0 7 0 = op ∧ recBits r 0 10 8 = scope ∧ recBits r 0 11 11 = (if b.isSome then 1 else 0) ∧ recBits r 0 12 12 = comp
    ∧ recBits r 0 15 13 = sspace ∧ recBits r 0 18 16 = dspace ∧ recBits r 0 20 19 = rank ∧ recBits r 0 31 21 = 0
    ∧ recBits r 4 31 0 = (b.getD 0).toNat ∧ recBits r 8 63 0 = src ∧ recBits r 0x10 63 0 = dst ∧ recBits r 0x18 63 0 = len
    ∧ ∀ k, k < 8 → recBits r (0x20 + 4 * k) 31 0 = coord k
  let len (n : Nat) : Nat := if n = 0 then 2 ^ 32 else n
  let plain (l : Lane) (r : BitVec 512) (op : Nat) (b : Option Word) : Prop :=
    if op = 2 then record r 2 b (e.x.aux.toNat % 2) e.x.space.toNat (e.x.c.toNat % 8) (e.x.c.toNat / 8 % 4)
        (l.src 4 e.a.toNat % 2 ^ 64) (l.src 4 e.a.toNat / 2 ^ 64) (len (l.src 1 e.b.toNat)) (fun _ => 0)
    else record r 3 b 0 0 e.x.space.toNat (e.x.aux.toNat % 4) (l.src 1 e.b.toNat) (l.src 2 e.a.toNat) (len (l.src 1 e.x.c.toNat)) (fun _ => 0)
  let boxed (l : Lane) (r src dst : BitVec 512) (b : Option Word) : Prop :=
    record r 1 b 0 0 0 0 (l.src 4 e.a.toNat % 2 ^ 64) (l.src 4 e.a.toNat / 2 ^ 64) 0
      (fun k => if k < 4 then (if k < lrNdim src then (l.th.reg (e.b.toNat + k)).toNat else 0)
        else if k - 4 < lrNdim dst then (l.th.reg (e.x.c.toNat + (k - 4))).toNat else 0)
  let first (a : State) (l : Lane) (sa : Nat) := (a.acceptRelease i l scope).layoutRecord i.ctx i.core i.team.id l.th sa
  let second (l : Lane) (sa da : Nat) (src : BitVec 512) (m : State) : Except (BitVec 16) (BitVec 512 × State) :=
    if da = sa then .ok (src, m) else m.layoutRecord i.ctx i.core i.team.id l.th da
  let linear (op : Op) (n : Nat) : Prop := s.Issues op e i → s.Accepts (op.instr e) i i.perf
    (fun p a b => ∃ h r, named a p.1 h ∧ plain p.1 r n h ∧ copyOk r 0 0 false = true
      ∧ b = (a.acceptRelease i p.1 scope).enter i p.1 (.copy i.core) scope h (.copy r 0 0))
    (fun p a c d => stale a p.1 c d ∨ ∃ h r, named a p.1 h ∧ plain p.1 r n h ∧ copyOk r 0 0 false = false ∧ c = 0x30 ∧ d = none)
  linear .cpys 2 ∧ linear .cpyw 3
  ∧ (s.Issues .cpy e i → s.Accepts (.cpy e) i i.perf
    (fun p a b => let sa := p.1.src 4 e.a.toNat % 2 ^ 64
      let da := p.1.src 4 e.a.toNat / 2 ^ 64
      ∃ h r src dst m n, named a p.1 h ∧ a.badRecord i (.copy (clusterOf i.core)) [sa, da] = none ∧ first a p.1 sa = .ok (src, m)
        ∧ second p.1 sa da src m = .ok (dst, n) ∧ boxed p.1 r src dst h ∧ copyOk r src dst false = true
        ∧ b = n.enter i p.1 (.copy i.core) scope h (.copy r src dst))
    (fun p a c d => let sa := p.1.src 4 e.a.toNat % 2 ^ 64
      let da := p.1.src 4 e.a.toNat / 2 ^ 64
      stale a p.1 c d ∨ ∃ h, named a p.1 h ∧ ((∃ v, a.badRecord i (.copy (clusterOf i.core)) [sa, da] = some ⟨c, v⟩ ∧ d = some v)
        ∨ (a.badRecord i (.copy (clusterOf i.core)) [sa, da] = none ∧ ((first a p.1 sa = .error c ∧ d = some sa)
          ∨ ∃ src m, first a p.1 sa = .ok (src, m) ∧ ((second p.1 sa da src m = .error c ∧ d = some da)
            ∨ ∃ dst n r, second p.1 sa da src m = .ok (dst, n) ∧ boxed p.1 r src dst h ∧ copyOk r src dst false = false ∧ c = 0x30
              ∧ d = if layoutOk src false false = false then some sa else if layoutOk dst true false = false then some da else none))))))
  ∧ (s.Issues .put e i → s.Accepts (.put e) i i.perf
    (fun p a b => let w := a.window (p.1.src 1 e.x.c.toNat)
      ∃ h, named a p.1 h ∧ p.1.src 1 e.x.c.toNat < 64 ∧ w.w0.toNat % 4 = 1 ∧ w.w0.toNat / 2 ^ 16 % 2 ^ 8 = i.ctx
        ∧ 1 ≤ p.1.src 1 e.b.toNat ∧ p.1.src 1 e.b.toNat ≤ 2 ^ 24
        ∧ b = (a.acceptRelease i p.1 scope).enter i p.1 (.copy i.core) scope h (.put e.x.space.toNat (BitVec.ofNat 64 (p.1.src 4 e.a.toNat % 2 ^ 64))
            (BitVec.ofNat 64 (p.1.src 4 e.a.toNat / 2 ^ 64)) (p.1.src 1 e.b.toNat) (p.1.src 1 e.x.c.toNat)))
    (fun p a c d => let w := a.window (p.1.src 1 e.x.c.toNat)
      stale a p.1 c d ∨ ((∃ h, named a p.1 h) ∧ c = 0x30 ∧ d = some (p.1.src 1 e.x.c.toNat)
        ∧ (64 ≤ p.1.src 1 e.x.c.toNat ∨ w.w0.toNat % 4 ≠ 1 ∨ w.w0.toNat / 2 ^ 16 % 2 ^ 8 ≠ i.ctx ∨ p.1.src 1 e.b.toNat = 0 ∨ 2 ^ 24 < p.1.src 1 e.b.toNat))))
  ∧ (s.Issues .lrinv e i → ∃ t : State, exec (.lrinv e) s = .next t.finishSlot ∧ Each (fun p a b =>
      (2 ^ 48 ≤ p.1.addr e → a.Faulted b i p.1 p.2 0x10 0) ∧ (p.1.addr e < 2 ^ 48 → p.1.addr e % 64 ≠ 0 → a.Faulted b i p.1 p.2 0x11 0)
      ∧ (p.1.addr e < 2 ^ 48 → p.1.addr e % 64 = 0 → b = a.dropRecord i.ctx i.core i.team.id (p.2.map (fun l => l.th.ltid)) (p.1.addr e))) i.perf s t)
  ∧ (s.Issues .qfence e i → ∃ (t : State) (c : Cmd), exec (.qfence e) s = .next t.finishSlot
      ∧ (let u := s.flushWindow i.team.id
        t = { u with eng := { u.eng with cmds := t.eng.cmds, nextCmd := u.eng.nextCmd + 1, seqs := t.eng.seqs }, ctxs := t.ctxs,
                     wk := { u.wk with teams := t.wk.teams }, dbg := { u.dbg with stepping := t.dbg.stepping } }
        ∧ t.eng.cmds = u.eng.cmds ++ [c]
        ∧ ∀ k, t.team? k = (u.team? k).map (fun x => if k = i.team.id ∧ Nat.testBit e.x.c.toNat 3 = true then { x with tseq := x.tseq + 1 } else x)) ∧ ∃ qs, c.body = .fence qs ∧ qs ≠ [] ∧ c.state = .ready ∧ c.bar = none
        ∧ (∀ q, c.inQueue q = true ↔ (q = .copy i.core ∧ Nat.testBit e.x.c.toNat 0 = true) ∨ (q = .coord i.core ∧ Nat.testBit e.x.c.toNat 1 = true)
          ∨ (q = .expert i.core ∧ Nat.testBit e.x.c.toNat 2 = true) ∨ (q = .tile i.team.id ∧ Nat.testBit e.x.c.toNat 3 = true)))

/-- 20 R348, R349, R352, R356, R359: which handles are live, and what the acceptance of a coordinate command creates, draws and returns. -/
def Obligations.CoordinateObjectResults : Prop := ∀ (s : State) (ctx die : Nat) (h : Word) (r : BitVec 512), die < 4 →
  let n (lo w : Nat) : Nat := h.toNat / 2 ^ lo % 2 ^ w
  let code (b : ObjBody) : Nat := match b with
    | .free => 0
    | .table _ _ _ _ => 1
    | .map _ _ _ _ => 2
  let tbl (off hi lo : Nat) : Word := BitVec.ofNat 32 (recBits r off hi lo)
  let free (ix : Nat) : Prop := ix < 4096 ∧ (s.obj die ix).body = .free ∧ ∀ k, k < ix → (s.obj die k).body ≠ .free
  let full : Prop := ∀ k, k < 4096 → (s.obj die k).body ≠ .free
  let drawn (x : State) (d : Nat) : BitVec 32 := (Table.read CoordDie.reset x.eng.coord d).drawn
  let cache (x : State) : List MapEntry := (Table.read CoordDie.reset x.eng.coord die).cache
  let gen (o : Obj) : BitVec 32 := match o.body with
    | .table _ _ _ g => g
    | _ => 0
  let changed (t : State) : Prop := t = { s with eng := { s.eng with objs := t.eng.objs, coord := t.eng.coord } }
  let handle (v : Word) (ix kind : Nat) : Prop := v.toNat = ix + kind * 2 ^ 12 + die * 2 ^ 14 + (s.obj die ix).gen.toNat * 2 ^ 16
  let entry (x : MapEntry) (a b : Obj) : Prop := x.ctx = ctx ∧ x.genI = gen a ∧ x.genO = gen b ∧ x.params.toNat = recBits r 0x20 34 0
  (∀ ks o, s.object? ctx h ks = some o ↔ o = s.obj (n 14 2) (n 0 12) ∧ n 24 8 = 0 ∧ n 12 2 ≠ 0 ∧ n 12 2 ∈ ks ∧ code o.body = n 12 2 ∧ o.ctx = ctx
      ∧ o.gen.toNat = n 16 8 ∧ s.pkg.domLive (n 14 2) = true)
  ∧ (recBits r 0 7 0 = 1 → tbl 0x28 31 0 = 0 → (full → s.coordAccept ctx die r = .error .full)
      ∧ ∀ ix, free ix → ∃ (v : Word) (t : State), s.coordAccept ctx die r = .ok (v, false, t) ∧ handle v ix 1 ∧ changed t
        ∧ drawn t die = drawn s die + 1 ∧ (∀ k, k ≠ 4096 * die + ix → Table.look t.eng.objs k = Table.look s.eng.objs k)
        ∧ t.obj die ix = ⟨(s.obj die ix).gen, ctx, .table (recBits r 0x18 63 0) (recBits r 0x10 36 32) 0 (drawn s die), false⟩)
  ∧ (recBits r 0 7 0 = 1 → tbl 0x28 31 0 = h → h ≠ 0 → (s.object? ctx h [1] = none → s.coordAccept ctx die r = .error (.stale h))
      ∧ ∀ o a b c g, s.object? ctx h [1] = some o → o.body = .table a b c g → ∃ t : State, s.coordAccept ctx die r = .ok (h, false, t) ∧ changed t
        ∧ drawn t (n 14 2) = drawn s (n 14 2) + 1 ∧ t.obj (n 14 2) (n 0 12) = { o with body := .table a b c (drawn s (n 14 2)) }
        ∧ ∀ k, k ≠ 4096 * n 14 2 + n 0 12 → Table.look t.eng.objs k = Table.look s.eng.objs k)
  ∧ (recBits r 0 7 0 = 2 → let i := tbl 8 31 0
      let o := tbl 8 63 32
      (s.object? ctx i [1] = none → s.coordAccept ctx die r = .error (.stale i))
      ∧ ∀ a, s.object? ctx i [1] = some a → (s.object? ctx o [1] = none → s.coordAccept ctx die r = .error (.stale o))
        ∧ ∀ b, s.object? ctx o [1] = some b →
          ((∃ x, x ∈ cache s ∧ entry x a b) → ∃ (x : MapEntry) (t : State), x ∈ cache s ∧ entry x a b ∧ s.coordAccept ctx die r = .ok (x.handle, true, t)
            ∧ changed t ∧ t.eng.objs = s.eng.objs ∧ (cache t).head? = some x ∧ ∀ y, y ∈ cache t ↔ y ∈ cache s)
          ∧ ((∀ x, x ∈ cache s → ¬entry x a b) → (full → s.coordAccept ctx die r = .error .full)
            ∧ ∀ ix, free ix → ∃ (v : Word) (t : State) (x : MapEntry), s.coordAccept ctx die r = .ok (v, false, t) ∧ handle v ix 2 ∧ changed t
              ∧ (∀ k, k ≠ 4096 * die + ix → Table.look t.eng.objs k = Table.look s.eng.objs k)
              ∧ t.obj die ix = ⟨(s.obj die ix).gen, ctx, .map (recBits r 0x10 63 0) (recBits r 0x18 63 0)
                  (recBits r 0x20 2 0 * recBits r 0x20 10 8 * recBits r 0x20 18 16) false, false⟩
              ∧ entry x a b ∧ x.handle = v ∧ cache t = (x :: cache s).take 64))
  ∧ (recBits r 0 7 0 = 5 → tbl 8 31 0 = h → (s.object? ctx h [1, 2] = none → s.coordAccept ctx die r = .error (.stale h))
      ∧ ∀ o, s.object? ctx h [1, 2] = some o → s.coordAccept ctx die r = .ok (h, false, s))
  ∧ (recBits r 0 7 0 = 3 ∨ recBits r 0 7 0 = 4 → s.coordAccept ctx die r = .ok (0, false, s))

/-- 21 R369 to R372, R376, 20 R349, R359: the coordinate forms with a command of their own. -/
def Obligations.CoordinateResults : Prop := ∀ (s : State) (e : Enc) (i : Iss),
  let scope := e.x.scope.toNat
  let named (a : State) (l : Lane) (b : Option Word) : Prop := (e.b = 0xF0 ∧ b = none)
    ∨ (e.b ≠ 0xF0 ∧ b = some (BitVec.ofNat 32 (l.src 1 e.b.toNat)) ∧ (a.barIndex i.core i.team.id (BitVec.ofNat 32 (l.src 1 e.b.toNat))).isSome = true)
  let stale (a : State) (l : Lane) (c : BitVec 16) (d : Option Nat) : Prop := e.b ≠ 0xF0 ∧ c = 0x21 ∧ d = some (l.src 1 e.b.toNat % 2 ^ 32)
    ∧ a.barIndex i.core i.team.id (BitVec.ofNat 32 (l.src 1 e.b.toNat)) = none
  let head (r : BitVec 512) (op : Nat) (b : Option Word) : Prop := recBits r 0 7 0 = op ∧ recBits r 0 10 8 = scope
    ∧ recBits r 0 11 11 = (if b.isSome then 1 else 0) ∧ recBits r 0 31 12 = 0 ∧ recBits r 4 31 0 = (b.getD 0).toNat
  let accepted (op : Nat) (p : Lane × List Lane) (m : State) (h : Option Word) (r : BitVec 512) (b : State) : Prop :=
    coordOk r false = true ∧ ∃ (x : Word) (hit : Bool) (u v : State), m.coordAccept i.ctx i.die r = .ok (x, hit, u)
      ∧ v = u.enter i p.1 (.coord i.core) scope h (.coord op r x hit)
      ∧ (op = 1 ∨ op = 2 → b = v.giveNow i p.2 (dst e.d 1 x.toNat) ∧ v.Gave b i.team.id (fun k => if p.2.any (fun q => q.th.ltid == k) then [p.1] else []) (fun _ => toRegs e.d 1 x.toNat) (fun _ => 0))
      ∧ (¬(op = 1 ∨ op = 2) → b = v)
  let refused (m : State) (r : BitVec 512) (va : Option Nat) (c : BitVec 16) (d : Option Nat) : Prop :=
    (coordOk r false = false ∧ c = 0x33 ∧ d = va) ∨ (coordOk r false = true ∧ ((∃ x, m.coordAccept i.ctx i.die r = .error (.stale x) ∧ c = 0x21
      ∧ d = some x.toNat) ∨ (m.coordAccept i.ctx i.die r = .error .full ∧ c = 0x34 ∧ d = none)))
  let recorded (op : Op) (n : Nat) : Prop := s.Issues op e i → s.Accepts (op.instr e) i i.perf
    (fun p a b => let va := p.1.src 2 e.a.toNat
      ∃ h bits m r, named a p.1 h ∧ a.badRecord i (.second (clusterOf i.core)) [va] = none ∧ (a.acceptRelease i p.1 scope).readRecord i.ctx (.second (clusterOf i.core)) va = .ok (bits, m)
        ∧ head r n h ∧ r >>> 64 = bits >>> 64 ∧ accepted n p m h r b)
    (fun p a c d => let va := p.1.src 2 e.a.toNat
      stale a p.1 c d ∨ ∃ h, named a p.1 h ∧ ((∃ v, a.badRecord i (.second (clusterOf i.core)) [va] = some ⟨c, v⟩ ∧ d = some v)
        ∨ (a.badRecord i (.second (clusterOf i.core)) [va] = none ∧ (((a.acceptRelease i p.1 scope).readRecord i.ctx (.second (clusterOf i.core)) va = .error c ∧ d = some va)
          ∨ ∃ bits m r, (a.acceptRelease i p.1 scope).readRecord i.ctx (.second (clusterOf i.core)) va = .ok (bits, m) ∧ head r n h ∧ r >>> 64 = bits >>> 64
            ∧ refused m r (some va) c d))))
  recorded .hbld 1 ∧ recorded .hprb 2 ∧ recorded .mrg 3 ∧ recorded .scn 4
  ∧ (s.Issues .hfree e i → s.Accepts (.hfree e) i i.perf
    (fun p a b => ∃ h r, named a p.1 h ∧ head r 5 h ∧ (r >>> 64).toNat = p.1.src 1 e.a.toNat ∧ accepted 5 p (a.acceptRelease i p.1 scope) h r b)
    (fun p a c d => stale a p.1 c d ∨ ∃ h r, named a p.1 h ∧ head r 5 h ∧ (r >>> 64).toNat = p.1.src 1 e.a.toNat
      ∧ refused (a.acceptRelease i p.1 scope) r none c d))

/-- 17 R296, 20 R353, R362, R363, R365, 21 R377 to R379: `hlk`, whose lanes fault one by one and whose acceptance is a release, `xenq` and
`xtake`. -/
def Obligations.LookupTokenResults : Prop := ∀ (s : State) (e : Enc) (i : Iss),
  let key (l : Lane) : Nat := l.src 2 e.a.toNat % 2 ^ 64
  let table (l : Lane) : Word := BitVec.ofNat 32 (l.src 1 e.b.toNat)
  let good (l : Lane) : Prop := (s.object? i.ctx (table l) [1]).isSome = true ∧ key l ≠ 2 ^ 64 - 1
  let faulted (a b : State) (l : Lane) (also : List Nat) (c : BitVec 16) (d : Nat) : Prop :=
    b = { a with wk := { a.wk with teams := b.wk.teams } } ∧ ∀ k n x, a.thread? k n = some x → b.thread? k n = some
      (if k = i.team.id ∧ n = l.th.ltid then { x with faults := x.faults ++
        [⟨c, 0, BitVec.ofNat 64 d, i.turn.pc, i.turn.slot, i.instr, .none, 0, also, false⟩] } else x)
  let owes (a b : State) (rcv : List Lane) (out : List Target) (id : Nat) : Prop :=
    b = { a with wk := { a.wk with teams := b.wk.teams } } ∧ ∀ k n x, a.thread? k n = some x → ∃ y, b.thread? k n = some y
      ∧ y = (if k = i.team.id ∧ rcv.any (fun l => l.th.ltid == n) then { x with pend := y.pend } else x)
      ∧ (k = i.team.id → rcv.any (fun l => l.th.ltid == n) = true → y.pend.map (fun q => (q.tgt, q.src)) =
          x.pend.map (fun q => (q.tgt, q.src)) ++ out.map (fun q => (q, Src.cmd id)))
  let reg (n : Nat) : List Target := if e.d.toNat < 0xF0 then (List.range n).map (fun k => .reg (e.d.toNat + k)) else []
  (s.Issues .hlk e i → ∃ (u t : State) (d : Nat), exec (.hlk e) s = .next t.finishSlot
    ∧ Each (fun p a b => (good p.1 → b = a)
        ∧ ((s.object? i.ctx (table p.1) [1]).isSome = false →
          faulted a b p.1 ((p.2.map (fun l => l.th.ltid)).filter (· != p.1.th.ltid)) 0x21 (table p.1).toNat)
        ∧ ((s.object? i.ctx (table p.1) [1]).isSome = true → key p.1 = 2 ^ 64 - 1 →
          faulted a b p.1 ((p.2.map (fun l => l.th.ltid)).filter (· != p.1.th.ltid)) 0x33 d)) i.perf s.drew u
    ∧ ((∀ p, p ∈ i.perf → ¬good p.1) → t = u)
    ∧ ∀ p rest, (∃ pre, i.perf = pre ++ p :: rest ∧ (∀ q, q ∈ pre → ¬good q.1)) → good p.1 → ∃ (looks : List Lookup) (v : State),
        (∃ ids, (∀ n, n ∈ ids ↔ ∃ q l, q ∈ i.perf ∧ good q.1 ∧ l ∈ q.2 ∧ l.th.ltid = n)
          ∧ v = (u.release i.team.id i.core ids 2).enter i p.1 (.coord i.core) 0 none (.hlk e.d.toNat looks))
        ∧ (∀ x, x ∈ looks ↔ ∃ q, q ∈ i.perf ∧ good q.1 ∧ x = ⟨q.2.map (fun l => l.th.ltid), BitVec.ofNat 64 (key q.1), table q.1⟩)
        ∧ Each (fun q a b => (good q.1 → owes a b q.2 (reg 1) u.eng.nextCmd) ∧ (¬good q.1 → b = a)) i.perf v t)
  ∧ (s.Issues .xenq e i → s.Accepts (.xenq e) i i.perf
    (fun p a b => let n := p.1.src 1 e.b.toNat
      let q := a.xq n
      n < 512 ∧ a.pkg.domLive (n / 128) = true ∧ p.1.src 4 e.a.toNat / 2 ^ 115 % 2 ^ 13 = 0 ∧ recBits q.cfg 0 21 21 = 1
      ∧ (∃ x, q.owner = some (i.ctx, x)) ∧ (n / 128 = i.die ∨ e.x.scope.toNat ≠ 3) ∧ q.tokens.length + a.portTokens n < 256 + recBits q.cfg 0x28 31 0
      ∧ b = (a.acceptRelease i p.1 (e.x.scope.toNat)).enter i p.1 (.expert i.core) (e.x.scope.toNat) none
          (.token n (BitVec.ofNat 128 (p.1.src 4 e.a.toNat)) (n / 128 != i.die)))
    (fun p a c d => let n := p.1.src 1 e.b.toNat
      let q := a.xq n
      let wrong := 512 ≤ n ∨ a.pkg.domLive (n / 128) = false ∨ p.1.src 4 e.a.toNat / 2 ^ 115 % 2 ^ 13 ≠ 0 ∨ recBits q.cfg 0 21 21 = 0
        ∨ (∀ x, q.owner ≠ some (i.ctx, x)) ∨ (n / 128 ≠ i.die ∧ e.x.scope.toNat = 3)
      d = none ∧ ((wrong ∧ c = 0x35) ∨ (¬wrong ∧ 256 + recBits q.cfg 0x28 31 0 ≤ q.tokens.length + a.portTokens n ∧ c = 0x36))))
  ∧ (s.Issues .xtake e i → let batch := (s.grid? i.team.grid).bind Grid.batch
      (batch ≠ none → ∀ l rest, i.act = l :: rest → ∃ (u v t : State), exec (.xtake e) s = .next t.finishSlot
        ∧ u = s.enter i l (.expert i.core) 0 none (.take (i.perf.map (fun p => p.2.map (fun m => m.th.ltid))) e.d.toNat (e.a.toNat % 8))
        ∧ owes u v i.act (reg 4 ++ if e.a.toNat % 8 = 7 then [] else [.pred (e.a.toNat % 8)]) s.eng.nextCmd
        ∧ t = v.acquire i.ctx i.core i.team.id (i.act.map (fun l => l.th.ltid)) 5)
      ∧ (batch = none → ∃ (t : State) (d : Nat), exec (.xtake e) s = .next t.finishSlot
        ∧ Each (fun l a b => faulted a b l [] 0x35 d) i.act s.drew t))

/-- 18 R314, R316, 19 R329, R331, 22 R381, R382, R386, R391: tile commands enter the rewrite window of their team, in order; `tflush`. -/
def Obligations.TileResults : Prop := ∀ (s : State) (e : Enc) (i : Iss),
  let first : List (Lane × List Lane) := (i.act.take 1).map (fun l => (l, i.act))
  let rows (n : Nat) (ms : List Word) : Prop := ms.length = n ∧ ∀ k, k < n → ∃ l, l ∈ i.act ∧ l.lane = 16 * (e.x.aux.toNat % 4) + k
    ∧ ms[k]? = some (BitVec.ofNat 32 (l.src 1 e.b.toNat))
  let entered (op : Op) (l : Lane) (block : Option (BitVec 512)) (tile : BitVec 8) (val : Word) (ms : List Word) (a b : State) : Prop :=
    b = a.enterTileCmd i l { op := op, aux := e.x.aux, thread := l.th.ltid, block := block, tile := tile, val := val, metas := ms, seq := 0
                             epoch := ((a.grid? i.team.grid).map Grid.epoch).getD 0 }
  let blocks (op : Op) (ps : List (Lane × List Lane)) : Prop := s.Issues op e i → s.Accepts (op.instr e) i ps
    (fun p a b => let ea := p.1.addr e
      ∃ r m q u ms, a.badRecord i (.tile i.core) [ea] = none ∧ a.readRecord i.ctx (.tile i.core) ea = .ok (r, m)
        ∧ (m.acceptRelease i p.1 (recBits r 0x18 42 40)).readRecord i.ctx (.tile i.core) ea = .ok (q, u) ∧ u.blockOk i.team op q = true
        ∧ (recBits q 0x18 43 43 = 1 → (u.barIndex i.core i.team.id (BitVec.ofNat 32 (recBits q 0x20 31 0))).isSome = true)
        ∧ (if op = .tmmsp then rows (recBits q 0x18 6 0) ms else ms = []) ∧ entered op p.1 (some q) 0 0 ms u b)
    (fun p a c d => let ea := p.1.addr e
      (∃ v, a.badRecord i (.tile i.core) [ea] = some ⟨c, v⟩ ∧ d = some v)
      ∨ (a.badRecord i (.tile i.core) [ea] = none ∧ ((a.readRecord i.ctx (.tile i.core) ea = .error c ∧ d = some ea)
        ∨ ∃ r m, a.readRecord i.ctx (.tile i.core) ea = .ok (r, m) ∧ (((m.acceptRelease i p.1 (recBits r 0x18 42 40)).readRecord i.ctx (.tile i.core) ea = .error c ∧ d = some ea)
          ∨ ∃ q u, (m.acceptRelease i p.1 (recBits r 0x18 42 40)).readRecord i.ctx (.tile i.core) ea = .ok (q, u)
            ∧ ((u.blockOk i.team op q = false ∧ c = 0x31 ∧ d = some ea)
              ∨ (u.blockOk i.team op q = true ∧ recBits q 0x18 43 43 = 1 ∧ u.barIndex i.core i.team.id (BitVec.ofNat 32 (recBits q 0x20 31 0)) = none
                ∧ c = 0x21 ∧ d = some (recBits q 0x20 31 0))
              ∨ (u.blockOk i.team op q = true ∧ op = .tmmsp ∧ c = 0x32 ∧ d = none
                ∧ (recBits q 0x18 43 43 = 1 → (u.barIndex i.core i.team.id (BitVec.ofNat 32 (recBits q 0x20 31 0))).isSome = true)
                ∧ ∃ k, k < recBits q 0x18 6 0 ∧ ∀ l, l ∈ i.act → l.lane ≠ 16 * (e.x.aux.toNat % 4) + k))))))
  let wholes (op : Op) (val : Lane → Word) : Prop := s.Issues op e i → s.Accepts (op.instr e) i i.perf
    (fun p a b => e.d.toNat < a.accumOf i.team ∧ entered op p.1 none e.d (val p.1) [] a b)
    (fun _ a c d => a.accumOf i.team ≤ e.d.toNat ∧ c = 0x31 ∧ d = none)
  blocks .tmm i.perf ∧ blocks .tmmsp first ∧ blocks .tgms i.perf ∧ blocks .tsacc i.perf ∧ blocks .tst i.perf ∧ blocks .tldac i.perf
  ∧ wholes .tzero (fun _ => 0) ∧ wholes .ttr (fun _ => 0)
  ∧ wholes .tscl (fun l => match e.lit with
    | some k => k
    | none => BitVec.ofNat 32 (l.src 1 e.b.toNat))
  ∧ (s.Issues .tflush e i → exec (.tflush e) s = .next (s.flushWindow i.team.id).finishSlot)

/-! ### System and spawn -/

/-- 18 R327, 28 R451, R452, R455, R456, R459, R460, 27 R432, R434, 30 R470: `sysr`, `sysw`, `brkpt` and `tmark`. -/
def Obligations.SystemResults : Prop := ∀ (s : State) (e : Enc) (i : Iss),
  let head := s.tileHead i.team.id
  let prog : BitVec 64 := match head with
    | none => BitVec.ofNat 64 (((s.team? i.team.id).map (fun t => t.tprog.toNat)).getD 0)
    | some c => BitVec.ofNat 64 (c.pos % 2 ^ 26 + match c.state with
      | .held _ _ _ _ => 2 ^ 26
      | .paused => 2 ^ 26 + 2 ^ 27
      | _ => 0)
  let value : BitVec 64 := if e.a = 0x00 then (s.ctx i.ctx i.die).trapVec else if e.a = 0x08 then prog
    else if e.a = 0x09 then (s.ctx i.ctx i.die).rwTable else if e.a = 0x20 then s.pkg.enumDies else if e.a = 0x21 then s.pkg.enumSlices
    else if e.a = 0x22 then s.pkg.enumOrder else BitVec.ofNat 64 (s.pkg.orient i.die)
  s.LaneResults .sysr e (fun _ _ => toRegs e.d 2 value.toNat) (fun _ _ => 0)
  ∧ (s.Issues .sysr e i → e.a ∈ [0x00, 0x08, 0x09, 0x20, 0x21, 0x22, 0x23] ∧ (e.a = 0x00 → i.tmode = true))
  ∧ (s.Issues .sysw e i → e.a = 0x08 ∧ i.tmode = true ∧ ∃ t : State, exec (.sysw e) s = .next t.finishSlot
      ∧ Each (fun p a b => b = a.writeTileProg i.team.id (BitVec.ofNat 64 (p.1.src 2 e.b.toNat))) i.perf
        (s.release i.team.id i.core (i.act.map (fun l => l.th.ltid)) 5) t)
  ∧ (∀ (v : BitVec 64) (team : Nat), s.tileHead team = none → s.writeTileProg team v = s)
  ∧ (∀ (v : BitVec 64) (team : Nat) c w, s.tileHead team = some c → c.body = .tile w →
      let held := c.state = .paused ∨ ∃ a b d o, c.state = .held a b d o
      let n := v.toNat % 2 ^ 26
      let units := (s.tileUnits c w.cmd).toOption.getD c.pos
      (held → n ≤ units → s.writeTileProg team v = s.updCmd c.id (fun x => { x with pos := n }))
      ∧ (¬held ∨ units < n → s.writeTileProg team v = s))
  ∧ (s.Issues .brkpt e i → (Table.read [] s.dbg.brks i.ctx = [] → exec (.brkpt e) s = .next s.finishSlot)
      ∧ (Table.read [] s.dbg.brks i.ctx ≠ [] → ∃ t : State, exec (.brkpt e) s = .next t.finishSlot ∧ t = { s with wk := { s.wk with teams := t.wk.teams } }
        ∧ (∀ k n, t.thread? k n = s.thread? k n) ∧ ∀ k w, (t.team? k).bind (fun x => x.warp? w) = ((s.team? k).bind (fun x => x.warp? w)).map (fun x =>
          if k = i.team.id ∧ w = i.warp.id then { x with stop := x.stop ++ [⟨2, Table.read [] s.dbg.brks i.ctx, s.clock.clk, 0, true⟩] } else x)))
  ∧ (s.Issues .tmark e i → i.core < 128 → (s.traces i.ctx i.die rMark = false → exec (.tmark e) s = .next s.finishSlot)
      ∧ (s.traces i.ctx i.die rMark = true → ∃ (t : State) (ks : List TraceRec), exec (.tmark e) s = .next t.finishSlot ∧ t = { s with ctxs := t.ctxs }
        ∧ (t.ctx i.ctx i.die) = { s.ctx i.ctx i.die with recs := (s.ctx i.ctx i.die).recs ++ ks }
        ∧ (∀ k, k ≠ 4 * i.ctx + i.die → Table.look t.ctxs k = Table.look s.ctxs k) ∧ ks.length = i.perf.length
        ∧ ∀ (k : Nat) (p : Lane × List Lane) (x : TraceRec), i.perf[k]? = some p → ks[k]? = some x → x.wide = false ∧ recBits x.bits 0 7 0 = 0x0D ∧ recBits x.bits 0 11 8 = 0
          ∧ recBits x.bits 0 14 12 = i.core % 32 / 4 ∧ recBits x.bits 0 16 15 = i.core % 4 ∧ recBits x.bits 0 18 17 = i.die
          ∧ recBits x.bits 0 31 24 = i.ctx % 256 ∧ recBits x.bits 4 31 0 = (p.1.th.ltid + p.1.lane * 2 ^ 16) % 2 ^ 32
          ∧ (∃ d, d ≤ 4 ∧ recBits x.bits 8 63 0 = (s.clock.time - d) % 2 ^ 64) ∧ recBits x.bits 0x10 63 0 = i.turn.pc.toNat
          ∧ recBits x.bits 0x18 63 0 = match e.lit with
            | some k => k.toNat
            | none => p.1.src 2 e.b.toNat))

/-- 26 R407, R408, 28 R457, R458: `trap` raises the software trap of its warp, and `tret` makes its lanes wait for the return. -/
def Obligations.TrapInstructionResults : Prop := ∀ (s : State) (e : Enc) (i : Iss),
  (s.Issues .trap e i → ∃ (t : State) (r : TrapReq), exec (.trap e) s = .next t.finishSlot ∧ t = { s with wk := { s.wk with teams := t.wk.teams } }
    ∧ (∀ k n, t.thread? k n = s.thread? k n)
    ∧ (∀ k w, (t.team? k).bind (fun x => x.warp? w) = ((s.team? k).bind (fun x => x.warp? w)).map (fun x =>
        if k = i.team.id ∧ w = i.warp.id then { x with want := x.want ++ [r] } else x))
    ∧ r.kind = 0 ∧ r.cause = 0x60 ∧ r.sub = e.a ∧ r.pc = i.turn.pc ∧ r.slot = i.turn.slot ∧ r.lanes = none ∧ r.cmd = none
    ∧ (∀ k, k < 64 → (r.detail.getLsbD k = true ↔ ∃ l, l ∈ i.act ∧ l.lane = k)))
  ∧ (s.Issues .tret e i → i.tmode = true ∧ ∃ t : State, exec (.tret e) s = .next t.finishSlot
    ∧ t = { s with wk := { s.wk with teams := t.wk.teams }, turn := s.turn.map (fun n => { n with wake := true }) }
    ∧ ∀ k n x, s.thread? k n = some x → t.thread? k n = some (if k = i.team.id ∧ i.act.any (fun l => l.th.ltid == n) then { x with wait := .tret } else x))

/-- 09 R187, 10 R210 to R212: each performance of `spawn` meets the first fault of R211, or starts a child and returns its number. -/
def Obligations.SpawnResults : Prop := ∀ (s : State) (e : Enc) (i : Iss) (g : Grid), s.Issues .spawn e i → s.grid? i.team.grid = some g →
  let h (l : Lane) : Word := BitVec.ofNat 32 (l.src 1 e.b.toNat)
  let stale (a : State) (l : Lane) : Prop := e.b ≠ 0xF0 ∧ a.barIndex i.core i.team.id (h l) = none
  let fault (a b : State) (p : Lane × List Lane) (c : BitVec 16) (d : Nat) : Prop :=
    b = { a with wk := { a.wk with teams := b.wk.teams } } ∧ ∀ k n x, a.thread? k n = some x → b.thread? k n = some
      (if k = i.team.id ∧ n = p.1.th.ltid then { x with faults := x.faults ++ [⟨c, 0, BitVec.ofNat 64 d, i.turn.pc, i.turn.slot, i.instr, .none, 0,
        (p.2.map (fun m => m.th.ltid)).filter (· != p.1.th.ltid), false⟩] } else x)
  let child (p : Lane × List Lane) (a b : State) : Prop :=
    let va := p.1.src 2 e.a.toNat
    (8 ≤ g.depth → ∃ d, fault a b p 0x25 d)
    ∧ (g.depth < 8 → (∀ c, a.spawnRecord i p.1 va = .error c → fault a b p c va)
      ∧ ∀ r m, a.spawnRecord i p.1 va = .ok (r, m) → (stale a p.1 → fault a b p 0x21 (h p.1).toNat)
        ∧ (¬stale a p.1 → (∀ n, m.spawnCheck i p.1 g r = .error n → fault a b p 0x26 n)
          ∧ ∀ c args u, m.spawnCheck i p.1 g r = .ok (c, args, u) → ∃ (v : State) (x : Grid),
            v = { u with fe := { u.fe with grids := v.fe.grids, nextG := u.fe.nextG + 1, spawned := v.fe.spawned }
                         eng := { u.eng with recCache := v.eng.recCache }, mm := { u.mm with tlb := v.mm.tlb, invlogs := v.mm.invlogs }, free := u.free + 1 }
            ∧ v.fe.grids = u.fe.grids ++ [x] ∧ x.id = u.fe.nextG ∧ x.ctx = i.ctx ∧ x.depth = g.depth + 1 ∧ x.launch = c ∧ x.args = args
            ∧ x.since = u.mm.nextW ∧ x.launch.prio = g.launch.prio ∧ x.launch.strict = g.launch.strict ∧ x.epoch = 0
            ∧ x.parent = some ⟨g.id, i.team.id, i.core, if e.b = 0xF0 then none else some (h p.1)⟩
            ∧ (∀ k, Table.read 0 v.fe.spawned k = Table.read 0 u.fe.spawned k + if k = i.die then 1 else 0)
            ∧ v.Gave b i.team.id (fun k => if p.2.any (fun q => q.th.ltid == k) then [p.1] else [])
                (fun _ => toRegs e.d 1 (Table.read 0 u.fe.spawned i.die).toNat) (fun _ => 0)))
  (∃ u t : State, exec (.spawn e) s = .next t.finishSlot ∧ Each child i.perf s u ∧ u.Watched t)
  ∧ (∀ (a : State) (l : Lane) va, va < 2 ^ 48 → va % 128 ≠ 0 → a.spawnRecord i l va = .error 0x11)
  ∧ ∀ (a : State) (l : Lane) (r : BitVec 1024),
    let f (k hi lo : Nat) : Nat := r.toNat / 2 ^ (8 * k + lo) % 2 ^ (hi + 1 - lo)
    (f 0 7 0 ≠ 1 → a.spawnCheck i l g r = .error 0x01)
    ∧ (f 0 7 0 = 1 → f 0 15 11 ≠ 0 ∨ f 0 63 32 ≠ 0 → a.spawnCheck i l g r = .error 0x02)
    ∧ (f 0 7 0 = 1 → f 0 15 11 = 0 → f 0 63 32 = 0 → f 0 9 8 ≠ 1 → a.spawnCheck i l g r = .error 0x03)
    ∧ ∀ c args u, a.spawnCheck i l g r = .ok (c, args, u) → c.compaddr = 0 ∧ c.diemask &&& ~~~g.launch.diemask = 0

/-! ### Checks, trap entry and return from a trap -/

/-- 03 R55, R70, R71, 07 R146, 10 R206, 26 R408, 28 R455, R458: an instruction whose check fails makes its part trap with no effect; a
guard false in every lane gives no effect; a transfer to an address outside 48 bits traps, unless a lane has met a fault in a lower slot of
the packet (log entry 59); and one that cannot yet be accepted waits. -/
def Obligations.CheckResults : Prop :=
  let met (i : Iss) : Prop := ∃ l f, l ∈ i.live ∧ f ∈ l.th.faults ∧ f.slot < i.turn.slot ∧ f.pc = i.turn.pc
  ∀ (s : State) (op : Op) (e : Enc) (i : Iss) (n : Turn) (c : BitVec 16) (slot kind : Nat) (d : Option Nat) (o : Offer),
  (s.iss? op e = some i → i.turn.only = none →
    (∀ x, i.illegal = some x → exec (op.instr e) s = .next (s.rejectPart i.turn 2 i.turn.slot x 0 .none))
    ∧ (i.illegal = none → i.act = [] → exec (op.instr e) s = .next s.finishSlot)
    ∧ (i.illegal = none → i.act ≠ [] → i.farLanes ≠ [] → met i → exec (op.instr e) s = .next s.finishSlot)
    ∧ (i.illegal = none → i.act ≠ [] → i.farLanes ≠ [] → ¬met i → ∃ m : Nat, exec (op.instr e) s = .next (s.rejectPart i.turn 6 i.turn.slot (some m) 0 .none)
        ∧ ∀ k, Nat.testBit m k = true ↔ ∃ l T, (l, T) ∈ i.targets ∧ 2 ^ 48 ≤ T ∧ l.lane = k)
    ∧ (i.illegal = none → i.act ≠ [] → i.farLanes = [] → s.held i = true → exec (op.instr e) s = .next { s with turn := none }))
  ∧ (encodingOk i.nreg i.op i.e = false → i.illegal = some none)
  ∧ (encodingOk i.nreg i.op i.e = true → (i.op = .tret → i.tmode = false → i.illegal = some none)
    ∧ (i.op = .sysr → (i.e.a = 0x00 ∧ i.tmode = false) ∨ i.e.a ∉ [0x00, 0x08, 0x09, 0x20, 0x21, 0x22, 0x23] → i.illegal = some (some i.e.a.toNat))
    ∧ (i.op = .sysw → i.e.a ≠ 0x08 ∨ i.tmode = false → i.illegal = some (some i.e.a.toNat)))
  ∧ ∀ tm w, s.team? n.team = some tm → tm.warp? n.warp = some w → ∃ (m : State) (x : Nat), d.all (· == x) = true
      ∧ s.rejectPart n c slot d kind o = (m.raiseTrap n.team n.warp ⟨kind, c, 0, BitVec.ofNat 64 x, n.pc, slot, n.start, none, [], none, o, w.mid⟩).takeStops
          n.team (w.lanes.filterMap id)
      ∧ m = { s with wk := { s.wk with teams := m.wk.teams }, turn := none, issueN := s.issueN + 1, free := s.free + 1, dbg := m.dbg }
      ∧ (∀ k, k ≠ n.team → m.team? k = s.team? k)
      ∧ ∀ k a, tm.thread? k = some a → ∃ b, m.thread? n.team k = some b ∧ (∀ j, b.final (.reg j) = a.final (.reg j))
        ∧ (∀ j, j < 7 → (b.final (.pred j) != 0) = (a.final (.pred j) != 0)) ∧ b.flags = a.flags
        ∧ (kind ≠ 2 → some k ∈ w.lanes → let next := if c = 6 then none else n.next
            b.pc = (if next.isSome then n.pc else n.pc + 16) ∧ b.slot = next.getD 0 ∧ b.lastIssue = s.clock.clk)
        ∧ (kind = 2 ∨ some k ∉ w.lanes → b = a)

/-- 26 R407 to R411, R413, R414: taking a trap. The frame holds what R410 names; the handler lanes run in trap mode from the trap vector with
their flags clear and keep their lanes; the other live threads of the warp wait where they stand. A warp enters the oldest trap that it has
raised; in trap mode one that is not asynchronous ends the team; none is entered while its fault is still offered or all 64 frames of the
slot are in use. -/
def Obligations.TrapEntryResults : Prop :=
  (∀ (s : State) (t : Team) (w : Warp) (r : TrapReq) (more : List TrapReq), s.team? t.id = some t →
    t.warp? w.id = some w → w.lanes.length ≤ 64 → r.slot < 4 →
    let live := t.lanesOf w
    let vec := 16 * ((s.ctx t.ctx (dieOf t.core)).trapVec.toNat / 2 ^ 4 % 2 ^ 44)
    let c := r.cmd.bind s.cmd?
    let tile := c.bind (fun x => match x.body with
      | .tile v => some v
      | _ => none)
    let rule := tile.bind WinCmd.rule
    let u := s.takeTrap t w r more
    u = { s with wk := { s.wk with teams := u.wk.teams }, ctxs := u.ctxs, mm := { s.mm with loads := u.mm.loads } } ∧ (∀ k, k ≠ t.id → u.team? k = s.team? k)
    ∧ ∃ (v : Team) (x : TrapRec) (y : Warp), u.team? t.id = some v ∧ v.traps = t.traps ++ [x] ∧ x.id = t.nextT ∧ x.req = r ∧ x.more = more ∧ x.lines = w.lines
      ∧ x.fence = w.fence ∧ x.mid = w.mid ∧ x.link = w.link
      ∧ (∀ n, n ∈ x.handlers ↔ (∃ l, l ∈ live ∧ l.th.ltid = n) ∧ ∀ ids, r.lanes = some ids → n ∈ ids)
      ∧ x.members = live.map (fun l => ⟨l.th.ltid, l.lane, l.th.pc, l.th.slot, l.th.wait⟩)
      ∧ v.warp? w.id = some y ∧ y.trap = some x.id ∧ y.packet = none ∧ y.want = [] ∧ y.redo = [] ∧ y.lines = none ∧ y.fence = none
      ∧ y.lanes = w.lanes.map (fun o => o.bind (fun n => if n ∈ x.handlers then some n else none))
      ∧ (∀ n a, t.thread? n = some a → ∃ b, v.thread? n = some b
        ∧ ((∀ l, l ∈ live → l.th.ltid ≠ n) → b = a)
        ∧ ((∃ l, l ∈ live ∧ l.th.ltid = n) → (∀ k, b.final (.reg k) = a.final (.reg k))
          ∧ (∀ k, k < 7 → (b.final (.pred k) != 0) = (a.final (.pred k) != 0)) ∧ ((∀ p id, p ∈ a.pend → p.src ≠ .cmd id) → b.pend = [])
          ∧ b.alive = a.alive ∧ b.stack = a.stack
          ∧ (n ∉ x.handlers → b.wait = .parked x.id ∧ b.pc = a.pc ∧ b.slot = a.slot ∧ b.flags = a.flags ∧ b.tcfg = a.tcfg)
          ∧ (n ∈ x.handlers → b.wait = .run ∧ b.pc.toNat = vec ∧ b.slot = 0 ∧ b.flags = 0 ∧ b.tcfg = a.tcfg ||| 8 ∧ b.next = none)))
      ∧ (let f (off n : Nat) : Nat := ofBytes ((List.range n).map (fun k => Table.read 0 x.frame (off + k)))
        f 0x00 2 = r.cause.toNat ∧ f 0x02 1 = r.sub.toNat ∧ f 0x03 1 = (if r.kind = 3 then 1 else 0) + (if rule.isSome then 2 else 0)
        ∧ f 0x04 1 = (if r.kind = 2 ∨ r.kind = 3 then 0 else r.slot)
        ∧ f 0x05 1 = (if r.kind = 3 then 1 else if r.cause ∈ [0x04, 0x12, 0x36, 0x50] then 0 else if r.cause = 0x60 then 1 else 2)
        ∧ f 0x06 1 = w.lanes.length ∧ ((∀ k, rule = some k → k < 64) → f 0x07 1 = rule.getD 0xFF)
        ∧ f 0x08 8 = r.pc.toNat ∧ f 0x10 8 = r.detail.toNat
        ∧ (∀ k, k < 64 → (Nat.testBit (f 0x18 8) k = true ↔ ∃ l, l ∈ live ∧ l.lane = k ∧ l.th.ltid ∈ x.handlers))
        ∧ (∀ k, k < 64 → (Nat.testBit (f 0x20 8) k = true ↔ ∃ l, l ∈ live ∧ l.lane = k))
        ∧ f 0x28 1 = ((c.map (fun x => x.queue.qkind)).getD 0) ∧ f 0x29 3 = 0
        ∧ f 0x2C 4 = (if tile.isSome then ((c.map Cmd.pos).getD 0) % 2 ^ 26 else 0)
        ∧ f 0x30 8 = ((c.map Cmd.seq).getD 0) % 2 ^ 64 ∧ (∃ d, d ≤ 4 ∧ f 0x38 8 = (s.clock.time - d) % 2 ^ 64) ∧ f 0x70 16 = 0
        ∧ (∀ l, l ∈ live → f 0x40 48 / 2 ^ (6 * l.lane) % 2 ^ 6 = l.th.flags.toNat)
        ∧ ∀ k, k < 64 → f (0x80 + 2 * k) 2 = ((live.find? (fun l => l.lane == k)).map (fun l => l.th.ltid % 2 ^ 16)).getD 0xFFFF))
  ∧ (∀ (s : State) (t : Team) (w : Warp) (r : TrapReq) (more : List TrapReq), s.turn = none → s.team? t.id = some t →
    t.warp? w.id = some w → w.want = r :: more →
    let u (x : State) : Prop := exec (.trapEntry t.id w.id) s = .next x
    let used := (((s.wk.teams.filter (fun x => x.core == t.core && x.slot == t.slot)).map (fun x => x.traps.length))).sum
    (r.offer = .wanted ∨ (∃ k, r.offer = .sent k) → u s)
    ∧ (r.offer = .resolved → u (s.updTeam t.id (fun x => x.updWarp w.id (fun y => { y with want := more, packet := none }))))
    ∧ (r.offer = .none ∨ r.offer = .declined → (w.trap ≠ none → r.kind ≠ 3 → u (s.endTeam t.id t.index))
      ∧ (w.trap = none ∨ r.kind = 3 → (t.slot = none ∨ 64 ≤ used → u s)
        ∧ (t.slot ≠ none → used < 64 → ∃ v : Team, (s.flushWindow t.id).team? t.id = some v ∧ v = { t with window := v.window }
          ∧ u ((s.flushWindow t.id).takeTrap v w r more)))))

/-- 26 R412, R413: return from a trap. An ACTION above 2, or a LANEMAP that does not name each thread of the warp once, ends the team.
Otherwise flags, lanes and mode come back, the frame is freed, and ACTION says where the warp goes on. -/
def Obligations.TrapReturnResults : Prop := ∀ (s : State) (team : Nat) (t : Team) (r : TrapRec), s.team? team = some t →
  (∀ q, q ∈ r.members → q.thread < 0xFFFF ∧ q.lane < 64) →
  let f (off n : Nat) : Nat := ofBytes ((List.range n).map (fun k => Table.read 0 r.frame (off + k)))
  let action := f 5 1
  let entry (k : Nat) : Nat := f (0x80 + 2 * k) 2
  let alive (n : Nat) : Bool := (t.thread? n).any Thread.alive
  let member (n : Nat) : Prop := ∃ q, q ∈ r.members ∧ q.thread = n
  let good : Prop := (∀ k, k < 64 → entry k = 0xFFFF ∨ member (entry k))
    ∧ ∀ q, q ∈ r.members → (∃ k, k < 64 ∧ entry k = q.thread ∧ ∀ j, j < 64 → entry j = q.thread → j = k)
      ∨ (alive q.thread = false ∧ ∀ k, k < 64 → entry k ≠ q.thread)
  let again : Prop := r.req.kind = 0 ∧ action = 0 ∧ r.req.cause ∈ [1, 2, 6]
  let u := s.returnTrap team r
  (2 < action ∨ ¬good → u = s.endTeam team t.index)
  ∧ (action ≤ 2 → good → ∃ (m n : State) (v : Team) (w : Warp),
    n = (if r.req.kind = 3 then m.answerCmd r.req.cmd (action == 0) else m)
    ∧ u = (if action = 2 ∨ (r.req.kind = 2 ∧ action = 1) then n.endThreads team r.handlers else n)
    ∧ m = { s with wk := { s.wk with teams := m.wk.teams }, ctxs := m.ctxs } ∧ (∀ k, k ≠ team → m.team? k = s.team? k)
    ∧ m.team? team = some v ∧ v.traps = t.traps.filter (fun q => q.id != r.id) ∧ (∀ x, x ∈ v.warps → x.trap ≠ some r.id)
    ∧ v.warps.getLast? = some w ∧ w.id = t.nextW ∧ w.packet = none ∧ w.want = r.more ∧ w.lines = r.lines ∧ w.link = r.link
    ∧ (∀ k, k < 64 → (w.lanes[k]?).join = if entry k ≠ 0xFFFF ∧ alive (entry k) = true then some (entry k) else none)
    ∧ w.lanes.length ≤ 64 ∧ w.lanes.getLast? ≠ some none
    ∧ (action ≠ 0 → w.redo = []) ∧ (action = 0 → ∀ d, d ∈ w.redo ↔ ∃ a, a ∈ r.req.redo ∧ d = { a with threads := a.threads.filter alive } ∧ d.threads ≠ [])
    ∧ w.fence = (if r.req.cause = 0x50 ∧ action ≠ 0 then none else r.fence)
    ∧ ∀ k a, t.thread? k = some a → ∃ b, v.thread? k = some b ∧ (¬member k → b = a)
      ∧ ∀ q, r.members.find? (fun q => q.thread == k) = some q → b.wait = q.wait ∧ b.next = none ∧ (again → b.pc = r.req.pc ∧ b.slot = r.req.start)
        ∧ (¬again → b.pc = q.pc ∧ b.slot = q.slot) ∧ (∀ j, b.final (.reg j) = a.final (.reg j))
        ∧ (∀ j, j < 7 → (b.final (.pred j) != 0) = (a.final (.pred j) != 0)) ∧ b.alive = a.alive ∧ b.stack = a.stack
        ∧ b.flags.toNat = f 0x40 48 / 2 ^ (6 * q.lane) % 2 ^ 6 ∧ b.tcfg = a.tcfg &&& ~~~8)
  ∧ ∀ id c, s.cmd? id = some c → (s.answerCmd (some id) true).cmd? id = some { c with state := .ready }
    ∧ (s.answerCmd (some id) false).cmd? id = some { c with state := .performed, aborted := true }
end

