-- ==== Sys2Proof/Laws/State.lean ====
section
/-! SUPPORT. What each named update of the state leaves in each field of it: one lemma per field, by definition. -/

namespace Sys2Proof.Machine

set_option Elab.async false

variable (s : State)

@[simp] theorem State.updTeam_mm (id : Nat) (f : Team → Team) : (s.updTeam id f).mm = s.mm := rfl
@[simp] theorem State.updTeam_fe (id : Nat) (f : Team → Team) : (s.updTeam id f).fe = s.fe := rfl
@[simp] theorem State.updTeam_wk (id : Nat) (f : Team → Team) :
    (s.updTeam id f).wk = { s.wk with teams := s.wk.teams.map (fun t => if t.id = id then f t else t) } := rfl
@[simp] theorem State.updTeam_eng (id : Nat) (f : Team → Team) : (s.updTeam id f).eng = s.eng := rfl
@[simp] theorem State.updTeam_ctxs (id : Nat) (f : Team → Team) : (s.updTeam id f).ctxs = s.ctxs := rfl
@[simp] theorem State.updTeam_cores (id : Nat) (f : Team → Team) : (s.updTeam id f).cores = s.cores := rfl
@[simp] theorem State.updTeam_dbg (id : Nat) (f : Team → Team) : (s.updTeam id f).dbg = s.dbg := rfl
@[simp] theorem State.updTeam_clock (id : Nat) (f : Team → Team) : (s.updTeam id f).clock = s.clock := rfl
@[simp] theorem State.updTeam_pkg (id : Nat) (f : Team → Team) : (s.updTeam id f).pkg = s.pkg := rfl
@[simp] theorem State.updTeam_turn (id : Nat) (f : Team → Team) : (s.updTeam id f).turn = s.turn := rfl
@[simp] theorem State.updTeam_inputs (id : Nat) (f : Team → Team) : (s.updTeam id f).inputs = s.inputs := rfl
@[simp] theorem State.updTeam_issueN (id : Nat) (f : Team → Team) : (s.updTeam id f).issueN = s.issueN := rfl
@[simp] theorem State.updTeam_free (id : Nat) (f : Team → Team) : (s.updTeam id f).free = s.free := rfl

@[simp] theorem State.updThread_mm (team n : Nat) (f : Thread → Thread) : (s.updThread team n f).mm = s.mm := rfl
@[simp] theorem State.updThread_fe (team n : Nat) (f : Thread → Thread) : (s.updThread team n f).fe = s.fe := rfl
@[simp] theorem State.updThread_wk (team n : Nat) (f : Thread → Thread) :
    (s.updThread team n f).wk = (s.updTeam team (fun t => t.updThread n f)).wk := rfl
@[simp] theorem State.updThread_eng (team n : Nat) (f : Thread → Thread) : (s.updThread team n f).eng = s.eng := rfl
@[simp] theorem State.updThread_ctxs (team n : Nat) (f : Thread → Thread) : (s.updThread team n f).ctxs = s.ctxs := rfl
@[simp] theorem State.updThread_cores (team n : Nat) (f : Thread → Thread) : (s.updThread team n f).cores = s.cores := rfl
@[simp] theorem State.updThread_dbg (team n : Nat) (f : Thread → Thread) : (s.updThread team n f).dbg = s.dbg := rfl
@[simp] theorem State.updThread_clock (team n : Nat) (f : Thread → Thread) : (s.updThread team n f).clock = s.clock := rfl
@[simp] theorem State.updThread_pkg (team n : Nat) (f : Thread → Thread) : (s.updThread team n f).pkg = s.pkg := rfl
@[simp] theorem State.updThread_turn (team n : Nat) (f : Thread → Thread) : (s.updThread team n f).turn = s.turn := rfl
@[simp] theorem State.updThread_inputs (team n : Nat) (f : Thread → Thread) : (s.updThread team n f).inputs = s.inputs := rfl
@[simp] theorem State.updThread_issueN (team n : Nat) (f : Thread → Thread) : (s.updThread team n f).issueN = s.issueN := rfl
@[simp] theorem State.updThread_free (team n : Nat) (f : Thread → Thread) : (s.updThread team n f).free = s.free := rfl

@[simp] theorem State.updGrid_mm (id : Nat) (f : Grid → Grid) : (s.updGrid id f).mm = s.mm := rfl
@[simp] theorem State.updGrid_fe (id : Nat) (f : Grid → Grid) :
    (s.updGrid id f).fe = { s.fe with grids := s.fe.grids.map (fun g => if g.id = id then f g else g) } := rfl
@[simp] theorem State.updGrid_wk (id : Nat) (f : Grid → Grid) : (s.updGrid id f).wk = s.wk := rfl
@[simp] theorem State.updGrid_eng (id : Nat) (f : Grid → Grid) : (s.updGrid id f).eng = s.eng := rfl
@[simp] theorem State.updGrid_ctxs (id : Nat) (f : Grid → Grid) : (s.updGrid id f).ctxs = s.ctxs := rfl
@[simp] theorem State.updGrid_cores (id : Nat) (f : Grid → Grid) : (s.updGrid id f).cores = s.cores := rfl
@[simp] theorem State.updGrid_dbg (id : Nat) (f : Grid → Grid) : (s.updGrid id f).dbg = s.dbg := rfl
@[simp] theorem State.updGrid_clock (id : Nat) (f : Grid → Grid) : (s.updGrid id f).clock = s.clock := rfl
@[simp] theorem State.updGrid_pkg (id : Nat) (f : Grid → Grid) : (s.updGrid id f).pkg = s.pkg := rfl
@[simp] theorem State.updGrid_turn (id : Nat) (f : Grid → Grid) : (s.updGrid id f).turn = s.turn := rfl
@[simp] theorem State.updGrid_inputs (id : Nat) (f : Grid → Grid) : (s.updGrid id f).inputs = s.inputs := rfl
@[simp] theorem State.updGrid_issueN (id : Nat) (f : Grid → Grid) : (s.updGrid id f).issueN = s.issueN := rfl
@[simp] theorem State.updGrid_free (id : Nat) (f : Grid → Grid) : (s.updGrid id f).free = s.free := rfl

@[simp] theorem State.updQueue_mm (q : Nat) (f : QReg → QReg) : (s.updQueue q f).mm = s.mm := rfl
@[simp] theorem State.updQueue_fe (q : Nat) (f : QReg → QReg) :
    (s.updQueue q f).fe = { s.fe with queues := Table.upd QReg.reset s.fe.queues q f } := rfl
@[simp] theorem State.updQueue_wk (q : Nat) (f : QReg → QReg) : (s.updQueue q f).wk = s.wk := rfl
@[simp] theorem State.updQueue_eng (q : Nat) (f : QReg → QReg) : (s.updQueue q f).eng = s.eng := rfl
@[simp] theorem State.updQueue_ctxs (q : Nat) (f : QReg → QReg) : (s.updQueue q f).ctxs = s.ctxs := rfl
@[simp] theorem State.updQueue_cores (q : Nat) (f : QReg → QReg) : (s.updQueue q f).cores = s.cores := rfl
@[simp] theorem State.updQueue_dbg (q : Nat) (f : QReg → QReg) : (s.updQueue q f).dbg = s.dbg := rfl
@[simp] theorem State.updQueue_clock (q : Nat) (f : QReg → QReg) : (s.updQueue q f).clock = s.clock := rfl
@[simp] theorem State.updQueue_pkg (q : Nat) (f : QReg → QReg) : (s.updQueue q f).pkg = s.pkg := rfl
@[simp] theorem State.updQueue_turn (q : Nat) (f : QReg → QReg) : (s.updQueue q f).turn = s.turn := rfl
@[simp] theorem State.updQueue_inputs (q : Nat) (f : QReg → QReg) : (s.updQueue q f).inputs = s.inputs := rfl
@[simp] theorem State.updQueue_issueN (q : Nat) (f : QReg → QReg) : (s.updQueue q f).issueN = s.issueN := rfl
@[simp] theorem State.updQueue_free (q : Nat) (f : QReg → QReg) : (s.updQueue q f).free = s.free := rfl

@[simp] theorem State.updPkts_mm (f : Pkt → Pkt) : (s.updPkts f).mm = s.mm := rfl
@[simp] theorem State.updPkts_fe (f : Pkt → Pkt) : (s.updPkts f).fe = { s.fe with pkts := s.fe.pkts.map f } := rfl
@[simp] theorem State.updPkts_wk (f : Pkt → Pkt) : (s.updPkts f).wk = s.wk := rfl
@[simp] theorem State.updPkts_eng (f : Pkt → Pkt) : (s.updPkts f).eng = s.eng := rfl
@[simp] theorem State.updPkts_ctxs (f : Pkt → Pkt) : (s.updPkts f).ctxs = s.ctxs := rfl
@[simp] theorem State.updPkts_cores (f : Pkt → Pkt) : (s.updPkts f).cores = s.cores := rfl
@[simp] theorem State.updPkts_dbg (f : Pkt → Pkt) : (s.updPkts f).dbg = s.dbg := rfl
@[simp] theorem State.updPkts_clock (f : Pkt → Pkt) : (s.updPkts f).clock = s.clock := rfl
@[simp] theorem State.updPkts_pkg (f : Pkt → Pkt) : (s.updPkts f).pkg = s.pkg := rfl
@[simp] theorem State.updPkts_turn (f : Pkt → Pkt) : (s.updPkts f).turn = s.turn := rfl
@[simp] theorem State.updPkts_inputs (f : Pkt → Pkt) : (s.updPkts f).inputs = s.inputs := rfl
@[simp] theorem State.updPkts_issueN (f : Pkt → Pkt) : (s.updPkts f).issueN = s.issueN := rfl
@[simp] theorem State.updPkts_free (f : Pkt → Pkt) : (s.updPkts f).free = s.free := rfl

@[simp] theorem State.updPkt_mm (id : Nat) (f : Pkt → Pkt) : (s.updPkt id f).mm = s.mm := rfl
@[simp] theorem State.updPkt_fe (id : Nat) (f : Pkt → Pkt) :
    (s.updPkt id f).fe = { s.fe with pkts := s.fe.pkts.map (fun p => if p.id = id then f p else p) } := rfl
@[simp] theorem State.updPkt_wk (id : Nat) (f : Pkt → Pkt) : (s.updPkt id f).wk = s.wk := rfl
@[simp] theorem State.updPkt_eng (id : Nat) (f : Pkt → Pkt) : (s.updPkt id f).eng = s.eng := rfl
@[simp] theorem State.updPkt_ctxs (id : Nat) (f : Pkt → Pkt) : (s.updPkt id f).ctxs = s.ctxs := rfl
@[simp] theorem State.updPkt_cores (id : Nat) (f : Pkt → Pkt) : (s.updPkt id f).cores = s.cores := rfl
@[simp] theorem State.updPkt_dbg (id : Nat) (f : Pkt → Pkt) : (s.updPkt id f).dbg = s.dbg := rfl
@[simp] theorem State.updPkt_clock (id : Nat) (f : Pkt → Pkt) : (s.updPkt id f).clock = s.clock := rfl
@[simp] theorem State.updPkt_pkg (id : Nat) (f : Pkt → Pkt) : (s.updPkt id f).pkg = s.pkg := rfl
@[simp] theorem State.updPkt_turn (id : Nat) (f : Pkt → Pkt) : (s.updPkt id f).turn = s.turn := rfl
@[simp] theorem State.updPkt_inputs (id : Nat) (f : Pkt → Pkt) : (s.updPkt id f).inputs = s.inputs := rfl
@[simp] theorem State.updPkt_issueN (id : Nat) (f : Pkt → Pkt) : (s.updPkt id f).issueN = s.issueN := rfl
@[simp] theorem State.updPkt_free (id : Nat) (f : Pkt → Pkt) : (s.updPkt id f).free = s.free := rfl

@[simp] theorem State.updCmd_mm (id : Nat) (f : Cmd → Cmd) : (s.updCmd id f).mm = s.mm := rfl
@[simp] theorem State.updCmd_fe (id : Nat) (f : Cmd → Cmd) : (s.updCmd id f).fe = s.fe := rfl
@[simp] theorem State.updCmd_wk (id : Nat) (f : Cmd → Cmd) : (s.updCmd id f).wk = s.wk := rfl
@[simp] theorem State.updCmd_eng (id : Nat) (f : Cmd → Cmd) :
    (s.updCmd id f).eng = { s.eng with cmds := s.eng.cmds.map (fun c => if c.id = id then f c else c) } := rfl
@[simp] theorem State.updCmd_ctxs (id : Nat) (f : Cmd → Cmd) : (s.updCmd id f).ctxs = s.ctxs := rfl
@[simp] theorem State.updCmd_cores (id : Nat) (f : Cmd → Cmd) : (s.updCmd id f).cores = s.cores := rfl
@[simp] theorem State.updCmd_dbg (id : Nat) (f : Cmd → Cmd) : (s.updCmd id f).dbg = s.dbg := rfl
@[simp] theorem State.updCmd_clock (id : Nat) (f : Cmd → Cmd) : (s.updCmd id f).clock = s.clock := rfl
@[simp] theorem State.updCmd_pkg (id : Nat) (f : Cmd → Cmd) : (s.updCmd id f).pkg = s.pkg := rfl
@[simp] theorem State.updCmd_turn (id : Nat) (f : Cmd → Cmd) : (s.updCmd id f).turn = s.turn := rfl
@[simp] theorem State.updCmd_inputs (id : Nat) (f : Cmd → Cmd) : (s.updCmd id f).inputs = s.inputs := rfl
@[simp] theorem State.updCmd_issueN (id : Nat) (f : Cmd → Cmd) : (s.updCmd id f).issueN = s.issueN := rfl
@[simp] theorem State.updCmd_free (id : Nat) (f : Cmd → Cmd) : (s.updCmd id f).free = s.free := rfl

@[simp] theorem State.updCtx_mm (ctx die : Nat) (f : CtxReg → CtxReg) : (s.updCtx ctx die f).mm = s.mm := rfl
@[simp] theorem State.updCtx_fe (ctx die : Nat) (f : CtxReg → CtxReg) : (s.updCtx ctx die f).fe = s.fe := rfl
@[simp] theorem State.updCtx_wk (ctx die : Nat) (f : CtxReg → CtxReg) : (s.updCtx ctx die f).wk = s.wk := rfl
@[simp] theorem State.updCtx_eng (ctx die : Nat) (f : CtxReg → CtxReg) : (s.updCtx ctx die f).eng = s.eng := rfl
@[simp] theorem State.updCtx_ctxs (ctx die : Nat) (f : CtxReg → CtxReg) :
    (s.updCtx ctx die f).ctxs = Table.upd CtxReg.reset s.ctxs (4 * ctx + die) f := rfl
@[simp] theorem State.updCtx_cores (ctx die : Nat) (f : CtxReg → CtxReg) : (s.updCtx ctx die f).cores = s.cores := rfl
@[simp] theorem State.updCtx_dbg (ctx die : Nat) (f : CtxReg → CtxReg) : (s.updCtx ctx die f).dbg = s.dbg := rfl
@[simp] theorem State.updCtx_clock (ctx die : Nat) (f : CtxReg → CtxReg) : (s.updCtx ctx die f).clock = s.clock := rfl
@[simp] theorem State.updCtx_pkg (ctx die : Nat) (f : CtxReg → CtxReg) : (s.updCtx ctx die f).pkg = s.pkg := rfl
@[simp] theorem State.updCtx_turn (ctx die : Nat) (f : CtxReg → CtxReg) : (s.updCtx ctx die f).turn = s.turn := rfl
@[simp] theorem State.updCtx_inputs (ctx die : Nat) (f : CtxReg → CtxReg) : (s.updCtx ctx die f).inputs = s.inputs := rfl
@[simp] theorem State.updCtx_issueN (ctx die : Nat) (f : CtxReg → CtxReg) : (s.updCtx ctx die f).issueN = s.issueN := rfl
@[simp] theorem State.updCtx_free (ctx die : Nat) (f : CtxReg → CtxReg) : (s.updCtx ctx die f).free = s.free := rfl

@[simp] theorem State.updCore_mm (core : Nat) (f : CoreReg → CoreReg) : (s.updCore core f).mm = s.mm := rfl
@[simp] theorem State.updCore_fe (core : Nat) (f : CoreReg → CoreReg) : (s.updCore core f).fe = s.fe := rfl
@[simp] theorem State.updCore_wk (core : Nat) (f : CoreReg → CoreReg) : (s.updCore core f).wk = s.wk := rfl
@[simp] theorem State.updCore_eng (core : Nat) (f : CoreReg → CoreReg) : (s.updCore core f).eng = s.eng := rfl
@[simp] theorem State.updCore_ctxs (core : Nat) (f : CoreReg → CoreReg) : (s.updCore core f).ctxs = s.ctxs := rfl
@[simp] theorem State.updCore_cores (core : Nat) (f : CoreReg → CoreReg) :
    (s.updCore core f).cores = Table.upd CoreReg.reset s.cores core f := rfl
@[simp] theorem State.updCore_dbg (core : Nat) (f : CoreReg → CoreReg) : (s.updCore core f).dbg = s.dbg := rfl
@[simp] theorem State.updCore_clock (core : Nat) (f : CoreReg → CoreReg) : (s.updCore core f).clock = s.clock := rfl
@[simp] theorem State.updCore_pkg (core : Nat) (f : CoreReg → CoreReg) : (s.updCore core f).pkg = s.pkg := rfl
@[simp] theorem State.updCore_turn (core : Nat) (f : CoreReg → CoreReg) : (s.updCore core f).turn = s.turn := rfl
@[simp] theorem State.updCore_inputs (core : Nat) (f : CoreReg → CoreReg) : (s.updCore core f).inputs = s.inputs := rfl
@[simp] theorem State.updCore_issueN (core : Nat) (f : CoreReg → CoreReg) : (s.updCore core f).issueN = s.issueN := rfl
@[simp] theorem State.updCore_free (core : Nat) (f : CoreReg → CoreReg) : (s.updCore core f).free = s.free := rfl

@[simp] theorem State.updLink_mm (k : Nat) (f : Link → Link) : (s.updLink k f).mm = s.mm := rfl
@[simp] theorem State.updLink_fe (k : Nat) (f : Link → Link) : (s.updLink k f).fe = s.fe := rfl
@[simp] theorem State.updLink_wk (k : Nat) (f : Link → Link) : (s.updLink k f).wk = s.wk := rfl
@[simp] theorem State.updLink_eng (k : Nat) (f : Link → Link) : (s.updLink k f).eng = s.eng := rfl
@[simp] theorem State.updLink_ctxs (k : Nat) (f : Link → Link) : (s.updLink k f).ctxs = s.ctxs := rfl
@[simp] theorem State.updLink_cores (k : Nat) (f : Link → Link) : (s.updLink k f).cores = s.cores := rfl
@[simp] theorem State.updLink_dbg (k : Nat) (f : Link → Link) : (s.updLink k f).dbg = s.dbg := rfl
@[simp] theorem State.updLink_clock (k : Nat) (f : Link → Link) : (s.updLink k f).clock = s.clock := rfl
@[simp] theorem State.updLink_turn (k : Nat) (f : Link → Link) : (s.updLink k f).turn = s.turn := rfl
@[simp] theorem State.updLink_inputs (k : Nat) (f : Link → Link) : (s.updLink k f).inputs = s.inputs := rfl
@[simp] theorem State.updLink_issueN (k : Nat) (f : Link → Link) : (s.updLink k f).issueN = s.issueN := rfl
@[simp] theorem State.updLink_free (k : Nat) (f : Link → Link) : (s.updLink k f).free = s.free := rfl

@[simp] theorem State.drew_mm : (s.drew).mm = s.mm := rfl
@[simp] theorem State.drew_fe : (s.drew).fe = s.fe := rfl
@[simp] theorem State.drew_wk : (s.drew).wk = s.wk := rfl
@[simp] theorem State.drew_eng : (s.drew).eng = s.eng := rfl
@[simp] theorem State.drew_ctxs : (s.drew).ctxs = s.ctxs := rfl
@[simp] theorem State.drew_cores : (s.drew).cores = s.cores := rfl
@[simp] theorem State.drew_dbg : (s.drew).dbg = s.dbg := rfl
@[simp] theorem State.drew_clock : (s.drew).clock = s.clock := rfl
@[simp] theorem State.drew_pkg : (s.drew).pkg = s.pkg := rfl
@[simp] theorem State.drew_turn : (s.drew).turn = s.turn := rfl
@[simp] theorem State.drew_inputs : (s.drew).inputs = s.inputs := rfl
@[simp] theorem State.drew_issueN : (s.drew).issueN = s.issueN := rfl
@[simp] theorem State.drew_free : (s.drew).free = s.free + 1 := rfl

@[simp] theorem State.tick_mm : (s.tick).mm = s.mm := rfl
@[simp] theorem State.tick_fe : (s.tick).fe = s.fe := rfl
@[simp] theorem State.tick_wk : (s.tick).wk = s.wk := rfl
@[simp] theorem State.tick_eng : (s.tick).eng = s.eng := rfl
@[simp] theorem State.tick_ctxs : (s.tick).ctxs = s.ctxs := rfl
@[simp] theorem State.tick_cores : (s.tick).cores = s.cores := rfl
@[simp] theorem State.tick_dbg : (s.tick).dbg = s.dbg := rfl
@[simp] theorem State.tick_clock :
    (s.tick).clock = { s.clock with time := s.clock.time + Config.elapsedNs s.free, clk := s.clock.clk + Config.elapsedClk s.free } := rfl
@[simp] theorem State.tick_pkg : (s.tick).pkg = s.pkg := rfl
@[simp] theorem State.tick_turn : (s.tick).turn = s.turn := rfl
@[simp] theorem State.tick_inputs : (s.tick).inputs = s.inputs := rfl
@[simp] theorem State.tick_issueN : (s.tick).issueN = s.issueN := rfl
@[simp] theorem State.tick_free : (s.tick).free = s.free + 1 := rfl

@[simp] theorem State.setL1_mm (core : Nat) (l : L1) : (s.setL1 core l).mm = { s.mm with l1 := Table.put s.mm.l1 core l } := rfl
@[simp] theorem State.setL1_fe (core : Nat) (l : L1) : (s.setL1 core l).fe = s.fe := rfl
@[simp] theorem State.setL1_wk (core : Nat) (l : L1) : (s.setL1 core l).wk = s.wk := rfl
@[simp] theorem State.setL1_eng (core : Nat) (l : L1) : (s.setL1 core l).eng = s.eng := rfl
@[simp] theorem State.setL1_ctxs (core : Nat) (l : L1) : (s.setL1 core l).ctxs = s.ctxs := rfl
@[simp] theorem State.setL1_cores (core : Nat) (l : L1) : (s.setL1 core l).cores = s.cores := rfl
@[simp] theorem State.setL1_dbg (core : Nat) (l : L1) : (s.setL1 core l).dbg = s.dbg := rfl
@[simp] theorem State.setL1_clock (core : Nat) (l : L1) : (s.setL1 core l).clock = s.clock := rfl
@[simp] theorem State.setL1_pkg (core : Nat) (l : L1) : (s.setL1 core l).pkg = s.pkg := rfl
@[simp] theorem State.setL1_turn (core : Nat) (l : L1) : (s.setL1 core l).turn = s.turn := rfl
@[simp] theorem State.setL1_inputs (core : Nat) (l : L1) : (s.setL1 core l).inputs = s.inputs := rfl
@[simp] theorem State.setL1_issueN (core : Nat) (l : L1) : (s.setL1 core l).issueN = s.issueN := rfl
@[simp] theorem State.setL1_free (core : Nat) (l : L1) : (s.setL1 core l).free = s.free := rfl

@[simp] theorem State.numbered_mm : (s.numbered).mm = { s.mm with nextC := s.mm.nextC + 1 } := rfl
@[simp] theorem State.numbered_fe : (s.numbered).fe = s.fe := rfl
@[simp] theorem State.numbered_wk : (s.numbered).wk = s.wk := rfl
@[simp] theorem State.numbered_eng : (s.numbered).eng = s.eng := rfl
@[simp] theorem State.numbered_ctxs : (s.numbered).ctxs = s.ctxs := rfl
@[simp] theorem State.numbered_cores : (s.numbered).cores = s.cores := rfl
@[simp] theorem State.numbered_dbg : (s.numbered).dbg = s.dbg := rfl
@[simp] theorem State.numbered_clock : (s.numbered).clock = s.clock := rfl
@[simp] theorem State.numbered_pkg : (s.numbered).pkg = s.pkg := rfl
@[simp] theorem State.numbered_turn : (s.numbered).turn = s.turn := rfl
@[simp] theorem State.numbered_inputs : (s.numbered).inputs = s.inputs := rfl
@[simp] theorem State.numbered_issueN : (s.numbered).issueN = s.issueN := rfl
@[simp] theorem State.numbered_free : (s.numbered).free = s.free := rfl

@[simp] theorem State.seeOrdered_fe (grid core : Nat) (threads : List (Nat × Nat)) :
    (s.seeOrdered grid core threads).fe = s.fe := rfl
@[simp] theorem State.seeOrdered_wk (grid core : Nat) (threads : List (Nat × Nat)) :
    (s.seeOrdered grid core threads).wk = s.wk := rfl
@[simp] theorem State.seeOrdered_eng (grid core : Nat) (threads : List (Nat × Nat)) :
    (s.seeOrdered grid core threads).eng = s.eng := rfl
@[simp] theorem State.seeOrdered_ctxs (grid core : Nat) (threads : List (Nat × Nat)) :
    (s.seeOrdered grid core threads).ctxs = s.ctxs := rfl
@[simp] theorem State.seeOrdered_cores (grid core : Nat) (threads : List (Nat × Nat)) :
    (s.seeOrdered grid core threads).cores = s.cores := rfl
@[simp] theorem State.seeOrdered_dbg (grid core : Nat) (threads : List (Nat × Nat)) :
    (s.seeOrdered grid core threads).dbg = s.dbg := rfl
@[simp] theorem State.seeOrdered_clock (grid core : Nat) (threads : List (Nat × Nat)) :
    (s.seeOrdered grid core threads).clock = s.clock := rfl
@[simp] theorem State.seeOrdered_pkg (grid core : Nat) (threads : List (Nat × Nat)) :
    (s.seeOrdered grid core threads).pkg = s.pkg := rfl
@[simp] theorem State.seeOrdered_turn (grid core : Nat) (threads : List (Nat × Nat)) :
    (s.seeOrdered grid core threads).turn = s.turn := rfl
@[simp] theorem State.seeOrdered_inputs (grid core : Nat) (threads : List (Nat × Nat)) :
    (s.seeOrdered grid core threads).inputs = s.inputs := rfl
@[simp] theorem State.seeOrdered_issueN (grid core : Nat) (threads : List (Nat × Nat)) :
    (s.seeOrdered grid core threads).issueN = s.issueN := rfl
@[simp] theorem State.seeOrdered_free (grid core : Nat) (threads : List (Nat × Nat)) :
    (s.seeOrdered grid core threads).free = s.free := rfl

@[simp] theorem State.occupy_mm (t : Turn) (core segs ports : Nat) : (s.occupy t core segs ports).mm = s.mm := rfl
@[simp] theorem State.occupy_fe (t : Turn) (core segs ports : Nat) : (s.occupy t core segs ports).fe = s.fe := rfl
@[simp] theorem State.occupy_wk (t : Turn) (core segs ports : Nat) : (s.occupy t core segs ports).wk = s.wk := rfl
@[simp] theorem State.occupy_eng (t : Turn) (core segs ports : Nat) : (s.occupy t core segs ports).eng = s.eng := rfl
@[simp] theorem State.occupy_ctxs (t : Turn) (core segs ports : Nat) : (s.occupy t core segs ports).ctxs = s.ctxs := rfl
@[simp] theorem State.occupy_dbg (t : Turn) (core segs ports : Nat) : (s.occupy t core segs ports).dbg = s.dbg := rfl
@[simp] theorem State.occupy_clock (t : Turn) (core segs ports : Nat) : (s.occupy t core segs ports).clock = s.clock := rfl
@[simp] theorem State.occupy_pkg (t : Turn) (core segs ports : Nat) : (s.occupy t core segs ports).pkg = s.pkg := rfl
@[simp] theorem State.occupy_turn (t : Turn) (core segs ports : Nat) : (s.occupy t core segs ports).turn = some t := rfl
@[simp] theorem State.occupy_inputs (t : Turn) (core segs ports : Nat) : (s.occupy t core segs ports).inputs = s.inputs := rfl
@[simp] theorem State.occupy_issueN (t : Turn) (core segs ports : Nat) : (s.occupy t core segs ports).issueN = s.issueN := rfl
@[simp] theorem State.occupy_free (t : Turn) (core segs ports : Nat) : (s.occupy t core segs ports).free = s.free := rfl

@[simp] theorem State.setBar_mm (core index : Nat) (e : BarEntry) : (s.setBar core index e).mm = s.mm := rfl
@[simp] theorem State.setBar_fe (core index : Nat) (e : BarEntry) : (s.setBar core index e).fe = s.fe := rfl
@[simp] theorem State.setBar_eng (core index : Nat) (e : BarEntry) : (s.setBar core index e).eng = s.eng := rfl
@[simp] theorem State.setBar_ctxs (core index : Nat) (e : BarEntry) : (s.setBar core index e).ctxs = s.ctxs := rfl
@[simp] theorem State.setBar_cores (core index : Nat) (e : BarEntry) : (s.setBar core index e).cores = s.cores := rfl
@[simp] theorem State.setBar_dbg (core index : Nat) (e : BarEntry) : (s.setBar core index e).dbg = s.dbg := rfl
@[simp] theorem State.setBar_clock (core index : Nat) (e : BarEntry) : (s.setBar core index e).clock = s.clock := rfl
@[simp] theorem State.setBar_pkg (core index : Nat) (e : BarEntry) : (s.setBar core index e).pkg = s.pkg := rfl
@[simp] theorem State.setBar_turn (core index : Nat) (e : BarEntry) : (s.setBar core index e).turn = s.turn := rfl
@[simp] theorem State.setBar_inputs (core index : Nat) (e : BarEntry) : (s.setBar core index e).inputs = s.inputs := rfl
@[simp] theorem State.setBar_issueN (core index : Nat) (e : BarEntry) : (s.setBar core index e).issueN = s.issueN := rfl
@[simp] theorem State.setBar_free (core index : Nat) (e : BarEntry) : (s.setBar core index e).free = s.free := rfl

@[simp] theorem State.setObj_mm (die index : Nat) (o : Obj) : (s.setObj die index o).mm = s.mm := rfl
@[simp] theorem State.setObj_fe (die index : Nat) (o : Obj) : (s.setObj die index o).fe = s.fe := rfl
@[simp] theorem State.setObj_wk (die index : Nat) (o : Obj) : (s.setObj die index o).wk = s.wk := rfl
@[simp] theorem State.setObj_eng (die index : Nat) (o : Obj) :
    (s.setObj die index o).eng = { s.eng with objs := Table.put s.eng.objs (objKey die index) o } := rfl
@[simp] theorem State.setObj_ctxs (die index : Nat) (o : Obj) : (s.setObj die index o).ctxs = s.ctxs := rfl
@[simp] theorem State.setObj_cores (die index : Nat) (o : Obj) : (s.setObj die index o).cores = s.cores := rfl
@[simp] theorem State.setObj_dbg (die index : Nat) (o : Obj) : (s.setObj die index o).dbg = s.dbg := rfl
@[simp] theorem State.setObj_clock (die index : Nat) (o : Obj) : (s.setObj die index o).clock = s.clock := rfl
@[simp] theorem State.setObj_pkg (die index : Nat) (o : Obj) : (s.setObj die index o).pkg = s.pkg := rfl
@[simp] theorem State.setObj_turn (die index : Nat) (o : Obj) : (s.setObj die index o).turn = s.turn := rfl
@[simp] theorem State.setObj_inputs (die index : Nat) (o : Obj) : (s.setObj die index o).inputs = s.inputs := rfl
@[simp] theorem State.setObj_issueN (die index : Nat) (o : Obj) : (s.setObj die index o).issueN = s.issueN := rfl
@[simp] theorem State.setObj_free (die index : Nat) (o : Obj) : (s.setObj die index o).free = s.free := rfl

@[simp] theorem State.wakes_mm : (s.wakes).mm = s.mm := rfl
@[simp] theorem State.wakes_fe : (s.wakes).fe = s.fe := rfl
@[simp] theorem State.wakes_wk : (s.wakes).wk = s.wk := rfl
@[simp] theorem State.wakes_eng : (s.wakes).eng = s.eng := rfl
@[simp] theorem State.wakes_ctxs : (s.wakes).ctxs = s.ctxs := rfl
@[simp] theorem State.wakes_cores : (s.wakes).cores = s.cores := rfl
@[simp] theorem State.wakes_dbg : (s.wakes).dbg = s.dbg := rfl
@[simp] theorem State.wakes_clock : (s.wakes).clock = s.clock := rfl
@[simp] theorem State.wakes_pkg : (s.wakes).pkg = s.pkg := rfl
@[simp] theorem State.wakes_turn : (s.wakes).turn = s.turn.map (fun t => { t with wake := true }) := rfl
@[simp] theorem State.wakes_inputs : (s.wakes).inputs = s.inputs := rfl
@[simp] theorem State.wakes_issueN : (s.wakes).issueN = s.issueN := rfl
@[simp] theorem State.wakes_free : (s.wakes).free = s.free := rfl

@[simp] theorem State.startStep_mm (t : Turn) : (s.startStep t).mm = s.mm := rfl
@[simp] theorem State.startStep_fe (t : Turn) : (s.startStep t).fe = s.fe := rfl
@[simp] theorem State.startStep_wk (t : Turn) : (s.startStep t).wk = s.wk := rfl
@[simp] theorem State.startStep_eng (t : Turn) : (s.startStep t).eng = s.eng := rfl
@[simp] theorem State.startStep_ctxs (t : Turn) : (s.startStep t).ctxs = s.ctxs := rfl
@[simp] theorem State.startStep_cores (t : Turn) : (s.startStep t).cores = s.cores := rfl
@[simp] theorem State.startStep_clock (t : Turn) : (s.startStep t).clock = s.clock := rfl
@[simp] theorem State.startStep_pkg (t : Turn) : (s.startStep t).pkg = s.pkg := rfl
@[simp] theorem State.startStep_turn (t : Turn) : (s.startStep t).turn = s.turn := rfl
@[simp] theorem State.startStep_inputs (t : Turn) : (s.startStep t).inputs = s.inputs := rfl
@[simp] theorem State.startStep_issueN (t : Turn) : (s.startStep t).issueN = s.issueN := rfl
@[simp] theorem State.startStep_free (t : Turn) : (s.startStep t).free = s.free := rfl

@[simp] theorem State.stepped_mm (team : Nat) (ids : List Nat) : (s.stepped team ids).mm = s.mm := rfl
@[simp] theorem State.stepped_fe (team : Nat) (ids : List Nat) : (s.stepped team ids).fe = s.fe := rfl
@[simp] theorem State.stepped_wk (team : Nat) (ids : List Nat) : (s.stepped team ids).wk = s.wk := rfl
@[simp] theorem State.stepped_eng (team : Nat) (ids : List Nat) : (s.stepped team ids).eng = s.eng := rfl
@[simp] theorem State.stepped_ctxs (team : Nat) (ids : List Nat) : (s.stepped team ids).ctxs = s.ctxs := rfl
@[simp] theorem State.stepped_cores (team : Nat) (ids : List Nat) : (s.stepped team ids).cores = s.cores := rfl
@[simp] theorem State.stepped_clock (team : Nat) (ids : List Nat) : (s.stepped team ids).clock = s.clock := rfl
@[simp] theorem State.stepped_pkg (team : Nat) (ids : List Nat) : (s.stepped team ids).pkg = s.pkg := rfl
@[simp] theorem State.stepped_turn (team : Nat) (ids : List Nat) : (s.stepped team ids).turn = s.turn := rfl
@[simp] theorem State.stepped_inputs (team : Nat) (ids : List Nat) : (s.stepped team ids).inputs = s.inputs := rfl
@[simp] theorem State.stepped_issueN (team : Nat) (ids : List Nat) : (s.stepped team ids).issueN = s.issueN := rfl
@[simp] theorem State.stepped_free (team : Nat) (ids : List Nat) : (s.stepped team ids).free = s.free := rfl

@[simp] theorem State.give_mm (i : Iss) (rcv : List Lane) (r : Res) (src : Src) : (s.give i rcv r src).mm = s.mm := rfl
@[simp] theorem State.give_fe (i : Iss) (rcv : List Lane) (r : Res) (src : Src) : (s.give i rcv r src).fe = s.fe := rfl
@[simp] theorem State.give_eng (i : Iss) (rcv : List Lane) (r : Res) (src : Src) : (s.give i rcv r src).eng = s.eng := rfl
@[simp] theorem State.give_ctxs (i : Iss) (rcv : List Lane) (r : Res) (src : Src) : (s.give i rcv r src).ctxs = s.ctxs := rfl
@[simp] theorem State.give_cores (i : Iss) (rcv : List Lane) (r : Res) (src : Src) : (s.give i rcv r src).cores = s.cores := rfl
@[simp] theorem State.give_dbg (i : Iss) (rcv : List Lane) (r : Res) (src : Src) : (s.give i rcv r src).dbg = s.dbg := rfl
@[simp] theorem State.give_clock (i : Iss) (rcv : List Lane) (r : Res) (src : Src) : (s.give i rcv r src).clock = s.clock := rfl
@[simp] theorem State.give_pkg (i : Iss) (rcv : List Lane) (r : Res) (src : Src) : (s.give i rcv r src).pkg = s.pkg := rfl
@[simp] theorem State.give_turn (i : Iss) (rcv : List Lane) (r : Res) (src : Src) : (s.give i rcv r src).turn = s.turn := rfl
@[simp] theorem State.give_inputs (i : Iss) (rcv : List Lane) (r : Res) (src : Src) :
    (s.give i rcv r src).inputs = s.inputs := rfl
@[simp] theorem State.give_issueN (i : Iss) (rcv : List Lane) (r : Res) (src : Src) :
    (s.give i rcv r src).issueN = s.issueN := rfl
@[simp] theorem State.give_free (i : Iss) (rcv : List Lane) (r : Res) (src : Src) : (s.give i rcv r src).free = s.free := rfl

/-! ### Lists that an update leaves alone -/

/-- An update of teams that keeps every number finds the same teams, updated. -/
theorem State.updTeam_team? (id k : Nat) (f : Team → Team) (hf : ∀ t, (f t).id = t.id) :
    (s.updTeam id f).team? k = (s.team? k).map (fun t => if t.id = id then f t else t) := by
  simp only [State.team?, State.updTeam_wk]
  generalize s.wk.teams = ts
  induction ts with
  | nil => rfl
  | cons t ts ih =>
    simp only [List.map_cons, List.find?_cons]
    have hid : (if t.id = id then f t else t).id = t.id := by split <;> simp [hf]
    rw [hid]
    split <;> simp_all

end Sys2Proof.Machine
end

