-- ==== Sys2Proof/Laws/Issue.lean ====
section
/-! SUPPORT. What an instruction that issues answers, and what the shared operation behind every register result does: one lemma for
each, to cite in place of unfolding it. -/

namespace Sys2Proof.Machine

set_option Elab.async false

/-- An instruction that issues answers its effect, and its slot is finished. -/
theorem issued_next {s : State} {op : Op} {e : Enc} {i : Iss} (body : Iss → State → State) (h : s.Issues op e i) :
    issued op e body s = .next (body i s).finishSlot := by
  obtain ⟨h1, h2, h3, h4, h5⟩ := h
  unfold issued
  rw [h1]
  dsimp only
  have h6 : (if i.turn.only.isSome = true then none else i.illegal) = none := by
    rw [h2, ite_self]
  rw [h6]
  simp [h3, h4, h5]

/-- The same of an instruction of `exec` that is issued so. -/
theorem exec_next {j : Instr} {s : State} {op : Op} {e : Enc} {i : Iss} {body : Iss → State → State}
    (hx : exec j s = issued op e body s) (h : s.Issues op e i) : exec j s = .next (body i s).finishSlot :=
  hx.trans (issued_next body h)

/-! ### Results pending -/

theorem Thread.last_append (p q : List Pend) (tgt : Target) (b : Word) (t : Thread) :
    Thread.last { t with pend := p ++ q } tgt b = Thread.last { t with pend := q } tgt (Thread.last { t with pend := p } tgt b) := by
  simp [Thread.last, List.foldl_append]

theorem Thread.push_read (a : Thread) (ps : List (Target × Word)) (src : Src) (tgt : Target) (b : Word) :
    (a.push ps src).read tgt b = a.read tgt b := by
  simp only [Thread.read, Thread.push, List.foldl_append]
  generalize List.foldl _ b a.pend = v
  generalize ps.filter _ = qs
  induction qs generalizing v with
  | nil => rfl
  | cons q qs ih => simpa [Pend.seen] using ih v

/-- The last of some results for a target; a result for p7 is none. -/
def outAt (ps : List (Target × Word)) (tgt : Target) : Option Word :=
  ((ps.filter (fun p => p.1 != .pred 7 && p.1 == tgt)).getLast?).map Prod.snd

theorem foldl_last (qs : List (Target × Word)) (src : Src) (fr : Bool) (tgt : Target) (v : Word) :
    (qs.map (fun p => (⟨p.1, p.2, src, fr⟩ : Pend))).foldl (fun v p => if p.tgt == tgt then p.val else v) v =
      (((qs.filter (fun p => p.1 == tgt)).getLast?).map Prod.snd).getD v := by
  induction qs generalizing v with
  | nil => rfl
  | cons q qs ih =>
    simp only [List.map_cons, List.foldl_cons, List.filter_cons]
    rw [ih]
    cases hq : q.1 == tgt
    · simp
    · simp only [if_true]
      rw [List.getLast?_cons]
      cases h : (List.filter (fun p => p.1 == tgt) qs).getLast? <;> simp

theorem Thread.push_final (a : Thread) (ps : List (Target × Word)) (src : Src) (tgt : Target) :
    (a.push ps src).final tgt = (outAt ps tgt).getD (a.final tgt) := by
  have hb : (a.push ps src).base tgt = a.base tgt := by cases tgt <;> rfl
  have hp : (a.push ps src).pend = a.pend ++ (ps.filter (fun p => p.1 != .pred 7)).map (fun p => ⟨p.1, p.2, src, true⟩) := rfl
  rw [Thread.final, Thread.final, hb, Thread.last, Thread.last, hp, List.foldl_append, foldl_last, outAt, List.filter_filter]
  congr 4
  funext p
  rw [Bool.and_comm]

theorem outAt_dstP (code : BitVec 8) (b : Bool) : outAt (dstP code b) = toPred code b := by
  funext tgt
  cases tgt with
  | reg k => simp [outAt, dstP, toPred]
  | pred k =>
    simp only [outAt, dstP, toPred, List.filter_cons, List.filter_nil]
    by_cases h : k = code.toNat % 8
    · subst h
      by_cases h7 : code.toNat % 8 = 7 <;> simp [h7]
    · have : ¬(code.toNat % 8 = k) := fun h' => h h'.symm
      simp [h, this]

theorem filter_range_eq (n k : Nat) : (List.range n).filter (fun j => j == k) = if k < n then [k] else [] := by
  induction n with
  | zero => simp
  | succ n ih =>
    rw [List.range_succ, List.filter_append, ih]
    by_cases h : k = n
    · subst h; simp
    · have h' : ¬ n = k := fun e => h e.symm
      by_cases h2 : k < n
      · simp [h2, h', show k < n + 1 by omega]
      · simp [h2, h', show ¬ k < n + 1 by omega]

theorem zipIdx_map_range {β : Type} (n : Nat) (f : Nat → β) :
    ((List.range n).map f).zipIdx = (List.range n).map (fun k => (f k, k)) := by
  apply List.ext_getElem
  · simp
  · intro k h1 h2
    simp

theorem outAt_dst (code : BitVec 8) (n v : Nat) : outAt (dst code n v) = toRegs code n v := by
  funext tgt
  unfold outAt dst wordsOf toRegs
  split
  · rename_i hc
    rw [zipIdx_map_range, List.map_map, List.filter_map, List.getLast?_map, Option.map_map]
    cases tgt with
    | pred k => simp [Function.comp_def]
    | reg k =>
      have : ((fun (p : Target × Word) => p.1 != .pred 7 && p.1 == .reg k) ∘
          ((fun (p : Word × Nat) => (Target.reg (code.toNat + p.2), p.1)) ∘ fun k => (BitVec.ofNat 32 (v >>> (32 * k)), k))) =
          fun j => code.toNat + j == k := by
        funext j
        rw [Bool.eq_iff_iff]
        simp [Function.comp_def]
      rw [this]
      by_cases hk : code.toNat ≤ k
      · have : (fun j => code.toNat + j == k) = (fun j => j == k - code.toNat) := by
          funext j
          rw [Bool.eq_iff_iff]
          simp only [beq_iff_eq]
          omega
        rw [this, filter_range_eq]
        by_cases hn : k < code.toNat + n
        · simp [hc, hk, hn, show k - code.toNat < n by omega, Function.comp_def, Nat.shiftRight_eq_div_pow]
        · simp [hn, show ¬ k - code.toNat < n by omega]
      · have : (fun j => code.toNat + j == k) = (fun _ => false) := by
          funext j
          simp [show ¬ code.toNat + j = k by omega]
        rw [this]
        simp [hk]
  · rename_i hc
    cases tgt <;> simp [hc]

theorem outAt_append (p q : List (Target × Word)) (tgt : Target) : outAt (p ++ q) tgt = (outAt q tgt).or (outAt p tgt) := by
  unfold outAt
  rw [List.filter_append, List.getLast?_append]
  cases (q.filter (fun p => p.1 != .pred 7 && p.1 == tgt)).getLast? <;> simp

/-! ### One team's threads -/

theorem find_map_same {α : Type} (l : List α) (p : α → Bool) (f : α → α) (h : ∀ x, p (f x) = p x) :
    (l.map f).find? p = (l.find? p).map f := by
  induction l with
  | nil => rfl
  | cons x l ih =>
    simp only [List.map_cons, List.find?_cons, h x]
    cases p x <;> simp [ih]

theorem State.updTeam_team (s : State) (id k : Nat) (f : Team → Team) (hf : ∀ t, (f t).id = t.id) :
    (s.updTeam id f).team? k = if k = id then (s.team? k).map f else s.team? k := by
  simp only [State.team?, State.updTeam]
  rw [find_map_same _ _ _ (by intro x; split <;> simp [hf])]
  by_cases hk : k = id
  · subst hk
    rw [if_pos rfl]
    cases h : s.wk.teams.find? (fun t => t.id == k) with
    | none => rfl
    | some t => have := List.find?_some h; simp_all
  · rw [if_neg hk]
    cases h : s.wk.teams.find? (fun t => t.id == k) with
    | none => rfl
    | some t => have := List.find?_some h; simp_all

theorem Team.updThreads_thread (t : Team) (ns : List Nat) (f : Thread → Thread) (n : Nat) (hf : ∀ th, (f th).ltid = th.ltid) :
    (t.updThreads ns f).thread? n = (t.thread? n).map (fun th => if ns.contains n then f th else th) := by
  simp only [Team.thread?, Team.updThreads]
  rw [find_map_same _ _ _ (by intro x; split <;> simp [hf])]
  cases h : t.threads.find? (fun th => th.ltid == n) with
  | none => rfl
  | some th => have := List.find?_some h; simp_all

/-- A team's threads after one of its updates. -/
theorem State.updTeam_threads (s : State) (team k n : Nat) (ns : List Nat) (f : Thread → Thread) (hf : ∀ th, (f th).ltid = th.ltid) :
    (s.updTeam team (fun t => t.updThreads ns f)).thread? k n =
      if k = team then (s.thread? k n).map (fun th => if ns.contains n then f th else th) else s.thread? k n := by
  unfold State.thread?
  rw [State.updTeam_team _ _ _ _ (by intro t; rfl)]
  split
  · cases s.team? k with
    | none => rfl
    | some t => simp [Team.updThreads_thread, hf]
  · rfl

theorem State.updThread_thread (s : State) (team k n m : Nat) (f : Thread → Thread) (hf : ∀ th, (f th).ltid = th.ltid) :
    (s.updThread team m f).thread? k n = if k = team ∧ n = m then (s.thread? k n).map f else s.thread? k n := by
  have hu : s.updThread team m f = s.updTeam team (fun t => t.updThreads [m] f) := by
    unfold State.updThread
    congr
    funext t
    simp [Team.updThread, Team.updThreads]
  rw [hu, State.updTeam_threads _ _ _ _ _ _ hf]
  by_cases h : k = team
  · by_cases hn : n = m
    · subst hn; simp [h]
    · simp [h, hn]
  · simp [h]

theorem State.give_thread (s : State) (i : Iss) (rcv : List Lane) (r : Res) (src : Src) (k n : Nat) :
    (s.give i rcv r src).thread? k n = if k = i.team.id then
      (s.thread? k n).map (fun th => if (rcv.map (fun l => l.th.ltid)).contains n then (th.push r.outs src).raise r.flags else th)
      else s.thread? k n :=
  State.updTeam_threads s i.team.id k n _ _ (fun _ => rfl)

/-! ### Giving results -/

theorem Gave.nothing (s : State) (team : Nat) (f : Lane → Target → Option Word) (fl : Lane → BitVec 6) :
    s.Gave s team (fun _ => []) f fl :=
  ⟨rfl, fun _ _ => rfl, rfl, fun _ a ha => ⟨a, ha, rfl, fun _ _ => rfl, fun _ => rfl, rfl⟩⟩

theorem Gave.snoc {i : Iss} {src : Src} {l : Lane} {rcv : List Lane} {r : Res} {s s' : State} {g : Nat → List Lane}
    {f : Lane → Target → Option Word} {fl : Lane → BitVec 6} (hr : f l = outAt r.outs) (hf : fl l = r.flags)
    (h : s.Gave s' i.team.id g f fl) :
    s.Gave (s'.give i rcv r src) i.team.id
      (fun n => g n ++ if rcv.any (fun m => m.th.ltid == n) then [l] else []) f fl := by
  obtain ⟨h1, h2, h3, h4⟩ := h
  have hl : ∀ th : Thread, ((th.push r.outs src).raise r.flags).ltid = th.ltid := fun _ => rfl
  refine ⟨?_, ?_, ?_, ?_⟩
  · conv => rhs; rw [show s = { s with wk := { s.wk with teams := s.wk.teams } } from rfl]
    simp only [State.give, State.updTeam]
    rw [h1]
  · intro k hk
    rw [State.give, State.updTeam_team _ _ _ _ (by intro t; rfl), if_neg hk, h2 k hk]
  · rw [State.give, State.updTeam_team _ _ _ _ (by intro t; rfl), if_pos rfl, ← h3]
    cases s'.team? i.team.id <;> rfl
  · intro n a ha
    obtain ⟨b, hb, hb1, hb2, hb3, hb4⟩ := h4 n a ha
    rw [State.give, State.updTeam_threads _ _ _ _ _ _ hl, if_pos rfl, hb]
    have hm : (rcv.map (fun l => l.th.ltid)).contains n = rcv.any (fun m => m.th.ltid == n) := by
      induction rcv with
      | nil => rfl
      | cons x xs ih => simp only [List.map_cons, List.contains_cons, List.any_cons, ih, Bool.beq_comm]
    rw [Option.map_some, hm]
    cases hx : rcv.any (fun m => m.th.ltid == n)
    · refine ⟨b, rfl, hb1, hb2, ?_, ?_⟩
      · simpa using hb3
      · simpa using hb4
    · refine ⟨_, rfl, ?_, ?_, ?_, ?_⟩
      · simp only [if_true]
        rw [hb1]
        rfl
      · intro tgt base
        rw [← hb2 tgt base]
        exact Thread.push_read b r.outs src tgt base
      · intro tgt
        simp only [if_true]
        rw [show ((b.push r.outs src).raise r.flags).final tgt = (b.push r.outs src).final tgt by cases tgt <;> rfl,
          Thread.push_final, hb3, List.foldl_append, List.foldl_cons, List.foldl_nil, hr]
      · simp only [if_true]
        rw [List.foldl_append, List.foldl_cons, List.foldl_nil, ← hb4, hf]
        rfl

/-- Results given to the threads of some lanes, in turn. -/
theorem give_gave (i : Iss) (src : Src) (res : Lane → Res) (rcv : List (Lane × List Lane)) (s : State) :
    s.Gave (rcv.foldl (fun s p => s.give i p.2 (res p.1) src) s) i.team.id
      (fun n => (rcv.filter (fun p => p.2.any (fun m => m.th.ltid == n))).map Prod.fst)
      (fun l => outAt (res l).outs) (fun l => (res l).flags) := by
  suffices H : ∀ (rest done : List (Lane × List Lane)) (s' : State),
      s.Gave s' i.team.id (fun n => (done.filter (fun p => p.2.any (fun m => m.th.ltid == n))).map Prod.fst)
        (fun l => outAt (res l).outs) (fun l => (res l).flags) →
      s.Gave (rest.foldl (fun s p => s.give i p.2 (res p.1) src) s') i.team.id
        (fun n => ((done ++ rest).filter (fun p => p.2.any (fun m => m.th.ltid == n))).map Prod.fst)
        (fun l => outAt (res l).outs) (fun l => (res l).flags) by
    exact H rcv [] s (Gave.nothing s _ _ _)
  intro rest
  induction rest with
  | nil => intro done s' h; simpa using h
  | cons p rest ih =>
    intro done s' h
    rw [List.foldl_cons, show done ++ p :: rest = (done ++ [p]) ++ rest by simp]
    refine ih (done ++ [p]) _ ?_
    have := Gave.snoc (src := src) (l := p.1) (rcv := p.2) (r := res p.1) rfl rfl h
    simp only [List.filter_append, List.map_append, List.filter_cons, List.filter_nil]
    refine cast ?_ this
    congr
    funext n
    cases p.2.any (fun m => m.th.ltid == n) <;> rfl

/-- What an instruction that only computes does (03 R53, R55, R56). -/
theorem alu_gave (res : Lane → Res) (i : Iss) (s : State) :
    s.Gave (alu res i s) i.team.id i.givers (fun l => outAt (res l).outs) (fun l => (res l).flags) :=
  give_gave i i.src res i.perf s

/-- What an instruction that gives each active lane a result of its own does. -/
theorem lanes_gave (res : Lane → Res) (i : Iss) (s : State) :
    s.Gave (i.act.foldl (fun s l => s.give i [l] (res l) i.src) s) i.team.id i.actors
      (fun l => outAt (res l).outs) (fun l => (res l).flags) := by
  have h := give_gave i i.src res (i.act.map (fun l => (l, [l]))) s
  rw [List.foldl_map] at h
  refine cast ?_ h
  congr
  funext n
  rw [List.filter_map, List.map_map, Iss.actors]
  simp [Function.comp_def]

/-- The results of an instruction that only computes. -/
theorem results_of {s : State} {op : Op} {e : Enc} {res : Lane → Res} {f : Lane → Target → Option Word} {fl : Lane → BitVec 6}
    (hx : exec (op.instr e) s = issued op e (alu res) s) (hf : ∀ l, outAt (res l).outs = f l) (hl : ∀ l, (res l).flags = fl l) :
    s.Results op e f fl := by
  intro i hi
  refine ⟨_, hx.trans (issued_next _ hi), ?_⟩
  have := alu_gave res i s
  rwa [show (fun l => outAt (res l).outs) = f from funext hf, show (fun l => (res l).flags) = fl from funext hl] at this

/-- The results of an instruction that gives each active lane its own. -/
theorem lane_results_of {s : State} {op : Op} {e : Enc} {res : Iss → Lane → Res} {f : Iss → Lane → Target → Option Word}
    {fl : Iss → Lane → BitVec 6}
    (hx : exec (op.instr e) s = issued op e (fun i s => i.act.foldl (fun s l => s.give i [l] (res i l) i.src) s) s)
    (hf : ∀ i l, outAt (res i l).outs = f i l) (hl : ∀ i l, (res i l).flags = fl i l) : s.LaneResults op e f fl := by
  intro i hi
  refine ⟨_, hx.trans (issued_next _ hi), ?_⟩
  have := lanes_gave (res i) i s
  rwa [show (fun l => outAt (res i l).outs) = f i from funext (hf i), show (fun l => (res i l).flags) = fl i from funext (hl i)] at this

/-! ### One result for every active lane -/

theorem foldl_const {α β : Type} (l : List α) (v : β) (o : Option β) :
    l.foldl (fun v _ => o.getD v) v = if l.isEmpty then v else o.getD v := by
  induction l generalizing v with
  | nil => rfl
  | cons x xs ih =>
    rw [List.foldl_cons, ih]
    cases o <;> cases xs <;> rfl

theorem foldl_or (l : List Lane) (v f : BitVec 6) : l.foldl (fun v _ => v ||| f) v = if l.isEmpty then v else v ||| f := by
  induction l generalizing v with
  | nil => rfl
  | cons x xs ih =>
    rw [List.foldl_cons, ih]
    cases xs
    · rfl
    · simp [BitVec.or_assoc]

/-- What a cross-lane instruction with one result does. -/
theorem toAll_gave (r : Res) (i : Iss) (s : State) (h : i.act.isEmpty = false) :
    s.Gave (toAll i s r) i.team.id i.actors (fun _ => outAt r.outs) (fun _ => r.flags) := by
  cases ha : i.act with
  | nil => rw [ha] at h; exact absurd h (by decide)
  | cons l0 rest =>
    have H := Gave.snoc (i := i) (src := i.src) (l := l0) (rcv := i.act) (r := r) (f := fun _ => outAt r.outs) (fl := fun _ => r.flags)
      rfl rfl (Gave.nothing s i.team.id _ _)
    obtain ⟨h1, h2, h3, h4⟩ := H
    refine ⟨h1, h2, h3, fun n a hn => ?_⟩
    obtain ⟨b, hb, hb1, hb2, hb3, hb4⟩ := h4 n a hn
    refine ⟨b, hb, hb1, hb2, fun tgt => ?_, ?_⟩
    · rw [hb3, List.nil_append, foldl_const, foldl_const, Iss.actors]
      have : (i.act.filter (fun m => m.th.ltid == n)).isEmpty = !i.act.any (fun m => m.th.ltid == n) := by
        rw [Bool.eq_iff_iff]; simp
      rw [this]
      cases i.act.any (fun m => m.th.ltid == n) <;> rfl
    · rw [hb4, List.nil_append, foldl_or, foldl_or, Iss.actors]
      have : (i.act.filter (fun m => m.th.ltid == n)).isEmpty = !i.act.any (fun m => m.th.ltid == n) := by
        rw [Bool.eq_iff_iff]; simp
      rw [this]
      cases i.act.any (fun m => m.th.ltid == n) <;> rfl

/-- The results of an instruction that gives all active lanes one. -/
theorem all_results_of {s : State} {op : Op} {e : Enc} {res : Iss → Res} {f : Iss → Target → Option Word} {fl : Iss → BitVec 6}
    (hx : exec (op.instr e) s = issued op e (fun i s => toAll i s (res i)) s)
    (hf : ∀ i, outAt (res i).outs = f i) (hl : ∀ i, (res i).flags = fl i) :
    s.LaneResults op e (fun i _ => f i) (fun i _ => fl i) := by
  intro i hi
  refine ⟨_, hx.trans (issued_next _ hi), ?_⟩
  have := toAll_gave (res i) i s hi.active
  rwa [hf, hl] at this

/-! ### The lanes of a warp -/

theorem live_sorted (t : Team) (w : Warp) : (t.lanesOf w).Pairwise (fun a b => a.lane < b.lane) := by
  unfold Team.lanesOf Team.live
  rw [List.pairwise_map]
  suffices H : ∀ (ls : List (Option Nat)) (k : Nat), ((ls.zipIdx k).filterMap (fun p =>
      match p.1.bind t.thread? with
      | some th => if th.alive then some (p.2, th) else none
      | none => none)).Pairwise (fun a b => a.1 < b.1) ∧ ∀ q, q ∈ ((ls.zipIdx k).filterMap (fun p =>
      match p.1.bind t.thread? with
      | some th => if th.alive then some (p.2, th) else none
      | none => none)) → k ≤ q.1 from (H w.lanes 0).1
  intro ls
  induction ls with
  | nil => intro k; simp
  | cons x xs ih =>
    intro k
    obtain ⟨h1, h2⟩ := ih (k + 1)
    rw [List.zipIdx_cons, List.filterMap_cons]
    dsimp only
    split
    · exact ⟨h1, fun q hq => by have := h2 q hq; omega⟩
    · rename_i y hy
      have hk : y.1 = k := by
        revert hy
        cases x.bind t.thread? with
        | none => intro h; exact absurd h (by simp)
        | some th =>
          dsimp only
          intro h
          split at h
          · injection h with h; rw [← h]
          · exact absurd h (by simp)
      refine ⟨List.pairwise_cons.2 ⟨fun q hq => by have := h2 q hq; omega, h1⟩, fun q hq => ?_⟩
      rcases List.mem_cons.1 hq with h | h
      · rw [h]; omega
      · have := h2 q h; omega

/-- The active lanes stand in ascending order. -/
theorem sees_sorted {s : State} {op : Op} {e : Enc} {i : Iss} (h : s.iss? op e = some i) :
    i.act.Pairwise (fun a b => a.lane < b.lane) := by
  unfold State.iss? at h
  split at h
  · exact absurd h (by simp)
  · split at h
    · exact absurd h (by simp)
    · split at h
      · exact absurd h (by simp)
      · injection h with h
        rw [← h]
        dsimp only
        split
        · exact (live_sorted _ _).sublist List.filter_sublist
        · exact (live_sorted _ _).sublist List.filter_sublist

/-- What issues is the instruction itself, in the state's turn. -/
theorem sees_op {s : State} {op : Op} {e : Enc} {i : Iss} (h : s.iss? op e = some i) :
    i.op = op ∧ i.e = e ∧ s.turn = some i.turn := by
  unfold State.iss? at h
  split at h
  · exact absurd h (by simp)
  · rename_i t ht
    split at h
    · exact absurd h (by simp)
    · split at h
      · exact absurd h (by simp)
      · injection h with h
        rw [← h]
        exact ⟨rfl, rfl, ht⟩

/-- Its encoding has passed its checks (03 R70). -/
theorem State.Issues.encoded {s : State} {op : Op} {e : Enc} {i : Iss} (h : s.Issues op e i) : encodingOk i.nreg op e = true := by
  obtain ⟨h1, h2, -⟩ := sees_op h.sees
  have hl := h.legal
  unfold Iss.illegal at hl
  rw [h1, h2] at hl
  cases hc : encodingOk i.nreg op e with
  | true => rfl
  | false => rw [hc] at hl; exact absurd hl (by simp)

theorem encoded_fields {n : Nat} {op : Op} {e : Enc} (h : encodingOk n op e = true) :
    (form op e).types.contains e.x.type.toNat = true ∧ (form op e).auxs.contains e.x.aux.toNat = true
    ∧ fieldOk n (form op e).c e.x.c.toNat = true ∧ (form op e).extra = true ∧ ((form op e).uni = true ∨ e.u = 0)
    ∧ (form op e).orders.contains e.x.order.toNat = true ∧ (form op e).spaces.contains e.x.space.toNat = true := by
  simp only [encodingOk, Bool.and_eq_true, Bool.or_eq_true, beq_iff_eq] at h
  simp only [h, and_self]

/-- The first of the active lanes is the lowest, and no two have one number. -/
theorem sees_first {s : State} {op : Op} {e : Enc} {i : Iss} (h : s.Issues op e i) :
    ∃ l, i.act.head? = some l ∧ l ∈ i.act ∧ ∀ x, x ∈ i.act → l.lane ≤ x.lane := by
  have hs := sees_sorted h.sees
  have ha := h.active
  cases hl : i.act with
  | nil => rw [hl] at ha; exact absurd ha (by decide)
  | cons l ls =>
    rw [hl] at hs
    refine ⟨l, rfl, List.mem_cons_self, fun x hx => ?_⟩
    rcases List.mem_cons.1 hx with h | h
    · exact h ▸ Nat.le_refl _
    · have := (List.pairwise_cons.1 hs).1 x h; omega

theorem find_unique {ls : List Lane} (hs : ls.Pairwise (fun a b => a.lane < b.lane)) (x : Lane) (hx : x ∈ ls) (p : Lane → Bool)
    (hp : ∀ y, p y = true ↔ y.lane = x.lane) : ls.find? p = some x := by
  induction ls with
  | nil => exact absurd hx (by simp)
  | cons y ys ih =>
    obtain ⟨h1, h2⟩ := List.pairwise_cons.1 hs
    rcases List.mem_cons.1 hx with h | h
    · rw [List.find?_cons, ← h, (hp x).2 rfl]
    · have hne : p y = false := by
        cases hq : p y with
        | false => rfl
        | true => have := (hp y).1 hq; have := h1 x h; omega
      rw [List.find?_cons, hne]
      exact ih h2 h

end Sys2Proof.Machine
end

