-- ==== Sys2Proof/Laws/Accept.lean ====
section
/-! SUPPORT. The acceptance of a form's commands, lane by lane (21 R369), once for every form. -/

namespace Sys2Proof.Machine

set_option Elab.async false

/-- A step-by-step relation over a list that is cut in two. -/
theorem Each.append {α : Type} {r : α → State → State → Prop} (xs ys : List α) (s t : State) :
    Each r (xs ++ ys) s t ↔ ∃ u, Each r xs s u ∧ Each r ys u t := by
  induction xs generalizing s with
  | nil => simp [Each]
  | cons x xs ih =>
    simp only [List.cons_append, Each, ih]
    exact ⟨fun ⟨u, h, v, a, b⟩ => ⟨v, ⟨u, h, a⟩, b⟩, fun ⟨v, ⟨u, h, a⟩, b⟩ => ⟨u, h, v, a, b⟩⟩

/-- What a refused lane leaves behind: its thread holds one more fault. -/
theorem State.faultRest_thread (s : State) (i : Iss) (l : Lane) (rest : List Nat) (c : BitVec 16) (d : Nat) (m n : Nat) (y : Thread)
    (h : s.thread? m n = some y) :
    (s.faultRest i l rest c 0 d).thread? m n = some (if m = i.team.id ∧ n = l.th.ltid then
      { y with faults := y.faults ++ [⟨c, 0, BitVec.ofNat 64 d, i.turn.pc, i.turn.slot, i.instr, .none, 0, rest, true⟩] } else y) := by
  unfold State.faultRest
  rw [State.updThread_thread]
  · rw [h]; split <;> rfl
  · intro th; rfl

/-- Acceptance lane by lane: every command is accepted, or those before the first refused one are. -/
theorem acceptLanes_cases (f : State → Lane → List Lane → Except Refused State) (i : Iss) (ps : List (Lane × List Lane)) (s : State) :
    (∃ t, Each (fun p a b => f a p.1 p.2 = .ok b) ps s t ∧ acceptLanes f i ps s = t)
    ∨ ∃ k p a r, ps[k]? = some p ∧ Each (fun p a b => f a p.1 p.2 = .ok b) (ps.take k) s a ∧ f a p.1 p.2 = .error r
      ∧ acceptLanes f i ps s = a.drew.faultRest i p.1 (others p.1 p.2 ++ (ps.drop (k + 1)).map (fun q => q.1.th.ltid)) r.cause 0 r.detail := by
  induction ps generalizing s with
  | nil => exact .inl ⟨s, rfl, rfl⟩
  | cons p ps ih =>
    obtain ⟨l, rcv⟩ := p
    cases h : f s l rcv with
    | error r => exact .inr ⟨0, (l, rcv), s, r, rfl, rfl, h, by simp [acceptLanes, h]⟩
    | ok u =>
      have e : acceptLanes f i ((l, rcv) :: ps) s = acceptLanes f i ps u := by simp [acceptLanes, h]
      rcases ih u with ⟨t, ht, hx⟩ | ⟨k, p, a, r, hk, ha, hr, hx⟩
      · exact .inl ⟨t, ⟨u, h, ht⟩, e.trans hx⟩
      · exact .inr ⟨k + 1, p, a, r, by simpa using hk, ⟨u, h, ha⟩, hr, e.trans (by simpa using hx)⟩

/-- The chain of accepted commands is a function of the state before it. -/
theorem Each.functional {α : Type} {r : α → State → State → Prop} (hr : ∀ p a b c, r p a b → r p a c → b = c) (xs : List α) (s t u : State)
    (h : Each r xs s t) (k : Each r xs s u) : t = u := by
  induction xs generalizing s with
  | nil => rw [h, k]
  | cons x xs ih =>
    obtain ⟨a, ha, hb⟩ := h
    obtain ⟨b, hc, hd⟩ := k
    cases hr x s a b ha hc
    exact ih a hb hd

theorem Each.imp {α : Type} {r q : α → State → State → Prop} (h : ∀ p a b, r p a b → q p a b) (xs : List α) (s t : State)
    (k : Each r xs s t) : Each q xs s t := by
  induction xs generalizing s with
  | nil => exact k
  | cons x xs ih =>
    obtain ⟨a, ha, hb⟩ := k
    exact ⟨a, h x s a ha, ih a hb⟩

/-- A form whose commands `f` accepts or refuses. -/
theorem accepts_of {s : State} {op : Op} {e : Enc} {i : Iss} {ps : List (Lane × List Lane)}
    {f : State → Lane → List Lane → Except Refused State} {ok : Lane × List Lane → State → State → Prop}
    {bad : Lane × List Lane → State → BitVec 16 → Option Nat → Prop} (hi : i.instr = op.instr e)
    (hx : exec (op.instr e) s = .next (acceptLanes f i ps s).finishSlot)
    (ho : ∀ p a b, f a p.1 p.2 = .ok b ↔ ok p a b)
    (hb : ∀ p a r, f a p.1 p.2 = .error r → bad p a r.cause none ∨ bad p a r.cause (some r.detail))
    (hf : ∀ p a c d, bad p a c d → ∃ x, f a p.1 p.2 = .error ⟨c, x⟩ ∧ d.all (· == x) = true) :
    s.Accepts (op.instr e) i ps ok bad := by
  have conv : ∀ xs (a b : State), Each (fun p a b => f a p.1 p.2 = .ok b) xs a b ↔ Each ok xs a b := fun xs a b =>
    ⟨Each.imp (fun p a b => (ho p a b).1) xs a b, Each.imp (fun p a b => (ho p a b).2) xs a b⟩
  have det : ∀ (p : Lane × List Lane) (a b c : State), f a p.1 p.2 = .ok b → f a p.1 p.2 = .ok c → b = c := by
    intro p a b c h k; rw [h] at k; exact Except.ok.inj k
  rcases acceptLanes_cases f i ps s with ⟨t, ht, e⟩ | ⟨k, p, a, r, hk, ha, hr, e⟩
  · refine ⟨fun _ => ⟨t, by rw [hx, e], (conv _ _ _).1 ht⟩, ?_⟩
    intro k p a c d hk ha hbad
    exfalso
    obtain ⟨x, hx', _⟩ := hf p a c d hbad
    have hlt : k < ps.length := (List.getElem?_eq_some_iff.1 hk).1
    have hsplit : ps = ps.take k ++ ps.drop k := (List.take_append_drop k ps).symm
    have hdrop : ps.drop k = p :: ps.drop (k + 1) := by
      rw [List.drop_eq_getElem_cons hlt]; congr 1; exact (List.getElem?_eq_some_iff.1 hk).2
    rw [hsplit, hdrop] at ht
    obtain ⟨u, h1, u', h2, _⟩ := (Each.append _ _ _ _).1 ht
    have := Each.functional det _ _ _ _ h1 ((conv _ _ _).2 ha)
    subst this
    rw [hx'] at h2; cases h2
  · constructor
    · intro hn
      exfalso
      rcases hb p a r hr with h | h
      · exact hn k p a hk ((conv _ _ _).1 ha) ⟨_, _, h⟩
      · exact hn k p a hk ((conv _ _ _).1 ha) ⟨_, _, h⟩
    · intro k' p' a' c d hk' ha' hbad
      obtain ⟨x, hx', hd⟩ := hf p' a' c d hbad
      have hkk : k' = k := by
        rcases Nat.lt_trichotomy k k' with hlt | heq | hgt
        · exfalso
          have : ps.take k' = ps.take k ++ p :: ((ps.take k').drop (k + 1)) := by
            have hlen : k < (ps.take k').length := by
              have := (List.getElem?_eq_some_iff.1 hk).1; simp; omega
            have h1 := (List.take_append_drop k (ps.take k')).symm
            rw [List.drop_eq_getElem_cons hlen] at h1
            have h2 : (ps.take k').take k = ps.take k := by rw [List.take_take]; congr 1; omega
            have h3 : (ps.take k')[k] = p := by rw [List.getElem_take]; exact (List.getElem?_eq_some_iff.1 hk).2
            rw [h2, h3] at h1; exact h1
          have h := (conv _ _ _).2 ha'
          rw [this] at h
          obtain ⟨u, h1, u', h2, _⟩ := (Each.append _ _ _ _).1 h
          have := Each.functional det _ _ _ _ h1 ha
          subst this
          rw [hr] at h2; cases h2
        · exact heq.symm
        · exfalso
          have hlt' : k' < ps.length := (List.getElem?_eq_some_iff.1 hk').1
          have : ps.take k = ps.take k' ++ p' :: ((ps.take k).drop (k' + 1)) := by
            have hlen : k' < (ps.take k).length := by simp; omega
            have h1 := (List.take_append_drop k' (ps.take k)).symm
            rw [List.drop_eq_getElem_cons hlen] at h1
            have h2 : (ps.take k).take k' = ps.take k' := by rw [List.take_take]; congr 1; omega
            have h3 : (ps.take k)[k'] = p' := by rw [List.getElem_take]; exact (List.getElem?_eq_some_iff.1 hk').2
            rw [h2, h3] at h1; exact h1
          rw [this] at ha
          obtain ⟨u, h1, u', h2, _⟩ := (Each.append _ _ _ _).1 ha
          have := Each.functional det _ _ _ _ h1 ((conv _ _ _).2 ha')
          subst this
          rw [hx'] at h2; cases h2
      subst hkk
      rw [hk] at hk'; cases hk'
      have := Each.functional det _ _ _ _ ha ((conv _ _ _).2 ha')
      subst this
      rw [hr] at hx'; cases hx'
      refine ⟨_, x, by rw [hx, e], hd, rfl, ?_⟩
      intro m n y hy
      refine (State.faultRest_thread a.drew _ _ _ _ _ m n y hy).trans ?_
      rw [hi]
      rfl

end Sys2Proof.Machine
end

