-- ==== Sys2Proof/Laws/Later.lean ====
section
/-! SUPPORT. A state that may follow another: memory stays canonical, the timebase does not decrease, erased keys stay erased, and no
page-table base changes. Every operation of the machine but a few named ones leaves such a state. -/

namespace Sys2Proof.Machine

set_option Elab.async false

/-- The page-table bases of two sets of context registers agree. -/
def sameBases (a b : Table CtxReg) : Prop :=
  ∀ k, (Table.read CtxReg.reset b k).ptBase = (Table.read CtxReg.reset a k).ptBase

/-- `t` may follow `a`. -/
def Later (a t : State) : Prop :=
  (a.mm.wf = true → t.mm.wf = true) ∧ a.clock.time ≤ t.clock.time ∧ (t.pkg.keyStore = true → a.pkg.keyStore = true)
  ∧ sameBases a.ctxs t.ctxs

theorem Later.refl (a : State) : Later a a := ⟨id, Nat.le_refl _, id, fun _ => rfl⟩

theorem Later.trans {a b c : State} (h : Later a b) (k : Later b c) : Later a c :=
  ⟨fun x => k.1 (h.1 x), Nat.le_trans h.2.1 k.2.1, fun x => h.2.2.1 (k.2.2.1 x),
    fun x => (k.2.2.2 x).trans (h.2.2.2 x)⟩

/-- An update that touches none of the four. -/
theorem Later.keep {a s : State} {m : Mem} {fe : Front} {wk : Work} {eng : Eng} {cores : Table CoreReg} {dbg : Dbg} {c : Clock}
    {p : Pkg} {turn : Option Turn} {inputs : List Instr} {issueN free : Nat} (h : Later a s) (hm : m.cells = s.mm.cells)
    (hc : s.clock.time ≤ c.time) (hp : p.keyStore = true → s.pkg.keyStore = true) :
    Later a ⟨m, fe, wk, eng, s.ctxs, cores, dbg, c, p, turn, inputs, issueN, free⟩ := by
  refine ⟨fun x => ?_, Nat.le_trans h.2.1 hc, fun x => h.2.2.1 (hp x), h.2.2.2⟩
  have := h.1 x
  simp only [Mem.wf] at this ⊢
  rw [hm]
  exact this

/-- A fold of updates. -/
theorem Later.fold {β : Type} {a : State} {f : State → β → State} (l : List β) {s : State} (h : Later a s)
    (hf : ∀ s x, Later a s → Later a (f s x)) : Later a (l.foldl f s) := by
  induction l generalizing s with
  | nil => exact h
  | cons x l ih => exact ih (hf s x h)

/-- A fold that carries more than the state. -/
theorem Later.foldBy {β γ : Type} {a : State} (g : γ → State) {f : γ → β → γ} (l : List β) {s : γ} (h : Later a (g s))
    (hf : ∀ s x, Later a (g s) → Later a (g (f s x))) : Later a (g (l.foldl f s)) := by
  induction l generalizing s with
  | nil => exact h
  | cons x l ih => exact ih (hf s x h)

/-- The first of two computations succeeded, and so did the second on its result. -/
theorem okBind {ε β γ : Type} {x : Except ε β} {f : β → Except ε γ} {r : γ} (h : (x >>= f) = .ok r) :
    ∃ v, x = .ok v ∧ f v = .ok r := by
  cases x with
  | error e => cases h
  | ok v => exact ⟨v, rfl, h⟩

theorem okMap {ε β γ : Type} {x : Except ε β} {f : β → γ} {r : γ} (h : x.map f = .ok r) : ∃ v, x = .ok v ∧ f v = r := by
  cases x with
  | error e => cases h
  | ok v => cases h; exact ⟨v, rfl, rfl⟩

theorem okMapError {ε δ β : Type} {x : Except ε β} {f : ε → δ} {r : β} (h : x.mapError f = .ok r) : x = .ok r := by
  cases x with
  | error e => cases h
  | ok v => cases h; rfl

/-- An update of the registers of a context on a die that keeps the page-table base. -/
theorem updCtx_later {a s : State} (ctx die : Nat) (f : CtxReg → CtxReg) (h : Later a s)
    (hf : ∀ r, (f r).ptBase = r.ptBase) : Later a (s.updCtx ctx die f) := by
  refine ⟨h.1, h.2.1, h.2.2.1, fun k => ?_⟩
  rw [← h.2.2.2 k]
  have key (t : Table CtxReg) (k j : Nat) (v : CtxReg) :
      Table.look (Table.put t k v) j = if j = k then some v else Table.look t j := by
    induction t with
    | nil => simp only [Table.put, Table.look]; split <;> split <;> first | rfl | omega
    | cons e t ih =>
      obtain ⟨i, w⟩ := e
      simp only [Table.put]
      split
      · simp only [Table.look]; repeat' split
        all_goals first | rfl | omega
      · split
        · simp only [Table.look]; repeat' split
          all_goals first | rfl | omega
        · simp only [Table.look, ih]; repeat' split
          all_goals first | rfl | omega
  show (Table.read CtxReg.reset (Table.upd CtxReg.reset s.ctxs (4 * ctx + die) f) k).ptBase = _
  simp only [Table.upd, Table.read, key]
  split
  · rename_i e
    subst e
    exact hf _
  · rfl

/-- Updates of context registers one by one, by a map. -/
theorem Later.mapCtxs {a s : State} {m : Mem} {fe : Front} {wk : Work} {eng : Eng} {cores : Table CoreReg} {dbg : Dbg} {c : Clock}
    {p : Pkg} {turn : Option Turn} {inputs : List Instr} {issueN free : Nat} (f : Nat × CtxReg → Nat × CtxReg) (h : Later a s)
    (hf : ∀ e, (f e).1 = e.1 ∧ (f e).2.ptBase = e.2.ptBase) (hm : m.cells = s.mm.cells)
    (hc : s.clock.time ≤ c.time) (hp : p.keyStore = true → s.pkg.keyStore = true) :
    Later a ⟨m, fe, wk, eng, s.ctxs.map f, cores, dbg, c, p, turn, inputs, issueN, free⟩ := by
  refine ⟨(Later.keep h hm hc hp : Later a ⟨m, fe, wk, eng, s.ctxs, cores, dbg, c, p, turn, inputs, issueN, free⟩).1,
    Nat.le_trans h.2.1 hc, fun x => h.2.2.1 (hp x), fun k => ?_⟩
  rw [← h.2.2.2 k]
  show (Table.read CtxReg.reset (s.ctxs.map f) k).ptBase = _
  simp only [Table.read]
  generalize s.ctxs = t
  induction t with
  | nil => rfl
  | cons e t ih =>
    have := hf e
    obtain ⟨i, w⟩ := e
    cases hfe : f (i, w) with
    | mk i' w' =>
      rw [hfe] at this
      simp only at this
      obtain ⟨rfl, hw⟩ := this
      simp only [List.map_cons, hfe, Table.look]
      split
      · exact hw
      · exact ih

end Sys2Proof.Machine
end

