-- ==== Sys2Proof/Laws/Table.lean ====
section
/-! SUPPORT. Sparse tables: reading after writing, and that `put`, `del` and `write` keep the canonical form. -/

namespace Sys2Proof.Machine

set_option Elab.async false

variable {α : Type}

/-! ### Reading -/

theorem Table.look_put (t : Table α) (k j : Nat) (v : α) :
    Table.look (Table.put t k v) j = if j = k then some v else Table.look t j := by
  induction t with
  | nil => simp [Table.put, Table.look, eq_comm]
  | cons e t ih =>
    obtain ⟨i, w⟩ := e
    simp only [Table.put]
    repeat' split
    all_goals simp only [Table.look, ih]
    all_goals repeat' split
    all_goals first | rfl | omega

/-- A key of a table all of whose keys are above a bound is above it. -/
theorem Table.look_above (t : Table α) (lo k : Nat) (h : Table.above (some lo) t = true) (hk : k ≤ lo) :
    Table.look t k = none := by
  induction t generalizing lo with
  | nil => rfl
  | cons e t ih =>
    obtain ⟨j, w⟩ := e
    simp only [Table.above, Bool.and_eq_true, decide_eq_true_eq] at h
    simp only [Table.look]
    rw [if_neg (by omega), ih j h.2 (by omega)]

theorem Table.above_none (t : Table α) (lo : Nat) (h : Table.above (some lo) t = true) : Table.above none t = true := by
  cases t with
  | nil => rfl
  | cons e t => simp only [Table.above, Bool.and_eq_true] at h ⊢; exact h.2

theorem Table.above_mono (t : Table α) (lo k : Nat) (h : Table.above (some lo) t = true) (hk : k ≤ lo) :
    Table.above (some k) t = true := by
  cases t with
  | nil => rfl
  | cons e t =>
    simp only [Table.above, Bool.and_eq_true, decide_eq_true_eq] at h ⊢
    exact ⟨by omega, h.2⟩

theorem Table.look_del (t : Table α) (k j : Nat) :
    Table.look (Table.del t k) j = if j = k then none else Table.look t j := by
  induction t with
  | nil => simp [Table.del, Table.look]
  | cons e t ih =>
    obtain ⟨i, w⟩ := e
    simp only [Table.del]
    split
    · rw [ih, Table.look]
      repeat' split
      all_goals first | rfl | omega
    · simp only [Table.look, ih]
      repeat' split
      all_goals first | rfl | omega

/-- Reading after writing one key: the value at the key, and every other key as before. -/
theorem Table.read_write [DecidableEq α] (d : α) (t : Table α) (k j : Nat) (v : α) :
    Table.read d (Table.write d t k v) j = if j = k then v else Table.read d t j := by
  simp only [Table.read, Table.write]
  by_cases h1 : v = d
  · rw [if_pos h1, Table.look_del t]
    split <;> simp_all
  · rw [if_neg h1, Table.look_put]
    split <;> simp_all

theorem Table.read_put (d : α) (t : Table α) (k j : Nat) (v : α) :
    Table.read d (Table.put t k v) j = if j = k then v else Table.read d t j := by
  simp only [Table.read, Table.look_put]
  split <;> rfl

theorem Table.read_upd (d : α) (t : Table α) (k j : Nat) (f : α → α) :
    Table.read d (Table.upd d t k f) j = if j = k then f (Table.read d t k) else Table.read d t j :=
  Table.read_put d t k j _

/-! ### The canonical form -/

theorem Table.above_put (o : Option Nat) (t : Table α) (k : Nat) (v : α) (h : Table.above o t = true)
    (hk : ∀ lo, o = some lo → lo < k) : Table.above o (Table.put t k v) = true := by
  induction t generalizing o with
  | nil => cases o <;> simp_all [Table.put, Table.above]
  | cons e t ih =>
    obtain ⟨j, w⟩ := e
    have ht : Table.above (some j) t = true := by cases o <;> simp_all [Table.above]
    simp only [Table.put]
    by_cases h1 : k < j
    · rw [if_pos h1]; cases o <;> simp_all [Table.above]
    · rw [if_neg h1]
      by_cases h2 : k = j
      · subst h2; rw [if_pos rfl]; cases o <;> simp_all [Table.above]
      · rw [if_neg h2]
        have := ih (some j) ht (by intro lo hl; cases hl; omega)
        cases o <;> simp_all [Table.above]

theorem Table.above_del (o : Option Nat) (t : Table α) (k : Nat) (h : Table.above o t = true) :
    Table.above o (Table.del t k) = true := by
  induction t generalizing o with
  | nil => exact h
  | cons e t ih =>
    obtain ⟨j, w⟩ := e
    have ht : Table.above (some j) t = true := by cases o <;> simp_all [Table.above]
    simp only [Table.del]
    split
    · cases o with
      | none => exact ih none (Table.above_none t j ht)
      | some lo =>
        simp only [Table.above, Bool.and_eq_true, decide_eq_true_eq] at h
        exact ih (some lo) (Table.above_mono t j lo ht (by omega))
    · have := ih (some j) ht
      cases o <;> simp_all [Table.above]

theorem Table.mem_put (t : Table α) (k : Nat) (v : α) (e : Nat × α) (h : e ∈ Table.put t k v) : e = (k, v) ∨ e ∈ t := by
  induction t with
  | nil => simpa [Table.put] using h
  | cons x t ih =>
    obtain ⟨j, w⟩ := x
    simp only [Table.put] at h
    split at h
    · simpa using h
    · split at h
      · rename_i hk
        subst hk
        simp only [List.mem_cons] at h ⊢
        exact h.imp id .inr
      · simp only [List.mem_cons] at h ⊢
        rcases h with h | h
        · exact .inr (.inl h)
        · exact (ih h).imp id .inr

theorem Table.mem_del (t : Table α) (k : Nat) (e : Nat × α) (h : e ∈ Table.del t k) : e ∈ t := by
  induction t with
  | nil => exact h
  | cons x t ih =>
    obtain ⟨j, w⟩ := x
    simp only [Table.del] at h
    split at h
    · exact List.mem_cons_of_mem _ (ih h)
    · simp only [List.mem_cons] at h ⊢
      exact h.imp id ih

/-- Writing keeps the canonical form. -/
theorem Table.wf_write [DecidableEq α] (d : α) (t : Table α) (k : Nat) (v : α) (h : Table.wf d t = true) :
    Table.wf d (Table.write d t k v) = true := by
  simp only [Table.wf, Bool.and_eq_true, List.all_eq_true, decide_eq_true_eq, Table.sorted] at h ⊢
  simp only [Table.write]
  split
  · exact ⟨Table.above_del none t k h.1, fun e he => h.2 e (Table.mem_del t k e he)⟩
  · rename_i hv
    refine ⟨Table.above_put none t k v h.1 (by simp), fun e he => ?_⟩
    rcases Table.mem_put t k v e he with rfl | he
    · exact hv
    · exact h.2 e he

end Sys2Proof.Machine
end

