-- ==== Sys2Proof/Laws/Memory.lean ====
section
/-! SUPPORT. Physical memory: reading after writing, and that every operation of memory keeps its canonical form. -/

namespace Sys2Proof.Machine

set_option Elab.async false

/-! ### Bytes -/

theorem Mem.sorted_of_wf (m : Mem) (h : m.wf = true) : Table.sorted m.cells = true := by
  simp only [Mem.wf, Table.wf, Bool.and_eq_true] at h
  exact h.1

theorem Mem.setByte_wf (m : Mem) (pa : Nat) (b : Byte) (h : m.wf = true) : (m.setByte pa b).wf = true :=
  Table.wf_write Mem.blank m.cells pa b h

theorem Mem.setBytes_wf (m : Mem) (pa : Nat) (bs : List Byte) (h : m.wf = true) : (m.setBytes pa bs).wf = true := by
  induction bs generalizing m pa with
  | nil => exact h
  | cons b bs ih => exact ih (m.setByte pa b) (pa + 1) (m.setByte_wf pa b h)

/-- Reading one byte after writing one. -/
theorem Mem.byte_setByte (m : Mem) (pa : Nat) (b : Byte) (a : Nat) :
    (m.setByte pa b).byte a = if a = pa then b else m.byte a :=
  Table.read_write Mem.blank m.cells pa a b

/-- Reading one byte after writing several. -/
theorem Mem.byte_setBytes (m : Mem) (pa : Nat) (bs : List Byte) (a : Nat) :
    (m.setBytes pa bs).byte a = if pa ≤ a ∧ a < pa + bs.length then bs.getD (a - pa) 0 else m.byte a := by
  induction bs generalizing m pa with
  | nil => simp only [Mem.setBytes, List.length_nil]; rw [if_neg (by omega)]
  | cons b bs ih =>
    simp only [Mem.setBytes]
    rw [ih (m.setByte pa b) (pa + 1), m.byte_setByte pa b]
    simp only [List.length_cons]
    by_cases h1 : a = pa
    · subst h1
      rw [if_neg (by omega), if_pos rfl, if_pos (by omega), Nat.sub_self]
      rfl
    · by_cases h2 : pa + 1 ≤ a ∧ a < pa + 1 + bs.length
      · rw [if_pos h2, if_pos (by omega)]
        obtain ⟨k, rfl⟩ : ∃ k, a = pa + 1 + k := ⟨a - (pa + 1), by omega⟩
        have e1 : pa + 1 + k - (pa + 1) = k := by omega
        have e2 : pa + 1 + k - pa = k + 1 := by omega
        rw [e1, e2]
        rfl
      · rw [if_neg h2, if_neg h1, if_neg (by omega)]

/-! ### Operations on the state -/

theorem landWrite_later {a s : State} (chunk : Nat) (w : Write) (h : Later a s) : Later a (s.landWrite chunk w) := by
  unfold State.landWrite
  dsimp only
  split
  · exact ⟨fun x => Mem.setBytes_wf s.mm _ w.bytes (h.1 x), h.2.1, h.2.2.1, h.2.2.2⟩
  · exact h

theorem writePhys_later {a s : State} (w : Write) (pa : Nat) (bs : List Byte) (h : Later a s) : Later a (s.writePhys w pa bs) := by
  have key : Later a ((cutChunks pa bs).foldl (fun s p => s.landWrite p.1 { w with n := s.mm.nextW, off := p.2.1, bytes := p.2.2 }) s) :=
    Later.fold _ h (fun _ _ k => landWrite_later _ _ k)
  unfold State.writePhys
  dsimp only
  split
  · exact Later.keep key rfl (Nat.le_refl _) id
  · exact key

theorem landTable_later {a s : State} (t : Table (List Write)) (h : Later a s) : Later a (s.landTable t) :=
  Later.fold _ h (fun _ e k => Later.fold e.2 k (fun _ w l => landWrite_later e.1 w l))

end Sys2Proof.Machine
end

