-- ==== Sys2Proof/Laws/LaterOps.lean ====
section
/-! SUPPORT. The operations of Access, Memory, Records, Operands, Flags, Queues, Barriers, Ops, Spaces, Routes leave a state that may follow. -/

namespace Sys2Proof.Machine

set_option Elab.async false

/-! ### Access -/

theorem updTeam_later {a s : State} (id : Nat) (f : Team → Team) (h : Later a s) : Later a (State.updTeam s id f) := by
  unfold State.updTeam
  try dsimp only
  repeat' first
    | with_reducible assumption
    | split
    | with_reducible refine Later.keep ?_ rfl (Nat.le_refl _) (fun x => x)
    | dsimp only

theorem updThread_later {a s : State} (team n : Nat) (f : Thread → Thread) (h : Later a s) : Later a (State.updThread s team n f) := by
  unfold State.updThread
  try dsimp only
  repeat' first
    | with_reducible assumption
    | with_reducible apply updTeam_later
    | split
    | dsimp only

theorem updGrid_later {a s : State} (id : Nat) (f : Grid → Grid) (h : Later a s) : Later a (State.updGrid s id f) := by
  unfold State.updGrid
  try dsimp only
  repeat' first
    | with_reducible assumption
    | split
    | with_reducible refine Later.keep ?_ rfl (Nat.le_refl _) (fun x => x)
    | dsimp only

theorem updQueue_later {a s : State} (q : Nat) (f : QReg → QReg) (h : Later a s) : Later a (State.updQueue s q f) := by
  unfold State.updQueue
  try dsimp only
  repeat' first
    | with_reducible assumption
    | split
    | with_reducible refine Later.keep ?_ rfl (Nat.le_refl _) (fun x => x)
    | dsimp only

theorem updPkts_later {a s : State} (f : Pkt → Pkt) (h : Later a s) : Later a (State.updPkts s f) := by
  unfold State.updPkts
  try dsimp only
  repeat' first
    | with_reducible assumption
    | split
    | with_reducible refine Later.keep ?_ rfl (Nat.le_refl _) (fun x => x)
    | dsimp only

theorem updCmd_later {a s : State} (id : Nat) (f : Cmd → Cmd) (h : Later a s) : Later a (State.updCmd s id f) := by
  unfold State.updCmd
  try dsimp only
  repeat' first
    | with_reducible assumption
    | split
    | with_reducible refine Later.keep ?_ rfl (Nat.le_refl _) (fun x => x)
    | dsimp only

theorem updCore_later {a s : State} (core : Nat) (f : CoreReg → CoreReg) (h : Later a s) : Later a (State.updCore s core f) := by
  unfold State.updCore
  try dsimp only
  repeat' first
    | with_reducible assumption
    | split
    | with_reducible refine Later.keep ?_ rfl (Nat.le_refl _) (fun x => x)
    | dsimp only

theorem drew_later {a s : State} (h : Later a s) : Later a (State.drew s) := by
  unfold State.drew
  try dsimp only
  repeat' first
    | with_reducible assumption
    | split
    | with_reducible refine Later.keep ?_ rfl (Nat.le_refl _) (fun x => x)
    | dsimp only

theorem tick_later {a s : State} (h : Later a s) : Later a s.tick :=
  ⟨h.1, Nat.le_trans h.2.1 (Nat.le_add_right _ _), h.2.2.1, h.2.2.2⟩

/-! ### Memory -/

theorem setL1_later {a s : State} (core : Nat) (l : L1) (h : Later a s) : Later a (State.setL1 s core l) := by
  unfold State.setL1
  try dsimp only
  repeat' first
    | with_reducible assumption
    | split
    | with_reducible refine Later.keep ?_ rfl (Nat.le_refl _) (fun x => x)
    | dsimp only

theorem mergeWb_later {a s : State} (line : Nat) (h : Later a s) : Later a (State.mergeWb s line) := by
  unfold State.mergeWb
  try dsimp only
  repeat' first
    | with_reducible assumption
    | with_reducible apply landTable_later
    | with_reducible refine Later.fold _ ?_ (fun _ _ _ => ?_)
    | split
    | with_reducible refine Later.keep ?_ rfl (Nat.le_refl _) (fun x => x)
    | dsimp only

theorem recallFrom_later {a s : State} (core line : Nat) (l : L1) (h : Later a s) : Later a (State.recallFrom s core line l) := by
  unfold State.recallFrom
  try dsimp only
  repeat' first
    | with_reducible assumption
    | with_reducible apply landTable_later
    | with_reducible apply mergeWb_later
    | with_reducible refine Later.fold _ ?_ (fun _ _ _ => ?_)
    | split
    | with_reducible refine Later.keep ?_ rfl (Nat.le_refl _) (fun x => x)
    | dsimp only

theorem recall_later {a s : State} (keep : Option Nat) (line : Nat) (h : Later a s) : Later a (State.recall s keep line) := by
  unfold State.recall
  try dsimp only
  repeat' first
    | with_reducible assumption
    | with_reducible apply mergeWb_later
    | with_reducible apply recallFrom_later
    | with_reducible refine Later.fold _ ?_ (fun _ _ _ => ?_)
    | split
    | dsimp only

theorem cleanIn_later {a s : State} (core : Nat) (p : Nat → Bool) (h : Later a s) : Later a (State.cleanIn s core p) := by
  unfold State.cleanIn
  try dsimp only
  repeat' first
    | with_reducible assumption
    | with_reducible apply landTable_later
    | with_reducible apply setL1_later
    | with_reducible apply recall_later
    | with_reducible refine Later.fold _ ?_ (fun _ _ _ => ?_)
    | split
    | dsimp only

theorem cleanAt_later {a s : State} (core pa n : Nat) (h : Later a s) : Later a (State.cleanAt s core pa n) := by
  unfold State.cleanAt
  try dsimp only
  repeat' first
    | with_reducible assumption
    | with_reducible apply cleanIn_later
    | split
    | dsimp only

theorem writeThrough_later {a s : State} (keep : Option Nat) (by' : Write) (pa : Nat) (bs : List Byte) (h : Later a s) : Later a (State.writeThrough s keep by' pa bs) := by
  unfold State.writeThrough
  try dsimp only
  repeat' first
    | with_reducible assumption
    | with_reducible apply writePhys_later
    | with_reducible apply recall_later
    | split
    | dsimp only

theorem flushL1_later {a s : State} (core : Nat) (h : Later a s) : Later a (State.flushL1 s core) := by
  unfold State.flushL1
  try dsimp only
  repeat' first
    | with_reducible assumption
    | with_reducible apply setL1_later
    | with_reducible apply mergeWb_later
    | with_reducible apply cleanIn_later
    | with_reducible refine Later.fold _ ?_ (fun _ _ _ => ?_)
    | split
    | with_reducible refine Later.keep ?_ rfl (Nat.le_refl _) (fun x => x)
    | dsimp only

theorem dropClean_later {a s : State} (core : Nat) (h : Later a s) : Later a (State.dropClean s core) := by
  unfold State.dropClean
  try dsimp only
  repeat' first
    | with_reducible assumption
    | with_reducible apply setL1_later
    | split
    | with_reducible refine Later.keep ?_ rfl (Nat.le_refl _) (fun x => x)
    | dsimp only

theorem evict_later {a s : State} (core line : Nat) (h : Later a s) : Later a (State.evict s core line) := by
  unfold State.evict
  try dsimp only
  repeat' first
    | with_reducible assumption
    | with_reducible apply setL1_later
    | with_reducible apply recallFrom_later
    | with_reducible apply cleanIn_later
    | split
    | with_reducible refine Later.keep ?_ rfl (Nat.le_refl _) (fun x => x)
    | dsimp only

theorem makeRoom_later {a s : State} (core line : Nat) (h : Later a s) : Later a (State.makeRoom s core line) := by
  unfold State.makeRoom
  try dsimp only
  repeat' first
    | with_reducible assumption
    | with_reducible apply drew_later
    | with_reducible apply evict_later
    | split
    | dsimp only

theorem allocate_later {a s : State} (core sector : Nat) (h : Later a s) : Later a (State.allocate s core sector) := by
  unfold State.allocate
  try dsimp only
  repeat' first
    | with_reducible assumption
    | with_reducible apply setL1_later
    | with_reducible apply makeRoom_later
    | split
    | with_reducible refine Later.keep ?_ rfl (Nat.le_refl _) (fun x => x)
    | dsimp only

theorem noteTlb_later {a s : State} (t : Tlb) (ctx va : Nat) (h : Later a s) : Later a (State.noteTlb s t ctx va) := by
  unfold State.noteTlb
  try dsimp only
  repeat' first
    | with_reducible assumption
    | with_reducible apply recall_later
    | with_reducible refine Later.fold _ ?_ (fun _ _ _ => ?_)
    | split
    | with_reducible refine Later.keep ?_ rfl (Nat.le_refl _) (fun x => x)
    | dsimp only

theorem applyInv_later {a s : State} (ctx die : Nat) (h : Later a s) : Later a (State.applyInv s ctx die) := by
  unfold State.applyInv
  try dsimp only
  repeat' first
    | with_reducible assumption
    | split
    | with_reducible refine Later.keep ?_ rfl (Nat.le_refl _) (fun x => x)
    | dsimp only

theorem noteNear_later {a s : State} (core pa home : Nat) (h : Later a s) : Later a (State.noteNear s core pa home) := by
  unfold State.noteNear
  try dsimp only
  repeat' first
    | with_reducible assumption
    | split
    | with_reducible refine Later.keep ?_ rfl (Nat.le_refl _) (fun x => x)
    | dsimp only

theorem touch_later {a s : State} (core pa id policy home : Nat) (h : Later a s) : Later a (State.touch s core pa id policy home) := by
  unfold State.touch
  try dsimp only
  repeat' first
    | with_reducible assumption
    | with_reducible apply recall_later
    | with_reducible apply noteNear_later
    | split
    | with_reducible refine Later.keep ?_ rfl (Nat.le_refl _) (fun x => x)
    | dsimp only

theorem fillWhere_later {a s : State} (core : Nat) (p : Fill → Bool) (h : Later a s) : Later a (State.fillWhere s core p) := by
  unfold State.fillWhere
  try dsimp only
  repeat' first
    | with_reducible assumption
    | with_reducible apply allocate_later
    | with_reducible refine Later.fold _ ?_ (fun _ _ _ => ?_)
    | split
    | with_reducible refine Later.keep ?_ rfl (Nat.le_refl _) (fun x => x)
    | dsimp only

theorem loadPhys_later {a s : State} (h : How) (pa n mtype : Nat) (hs : Later a s) : Later a (State.loadPhys s h pa n mtype).2 := by
  unfold State.loadPhys
  try dsimp only
  repeat' first
    | with_reducible assumption
    | with_reducible apply drew_later
    | with_reducible apply setL1_later
    | with_reducible apply recall_later
    | with_reducible apply cleanAt_later
    | with_reducible apply touch_later
    | split
    | with_reducible refine Later.keep ?_ rfl (Nat.le_refl _) (fun x => x)
    | dsimp only

theorem addDirty_later {a s : State} (core : Nat) (by' : Write) (pa : Nat) (bs : List Byte) (h : Later a s) : Later a (State.addDirty s core by' pa bs) := by
  unfold State.addDirty
  try dsimp only
  repeat' first
    | with_reducible assumption
    | with_reducible apply setL1_later
    | with_reducible refine Later.fold _ ?_ (fun _ _ _ => ?_)
    | split
    | with_reducible refine Later.keep ?_ rfl (Nat.le_refl _) (fun x => x)
    | dsimp only

theorem storePhys_later {a s : State} (h : How) (pa mtype : Nat) (bs : List Byte) (hs : Later a s) : Later a (State.storePhys s h pa mtype bs) := by
  unfold State.storePhys
  try dsimp only
  repeat' first
    | with_reducible assumption
    | with_reducible apply setL1_later
    | with_reducible apply cleanAt_later
    | with_reducible apply writeThrough_later
    | with_reducible apply allocate_later
    | with_reducible apply addDirty_later
    | split
    | with_reducible refine Later.keep ?_ rfl (Nat.le_refl _) (fun x => x)
    | dsimp only

theorem own_later {a s : State} (core line : Nat) (h : Later a s) : Later a (State.own s core line) := by
  unfold State.own
  try dsimp only
  repeat' first
    | with_reducible assumption
    | with_reducible apply setL1_later
    | with_reducible apply recall_later
    | with_reducible apply makeRoom_later
    | split
    | with_reducible refine Later.keep ?_ rfl (Nat.le_refl _) (fun x => x)
    | dsimp only

theorem rmwPhys_later {a s : State} (h : How) (pa n mtype : Nat) (promote : Bool) (new : List Byte → Option (List Byte)) (hs : Later a s) : Later a (State.rmwPhys s h pa n mtype promote new).2 := by
  unfold State.rmwPhys
  try dsimp only
  repeat' first
    | with_reducible assumption
    | with_reducible apply writePhys_later
    | with_reducible apply setL1_later
    | with_reducible apply recall_later
    | with_reducible apply cleanAt_later
    | with_reducible apply flushL1_later
    | with_reducible apply touch_later
    | with_reducible apply addDirty_later
    | with_reducible apply own_later
    | split
    | with_reducible refine Later.keep ?_ rfl (Nat.le_refl _) (fun x => x)
    | dsimp only

theorem ldcPhys_later {a s : State} (h : How) (pa n mtype : Nat) (hs : Later a s) : Later a (State.ldcPhys s h pa n mtype).2 := by
  unfold State.ldcPhys
  try dsimp only
  repeat' first
    | with_reducible assumption
    | with_reducible apply drew_later
    | with_reducible apply recall_later
    | with_reducible apply cleanAt_later
    | with_reducible apply noteNear_later
    | split
    | with_reducible refine Later.keep ?_ rfl (Nat.le_refl _) (fun x => x)
    | dsimp only

theorem ldcEmpty_later {a s : State} (core : Nat) (h : Later a s) : Later a (State.ldcEmpty s core) := by
  unfold State.ldcEmpty
  try dsimp only
  repeat' first
    | with_reducible assumption
    | split
    | with_reducible refine Later.keep ?_ rfl (Nat.le_refl _) (fun x => x)
    | dsimp only

theorem readHome_later {a s : State} (pa n : Nat) (h : Later a s) : Later a (State.readHome s pa n).2 := by
  unfold State.readHome
  try dsimp only
  repeat' first
    | with_reducible assumption
    | with_reducible apply recall_later
    | with_reducible refine Later.fold _ ?_ (fun _ _ _ => ?_)
    | split
    | dsimp only

theorem writeHome_later {a s : State} (pa : Nat) (bs : List Byte) (h : Later a s) : Later a (State.writeHome s pa bs) := by
  unfold State.writeHome
  try dsimp only
  repeat' first
    | with_reducible assumption
    | with_reducible apply writeThrough_later
    | split
    | dsimp only

theorem readBy_later {a s : State} {ctx : Nat} {t : Tlb} {va n align : Nat} {res} (h : Later a s) (e0 : State.readBy s ctx t va n align = .ok res) :
    Later a res.2 := by
  unfold State.readBy at e0
  repeat' first
    | with_reducible assumption
    | with_reducible apply drew_later
    | with_reducible apply noteTlb_later
    | with_reducible apply readHome_later
    | split at e0
    | with_reducible cases e0
    | dsimp only at e0
    | split
    | dsimp only

theorem readVirt_later {a s : State} {ctx die va n align : Nat} {res} (h : Later a s) (e0 : State.readVirt s ctx die va n align = .ok res) :
    Later a res.2 := by
  unfold State.readVirt at e0
  repeat' first
    | with_reducible assumption
    | with_reducible refine readBy_later ?_ (by assumption)
    | with_reducible refine readBy_later ?_ e0
    | split at e0
    | with_reducible cases e0
    | dsimp only at e0
    | split
    | dsimp only

theorem writeVirt_later {a s : State} {ctx die va align : Nat} {bs : List Byte} {res} (h : Later a s) (e0 : State.writeVirt s ctx die va align bs = .ok res) :
    Later a res := by
  unfold State.writeVirt at e0
  repeat' first
    | with_reducible assumption
    | with_reducible apply drew_later
    | with_reducible apply noteTlb_later
    | with_reducible apply writeHome_later
    | split at e0
    | with_reducible cases e0
    | dsimp only at e0
    | split
    | dsimp only

theorem writeFresh_later {a s : State} {ctx die va : Nat} {bs : List Byte} {res} (h : Later a s) (e0 : State.writeFresh s ctx die va bs = .ok res) :
    Later a res := by
  unfold State.writeFresh at e0
  repeat' first
    | with_reducible assumption
    | with_reducible refine writeVirt_later ?_ (by assumption)
    | with_reducible refine writeVirt_later ?_ e0
    | split at e0
    | with_reducible cases e0
    | dsimp only at e0
    | split
    | dsimp only

theorem readRun_later {a s : State} {ctx die va n : Nat} {r} (h : Later a s) (e : State.readRun s ctx die va n = .ok r) :
    Later a r.2 := by
  induction n generalizing s va r with
  | zero => simp only [State.readRun, Except.ok.injEq] at e; subst e; exact h
  | succ n ih =>
    simp only [State.readRun] at e
    split at e
    · cases e
    · rename_i b s' e1
      split at e
      · cases e
      · rename_i bs s'' e2
        cases e
        exact ih (s := s') (r := (bs, s'')) (readVirt_later h e1) e2

theorem wsWrite_later {a s : State} (die off : Nat) (bs : List Byte) (h : Later a s) : Later a (State.wsWrite s die off bs) := by
  unfold State.wsWrite
  try dsimp only
  repeat' first
    | with_reducible assumption
    | with_reducible refine Later.fold _ ?_ (fun _ _ _ => ?_)
    | split
    | with_reducible refine Later.keep ?_ rfl (Nat.le_refl _) (fun x => x)
    | dsimp only

theorem acquire_later {a s : State} (ctx core team : Nat) (ids : List Nat) (scope : Nat) (h : Later a s) : Later a (State.acquire s ctx core team ids scope) := by
  unfold State.acquire
  try dsimp only
  repeat' first
    | with_reducible assumption
    | with_reducible apply updTeam_later
    | with_reducible apply dropClean_later
    | with_reducible apply applyInv_later
    | split
    | with_reducible refine Later.keep ?_ rfl (Nat.le_refl _) (fun x => x)
    | dsimp only

/-! ### Records -/

theorem raiseMsi_later {a s : State} (v : BitVec 11) (h : Later a s) : Later a (State.raiseMsi s v) := by
  unfold State.raiseMsi
  try dsimp only
  repeat' first
    | with_reducible assumption
    | split
    | with_reducible refine Later.keep ?_ rfl (Nat.le_refl _) (fun x => x)
    | dsimp only

theorem emit_later {a s : State} (ctx core : Nat) (k : RecKind) (arg : Nat) (payload : List Nat) (wide : Bool) (team : Option (Nat × Nat)) (h : Later a s) : Later a (State.emit s ctx core k arg payload wide team) := by
  unfold State.emit
  try dsimp only
  repeat' first
    | with_reducible assumption
    | with_reducible refine updCtx_later _ _ _ ?_ (fun _ => rfl)
    | with_reducible refine Later.fold _ ?_ (fun _ _ _ => ?_)
    | split
    | with_reducible refine Later.keep ?_ rfl (Nat.le_refl _) (fun x => x)
    | dsimp only

theorem errorRecord_later {a s : State} (q : Nat) (seq : BitVec 64) (pid : Option Nat) (code member tag sub lane : Nat) (detail : Nat) (h : Later a s) : Later a (State.errorRecord s q seq pid code member tag sub lane detail) := by
  unfold State.errorRecord
  try dsimp only
  repeat' first
    | with_reducible assumption
    | with_reducible apply updQueue_later
    | with_reducible apply updPkts_later
    | with_reducible apply writeHome_later
    | split
    | with_reducible refine Later.keep ?_ rfl (Nat.le_refl _) (fun x => x)
    | dsimp only

theorem itemError_later {a s : State} (q : Nat) (seq : BitVec 64) (pid member : Nat) (batch : Option (Nat × Nat)) (code sub lane detail : Nat) (h : Later a s) : Later a (State.itemError s q seq pid member batch code sub lane detail) := by
  unfold State.itemError
  try dsimp only
  repeat' first
    | with_reducible assumption
    | with_reducible apply errorRecord_later
    | split
    | dsimp only

theorem offerFault_later {a s : State} (ctx core va source access entry rule : Nat) (rewritten : Bool) (h : Later a s) :
    Later a (s.offerFault ctx core va source access entry rule rewritten).2 := by
  unfold State.offerFault
  extract_lets die r
  split
  · exact h
  · split
    · exact h
    · dsimp only
      split
      · exact h
      · rename_i s' e
        have h' := writeFresh_later h e
        split
        · exact raiseMsi_later _ (updCtx_later _ _ _ h' (fun _ => rfl))
        · exact updCtx_later _ _ _ h' (fun _ => rfl)

theorem linkLog_later {a s : State} (b8 kind b10 b11 : Nat) (h : Later a s) : Later a (State.linkLog s b8 kind b10 b11) := by
  unfold State.linkLog
  try dsimp only
  repeat' first
    | with_reducible assumption
    | with_reducible apply writeHome_later
    | split
    | with_reducible refine Later.keep ?_ rfl (Nat.le_refl _) (fun x => x)
    | dsimp only

/-! ### Flags -/

theorem give_later {a s : State} (i : Iss) (rcv : List Lane) (r : Res) (src : Src) (h : Later a s) : Later a (State.give s i rcv r src) := by
  unfold State.give
  try dsimp only
  repeat' first
    | with_reducible assumption
    | with_reducible apply updTeam_later
    | split
    | dsimp only

theorem alu_later {a s : State} (f : Lane → Res) (i : Iss) (h : Later a s) : Later a (alu f i s) := by
  unfold alu
  try dsimp only
  repeat' first
    | with_reducible assumption
    | with_reducible apply give_later
    | with_reducible refine Later.fold _ ?_ (fun _ _ _ => ?_)
    | split
    | dsimp only

/-! ### Queues -/

theorem cmdRecord_later {a s : State} (c : Cmd) (k : RecKind) (arg : Nat) (h : Later a s) : Later a (State.cmdRecord s c k arg) := by
  unfold State.cmdRecord
  try dsimp only
  repeat' first
    | with_reducible assumption
    | with_reducible apply emit_later
    | split
    | dsimp only

theorem accept_later {a s : State} (c : Cmd) (h : Later a s) : Later a (State.accept s c) := by
  unfold State.accept
  try dsimp only
  repeat' first
    | with_reducible assumption
    | split
    | with_reducible refine Later.keep ?_ rfl (Nat.le_refl _) (fun x => x)
    | dsimp only

theorem traceAccept_later {a s : State} (i : Iss) (c : Cmd) (l : Lane) (h : Later a s) : Later a (State.traceAccept s i c l) := by
  unfold State.traceAccept
  try dsimp only
  repeat' first
    | with_reducible assumption
    | with_reducible apply emit_later
    | split
    | dsimp only

theorem enterTile_later {a s : State} (t : Team) (w : WinCmd) (h : Later a s) : Later a (State.enterTile s t w) := by
  unfold State.enterTile
  try dsimp only
  repeat' first
    | with_reducible assumption
    | with_reducible apply accept_later
    | split
    | with_reducible refine Later.keep ?_ rfl (Nat.le_refl _) (fun x => x)
    | dsimp only

theorem fenceSeq_later {a s : State} (ctx : Nat) (q : QueueId) (h : Later a s) : Later a (State.fenceSeq s ctx q) := by
  unfold State.fenceSeq
  try dsimp only
  repeat' first
    | with_reducible assumption
    | with_reducible apply updTeam_later
    | split
    | with_reducible refine Later.keep ?_ rfl (Nat.le_refl _) (fun x => x)
    | dsimp only

theorem drainWindow_later {a s : State} (team n : Nat) (h : Later a s) : Later a (s.drainWindow team n) := by
  induction n generalizing s with
  | zero => exact h
  | succ n ih =>
    unfold State.drainWindow
    repeat' split
    all_goals try exact h
    exact ih (enterTile_later _ _ (updTeam_later _ _ h))

theorem flushWindow_later {a s : State} (team : Nat) (h : Later a s) : Later a (State.flushWindow s team) := by
  unfold State.flushWindow
  try dsimp only
  repeat' first
    | with_reducible assumption
    | with_reducible apply updTeam_later
    | with_reducible apply drainWindow_later
    | split
    | with_reducible refine Later.keep ?_ rfl (Nat.le_refl _) (fun x => x)
    | dsimp only

/-! ### Barriers -/

theorem writeSpad_later {a s : State} (owner : Nat) (by' : Write) (off : Nat) (bs : List Byte) (h : Later a s) : Later a (State.writeSpad s owner by' off bs) := by
  unfold State.writeSpad
  try dsimp only
  repeat' first
    | with_reducible assumption
    | with_reducible apply updTeam_later
    | split
    | with_reducible refine Later.keep ?_ rfl (Nat.le_refl _) (fun x => x)
    | dsimp only

theorem setBar_later {a s : State} (core index : Nat) (e : BarEntry) (h : Later a s) : Later a (State.setBar s core index e) := by
  unfold State.setBar
  try dsimp only
  repeat' first
    | with_reducible assumption
    | split
    | with_reducible refine Later.keep ?_ rfl (Nat.le_refl _) (fun x => x)
    | dsimp only

theorem barUpdate_later {a s : State} (core team index : Nat) (arrive late : Nat) (bytes : Int) (scope : Nat) (h : Later a s) : Later a (State.barUpdate s core team index arrive late bytes scope) := by
  unfold State.barUpdate
  try dsimp only
  repeat' first
    | with_reducible assumption
    | with_reducible apply writeSpad_later
    | with_reducible apply setBar_later
    | split
    | with_reducible refine Later.keep ?_ rfl (Nat.le_refl _) (fun x => x)
    | dsimp only

theorem engineArrive_later {a s : State} (core team : Nat) (h : Word) (scope : Nat) (hs : Later a s) : Later a (State.engineArrive s core team h scope) := by
  unfold State.engineArrive
  try dsimp only
  repeat' first
    | with_reducible assumption
    | with_reducible apply barUpdate_later
    | split
    | dsimp only

theorem barLand_later {a s : State} (core team : Nat) (h : Word) (bytes : Nat) (hs : Later a s) : Later a (State.barLand s core team h bytes) := by
  unfold State.barLand
  try dsimp only
  repeat' first
    | with_reducible assumption
    | with_reducible apply barUpdate_later
    | split
    | dsimp only

theorem barFree_later {a s : State} (core index : Nat) (h : Later a s) : Later a (State.barFree s core index) := by
  unfold State.barFree
  try dsimp only
  repeat' first
    | with_reducible assumption
    | with_reducible apply setBar_later
    | split
    | with_reducible refine Later.keep ?_ rfl (Nat.le_refl _) (fun x => x)
    | dsimp only

/-! ### Ops -/

theorem form_later {a s : State} (team : Nat) (ids : List Nat) (lines : Option (List (Nat × Nat))) (due : Nat) (h : Later a s) : Later a (State.form s team ids lines due) := by
  unfold State.form
  try dsimp only
  repeat' first
    | with_reducible assumption
    | with_reducible apply updTeam_later
    | split
    | dsimp only

theorem dropLoads_later {a s : State} (team : Nat) (ids : List Nat) (h : Later a s) : Later a (State.dropLoads s team ids) := by
  unfold State.dropLoads
  try dsimp only
  repeat' first
    | with_reducible assumption
    | split
    | with_reducible refine Later.keep ?_ rfl (Nat.le_refl _) (fun x => x)
    | dsimp only

theorem endThreads_later {a s : State} (team : Nat) (ids : List Nat) (h : Later a s) : Later a (State.endThreads s team ids) := by
  unfold State.endThreads
  try dsimp only
  repeat' first
    | with_reducible assumption
    | with_reducible apply updTeam_later
    | with_reducible apply flushWindow_later
    | with_reducible apply dropLoads_later
    | split
    | dsimp only

theorem endTeam_later {a s : State} (team : Nat) (detail : Nat) (h : Later a s) : Later a (State.endTeam s team detail) := by
  unfold State.endTeam
  try dsimp only
  repeat' first
    | with_reducible assumption
    | with_reducible apply updTeam_later
    | with_reducible apply itemError_later
    | with_reducible apply endThreads_later
    | split
    | with_reducible refine Later.keep ?_ rfl (Nat.le_refl _) (fun x => x)
    | dsimp only

theorem takeTrap_later {a s : State} (t : Team) (w : Warp) (r : TrapReq) (more : List TrapReq) (h : Later a s) : Later a (State.takeTrap s t w r more) := by
  unfold State.takeTrap
  try dsimp only
  repeat' first
    | with_reducible assumption
    | with_reducible apply updTeam_later
    | with_reducible apply emit_later
    | with_reducible apply dropLoads_later
    | split
    | with_reducible refine Later.keep ?_ rfl (Nat.le_refl _) (fun x => x)
    | dsimp only

theorem enterTrap_later {a s : State} (team warp : Nat) (h : Later a s) : Later a (State.enterTrap s team warp) := by
  unfold State.enterTrap
  try dsimp only
  repeat' first
    | with_reducible assumption
    | with_reducible apply updTeam_later
    | with_reducible apply flushWindow_later
    | with_reducible apply endTeam_later
    | with_reducible apply takeTrap_later
    | split
    | with_reducible refine Later.keep ?_ rfl (Nat.le_refl _) (fun x => x)
    | dsimp only

theorem raiseTrap_later {a s : State} (team warp : Nat) (r : TrapReq) (h : Later a s) : Later a (State.raiseTrap s team warp r) := by
  unfold State.raiseTrap
  try dsimp only
  repeat' first
    | with_reducible assumption
    | with_reducible apply updTeam_later
    | with_reducible apply enterTrap_later
    | split
    | with_reducible refine Later.keep ?_ rfl (Nat.le_refl _) (fun x => x)
    | dsimp only

theorem answerFaults_later {a s : State} (team warp : Nat) (h : Later a s) : Later a (State.answerFaults s team warp) := by
  unfold State.answerFaults
  try dsimp only
  repeat' first
    | with_reducible assumption
    | with_reducible apply updTeam_later
    | with_reducible apply enterTrap_later
    | with_reducible refine Later.fold _ ?_ (fun _ _ _ => ?_)
    | split
    | with_reducible refine Later.keep ?_ rfl (Nat.le_refl _) (fun x => x)
    | dsimp only

theorem offerLane_later {a s : State} (t : Team) (p : Lane × LaneFault) (h : Later a s) : Later a (State.offerLane s t p) := by
  unfold State.offerLane
  try dsimp only
  repeat' first
    | with_reducible assumption
    | with_reducible apply updThread_later
    | with_reducible apply offerFault_later
    | split
    | with_reducible refine Later.keep ?_ rfl (Nat.le_refl _) (fun x => x)
    | dsimp only

theorem takeFaults_later {a s : State} (team warp : Nat) (h : Later a s) : Later a (State.takeFaults s team warp) := by
  unfold State.takeFaults
  try dsimp only
  repeat' first
    | with_reducible assumption
    | with_reducible apply answerFaults_later
    | with_reducible apply offerLane_later
    | with_reducible refine Later.fold _ ?_ (fun _ _ _ => ?_)
    | split
    | dsimp only

theorem faultFor_later {a s : State} (i : Iss) (l : Lane) (also : List Nat) (cause : BitVec 16) (sub : BitVec 8) (detail : Nat) (write : Nat) (h : Later a s) : Later a (State.faultFor s i l also cause sub detail write) := by
  unfold State.faultFor
  try dsimp only
  repeat' first
    | with_reducible assumption
    | with_reducible apply updThread_later
    | split
    | with_reducible refine Later.keep ?_ rfl (Nat.le_refl _) (fun x => x)
    | dsimp only

theorem faultLane_later {a s : State} (i : Iss) (l : Lane) (cause : BitVec 16) (sub : BitVec 8) (detail : Nat) (write : Nat) (h : Later a s) : Later a (State.faultLane s i l cause sub detail write) := by
  unfold State.faultLane
  try dsimp only
  repeat' first
    | with_reducible assumption
    | with_reducible apply faultFor_later
    | split
    | dsimp only

theorem faultRest_later {a s : State} (i : Iss) (l : Lane) (rest : List Nat) (cause : BitVec 16) (sub : BitVec 8) (detail : Nat) (h : Later a s) : Later a (State.faultRest s i l rest cause sub detail) := by
  unfold State.faultRest
  try dsimp only
  repeat' first
    | with_reducible assumption
    | with_reducible apply updThread_later
    | split
    | with_reducible refine Later.keep ?_ rfl (Nat.le_refl _) (fun x => x)
    | dsimp only

theorem faultAll_later {a s : State} (i : Iss) (cause : BitVec 16) (sub : BitVec 8) (detail : Nat) (h : Later a s) : Later a (State.faultAll s i cause sub detail) := by
  unfold State.faultAll
  try dsimp only
  repeat' first
    | with_reducible assumption
    | with_reducible apply faultLane_later
    | with_reducible refine Later.fold _ ?_ (fun _ _ _ => ?_)
    | split
    | dsimp only

theorem answerCmd_later {a s : State} (cmd : Option Nat) (retry : Bool) (h : Later a s) : Later a (State.answerCmd s cmd retry) := by
  unfold State.answerCmd
  try dsimp only
  repeat' first
    | with_reducible assumption
    | with_reducible apply updCmd_later
    | split
    | with_reducible refine Later.keep ?_ rfl (Nat.le_refl _) (fun x => x)
    | dsimp only

theorem returnTrap_later {a s : State} (team : Nat) (r : TrapRec) (h : Later a s) : Later a (State.returnTrap s team r) := by
  unfold State.returnTrap
  try dsimp only
  repeat' first
    | with_reducible assumption
    | with_reducible apply updTeam_later
    | with_reducible apply emit_later
    | with_reducible apply endThreads_later
    | with_reducible apply endTeam_later
    | with_reducible apply answerCmd_later
    | with_reducible refine Later.fold _ ?_ (fun _ _ _ => ?_)
    | split
    | with_reducible refine Later.keep ?_ rfl (Nat.le_refl _) (fun x => x)
    | dsimp only

theorem releaseBars_later {a s : State} (team : Nat) (h : Later a s) : Later a (State.releaseBars s team) := by
  unfold State.releaseBars
  try dsimp only
  repeat' first
    | with_reducible assumption
    | with_reducible apply acquire_later
    | with_reducible apply form_later
    | with_reducible refine Later.fold _ ?_ (fun _ _ _ => ?_)
    | split
    | dsimp only

theorem releaseJoins_later {a s : State} (team : Nat) (h : Later a s) : Later a (State.releaseJoins s team) := by
  unfold State.releaseJoins
  try dsimp only
  repeat' first
    | with_reducible assumption
    | with_reducible apply updTeam_later
    | with_reducible apply form_later
    | with_reducible refine Later.fold _ ?_ (fun _ _ _ => ?_)
    | split
    | with_reducible refine Later.keep ?_ rfl (Nat.le_refl _) (fun x => x)
    | dsimp only

theorem releaseRgp_later {a s : State} (team : Nat) (h : Later a s) : Later a (State.releaseRgp s team) := by
  unfold State.releaseRgp
  try dsimp only
  repeat' first
    | with_reducible assumption
    | with_reducible apply updTeam_later
    | with_reducible apply drew_later
    | with_reducible apply form_later
    | with_reducible apply takeFaults_later
    | with_reducible refine Later.fold _ ?_ (fun _ _ _ => ?_)
    | split
    | with_reducible refine Later.keep ?_ rfl (Nat.le_refl _) (fun x => x)
    | dsimp only

theorem releaseTraps_later {a s : State} (team : Nat) (h : Later a s) : Later a (State.releaseTraps s team) := by
  unfold State.releaseTraps
  try dsimp only
  repeat' first
    | with_reducible assumption
    | with_reducible apply returnTrap_later
    | with_reducible refine Later.fold _ ?_ (fun _ _ _ => ?_)
    | split
    | dsimp only

theorem regroup_later {a s : State} (team warp : Nat) (h : Later a s) : Later a (State.regroup s team warp) := by
  unfold State.regroup
  try dsimp only
  repeat' first
    | with_reducible assumption
    | with_reducible apply form_later
    | split
    | dsimp only

theorem afterPart_later {a s : State} (team warp : Nat) (h : Later a s) : Later a (State.afterPart s team warp) := by
  unfold State.afterPart
  try dsimp only
  repeat' first
    | with_reducible assumption
    | with_reducible apply takeFaults_later
    | with_reducible apply regroup_later
    | with_reducible refine Later.fold _ ?_ (fun _ _ _ => ?_)
    | split
    | dsimp only

theorem settle_later {a s : State} (team : Nat) (h : Later a s) : Later a (State.settle s team) := by
  unfold State.settle
  try dsimp only
  repeat' first
    | with_reducible assumption
    | with_reducible apply releaseBars_later
    | with_reducible apply releaseJoins_later
    | with_reducible apply releaseRgp_later
    | with_reducible apply releaseTraps_later
    | with_reducible apply regroup_later
    | with_reducible refine Later.fold _ ?_ (fun _ _ _ => ?_)
    | split
    | dsimp only

theorem stopRecord_later {a s : State} (t : Team) (w : Warp) (k : RecKind) (low8 skid : Nat) (h : Later a s) : Later a (State.stopRecord s t w k low8 skid) := by
  unfold State.stopRecord
  try dsimp only
  repeat' first
    | with_reducible assumption
    | with_reducible apply updTeam_later
    | with_reducible apply emit_later
    | with_reducible refine Later.fold _ ?_ (fun _ _ _ => ?_)
    | split
    | with_reducible refine Later.keep ?_ rfl (Nat.le_refl _) (fun x => x)
    | dsimp only

theorem stopWarp_later {a s : State} (team warp : Nat) (source result skid : Nat) (caps : List Word) (h : Later a s) : Later a (State.stopWarp s team warp source result skid caps) := by
  unfold State.stopWarp
  try dsimp only
  repeat' first
    | with_reducible assumption
    | with_reducible apply updTeam_later
    | with_reducible apply dropLoads_later
    | with_reducible apply stopRecord_later
    | split
    | with_reducible refine Later.keep ?_ rfl (Nat.le_refl _) (fun x => x)
    | dsimp only

theorem haltWarp_later {a s : State} (team warp : Nat) (p : Halt → Bool) (h : Later a s) : Later a (State.haltWarp s team warp p) := by
  unfold State.haltWarp
  try dsimp only
  repeat' first
    | with_reducible assumption
    | with_reducible apply updTeam_later
    | with_reducible apply stopWarp_later
    | split
    | with_reducible refine Later.keep ?_ rfl (Nat.le_refl _) (fun x => x)
    | dsimp only

theorem takeStops_later {a s : State} (team : Nat) (ids : List Nat) (h : Later a s) : Later a (State.takeStops s team ids) := by
  unfold State.takeStops
  try dsimp only
  repeat' first
    | with_reducible assumption
    | with_reducible apply haltWarp_later
    | with_reducible refine Later.fold _ ?_ (fun _ _ _ => ?_)
    | split
    | dsimp only

theorem startStep_later {a s : State} (t : Turn) (h : Later a s) : Later a (State.startStep s t) := by
  unfold State.startStep
  try dsimp only
  repeat' first
    | with_reducible assumption
    | split
    | with_reducible refine Later.keep ?_ rfl (Nat.le_refl _) (fun x => x)
    | dsimp only

theorem stepped_later {a s : State} (team : Nat) (ids : List Nat) (h : Later a s) : Later a (State.stepped s team ids) := by
  unfold State.stepped
  try dsimp only
  repeat' first
    | with_reducible assumption
    | split
    | with_reducible refine Later.keep ?_ rfl (Nat.le_refl _) (fun x => x)
    | dsimp only

theorem endPart_later {a s : State} (t : Turn) (h : Later a s) : Later a (s.endPart t) := by
  unfold State.endPart
  extract_lets s1
  have h1 : Later a s1 := h
  clear_value s1
  split
  · exact h1
  · rename_i w _
    extract_lets ids now done s2 s3 s4
    have h2 : Later a s2 := by
      unfold s2
      split <;> exact updTeam_later _ _ h1
    clear_value s2
    have h3 : Later a s3 := afterPart_later _ _ (stepped_later _ _ h2)
    clear_value s3
    have h4 : Later a s4 := by
      unfold s4
      split
      · exact updTeam_later _ _ (settle_later _ h3)
      · exact h3
    clear_value s4
    split
    · exact takeStops_later _ _ h4
    · exact h4

theorem finishSlot_later {a s : State} (h : Later a s) : Later a (State.finishSlot s) := by
  unfold State.finishSlot
  try dsimp only
  repeat' first
    | with_reducible assumption
    | with_reducible apply endPart_later
    | split
    | with_reducible refine Later.keep ?_ rfl (Nat.le_refl _) (fun x => x)
    | dsimp only

theorem wakes_later {a s : State} (h : Later a s) : Later a (State.wakes s) := by
  unfold State.wakes
  try dsimp only
  repeat' first
    | with_reducible assumption
    | split
    | with_reducible refine Later.keep ?_ rfl (Nat.le_refl _) (fun x => x)
    | dsimp only

theorem rejectPart_later {a s : State} (t : Turn) (cause : BitVec 16) (slot : Nat) (detail : Option Nat) (kind : Nat) (offer : Offer) (h : Later a s) : Later a (State.rejectPart s t cause slot detail kind offer) := by
  unfold State.rejectPart
  try dsimp only
  repeat' first
    | with_reducible assumption
    | with_reducible apply updTeam_later
    | with_reducible apply drew_later
    | with_reducible apply raiseTrap_later
    | with_reducible apply takeStops_later
    | with_reducible apply stepped_later
    | split
    | with_reducible refine Later.keep ?_ rfl (Nat.le_refl _) (fun x => x)
    | dsimp only

/-! ### Spaces -/

theorem writePlace_later {a s : State} (t : Team) (by' : Write) (p : Place) (bs : List Byte) (h : Later a s) : Later a (State.writePlace s t by' p bs) := by
  unfold State.writePlace
  try dsimp only
  repeat' first
    | with_reducible assumption
    | with_reducible apply updTeam_later
    | with_reducible apply writeSpad_later
    | with_reducible refine Later.fold _ ?_ (fun _ _ _ => ?_)
    | split
    | with_reducible refine Later.keep ?_ rfl (Nat.le_refl _) (fun x => x)
    | dsimp only

/-! ### Routes -/

theorem updLink_later {a s : State} (k : Nat) (f : Link → Link) (h : Later a s) : Later a (State.updLink s k f) := by
  unfold State.updLink
  try dsimp only
  repeat' first
    | with_reducible assumption
    | split
    | with_reducible refine Later.keep ?_ rfl (Nat.le_refl _) (fun x => x)
    | dsimp only

theorem noteFlits_later {a s : State} (ks : List Nat) (h : Later a s) : Later a (State.noteFlits s ks) := by
  unfold State.noteFlits
  try dsimp only
  repeat' first
    | with_reducible assumption
    | with_reducible apply updLink_later
    | with_reducible refine Later.fold _ ?_ (fun _ _ _ => ?_)
    | split
    | with_reducible refine Later.keep ?_ rfl (Nat.le_refl _) (fun x => x)
    | dsimp only

end Sys2Proof.Machine
end

