-- ==== Sys2Proof/Laws/LaterIssue.lean ====
section
/-! SUPPORT. The operations of Checks, Issue, Watch, Order, MemAccess, Atomics, BarrierOps leave a state that may follow. -/

namespace Sys2Proof.Machine

set_option Elab.async false

/-! ### Issue -/

theorem issued_later {a s t : State} (op : Op) (e : Enc) (body : Iss → State → State) (h : Later a s)
    (hb : ∀ i, Later a (body i s)) (e1 : issued op e body s = .next t) : Later a t := by
  unfold issued at e1
  split at e1
  · cases e1; exact h
  · split at e1
    · cases e1; exact rejectPart_later _ _ _ _ _ _ h
    · split at e1
      · cases e1; exact finishSlot_later h
      · split at e1
        · split at e1
          · cases e1; exact finishSlot_later h
          · cases e1; exact rejectPart_later _ _ _ _ _ _ h
        · split at e1
          · cases e1; exact Later.keep h rfl (Nat.le_refl _) id
          · cases e1; exact finishSlot_later (hb _)

theorem offerFetch_later {a s : State} (t : Team) (pc : VAddr) (h : Later a s) : Later a (State.offerFetch s t pc).2 := by
  unfold State.offerFetch
  try dsimp only
  repeat' first
    | with_reducible assumption
    | with_reducible apply offerFault_later
    | split
    | dsimp only

theorem fetch_later {a s : State} (team warp : Nat) (h : Later a s) : Later a (State.fetch s team warp) := by
  unfold State.fetch
  try dsimp only
  repeat' first
    | with_reducible assumption
    | with_reducible apply updTeam_later
    | with_reducible apply noteTlb_later
    | with_reducible apply rejectPart_later
    | with_reducible apply offerFetch_later
    | split
    | with_reducible refine Later.keep ?_ rfl (Nat.le_refl _) (fun x => x)
    | dsimp only

/-! ### Watch -/

theorem watchStop_later {a s : State} (t : Team) (w : Warp) (own : Bool) (cap : Word) (h : Later a s) : Later a (State.watchStop s t w own cap) := by
  unfold State.watchStop
  try dsimp only
  repeat' first
    | with_reducible assumption
    | with_reducible apply updTeam_later
    | with_reducible apply own_later
    | split
    | with_reducible refine Later.keep ?_ rfl (Nat.le_refl _) (fun x => x)
    | dsimp only

theorem watch_later {a s : State} (i : Looker) (own : Bool) (xs : List Seen) (h : Later a s) : Later a (State.watch s i own xs) := by
  unfold State.watch
  try dsimp only
  repeat' first
    | with_reducible assumption
    | with_reducible apply emit_later
    | with_reducible apply watchStop_later
    | with_reducible refine Later.fold _ ?_ (fun _ _ _ => ?_)
    | split
    | dsimp only

theorem sample_later {a s : State} (i : Iss) (before : State) (space : Nat) (xs : List (Nat × Nat)) (h : Later a s) : Later a (State.sample s i before space xs) := by
  unfold State.sample
  try dsimp only
  repeat' first
    | with_reducible assumption
    | with_reducible apply updCore_later
    | with_reducible apply emit_later
    | with_reducible refine Later.fold _ ?_ (fun _ _ _ => ?_)
    | split
    | with_reducible refine Later.keep ?_ rfl (Nat.le_refl _) (fun x => x)
    | dsimp only

/-! ### Order -/

theorem applyRed_later {a s : State} (c : Contrib) (h : Later a s) : Later a (State.applyRed s c) := by
  unfold State.applyRed
  try dsimp only
  repeat' first
    | with_reducible assumption
    | with_reducible apply writeThrough_later
    | with_reducible apply readHome_later
    | split
    | with_reducible refine Later.keep ?_ rfl (Nat.le_refl _) (fun x => x)
    | dsimp only

theorem seeOrdered_later {a s : State} (grid core : Nat) (threads : List (Nat × Nat)) (h : Later a s) : Later a (State.seeOrdered s grid core threads) := by
  unfold State.seeOrdered
  try dsimp only
  repeat' first
    | with_reducible assumption
    | split
    | with_reducible refine Later.keep ?_ rfl (Nat.le_refl _) (fun x => x)
    | dsimp only

theorem overflow_later {a s : State} (grid epoch : Nat) (h : Later a s) : Later a (State.overflow s grid epoch) := by
  unfold State.overflow
  try dsimp only
  repeat' first
    | with_reducible assumption
    | with_reducible apply drew_later
    | split
    | with_reducible refine Later.keep ?_ rfl (Nat.le_refl _) (fun x => x)
    | dsimp only

theorem holdRed_later {a s : State} (c : Contrib) (h : Later a s) : Later a (State.holdRed s c) := by
  unfold State.holdRed
  extract_lets held die r spilled
  split
  · exact Later.keep h rfl (Nat.le_refl _) (fun x => x)
  · split
    · split
      · rename_i s' e
        exact Later.keep (writeVirt_later (drew_later h) e) rfl (Nat.le_refl _) (fun x => x)
      · exact Later.keep (drew_later h) rfl (Nat.le_refl _) (fun x => x)
    · exact Later.keep h rfl (Nat.le_refl _) (fun x => x)

theorem arriveRed_later {a s : State} (n : Nat) (h : Later a s) : Later a (State.arriveRed s n) := by
  unfold State.arriveRed
  try dsimp only
  repeat' first
    | with_reducible assumption
    | with_reducible apply applyRed_later
    | with_reducible apply holdRed_later
    | split
    | with_reducible refine Later.keep ?_ rfl (Nat.le_refl _) (fun x => x)
    | dsimp only

theorem forceReds_later {a s : State} (p : Contrib → Bool) (h : Later a s) : Later a (State.forceReds s p) := by
  unfold State.forceReds
  try dsimp only
  repeat' first
    | with_reducible assumption
    | with_reducible apply arriveRed_later
    | with_reducible refine Later.fold _ ?_ (fun _ _ _ => ?_)
    | split
    | dsimp only

theorem ownReds_later {a s : State} (team thread pa n : Nat) (h : Later a s) : Later a (State.ownReds s team thread pa n) := by
  unfold State.ownReds
  try dsimp only
  repeat' first
    | with_reducible assumption
    | with_reducible apply forceReds_later
    | split
    | dsimp only

theorem dropOwn_later {a s : State} (team thread pa n : Nat) (h : Later a s) : Later a (State.dropOwn s team thread pa n) := by
  unfold State.dropOwn
  try dsimp only
  repeat' first
    | with_reducible assumption
    | split
    | with_reducible refine Later.keep ?_ rfl (Nat.le_refl _) (fun x => x)
    | dsimp only

theorem sendRed_later {a s : State} (mtype : Nat) (c : Contrib) (h : Later a s) : Later a (State.sendRed s mtype c) := by
  unfold State.sendRed
  try dsimp only
  repeat' first
    | with_reducible assumption
    | with_reducible apply cleanAt_later
    | with_reducible apply forceReds_later
    | with_reducible apply dropOwn_later
    | split
    | with_reducible refine Later.keep ?_ rfl (Nat.le_refl _) (fun x => x)
    | dsimp only

theorem landThreads_later {a s : State} (team : Nat) (ids : List Nat) (h : Later a s) : Later a (State.landThreads s team ids) := by
  unfold State.landThreads
  try dsimp only
  repeat' first
    | with_reducible assumption
    | with_reducible apply updTeam_later
    | with_reducible apply dropLoads_later
    | split
    | dsimp only

theorem release_later {a s : State} (team core : Nat) (ids : List Nat) (scope : Nat) (h : Later a s) : Later a (State.release s team core ids scope) := by
  unfold State.release
  try dsimp only
  repeat' first
    | with_reducible assumption
    | with_reducible apply flushL1_later
    | with_reducible apply forceReds_later
    | with_reducible apply landThreads_later
    | split
    | dsimp only

theorem Iss.relHalf_later {a s : State} (i : Iss) (h : Later a s) : Later a (Iss.relHalf i s) := by
  unfold Iss.relHalf
  try dsimp only
  repeat' first
    | with_reducible assumption
    | with_reducible apply release_later
    | split
    | dsimp only

theorem Iss.acqHalf_later {a s : State} (i : Iss) (h : Later a s) : Later a (Iss.acqHalf i s) := by
  unfold Iss.acqHalf
  try dsimp only
  repeat' first
    | with_reducible assumption
    | with_reducible apply acquire_later
    | split
    | dsimp only

/-! ### MemAccess -/

theorem Iss.observe_later {a : State} (i : Iss) (before s : State) (kind : Nat) (h : Later a s) : Later a (Iss.observe i before s kind) := by
  unfold Iss.observe
  try dsimp only
  repeat' first
    | with_reducible assumption
    | with_reducible apply noteFlits_later
    | with_reducible apply watch_later
    | with_reducible apply sample_later
    | split
    | dsimp only

theorem Iss.refuse_later {a s : State} (i : Iss) (l : Lane) (rcv : List Lane) (cause : BitVec 16) (write : Nat) (h : Later a s) : Later a (Iss.refuse i s l rcv cause write) := by
  unfold Iss.refuse
  try dsimp only
  repeat' first
    | with_reducible assumption
    | with_reducible apply faultFor_later
    | split
    | dsimp only

theorem loadBytes_later {a s : State} (h : How) (pa n mtype : Nat) (hs : Later a s) : Later a (State.loadBytes s h pa n mtype).2 := by
  unfold State.loadBytes
  try dsimp only
  repeat' first
    | with_reducible assumption
    | with_reducible apply loadPhys_later
    | split
    | dsimp only

theorem numbered_later {a s : State} (h : Later a s) : Later a (State.numbered s) := by
  unfold State.numbered
  try dsimp only
  repeat' first
    | with_reducible assumption
    | split
    | with_reducible refine Later.keep ?_ rfl (Nat.le_refl _) (fun x => x)
    | dsimp only

theorem Iss.enter_later {a s : State} (i : Iss) (l : Lane) (h : Later a s) : Later a (Iss.enter i s l) := by
  unfold Iss.enter
  try dsimp only
  repeat' first
    | with_reducible assumption
    | with_reducible apply drew_later
    | with_reducible apply noteTlb_later
    | with_reducible apply numbered_later
    | split
    | dsimp only

theorem inFlight_later {a s : State} (i : Iss) (l : Lane) (rcv : List Lane) (pa ty id : Nat) (dst : BitVec 8) (h : Later a s) : Later a (State.inFlight s i l rcv pa ty id dst) := by
  unfold State.inFlight
  try dsimp only
  repeat' first
    | with_reducible assumption
    | split
    | with_reducible refine Later.keep ?_ rfl (Nat.le_refl _) (fun x => x)
    | dsimp only

theorem loadOne_later {a s : State} (e : Enc) (i : Iss) (l : Lane) (rcv : List Lane) (h : Later a s) : Later a (loadOne e i s l rcv) := by
  unfold loadOne
  try dsimp only
  repeat' first
    | with_reducible assumption
    | with_reducible apply drew_later
    | with_reducible apply give_later
    | with_reducible apply ownReds_later
    | with_reducible apply Iss.refuse_later
    | with_reducible apply loadBytes_later
    | with_reducible apply numbered_later
    | with_reducible apply Iss.enter_later
    | with_reducible apply inFlight_later
    | split
    | dsimp only

theorem execLd_later {a s t : State} {e : Enc} (h : Later a s) (e1 : execLd e s = .next t) :
    Later a t := by
  unfold execLd at e1
  refine issued_later _ _ _ h (fun i => ?_) e1
  try dsimp only
  repeat' first
    | with_reducible assumption
    | with_reducible apply updTeam_later
    | with_reducible apply Iss.acqHalf_later
    | with_reducible apply Iss.observe_later
    | with_reducible apply loadOne_later
    | with_reducible refine Later.fold _ ?_ (fun _ _ _ => ?_)
    | split
    | with_reducible refine Later.keep ?_ rfl (Nat.le_refl _) (fun x => x)
    | dsimp only

theorem ldcOne_later {a s : State} (e : Enc) (i : Iss) (l : Lane) (rcv : List Lane) (h : Later a s) : Later a (ldcOne e i s l rcv) := by
  unfold ldcOne
  try dsimp only
  repeat' first
    | with_reducible assumption
    | with_reducible apply drew_later
    | with_reducible apply ldcPhys_later
    | with_reducible apply give_later
    | with_reducible apply Iss.refuse_later
    | with_reducible apply Iss.enter_later
    | split
    | dsimp only

theorem execLdc_later {a s t : State} {e : Enc} (h : Later a s) (e1 : execLdc e s = .next t) :
    Later a t := by
  unfold execLdc at e1
  refine issued_later _ _ _ h (fun i => ?_) e1
  try dsimp only
  repeat' first
    | with_reducible assumption
    | with_reducible apply Iss.observe_later
    | with_reducible apply ldcOne_later
    | with_reducible refine Later.fold _ ?_ (fun _ _ _ => ?_)
    | split
    | dsimp only

theorem execLdcinv_later {a s t : State} {e : Enc} (h : Later a s) (e1 : execLdcinv e s = .next t) :
    Later a t := by
  unfold execLdcinv at e1
  refine issued_later _ _ _ h (fun i => ?_) e1
  try dsimp only
  repeat' first
    | with_reducible assumption
    | with_reducible apply updTeam_later
    | with_reducible apply ldcEmpty_later
    | split
    | with_reducible refine Later.keep ?_ rfl (Nat.le_refl _) (fun x => x)
    | dsimp only

theorem prfOne_later {a s : State} (i : Iss) (l : Lane) (h : Later a s) : Later a (prfOne i s l) := by
  unfold prfOne
  try dsimp only
  repeat' first
    | with_reducible assumption
    | with_reducible apply drew_later
    | with_reducible apply noteNear_later
    | with_reducible apply touch_later
    | with_reducible apply Iss.enter_later
    | split
    | dsimp only

theorem execPrf_later {a s t : State} {e : Enc} (h : Later a s) (e1 : execPrf e s = .next t) :
    Later a t := by
  unfold execPrf at e1
  refine issued_later _ _ _ h (fun i => ?_) e1
  try dsimp only
  repeat' first
    | with_reducible assumption
    | with_reducible apply sample_later
    | with_reducible apply prfOne_later
    | with_reducible refine Later.fold _ ?_ (fun _ _ _ => ?_)
    | split
    | dsimp only

theorem logStore_later {a s : State} (i : Iss) (l : Lane) (data : List Byte) (red : Option Contrib) (h : Later a s) : Later a (State.logStore s i l data red) := by
  unfold State.logStore
  try dsimp only
  repeat' first
    | with_reducible assumption
    | with_reducible apply drew_later
    | with_reducible apply offerFault_later
    | with_reducible apply endTeam_later
    | split
    | with_reducible refine Later.keep ?_ rfl (Nat.le_refl _) (fun x => x)
    | dsimp only

theorem storeMem_later {a s : State} (h : How) (ea pa m : Nat) (bs : List Byte) (hs : Later a s) : Later a (State.storeMem s h ea pa m bs) := by
  unfold State.storeMem
  try dsimp only
  repeat' first
    | with_reducible assumption
    | with_reducible apply storePhys_later
    | with_reducible apply endTeam_later
    | with_reducible apply ownReds_later
    | with_reducible apply dropOwn_later
    | split
    | dsimp only

theorem storeOne_later {a s : State} (e : Enc) (i : Iss) (l : Lane) (rcv : List Lane) (h : Later a s) : Later a (storeOne e i s l rcv) := by
  unfold storeOne
  try dsimp only
  repeat' first
    | with_reducible assumption
    | with_reducible apply drew_later
    | with_reducible apply writePlace_later
    | with_reducible apply Iss.refuse_later
    | with_reducible apply Iss.enter_later
    | with_reducible apply logStore_later
    | with_reducible apply storeMem_later
    | split
    | dsimp only

theorem execSt_later {a s t : State} {e : Enc} (h : Later a s) (e1 : execSt e s = .next t) :
    Later a t := by
  unfold execSt at e1
  refine issued_later _ _ _ h (fun i => ?_) e1
  try dsimp only
  repeat' first
    | with_reducible assumption
    | with_reducible apply Iss.relHalf_later
    | with_reducible apply Iss.observe_later
    | with_reducible apply storeOne_later
    | with_reducible refine Later.fold _ ?_ (fun _ _ _ => ?_)
    | split
    | dsimp only

theorem closeEpoch_later {a s : State} (e : Enc) (i : Iss) (h : Later a s) : Later a (closeEpoch e i s) := by
  unfold closeEpoch
  try dsimp only
  repeat' first
    | with_reducible assumption
    | with_reducible apply updTeam_later
    | with_reducible apply updGrid_later
    | with_reducible apply emit_later
    | with_reducible apply overflow_later
    | with_reducible apply forceReds_later
    | split
    | with_reducible refine Later.keep ?_ rfl (Nat.le_refl _) (fun x => x)
    | dsimp only

theorem fenced_later {a s : State} (e : Enc) (i : Iss) (h : Later a s) : Later a (fenced e i s) := by
  unfold fenced
  try dsimp only
  repeat' first
    | with_reducible assumption
    | with_reducible apply updTeam_later
    | split
    | with_reducible refine Later.keep ?_ rfl (Nat.le_refl _) (fun x => x)
    | dsimp only

theorem execFence_later {a s t : State} {e : Enc} (h : Later a s) (e1 : execFence e s = .next t) :
    Later a t := by
  unfold execFence at e1
  refine issued_later _ _ _ h (fun i => ?_) e1
  try dsimp only
  repeat' first
    | with_reducible assumption
    | with_reducible apply flushWindow_later
    | with_reducible apply Iss.relHalf_later
    | with_reducible apply Iss.acqHalf_later
    | with_reducible apply closeEpoch_later
    | with_reducible apply fenced_later
    | split
    | dsimp only

/-! ### Atomics -/

theorem atomOne_later {a s : State} (e : Enc) (new : Lane → Nat → Option Nat) (i : Iss) (l : Lane) (rcv : List Lane) (h : Later a s) : Later a (atomOne e new i s l rcv) := by
  unfold atomOne
  try dsimp only
  repeat' first
    | with_reducible assumption
    | with_reducible apply drew_later
    | with_reducible apply rmwPhys_later
    | with_reducible apply give_later
    | with_reducible apply writePlace_later
    | with_reducible apply ownReds_later
    | with_reducible apply dropOwn_later
    | with_reducible apply Iss.refuse_later
    | with_reducible apply numbered_later
    | with_reducible apply Iss.enter_later
    | split
    | dsimp only

theorem execAtom_later {a s t : State} {e : Enc} (h : Later a s) (e1 : execAtom e s = .next t) :
    Later a t := by
  unfold execAtom at e1
  refine issued_later _ _ _ h (fun i => ?_) e1
  try dsimp only
  repeat' first
    | with_reducible assumption
    | with_reducible apply Iss.relHalf_later
    | with_reducible apply Iss.acqHalf_later
    | with_reducible apply Iss.observe_later
    | with_reducible apply atomOne_later
    | with_reducible refine Later.fold _ ?_ (fun _ _ _ => ?_)
    | split
    | dsimp only

theorem execCas_later {a s t : State} {e : Enc} (h : Later a s) (e1 : execCas e s = .next t) :
    Later a t := by
  unfold execCas at e1
  refine issued_later _ _ _ h (fun i => ?_) e1
  try dsimp only
  repeat' first
    | with_reducible assumption
    | with_reducible apply Iss.relHalf_later
    | with_reducible apply Iss.acqHalf_later
    | with_reducible apply Iss.observe_later
    | with_reducible apply atomOne_later
    | with_reducible refine Later.fold _ ?_ (fun _ _ _ => ?_)
    | split
    | dsimp only

theorem redOne_later {a s : State} (e : Enc) (det : Bool) (i : Iss) (l : Lane) (rcv : List Lane) (h : Later a s) : Later a (redOne e det i s l rcv) := by
  unfold redOne
  try dsimp only
  repeat' first
    | with_reducible assumption
    | with_reducible apply drew_later
    | with_reducible apply endTeam_later
    | with_reducible apply sendRed_later
    | with_reducible apply Iss.refuse_later
    | with_reducible apply Iss.enter_later
    | with_reducible apply logStore_later
    | split
    | dsimp only

theorem execRed_later {a s t : State} {e : Enc} (h : Later a s) (e1 : execRed e s = .next t) :
    Later a t := by
  unfold execRed at e1
  refine issued_later _ _ _ h (fun i => ?_) e1
  try dsimp only
  repeat' first
    | with_reducible assumption
    | with_reducible apply Iss.relHalf_later
    | with_reducible apply Iss.observe_later
    | with_reducible apply redOne_later
    | with_reducible refine Later.fold _ ?_ (fun _ _ _ => ?_)
    | split
    | dsimp only

theorem execRedDet_later {a s t : State} {e : Enc} (h : Later a s) (e1 : execRedDet e s = .next t) :
    Later a t := by
  unfold execRedDet at e1
  refine issued_later _ _ _ h (fun i => ?_) e1
  try dsimp only
  repeat' first
    | with_reducible assumption
    | with_reducible apply Iss.observe_later
    | with_reducible apply redOne_later
    | with_reducible refine Later.fold _ ?_ (fun _ _ _ => ?_)
    | split
    | dsimp only

/-! ### BarrierOps -/

theorem barFault_later {a s : State} (e : Enc) (f : BarFail) (i : Iss) (h : Later a s) : Later a (barFault e f i s) := by
  unfold barFault
  try dsimp only
  repeat' first
    | with_reducible assumption
    | with_reducible apply drew_later
    | with_reducible apply faultAll_later
    | split
    | dsimp only

theorem binitAt_later {a s : State} (i : Iss) (ix off count : Nat) (h : Later a s) : Later a (State.binitAt s i ix off count) := by
  unfold State.binitAt
  try dsimp only
  repeat' first
    | with_reducible assumption
    | with_reducible apply writeSpad_later
    | with_reducible apply setBar_later
    | split
    | dsimp only

theorem binitLanes_later {a s : State} {e : Enc} {i : Iss} {ps : List (Lane × List Lane)} {r} (h : Later a s)
    (e1 : binitLanes e i ps s = .ok r) : Later a r := by
  induction ps generalizing s with
  | nil => cases e1; exact h
  | cons p ps ih =>
    simp only [binitLanes] at e1
    split at e1
    · cases e1
    · exact ih (give_later _ _ _ _ (binitAt_later _ _ _ _ h)) e1

theorem execBinit_later {a s t : State} {e : Enc} (h : Later a s) (e1 : execBinit e s = .next t) :
    Later a t := by
  unfold execBinit at e1
  refine issued_later _ _ _ h (fun i => ?_) e1
  try dsimp only
  repeat' first
    | with_reducible assumption
    | with_reducible apply barFault_later
    | with_reducible refine binitLanes_later ?_ (by assumption)
    | split
    | dsimp only

theorem barAdd_later {a s : State} (e : Enc) (arr : Bool) (bytes : Lane → Nat) (i : Iss) (h : Later a s) : Later a (barAdd e arr bytes i s) := by
  unfold barAdd
  try dsimp only
  repeat' first
    | with_reducible assumption
    | with_reducible apply give_later
    | with_reducible apply barUpdate_later
    | with_reducible apply wakes_later
    | with_reducible apply release_later
    | with_reducible apply barFault_later
    | with_reducible refine Later.fold _ ?_ (fun _ _ _ => ?_)
    | split
    | dsimp only

theorem execBarr_later {a s t : State} {e : Enc} (h : Later a s) (e1 : execBarr e s = .next t) :
    Later a t := by
  unfold execBarr at e1
  refine issued_later _ _ _ h (fun i => ?_) e1
  try dsimp only
  repeat' first
    | with_reducible assumption
    | with_reducible apply barAdd_later
    | split
    | dsimp only

theorem execBexp_later {a s t : State} {e : Enc} (h : Later a s) (e1 : execBexp e s = .next t) :
    Later a t := by
  unfold execBexp at e1
  refine issued_later _ _ _ h (fun i => ?_) e1
  try dsimp only
  repeat' first
    | with_reducible assumption
    | with_reducible apply barAdd_later
    | split
    | dsimp only

theorem execBwait_later {a s t : State} {e : Enc} (h : Later a s) (e1 : execBwait e s = .next t) :
    Later a t := by
  unfold execBwait at e1
  refine issued_later _ _ _ h (fun i => ?_) e1
  try dsimp only
  repeat' first
    | with_reducible assumption
    | with_reducible apply updTeam_later
    | with_reducible apply acquire_later
    | with_reducible apply flushWindow_later
    | with_reducible apply barFault_later
    | with_reducible refine Later.fold _ ?_ (fun _ _ _ => ?_)
    | split
    | with_reducible refine Later.keep ?_ rfl (Nat.le_refl _) (fun x => x)
    | dsimp only

theorem execBtry_later {a s t : State} {e : Enc} (h : Later a s) (e1 : execBtry e s = .next t) :
    Later a t := by
  unfold execBtry at e1
  refine issued_later _ _ _ h (fun i => ?_) e1
  try dsimp only
  repeat' first
    | with_reducible assumption
    | with_reducible apply acquire_later
    | with_reducible apply give_later
    | with_reducible apply barFault_later
    | with_reducible refine Later.fold _ ?_ (fun _ _ _ => ?_)
    | split
    | dsimp only

theorem binvLanes_later {a s : State} {e : Enc} {i : Iss} {ps : List (Lane × List Lane)} {r} (h : Later a s)
    (e1 : binvLanes e i ps s = .ok r) : Later a r := by
  induction ps generalizing s with
  | nil => cases e1; exact h
  | cons p ps ih =>
    simp only [binvLanes] at e1
    split at e1
    · cases e1
    · split at e1
      · cases e1
      · exact ih (barFree_later _ _ h) e1

theorem execBinv_later {a s t : State} {e : Enc} (h : Later a s) (e1 : execBinv e s = .next t) :
    Later a t := by
  unfold execBinv at e1
  refine issued_later _ _ _ h (fun i => ?_) e1
  try dsimp only
  repeat' first
    | with_reducible assumption
    | with_reducible apply barFault_later
    | with_reducible refine binvLanes_later ?_ (by assumption)
    | split
    | dsimp only

end Sys2Proof.Machine
end

