-- ==== Sys2Proof/Laws/LaterAlu.lean ====
section
/-! SUPPORT. The operations of Move, IntArith, Logic, Packed, FloatArith, Control, CrossLane leave a state that may follow. -/

namespace Sys2Proof.Machine

set_option Elab.async false

/-! ### Move -/

theorem execNop_later {a s t : State} {e : Enc} (h : Later a s) (e1 : execNop e s = .next t) :
    Later a t := by
  unfold execNop at e1
  refine issued_later _ _ _ h (fun i => ?_) e1
  try dsimp only
  repeat' first
    | with_reducible assumption
    | split
    | dsimp only

theorem execMov_later {a s t : State} {e : Enc} (h : Later a s) (e1 : execMov e s = .next t) :
    Later a t := by
  unfold execMov at e1
  refine issued_later _ _ _ h (fun i => ?_) e1
  try dsimp only
  repeat' first
    | with_reducible assumption
    | with_reducible apply alu_later
    | split
    | dsimp only

theorem execMovi_later {a s t : State} {e : Enc} (h : Later a s) (e1 : execMovi e s = .next t) :
    Later a t := by
  unfold execMovi at e1
  refine issued_later _ _ _ h (fun i => ?_) e1
  try dsimp only
  repeat' first
    | with_reducible assumption
    | with_reducible apply alu_later
    | split
    | dsimp only

theorem execMovh_later {a s t : State} {e : Enc} (h : Later a s) (e1 : execMovh e s = .next t) :
    Later a t := by
  unfold execMovh at e1
  refine issued_later _ _ _ h (fun i => ?_) e1
  try dsimp only
  repeat' first
    | with_reducible assumption
    | with_reducible apply alu_later
    | split
    | dsimp only

theorem execMovs_later {a s t : State} {e : Enc} (h : Later a s) (e1 : execMovs e s = .next t) :
    Later a t := by
  unfold execMovs at e1
  refine issued_later _ _ _ h (fun i => ?_) e1
  try dsimp only
  repeat' first
    | with_reducible assumption
    | with_reducible apply alu_later
    | split
    | dsimp only

theorem execSel_later {a s t : State} {e : Enc} (h : Later a s) (e1 : execSel e s = .next t) :
    Later a t := by
  unfold execSel at e1
  refine issued_later _ _ _ h (fun i => ?_) e1
  try dsimp only
  repeat' first
    | with_reducible assumption
    | with_reducible apply alu_later
    | split
    | dsimp only

theorem execCmp_later {a s t : State} {e : Enc} (h : Later a s) (e1 : execCmp e s = .next t) :
    Later a t := by
  unfold execCmp at e1
  refine issued_later _ _ _ h (fun i => ?_) e1
  try dsimp only
  repeat' first
    | with_reducible assumption
    | with_reducible apply alu_later
    | split
    | dsimp only

theorem execPops_later {a s t : State} {e : Enc} (h : Later a s) (e1 : execPops e s = .next t) :
    Later a t := by
  unfold execPops at e1
  refine issued_later _ _ _ h (fun i => ?_) e1
  try dsimp only
  repeat' first
    | with_reducible assumption
    | with_reducible apply alu_later
    | split
    | dsimp only

/-! ### IntArith -/

theorem execAdd_later {a s t : State} {e : Enc} (h : Later a s) (e1 : execAdd e s = .next t) :
    Later a t := by
  unfold execAdd at e1
  refine issued_later _ _ _ h (fun i => ?_) e1
  try dsimp only
  repeat' first
    | with_reducible assumption
    | with_reducible apply alu_later
    | split
    | dsimp only

theorem execSub_later {a s t : State} {e : Enc} (h : Later a s) (e1 : execSub e s = .next t) :
    Later a t := by
  unfold execSub at e1
  refine issued_later _ _ _ h (fun i => ?_) e1
  try dsimp only
  repeat' first
    | with_reducible assumption
    | with_reducible apply alu_later
    | split
    | dsimp only

theorem execMul_later {a s t : State} {e : Enc} (h : Later a s) (e1 : execMul e s = .next t) :
    Later a t := by
  unfold execMul at e1
  refine issued_later _ _ _ h (fun i => ?_) e1
  try dsimp only
  repeat' first
    | with_reducible assumption
    | with_reducible apply alu_later
    | split
    | dsimp only

theorem execMin_later {a s t : State} {e : Enc} (h : Later a s) (e1 : execMin e s = .next t) :
    Later a t := by
  unfold execMin at e1
  refine issued_later _ _ _ h (fun i => ?_) e1
  try dsimp only
  repeat' first
    | with_reducible assumption
    | with_reducible apply alu_later
    | split
    | dsimp only

theorem execMax_later {a s t : State} {e : Enc} (h : Later a s) (e1 : execMax e s = .next t) :
    Later a t := by
  unfold execMax at e1
  refine issued_later _ _ _ h (fun i => ?_) e1
  try dsimp only
  repeat' first
    | with_reducible assumption
    | with_reducible apply alu_later
    | split
    | dsimp only

theorem execMad_later {a s t : State} {e : Enc} (h : Later a s) (e1 : execMad e s = .next t) :
    Later a t := by
  unfold execMad at e1
  refine issued_later _ _ _ h (fun i => ?_) e1
  try dsimp only
  repeat' first
    | with_reducible assumption
    | with_reducible apply alu_later
    | split
    | dsimp only

theorem execMulh_later {a s t : State} {e : Enc} (h : Later a s) (e1 : execMulh e s = .next t) :
    Later a t := by
  unfold execMulh at e1
  refine issued_later _ _ _ h (fun i => ?_) e1
  try dsimp only
  repeat' first
    | with_reducible assumption
    | with_reducible apply alu_later
    | split
    | dsimp only

theorem execMadw_later {a s t : State} {e : Enc} (h : Later a s) (e1 : execMadw e s = .next t) :
    Later a t := by
  unfold execMadw at e1
  refine issued_later _ _ _ h (fun i => ?_) e1
  try dsimp only
  repeat' first
    | with_reducible assumption
    | with_reducible apply alu_later
    | split
    | dsimp only

theorem execAddc_later {a s t : State} {e : Enc} (h : Later a s) (e1 : execAddc e s = .next t) :
    Later a t := by
  unfold execAddc at e1
  refine issued_later _ _ _ h (fun i => ?_) e1
  try dsimp only
  repeat' first
    | with_reducible assumption
    | with_reducible apply alu_later
    | split
    | dsimp only

theorem execSubc_later {a s t : State} {e : Enc} (h : Later a s) (e1 : execSubc e s = .next t) :
    Later a t := by
  unfold execSubc at e1
  refine issued_later _ _ _ h (fun i => ?_) e1
  try dsimp only
  repeat' first
    | with_reducible assumption
    | with_reducible apply alu_later
    | split
    | dsimp only

theorem execAbs_later {a s t : State} {e : Enc} (h : Later a s) (e1 : execAbs e s = .next t) :
    Later a t := by
  unfold execAbs at e1
  refine issued_later _ _ _ h (fun i => ?_) e1
  try dsimp only
  repeat' first
    | with_reducible assumption
    | with_reducible apply alu_later
    | split
    | dsimp only

theorem execNeg_later {a s t : State} {e : Enc} (h : Later a s) (e1 : execNeg e s = .next t) :
    Later a t := by
  unfold execNeg at e1
  refine issued_later _ _ _ h (fun i => ?_) e1
  try dsimp only
  repeat' first
    | with_reducible assumption
    | with_reducible apply alu_later
    | split
    | dsimp only

theorem execLea_later {a s t : State} {e : Enc} (h : Later a s) (e1 : execLea e s = .next t) :
    Later a t := by
  unfold execLea at e1
  refine issued_later _ _ _ h (fun i => ?_) e1
  try dsimp only
  repeat' first
    | with_reducible assumption
    | with_reducible apply alu_later
    | split
    | dsimp only

/-! ### Logic -/

theorem bitwise_later {a s : State} (op : Op) (f : Nat → Nat → Nat) (e : Enc) (i : Iss) (h : Later a s) :
    Later a (bitwise op f e i s) := by
  unfold bitwise
  with_reducible apply alu_later
  exact h

theorem execAnd_later {a s t : State} {e : Enc} (h : Later a s) (e1 : execAnd e s = .next t) :
    Later a t := by
  unfold execAnd at e1
  refine issued_later _ _ _ h (fun i => ?_) e1
  try dsimp only
  repeat' first
    | with_reducible assumption
    | with_reducible apply bitwise_later
    | split
    | dsimp only

theorem execOr_later {a s t : State} {e : Enc} (h : Later a s) (e1 : execOr e s = .next t) :
    Later a t := by
  unfold execOr at e1
  refine issued_later _ _ _ h (fun i => ?_) e1
  try dsimp only
  repeat' first
    | with_reducible assumption
    | with_reducible apply bitwise_later
    | split
    | dsimp only

theorem execXor_later {a s t : State} {e : Enc} (h : Later a s) (e1 : execXor e s = .next t) :
    Later a t := by
  unfold execXor at e1
  refine issued_later _ _ _ h (fun i => ?_) e1
  try dsimp only
  repeat' first
    | with_reducible assumption
    | with_reducible apply bitwise_later
    | split
    | dsimp only

theorem execAndn_later {a s t : State} {e : Enc} (h : Later a s) (e1 : execAndn e s = .next t) :
    Later a t := by
  unfold execAndn at e1
  refine issued_later _ _ _ h (fun i => ?_) e1
  try dsimp only
  repeat' first
    | with_reducible assumption
    | with_reducible apply bitwise_later
    | split
    | dsimp only

theorem unary_later {a s : State} (f : Nat → Nat) (n m : Nat) (e : Enc) (i : Iss) (h : Later a s) : Later a (unary f n m e i s) :=
  alu_later _ _ h

theorem execNot_later {a s t : State} {e : Enc} (h : Later a s) (e1 : execNot e s = .next t) :
    Later a t := by
  unfold execNot at e1
  refine issued_later _ _ _ h (fun i => ?_) e1
  try dsimp only
  repeat' first
    | with_reducible assumption
    | with_reducible apply unary_later
    | split
    | dsimp only

theorem execShl_later {a s t : State} {e : Enc} (h : Later a s) (e1 : execShl e s = .next t) :
    Later a t := by
  unfold execShl at e1
  refine issued_later _ _ _ h (fun i => ?_) e1
  try dsimp only
  repeat' first
    | with_reducible assumption
    | with_reducible apply alu_later
    | split
    | dsimp only

theorem execShr_later {a s t : State} {e : Enc} (h : Later a s) (e1 : execShr e s = .next t) :
    Later a t := by
  unfold execShr at e1
  refine issued_later _ _ _ h (fun i => ?_) e1
  try dsimp only
  repeat' first
    | with_reducible assumption
    | with_reducible apply alu_later
    | split
    | dsimp only

theorem execSra_later {a s t : State} {e : Enc} (h : Later a s) (e1 : execSra e s = .next t) :
    Later a t := by
  unfold execSra at e1
  refine issued_later _ _ _ h (fun i => ?_) e1
  try dsimp only
  repeat' first
    | with_reducible assumption
    | with_reducible apply alu_later
    | split
    | dsimp only

theorem execRotl_later {a s t : State} {e : Enc} (h : Later a s) (e1 : execRotl e s = .next t) :
    Later a t := by
  unfold execRotl at e1
  refine issued_later _ _ _ h (fun i => ?_) e1
  try dsimp only
  repeat' first
    | with_reducible assumption
    | with_reducible apply alu_later
    | split
    | dsimp only

theorem execBfx_later {a s t : State} {e : Enc} (h : Later a s) (e1 : execBfx e s = .next t) :
    Later a t := by
  unfold execBfx at e1
  refine issued_later _ _ _ h (fun i => ?_) e1
  try dsimp only
  repeat' first
    | with_reducible assumption
    | with_reducible apply alu_later
    | split
    | dsimp only

theorem execBfi_later {a s t : State} {e : Enc} (h : Later a s) (e1 : execBfi e s = .next t) :
    Later a t := by
  unfold execBfi at e1
  refine issued_later _ _ _ h (fun i => ?_) e1
  try dsimp only
  repeat' first
    | with_reducible assumption
    | with_reducible apply alu_later
    | split
    | dsimp only

theorem execClz_later {a s t : State} {e : Enc} (h : Later a s) (e1 : execClz e s = .next t) :
    Later a t := by
  unfold execClz at e1
  refine issued_later _ _ _ h (fun i => ?_) e1
  try dsimp only
  repeat' first
    | with_reducible assumption
    | with_reducible apply unary_later
    | split
    | dsimp only

theorem execPopc_later {a s t : State} {e : Enc} (h : Later a s) (e1 : execPopc e s = .next t) :
    Later a t := by
  unfold execPopc at e1
  refine issued_later _ _ _ h (fun i => ?_) e1
  try dsimp only
  repeat' first
    | with_reducible assumption
    | with_reducible apply unary_later
    | split
    | dsimp only

theorem execBrev_later {a s t : State} {e : Enc} (h : Later a s) (e1 : execBrev e s = .next t) :
    Later a t := by
  unfold execBrev at e1
  refine issued_later _ _ _ h (fun i => ?_) e1
  try dsimp only
  repeat' first
    | with_reducible assumption
    | with_reducible apply unary_later
    | split
    | dsimp only

/-! ### Packed -/

theorem packed2_later {a s : State} (op : Op) (f : Int → Int → Int) (e : Enc) (i : Iss) (h : Later a s) :
    Later a (packed2 op f e i s) := by
  unfold packed2
  with_reducible apply alu_later
  exact h

theorem execAdd2_later {a s t : State} {e : Enc} (h : Later a s) (e1 : execAdd2 e s = .next t) :
    Later a t := by
  unfold execAdd2 at e1
  refine issued_later _ _ _ h (fun i => ?_) e1
  try dsimp only
  repeat' first
    | with_reducible assumption
    | with_reducible apply packed2_later
    | split
    | dsimp only

theorem execSub2_later {a s t : State} {e : Enc} (h : Later a s) (e1 : execSub2 e s = .next t) :
    Later a t := by
  unfold execSub2 at e1
  refine issued_later _ _ _ h (fun i => ?_) e1
  try dsimp only
  repeat' first
    | with_reducible assumption
    | with_reducible apply packed2_later
    | split
    | dsimp only

theorem execMul2_later {a s t : State} {e : Enc} (h : Later a s) (e1 : execMul2 e s = .next t) :
    Later a t := by
  unfold execMul2 at e1
  refine issued_later _ _ _ h (fun i => ?_) e1
  try dsimp only
  repeat' first
    | with_reducible assumption
    | with_reducible apply packed2_later
    | split
    | dsimp only

theorem execMac2_later {a s t : State} {e : Enc} (h : Later a s) (e1 : execMac2 e s = .next t) :
    Later a t := by
  unfold execMac2 at e1
  refine issued_later _ _ _ h (fun i => ?_) e1
  try dsimp only
  repeat' first
    | with_reducible assumption
    | with_reducible apply alu_later
    | split
    | dsimp only

theorem execShrn_later {a s t : State} {e : Enc} (h : Later a s) (e1 : execShrn e s = .next t) :
    Later a t := by
  unfold execShrn at e1
  refine issued_later _ _ _ h (fun i => ?_) e1
  try dsimp only
  repeat' first
    | with_reducible assumption
    | with_reducible apply alu_later
    | split
    | dsimp only

theorem execPk2_later {a s t : State} {e : Enc} (h : Later a s) (e1 : execPk2 e s = .next t) :
    Later a t := by
  unfold execPk2 at e1
  refine issued_later _ _ _ h (fun i => ?_) e1
  try dsimp only
  repeat' first
    | with_reducible assumption
    | with_reducible apply alu_later
    | split
    | dsimp only

theorem execUnpk_later {a s t : State} {e : Enc} (h : Later a s) (e1 : execUnpk e s = .next t) :
    Later a t := by
  unfold execUnpk at e1
  refine issued_later _ _ _ h (fun i => ?_) e1
  try dsimp only
  repeat' first
    | with_reducible assumption
    | with_reducible apply alu_later
    | split
    | dsimp only

theorem execSflg_later {a s t : State} {e : Enc} (h : Later a s) (e1 : execSflg e s = .next t) :
    Later a t := by
  unfold execSflg at e1
  refine issued_later _ _ _ h (fun i => ?_) e1
  try dsimp only
  repeat' first
    | with_reducible assumption
    | with_reducible apply updThread_later
    | with_reducible apply give_later
    | with_reducible refine Later.fold _ ?_ (fun _ _ _ => ?_)
    | split
    | with_reducible refine Later.keep ?_ rfl (Nat.le_refl _) (fun x => x)
    | dsimp only

/-! ### FloatArith -/

theorem float1_later {a s : State} (f : Nat → FRes) (e : Enc) (i : Iss) (h : Later a s) : Later a (float1 f e i s) :=
  alu_later _ _ h

theorem float2_later {a s : State} (op : Op) (f : Nat → Nat → FRes) (e : Enc) (i : Iss) (h : Later a s) :
    Later a (float2 op f e i s) := alu_later _ _ h

theorem float3_later {a s : State} (op : Op) (f : Nat → Nat → Nat → FRes) (e : Enc) (i : Iss) (h : Later a s) :
    Later a (float3 op f e i s) := alu_later _ _ h

theorem execFadd_later {a s t : State} {e : Enc} (h : Later a s) (e1 : execFadd e s = .next t) :
    Later a t := by
  unfold execFadd at e1
  refine issued_later _ _ _ h (fun i => ?_) e1
  try dsimp only
  repeat' first
    | with_reducible assumption
    | with_reducible apply float2_later
    | split
    | dsimp only

theorem execFsub_later {a s t : State} {e : Enc} (h : Later a s) (e1 : execFsub e s = .next t) :
    Later a t := by
  unfold execFsub at e1
  refine issued_later _ _ _ h (fun i => ?_) e1
  try dsimp only
  repeat' first
    | with_reducible assumption
    | with_reducible apply float2_later
    | split
    | dsimp only

theorem execFmul_later {a s t : State} {e : Enc} (h : Later a s) (e1 : execFmul e s = .next t) :
    Later a t := by
  unfold execFmul at e1
  refine issued_later _ _ _ h (fun i => ?_) e1
  try dsimp only
  repeat' first
    | with_reducible assumption
    | with_reducible apply float2_later
    | split
    | dsimp only

theorem execFfma_later {a s t : State} {e : Enc} (h : Later a s) (e1 : execFfma e s = .next t) :
    Later a t := by
  unfold execFfma at e1
  refine issued_later _ _ _ h (fun i => ?_) e1
  try dsimp only
  repeat' first
    | with_reducible assumption
    | with_reducible apply float3_later
    | split
    | dsimp only

theorem execFmin_later {a s t : State} {e : Enc} (h : Later a s) (e1 : execFmin e s = .next t) :
    Later a t := by
  unfold execFmin at e1
  refine issued_later _ _ _ h (fun i => ?_) e1
  try dsimp only
  repeat' first
    | with_reducible assumption
    | with_reducible apply float2_later
    | split
    | dsimp only

theorem execFmax_later {a s t : State} {e : Enc} (h : Later a s) (e1 : execFmax e s = .next t) :
    Later a t := by
  unfold execFmax at e1
  refine issued_later _ _ _ h (fun i => ?_) e1
  try dsimp only
  repeat' first
    | with_reducible assumption
    | with_reducible apply float2_later
    | split
    | dsimp only

theorem execFneg_later {a s t : State} {e : Enc} (h : Later a s) (e1 : execFneg e s = .next t) :
    Later a t := by
  unfold execFneg at e1
  refine issued_later _ _ _ h (fun i => ?_) e1
  try dsimp only
  repeat' first
    | with_reducible assumption
    | with_reducible apply float1_later
    | split
    | dsimp only

theorem execFabs_later {a s t : State} {e : Enc} (h : Later a s) (e1 : execFabs e s = .next t) :
    Later a t := by
  unfold execFabs at e1
  refine issued_later _ _ _ h (fun i => ?_) e1
  try dsimp only
  repeat' first
    | with_reducible assumption
    | with_reducible apply float1_later
    | split
    | dsimp only

theorem execFcmp_later {a s t : State} {e : Enc} (h : Later a s) (e1 : execFcmp e s = .next t) :
    Later a t := by
  unfold execFcmp at e1
  refine issued_later _ _ _ h (fun i => ?_) e1
  try dsimp only
  repeat' first
    | with_reducible assumption
    | with_reducible apply alu_later
    | split
    | dsimp only

theorem execFcls_later {a s t : State} {e : Enc} (h : Later a s) (e1 : execFcls e s = .next t) :
    Later a t := by
  unfold execFcls at e1
  refine issued_later _ _ _ h (fun i => ?_) e1
  try dsimp only
  repeat' first
    | with_reducible assumption
    | with_reducible apply float1_later
    | split
    | dsimp only

theorem execFrnd_later {a s t : State} {e : Enc} (h : Later a s) (e1 : execFrnd e s = .next t) :
    Later a t := by
  unfold execFrnd at e1
  refine issued_later _ _ _ h (fun i => ?_) e1
  try dsimp only
  repeat' first
    | with_reducible assumption
    | with_reducible apply float1_later
    | split
    | dsimp only

theorem execFrcp_later {a s t : State} {e : Enc} (h : Later a s) (e1 : execFrcp e s = .next t) :
    Later a t := by
  unfold execFrcp at e1
  refine issued_later _ _ _ h (fun i => ?_) e1
  try dsimp only
  repeat' first
    | with_reducible assumption
    | with_reducible apply float1_later
    | split
    | dsimp only

theorem execFrsq_later {a s t : State} {e : Enc} (h : Later a s) (e1 : execFrsq e s = .next t) :
    Later a t := by
  unfold execFrsq at e1
  refine issued_later _ _ _ h (fun i => ?_) e1
  try dsimp only
  repeat' first
    | with_reducible assumption
    | with_reducible apply float1_later
    | split
    | dsimp only

theorem execFsqrt_later {a s t : State} {e : Enc} (h : Later a s) (e1 : execFsqrt e s = .next t) :
    Later a t := by
  unfold execFsqrt at e1
  refine issued_later _ _ _ h (fun i => ?_) e1
  try dsimp only
  repeat' first
    | with_reducible assumption
    | with_reducible apply float1_later
    | split
    | dsimp only

theorem execFdiv_later {a s t : State} {e : Enc} (h : Later a s) (e1 : execFdiv e s = .next t) :
    Later a t := by
  unfold execFdiv at e1
  refine issued_later _ _ _ h (fun i => ?_) e1
  try dsimp only
  repeat' first
    | with_reducible assumption
    | with_reducible apply float2_later
    | split
    | dsimp only

theorem execFex2_later {a s t : State} {e : Enc} (h : Later a s) (e1 : execFex2 e s = .next t) :
    Later a t := by
  unfold execFex2 at e1
  refine issued_later _ _ _ h (fun i => ?_) e1
  try dsimp only
  repeat' first
    | with_reducible assumption
    | with_reducible apply float1_later
    | split
    | dsimp only

theorem execFlg2_later {a s t : State} {e : Enc} (h : Later a s) (e1 : execFlg2 e s = .next t) :
    Later a t := by
  unfold execFlg2 at e1
  refine issued_later _ _ _ h (fun i => ?_) e1
  try dsimp only
  repeat' first
    | with_reducible assumption
    | with_reducible apply float1_later
    | split
    | dsimp only

theorem execFsin_later {a s t : State} {e : Enc} (h : Later a s) (e1 : execFsin e s = .next t) :
    Later a t := by
  unfold execFsin at e1
  refine issued_later _ _ _ h (fun i => ?_) e1
  try dsimp only
  repeat' first
    | with_reducible assumption
    | with_reducible apply float1_later
    | split
    | dsimp only

theorem execFcos_later {a s t : State} {e : Enc} (h : Later a s) (e1 : execFcos e s = .next t) :
    Later a t := by
  unfold execFcos at e1
  refine issued_later _ _ _ h (fun i => ?_) e1
  try dsimp only
  repeat' first
    | with_reducible assumption
    | with_reducible apply float1_later
    | split
    | dsimp only

theorem execHadd2_later {a s t : State} {e : Enc} (h : Later a s) (e1 : execHadd2 e s = .next t) :
    Later a t := by
  unfold execHadd2 at e1
  refine issued_later _ _ _ h (fun i => ?_) e1
  try dsimp only
  repeat' first
    | with_reducible assumption
    | with_reducible apply float2_later
    | split
    | dsimp only

theorem execHmul2_later {a s t : State} {e : Enc} (h : Later a s) (e1 : execHmul2 e s = .next t) :
    Later a t := by
  unfold execHmul2 at e1
  refine issued_later _ _ _ h (fun i => ?_) e1
  try dsimp only
  repeat' first
    | with_reducible assumption
    | with_reducible apply float2_later
    | split
    | dsimp only

theorem execHfma2_later {a s t : State} {e : Enc} (h : Later a s) (e1 : execHfma2 e s = .next t) :
    Later a t := by
  unfold execHfma2 at e1
  refine issued_later _ _ _ h (fun i => ?_) e1
  try dsimp only
  repeat' first
    | with_reducible assumption
    | with_reducible apply float3_later
    | split
    | dsimp only

theorem execCvt_later {a s t : State} {e : Enc} (h : Later a s) (e1 : execCvt e s = .next t) :
    Later a t := by
  unfold execCvt at e1
  refine issued_later _ _ _ h (fun i => ?_) e1
  try dsimp only
  repeat' first
    | with_reducible assumption
    | with_reducible apply alu_later
    | split
    | dsimp only

theorem execCvpk_later {a s t : State} {e : Enc} (h : Later a s) (e1 : execCvpk e s = .next t) :
    Later a t := by
  unfold execCvpk at e1
  refine issued_later _ _ _ h (fun i => ?_) e1
  try dsimp only
  repeat' first
    | with_reducible assumption
    | with_reducible apply alu_later
    | split
    | dsimp only

theorem execCvup_later {a s t : State} {e : Enc} (h : Later a s) (e1 : execCvup e s = .next t) :
    Later a t := by
  unfold execCvup at e1
  refine issued_later _ _ _ h (fun i => ?_) e1
  try dsimp only
  repeat' first
    | with_reducible assumption
    | with_reducible apply alu_later
    | split
    | dsimp only

/-! ### Control -/

theorem transfer_later {a s : State} (i : Iss) (h : Later a s) : Later a (transfer i s) := by
  unfold transfer
  try dsimp only
  repeat' first
    | with_reducible assumption
    | with_reducible apply updTeam_later
    | with_reducible apply updThread_later
    | with_reducible refine Later.fold _ ?_ (fun _ _ _ => ?_)
    | split
    | with_reducible refine Later.keep ?_ rfl (Nat.le_refl _) (fun x => x)
    | dsimp only

theorem link_later {a s : State} (e : Enc) (i : Iss) (h : Later a s) : Later a (link e i s) := by
  unfold link
  try dsimp only
  repeat' first
    | with_reducible assumption
    | with_reducible apply updTeam_later
    | with_reducible apply give_later
    | split
    | with_reducible refine Later.keep ?_ rfl (Nat.le_refl _) (fun x => x)
    | dsimp only

theorem execBra_later {a s t : State} {e : Enc} (h : Later a s) (e1 : execBra e s = .next t) :
    Later a t := by
  unfold execBra at e1
  refine issued_later _ _ _ h (fun i => ?_) e1
  try dsimp only
  repeat' first
    | with_reducible assumption
    | with_reducible apply transfer_later
    | split
    | dsimp only

theorem execBrx_later {a s t : State} {e : Enc} (h : Later a s) (e1 : execBrx e s = .next t) :
    Later a t := by
  unfold execBrx at e1
  refine issued_later _ _ _ h (fun i => ?_) e1
  try dsimp only
  repeat' first
    | with_reducible assumption
    | with_reducible apply transfer_later
    | split
    | dsimp only

theorem execBrxRel_later {a s t : State} {e : Enc} (h : Later a s) (e1 : execBrxRel e s = .next t) :
    Later a t := by
  unfold execBrxRel at e1
  refine issued_later _ _ _ h (fun i => ?_) e1
  try dsimp only
  repeat' first
    | with_reducible assumption
    | with_reducible apply transfer_later
    | split
    | dsimp only

theorem execCall_later {a s t : State} {e : Enc} (h : Later a s) (e1 : execCall e s = .next t) :
    Later a t := by
  unfold execCall at e1
  refine issued_later _ _ _ h (fun i => ?_) e1
  try dsimp only
  repeat' first
    | with_reducible assumption
    | with_reducible apply transfer_later
    | with_reducible apply link_later
    | split
    | dsimp only

theorem execCallX_later {a s t : State} {e : Enc} (h : Later a s) (e1 : execCallX e s = .next t) :
    Later a t := by
  unfold execCallX at e1
  refine issued_later _ _ _ h (fun i => ?_) e1
  try dsimp only
  repeat' first
    | with_reducible assumption
    | with_reducible apply transfer_later
    | with_reducible apply link_later
    | split
    | dsimp only

theorem execRet_later {a s t : State} {e : Enc} (h : Later a s) (e1 : execRet e s = .next t) :
    Later a t := by
  unfold execRet at e1
  refine issued_later _ _ _ h (fun i => ?_) e1
  try dsimp only
  repeat' first
    | with_reducible assumption
    | with_reducible apply transfer_later
    | split
    | dsimp only

theorem execExit_later {a s t : State} {e : Enc} (h : Later a s) (e1 : execExit e s = .next t) :
    Later a t := by
  unfold execExit at e1
  refine issued_later _ _ _ h (fun i => ?_) e1
  try dsimp only
  repeat' first
    | with_reducible assumption
    | with_reducible apply endThreads_later
    | with_reducible apply wakes_later
    | split
    | dsimp only

theorem execRgn_later {a s t : State} {e : Enc} (h : Later a s) (e1 : execRgn e s = .next t) :
    Later a t := by
  unfold execRgn at e1
  refine issued_later _ _ _ h (fun i => ?_) e1
  try dsimp only
  repeat' first
    | with_reducible assumption
    | with_reducible apply updTeam_later
    | with_reducible apply faultAll_later
    | split
    | with_reducible refine Later.keep ?_ rfl (Nat.le_refl _) (fun x => x)
    | dsimp only

theorem execJoin_later {a s t : State} {e : Enc} (h : Later a s) (e1 : execJoin e s = .next t) :
    Later a t := by
  unfold execJoin at e1
  refine issued_later _ _ _ h (fun i => ?_) e1
  try dsimp only
  repeat' first
    | with_reducible assumption
    | with_reducible apply updTeam_later
    | with_reducible apply updThread_later
    | with_reducible apply faultAll_later
    | with_reducible apply wakes_later
    | with_reducible refine Later.fold _ ?_ (fun _ _ _ => ?_)
    | split
    | with_reducible refine Later.keep ?_ rfl (Nat.le_refl _) (fun x => x)
    | dsimp only

theorem execRgp_later {a s t : State} {e : Enc} (h : Later a s) (e1 : execRgp e s = .next t) :
    Later a t := by
  unfold execRgp at e1
  refine issued_later _ _ _ h (fun i => ?_) e1
  try dsimp only
  repeat' first
    | with_reducible assumption
    | with_reducible apply updTeam_later
    | with_reducible apply wakes_later
    | split
    | with_reducible refine Later.keep ?_ rfl (Nat.le_refl _) (fun x => x)
    | dsimp only

/-! ### CrossLane -/

theorem toAll_later {a s : State} (i : Iss) (r : Res) (h : Later a s) : Later a (toAll i s r) := by
  unfold toAll
  try dsimp only
  repeat' first
    | with_reducible assumption
    | with_reducible apply give_later
    | split
    | dsimp only

theorem execVote_later {a s t : State} {e : Enc} (h : Later a s) (e1 : execVote e s = .next t) :
    Later a t := by
  unfold execVote at e1
  refine issued_later _ _ _ h (fun i => ?_) e1
  try dsimp only
  repeat' first
    | with_reducible assumption
    | with_reducible apply toAll_later
    | split
    | dsimp only

theorem execMatchOp_later {a s t : State} {e : Enc} (h : Later a s) (e1 : execMatchOp e s = .next t) :
    Later a t := by
  unfold execMatchOp at e1
  refine issued_later _ _ _ h (fun i => ?_) e1
  try dsimp only
  repeat' first
    | with_reducible assumption
    | with_reducible apply give_later
    | with_reducible refine Later.fold _ ?_ (fun _ _ _ => ?_)
    | split
    | dsimp only

theorem execElect_later {a s t : State} {e : Enc} (h : Later a s) (e1 : execElect e s = .next t) :
    Later a t := by
  unfold execElect at e1
  refine issued_later _ _ _ h (fun i => ?_) e1
  try dsimp only
  repeat' first
    | with_reducible assumption
    | with_reducible apply give_later
    | with_reducible refine Later.fold _ ?_ (fun _ _ _ => ?_)
    | split
    | dsimp only

theorem execSld_later {a s t : State} {e : Enc} (h : Later a s) (e1 : execSld e s = .next t) :
    Later a t := by
  unfold execSld at e1
  refine issued_later _ _ _ h (fun i => ?_) e1
  try dsimp only
  repeat' first
    | with_reducible assumption
    | with_reducible apply give_later
    | with_reducible refine Later.fold _ ?_ (fun _ _ _ => ?_)
    | split
    | dsimp only

theorem execShfl_later {a s t : State} {e : Enc} (h : Later a s) (e1 : execShfl e s = .next t) :
    Later a t := by
  unfold execShfl at e1
  refine issued_later _ _ _ h (fun i => ?_) e1
  try dsimp only
  repeat' first
    | with_reducible assumption
    | with_reducible apply give_later
    | with_reducible refine Later.fold _ ?_ (fun _ _ _ => ?_)
    | split
    | dsimp only

theorem execLbc_later {a s t : State} {e : Enc} (h : Later a s) (e1 : execLbc e s = .next t) :
    Later a t := by
  unfold execLbc at e1
  refine issued_later _ _ _ h (fun i => ?_) e1
  try dsimp only
  repeat' first
    | with_reducible assumption
    | with_reducible apply toAll_later
    | split
    | dsimp only

theorem execWrdx_later {a s t : State} {e : Enc} (h : Later a s) (e1 : execWrdx e s = .next t) :
    Later a t := by
  unfold execWrdx at e1
  refine issued_later _ _ _ h (fun i => ?_) e1
  try dsimp only
  repeat' first
    | with_reducible assumption
    | with_reducible apply toAll_later
    | split
    | dsimp only

theorem execWscan_later {a s t : State} {e : Enc} (h : Later a s) (e1 : execWscan e s = .next t) :
    Later a t := by
  unfold execWscan at e1
  refine issued_later _ _ _ h (fun i => ?_) e1
  try dsimp only
  repeat' first
    | with_reducible assumption
    | with_reducible apply give_later
    | with_reducible refine Later.fold _ ?_ (fun _ _ _ => ?_)
    | split
    | dsimp only

end Sys2Proof.Machine
end

