-- ==== Sys2Proof/Laws/Levels.lean ====
section
/-! SUPPORT. What the shared operations of `Memory` do to the levels of memory. -/

namespace Sys2Proof.Machine

set_option Elab.async false

/-! ### Recalls -/

/-- Without a write-back of a line in flight, none is merged. -/
theorem State.mergeWb_none {s : State} (h : s.mm.wbs = []) (line : Nat) : s.mergeWb line = s := by
  unfold State.mergeWb
  rw [h]
  simp only [List.filter_nil, List.foldl_nil]
  rw [← h]

/-- With no line held exclusively by another L1, only write-backs of the line arrive. -/
theorem State.Quiet.recall {s : State} {core : Nat} (h : s.Quiet core) (line : Nat) : s.recall (some core) line = s.mergeWb line := by
  have hf : s.mm.l1.filter (fun (e : Nat × L1) => e.2.excl.contains line && some e.1 != some core) = [] := by
    rw [List.filter_eq_nil_iff]
    intro e he
    by_cases hc : e.1 = core
    · simp [hc]
    · simp [h.2.1 e.1 e.2 he hc]
  rw [State.recall, hf]
  rfl

/-- With no line held exclusively and no write-back in flight, nothing is recalled. -/
theorem State.recall_none {s : State} (h2 : s.mm.wbs = []) (h3 : ∀ c l, (c, l) ∈ s.mm.l1 → l.excl = []) (keep : Option Nat) (line : Nat) :
    s.recall keep line = s := by
  have hf : s.mm.l1.filter (fun (e : Nat × L1) => e.2.excl.contains line && some e.1 != keep) = [] := by
    rw [List.filter_eq_nil_iff]
    intro e he
    simp [h3 e.1 e.2 he]
  rw [State.recall, hf, State.mergeWb_none h2]
  rfl

/-! ### Writes that reach the home slice -/

theorem State.landWrite_byte (s : State) (chunk : Nat) (w : Write) (h : s.pkg.backed (8 * chunk) = true) (x : Nat) :
    (s.landWrite chunk w).mm.byte x =
      if 8 * chunk + w.off ≤ x ∧ x < 8 * chunk + w.off + w.bytes.length then w.bytes.getD (x - (8 * chunk + w.off)) 0 else s.mm.byte x := by
  unfold State.landWrite
  dsimp only
  rw [if_pos h]
  exact s.mm.byte_setBytes (8 * chunk + w.off) w.bytes x

/-- A write that reaches its home slice changes bytes, the record of the chunk's writes and near copies, and nothing else. -/
theorem State.landWrite_rest (s : State) (chunk : Nat) (w : Write) :
    s.landWrite chunk w = { s with mm := { s.mm with
      cells := (s.landWrite chunk w).mm.cells, hist := (s.landWrite chunk w).mm.hist, nextW := (s.landWrite chunk w).mm.nextW
      near := (s.landWrite chunk w).mm.near } } := by
  unfold State.landWrite
  dsimp only
  split <;> rfl

@[simp] theorem State.landWrite_pkg (s : State) (chunk : Nat) (w : Write) : (s.landWrite chunk w).pkg = s.pkg := by
  rw [State.landWrite_rest]

/-- Bytes that reach a live home, chunk by chunk. -/
theorem State.writePhys_byte (s : State) (w : Write) (pa : Nat) (bs : List Byte)
    (h : ∀ c, pa / 8 ≤ c → 8 * c < pa + bs.length → s.pkg.backed (8 * c) = true) (x : Nat) :
    (s.writePhys w pa bs).mm.byte x = if pa ≤ x ∧ x < pa + bs.length then bs.getD (x - pa) 0 else s.mm.byte x := by
  let f (s : State) (p : Nat × Nat × List Byte) : State := s.landWrite p.1 { w with n := s.mm.nextW, off := p.2.1, bytes := p.2.2 }
  let piece (k : Nat) : Nat × Nat × List Byte :=
    (pa / 8 + k, max pa (8 * (pa / 8 + k)) - 8 * (pa / 8 + k),
      (bs.drop (max pa (8 * (pa / 8 + k)) - pa)).take (8 * (pa / 8 + k) + 8 - max pa (8 * (pa / 8 + k))))
  have key : ∀ m, m ≤ (pa % 8 + bs.length + 7) / 8 →
      (((List.range m).map piece).foldl f s).pkg = s.pkg ∧
      (((List.range m).map piece).foldl f s).mm.byte x =
        if pa ≤ x ∧ x < pa + bs.length ∧ x < 8 * (pa / 8 + m) then bs.getD (x - pa) 0 else s.mm.byte x := by
    intro m
    induction m with
    | zero =>
      intro _
      refine ⟨rfl, ?_⟩
      rw [if_neg (by omega)]
      rfl
    | succ m ih =>
      intro hm
      obtain ⟨hp, hb⟩ := ih (by omega)
      rw [List.range_succ, List.map_append, List.foldl_append]
      simp only [List.map_cons, List.map_nil, List.foldl_cons, List.foldl_nil]
      generalize hu : ((List.range m).map piece).foldl f s = u at hp hb ⊢
      refine ⟨by simp only [f, State.landWrite_pkg]; exact hp, ?_⟩
      have hbk : u.pkg.backed (8 * (pa / 8 + m)) = true := by rw [hp]; exact h _ (by omega) (by omega)
      have hl := State.landWrite_byte u (pa / 8 + m) { w with n := u.mm.nextW, off := (piece m).2.1, bytes := (piece m).2.2 } hbk x
      simp only [f]
      rw [show (piece m).1 = pa / 8 + m from rfl, hl, hb]
      simp only [piece, List.length_take, List.length_drop]
      have e1 : 8 * (pa / 8 + m) + (max pa (8 * (pa / 8 + m)) - 8 * (pa / 8 + m)) = max pa (8 * (pa / 8 + m)) := by omega
      rw [e1]
      by_cases hx : max pa (8 * (pa / 8 + m)) ≤ x ∧ x < 8 * (pa / 8 + m) + 8 ∧ x < pa + bs.length
      · rw [if_pos (by omega), if_pos (by omega)]
        simp only [List.getD_eq_getElem?_getD, List.getElem?_take, List.getElem?_drop]
        rw [if_pos (by omega)]
        congr 2
        omega
      · rw [if_neg (by omega)]
        by_cases hy : pa ≤ x ∧ x < pa + bs.length ∧ x < 8 * (pa / 8 + m)
        · rw [if_pos hy, if_pos (by omega)]
        · rw [if_neg hy, if_neg (by omega)]
  have hk := key _ (Nat.le_refl _)
  have he : (s.writePhys w pa bs).mm.byte x = (((List.range ((pa % 8 + bs.length + 7) / 8)).map piece).foldl f s).mm.byte x := by
    unfold State.writePhys
    dsimp only
    split <;> rfl
  rw [he, hk.2]
  by_cases hx : pa ≤ x ∧ x < pa + bs.length
  · rw [if_pos (by omega), if_pos hx]
  · rw [if_neg (by omega), if_neg hx]

/-! ### Tables of an L1 -/

theorem Table.sorted_put {α : Type} (t : Table α) (k : Nat) (v : α) (h : Table.sorted t = true) : Table.sorted (Table.put t k v) = true :=
  Table.above_put none t k v h (by simp)

theorem Table.sorted_filter {α : Type} (t : Table α) (p : Nat × α → Bool) (h : Table.sorted t = true) : Table.sorted (t.filter p) = true := by
  suffices H : ∀ o, Table.above o t = true → Table.above o (t.filter p) = true from H none h
  clear h
  induction t with
  | nil => intro o _; rfl
  | cons e t ih =>
    intro o h
    obtain ⟨j, w⟩ := e
    have ht : Table.above (some j) t = true := by cases o <;> simp_all [Table.above]
    rw [List.filter_cons]
    split
    · have := ih (some j) ht
      cases o <;> simp_all [Table.above]
    · cases o with
      | none => exact Table.above_none _ _ (ih (some j) ht)
      | some lo =>
        simp only [Table.above, Bool.and_eq_true, decide_eq_true_eq] at h
        exact Table.above_mono _ _ _ (ih (some j) ht) (by omega)

/-- An entry of a sorted table is the one that is found. -/
theorem Table.look_mem {α : Type} (t : Table α) (k : Nat) (v : α) (h : Table.look t k = some v) : (k, v) ∈ t := by
  induction t with
  | nil => exact absurd h (by simp [Table.look])
  | cons e t ih =>
    obtain ⟨j, w⟩ := e
    rw [Table.look] at h
    split at h
    · rename_i hj
      injection h with h
      rw [h, hj]
      exact List.mem_cons_self
    · exact List.mem_cons_of_mem _ (ih h)

theorem Table.mem_look {α : Type} (t : Table α) (hs : Table.sorted t = true) (k : Nat) (v : α) (h : (k, v) ∈ t) : Table.look t k = some v := by
  induction t with
  | nil => exact absurd h (by simp)
  | cons e t ih =>
    obtain ⟨j, w⟩ := e
    have ht : Table.above (some j) t = true := hs
    rw [Table.look]
    rcases List.mem_cons.1 h with h | h
    · injection h with h1 h2
      rw [if_pos h1.symm, h2]
    · have := ih (Table.above_none t j ht) h
      split
      · rename_i hj
        rw [Table.look_above t j k ht (by omega)] at this
        exact absurd this (by simp)
      · exact this

theorem Table.look_filter {α : Type} (t : Table α) (hs : Table.sorted t = true) (p : Nat × α → Bool) (k : Nat) :
    Table.look (t.filter p) k = (Table.look t k).filter (fun v => p (k, v)) := by
  cases h : Table.look t k with
  | none =>
    cases h' : Table.look (t.filter p) k with
    | none => rfl
    | some v =>
      have := List.mem_filter.1 (Table.look_mem _ _ _ h')
      rw [Table.mem_look t hs k v this.1] at h
      exact absurd h (by simp)
  | some v =>
    have hm := Table.look_mem _ _ _ h
    cases hp : p (k, v) with
    | true => rw [Table.mem_look _ (Table.sorted_filter t p hs) k v (List.mem_filter.2 ⟨hm, hp⟩), Option.filter_some, if_pos hp]
    | false =>
      rw [Option.filter_some, if_neg (by simp [hp])]
      cases h' : Table.look (t.filter p) k with
      | none => rfl
      | some u =>
        obtain ⟨h1, h2⟩ := List.mem_filter.1 (Table.look_mem _ _ _ h')
        have := Table.mem_look t hs k u h1
        rw [h] at this
        injection this with this
        rw [← this, hp] at h2
        exact absurd h2 (by simp)

/-- Bytes dropped from an L1: a filter by address needs no order. -/
theorem Table.look_filter_key {α : Type} (t : Table α) (p : Nat → Bool) (k : Nat) :
    Table.look (t.filter (fun e => p e.1)) k = if p k then Table.look t k else none := by
  induction t with
  | nil => simp [Table.look]
  | cons e t ih =>
    obtain ⟨j, w⟩ := e
    rw [List.filter_cons]
    dsimp only
    by_cases hj : j = k
    · subst hj
      cases hp : p j
      · rw [hp] at ih; simpa using ih
      · simp [Table.look]
    · cases hp : p j
      · rw [if_neg (by simp), ih, Table.look, if_neg hj]
      · rw [if_pos rfl, Table.look, if_neg hj, ih, Table.look, if_neg hj]

/-- The L1 of a core after it has been set. -/
theorem State.l1_setL1 (s : State) (c d : Nat) (l : L1) : (s.setL1 c l).l1 d = if d = c then l else s.l1 d := by
  simp only [State.l1, State.setL1, Table.read_put]

end Sys2Proof.Machine
end

