-- ==== Sys2Proof/Laws/Numbers.lean ====
section
/-! SUPPORT. Numbers and bit patterns: reading, wrapping and narrowing, and how wide an operand is. -/

namespace Sys2Proof.Machine

set_option Elab.async false

theorem wrapInt_eq (w : Nat) (v : Int) : wrapInt w v = (BitVec.ofInt w v).toNat := by simp [wrapInt]

theorem wrapInt_lt (w : Nat) (v : Int) : wrapInt w v < 2 ^ w := by rw [wrapInt_eq]; exact (BitVec.ofInt w v).isLt

theorem toSigned_eq (w x : Nat) : toSigned w x = (BitVec.ofNat w x).toInt := by
  unfold toSigned lowBits
  rw [BitVec.toInt_eq_toNat_cond, BitVec.toNat_ofNat]
  dsimp only
  split <;> split <;> first | rfl | omega

theorem pow_cast (w : Nat) : ((2 ^ w : Nat) : Int) = (2 : Int) ^ w := by simp

theorem toSigned_range (w x : Nat) : -(2 ^ (w - 1) : Int) ≤ toSigned w x ∧ toSigned w x < (2 ^ (w - 1) : Int) := by
  rw [toSigned_eq]
  have h1 := BitVec.le_toInt (BitVec.ofNat w x)
  have h2 := @BitVec.toInt_lt w (BitVec.ofNat w x)
  exact ⟨h1, h2⟩

/-- Reading a pattern gives a value of the type's range that is congruent to the pattern. -/
theorem readInt_range (sg : Bool) (w x : Nat) : intMin sg w ≤ readInt sg w x ∧ readInt sg w x ≤ intMax sg w := by
  unfold intMin intMax readInt
  cases sg
  · have := Nat.mod_lt x (show 0 < 2 ^ w from Nat.two_pow_pos w)
    have h2 := pow_cast w
    simp only [lowBits, Bool.false_eq_true, if_false]
    omega
  · have := toSigned_range w x
    simp only [if_true]
    omega

theorem readInt_congr (sg : Bool) (w x : Nat) : (2 ^ w : Int) ∣ (x : Int) - readInt sg w x := by
  have h : (2 ^ w : Int) ∣ (x : Int) - (lowBits w x : Nat) := by
    rw [← pow_cast, lowBits, Int.natCast_emod]
    exact Int.dvd_self_sub_emod
  unfold readInt
  cases sg
  · exact h
  · simp only [if_true, toSigned]
    split
    · rw [show (x : Int) - ((lowBits w x : Nat) - 2 ^ w) = ((x : Int) - (lowBits w x : Nat)) + 2 ^ w by omega]
      exact Int.dvd_add h (Int.dvd_refl _)
    · exact h

theorem wrapInt_congr (w : Nat) (v : Int) : (2 ^ w : Int) ∣ v - (wrapInt w v : Nat) := by
  have hp : (0 : Int) < 2 ^ w := by have := Nat.two_pow_pos w; rw [← pow_cast]; omega
  rw [wrapInt, Int.toNat_of_nonneg (Int.emod_nonneg v (by omega))]
  exact Int.dvd_self_sub_emod

/-- A value of the range is what reading its wrapped pattern gives back. -/
theorem readInt_wrap (sg : Bool) (w : Nat) (v : Int) (hw : 0 < w) (h1 : intMin sg w ≤ v) (h2 : v ≤ intMax sg w) :
    readInt sg w (wrapInt w v) = v := by
  have h3 := readInt_congr sg w (wrapInt w v)
  have h4 := readInt_range sg w (wrapInt w v)
  have h5 : (2 ^ w : Int) ∣ v - readInt sg w (wrapInt w v) := by
    have := Int.dvd_add (wrapInt_congr w v) h3
    rwa [show v - (wrapInt w v : Nat) + ((wrapInt w v : Nat) - readInt sg w (wrapInt w v)) = v - readInt sg w (wrapInt w v) by omega] at this
  have h6 : intMax sg w - intMin sg w < (2 : Int) ^ w := by
    unfold intMin intMax
    cases sg
    · simp only [Bool.false_eq_true, if_false]
      omega
    · have : (2 : Int) ^ w = 2 * 2 ^ (w - 1) := by
        rw [← Int.pow_succ', Nat.sub_add_cancel hw]
      simp only [if_true]
      omega
  obtain ⟨k, hk⟩ := h5
  generalize (2 : Int) ^ w = p at *
  generalize readInt sg w (wrapInt w v) = r at *
  have hk0 : k = 0 := by
    rcases Int.lt_trichotomy k 0 with h | h | h
    · have : p * k ≤ p * (-1) := Int.mul_le_mul_of_nonneg_left (by omega) (by omega)
      omega
    · exact h
    · have : p * 1 ≤ p * k := Int.mul_le_mul_of_nonneg_left (by omega) (by omega)
      omega
  subst hk0
  omega

/-! ### Narrowing -/

theorem typeWidth_pos (ty : Nat) : 0 < typeWidth ty := by unfold typeWidth; grind

theorem extend32_lt (sg : Bool) (w x : Nat) : extend32 sg w x < 2 ^ max 32 w := by
  unfold extend32
  split
  · rename_i h
    rw [show max 32 w = 32 by omega]
    exact wrapInt_lt 32 _
  · exact Nat.lt_of_lt_of_le (Nat.mod_lt _ (Nat.two_pow_pos w)) (Nat.pow_le_pow_right (by omega) (by omega))

/-- A narrow result read back from its register is the value that its own pattern gives. -/
theorem readInt_extend32 (sg : Bool) (w x : Nat) (hw : 0 < w) :
    readInt sg (max 32 w) (extend32 sg w x) = readInt sg w x := by
  unfold extend32
  cases sg
  · simp only [Bool.false_eq_true, false_and, if_false, readInt]
    congr 1
    exact Nat.mod_eq_of_lt (Nat.lt_of_lt_of_le (Nat.mod_lt _ (Nat.two_pow_pos w)) (Nat.pow_le_pow_right (by omega) (by omega)))
  · by_cases h : w < 32
    · simp only [h, and_self, if_true]
      rw [show max 32 w = 32 by omega]
      have h2 := toSigned_range w x
      have h3 : (2 : Int) ^ (w - 1) ≤ 2 ^ 31 := by
        rw [← pow_cast, ← pow_cast]
        exact Int.ofNat_le.mpr (Nat.pow_le_pow_right (by omega) (by omega))
      refine readInt_wrap true 32 _ (by omega) ?_ ?_ <;> simp only [intMin, intMax, if_true] <;> omega
    · simp only [h, and_false, if_false]
      rw [show max 32 w = w by omega]
      simp only [readInt, if_true, toSigned_eq]
      congr 1
      apply BitVec.eq_of_toNat_eq
      simp [lowBits]

theorem intMin_le_intMax (sg : Bool) (w : Nat) : intMin sg w ≤ intMax sg w := by
  have h1 : (1 : Int) ≤ 2 ^ (w - 1) := by rw [← pow_cast]; have := Nat.two_pow_pos (w - 1); omega
  have h2 : (1 : Int) ≤ 2 ^ w := by rw [← pow_cast]; have := Nat.two_pow_pos w; omega
  unfold intMin intMax
  cases sg <;> simp only [Bool.false_eq_true, if_false, if_true] <;> omega

/-- What an exact integer result becomes at a type. -/
theorem narrow_narrowed (ty : Nat) (sat : Bool) (v : Int) : Narrowed ty sat v (narrow ty sat v) := by
  have hw := typeWidth_pos ty
  have hr := intMin_le_intMax (isSigned ty) (typeWidth ty)
  unfold narrow
  cases sat
  · simp only [Bool.false_eq_true, if_false]
    refine ⟨extend32_lt _ _ _, ?_, ?_, fun _ => ⟨?_, rfl⟩, by simp⟩ <;> simp only [readInt_extend32 _ _ _ hw]
    · exact (readInt_range _ _ _).1
    · exact (readInt_range _ _ _).2
    · have h1 := wrapInt_congr (typeWidth ty) v
      have h2 := readInt_congr (isSigned ty) (typeWidth ty) (wrapInt (typeWidth ty) v)
      have := Int.dvd_add h1 h2
      generalize readInt _ _ _ = r at *
      rwa [show v - (wrapInt (typeWidth ty) v : Nat) + ((wrapInt (typeWidth ty) v : Nat) - r) = v - r by omega] at this
  · simp only [if_true]
    have hc : intMin (isSigned ty) (typeWidth ty) ≤ clampInt (isSigned ty) (typeWidth ty) v
        ∧ clampInt (isSigned ty) (typeWidth ty) v ≤ intMax (isSigned ty) (typeWidth ty) := by unfold clampInt; omega
    have hx := readInt_wrap _ _ _ hw hc.1 hc.2
    refine ⟨extend32_lt _ _ _, ?_, ?_, by simp, fun _ => ⟨?_, ?_⟩⟩ <;> simp only [readInt_extend32 _ _ _ hw, hx]
    · exact hc.1
    · exact hc.2
    · unfold clampInt; omega
    · unfold satFlag
      by_cases h : v = clampInt (isSigned ty) (typeWidth ty) v
      · simp [← h]
      · have h' : ¬ clampInt (isSigned ty) (typeWidth ty) v = v := fun e => h e.symm
        simp [h, h']

/-! ### Operands -/

theorem ofWords_lt (ws : List Word) : ofWords ws < 2 ^ (32 * ws.length) := by
  induction ws with
  | nil => simp [ofWords]
  | cons w ws ih =>
    have hw := w.isLt
    simp only [ofWords, List.foldr_cons] at ih ⊢
    rw [List.length_cons, show 32 * (ws.length + 1) = 32 + 32 * ws.length by omega, Nat.pow_add]
    generalize List.foldr _ 0 ws = n at *
    have : 2 ^ 32 * (n + 1) ≤ 2 ^ 32 * 2 ^ (32 * ws.length) := Nat.mul_le_mul_left _ ih
    omega

/-- A source of `n` registers is a number of `32 * n` bits. -/
theorem Lane.src_lt (l : Lane) (n code : Nat) (hn : 0 < n) : l.src n code < 2 ^ (32 * n) := by
  unfold Lane.src
  split
  · have := ofWords_lt ((List.range n).map (fun k => l.th.reg (code + k)))
    simpa using this
  · exact Nat.lt_of_lt_of_le (l.word code).isLt (Nat.pow_le_pow_right (by omega) (by omega))

theorem typeRegs_pos (ty : Nat) : 0 < typeRegs ty := by unfold typeRegs; grind

/-- A predicate operand: the predicate of bits [2:0], negated by bit 3. -/
theorem Lane.psrc_eq (l : Lane) (c : BitVec 8) : l.psrc c.toNat = (l.th.pred (c.toNat % 8) ^^ Nat.testBit c.toNat 3) := by
  unfold Lane.psrc
  have : Nat.testBit c.toNat 3 = decide (8 ≤ c.toNat % 16) := by
    have := c.isLt
    rw [Nat.testBit_eq_decide_div_mod_eq]
    congr 1
    simp only [eq_iff_iff]
    omega
  rw [this]

/-! ### Packed elements -/

/-- The elements of a packed pattern, one by one. -/
def packed (w : Nat) : List Nat → Nat
  | [] => 0
  | x :: xs => x % 2 ^ w + 2 ^ w * packed w xs

theorem packElems_eq (w : Nat) (xs : List Nat) : packElems w xs = packed w xs := by
  suffices H : ∀ k m, (xs.zipIdx k).foldl (fun n p => n + lowBits w p.1 * 2 ^ (w * p.2)) m = m + 2 ^ (w * k) * packed w xs by
    have := H 0 0
    simpa [packElems] using this
  induction xs with
  | nil => simp [packed]
  | cons x xs ih =>
    intro k m
    rw [List.zipIdx_cons, List.foldl_cons, ih, packed, Nat.mul_add w, Nat.pow_add, Nat.mul_one, lowBits]
    rw [Nat.mul_add, Nat.mul_comm (x % 2 ^ w), Nat.mul_assoc, Nat.add_assoc]

theorem packed_elem (w : Nat) (xs : List Nat) (i : Nat) (h : i < xs.length) :
    packed w xs / 2 ^ (w * i) % 2 ^ w = xs[i] % 2 ^ w := by
  induction xs generalizing i with
  | nil => simp at h
  | cons x xs ih =>
    have hx := Nat.mod_lt x (Nat.two_pow_pos w)
    have hp := Nat.two_pow_pos w
    cases i with
    | zero =>
      rw [packed, Nat.mul_zero, Nat.pow_zero, Nat.div_one, Nat.add_mul_mod_self_left, Nat.mod_mod]
      rfl
    | succ i =>
      rw [packed, Nat.mul_add, Nat.mul_one, Nat.add_comm (w * i) w, Nat.pow_add, ← Nat.div_div_eq_div_mul,
        Nat.add_mul_div_left _ _ hp, Nat.div_eq_of_lt hx, Nat.zero_add]
      exact ih i (by simpa using h)

theorem packed_lt (w : Nat) (xs : List Nat) : packed w xs < 2 ^ (w * xs.length) := by
  induction xs with
  | nil => simp [packed]
  | cons x xs ih =>
    have hx := Nat.mod_lt x (Nat.two_pow_pos w)
    rw [packed, List.length_cons, Nat.mul_add, Nat.mul_one, Nat.add_comm (w * _), Nat.pow_add]
    have : 2 ^ w * (packed w xs + 1) ≤ 2 ^ w * 2 ^ (w * xs.length) := Nat.mul_le_mul_left _ ih
    rw [Nat.mul_add, Nat.mul_one] at this
    omega

theorem gather_elem (w : Nat) (rs : List FRes) (i : Nat) (h : i < rs.length) :
    (gather w rs).1 / 2 ^ (w * i) % 2 ^ w = rs[i].1 % 2 ^ w := by
  rw [gather, packElems_eq, packed_elem w _ i (by simpa using h)]
  simp

theorem gather_flag (w : Nat) (rs : List FRes) (j : Nat) : (gather w rs).2.getLsbD j = rs.any (fun r => r.2.getLsbD j) := by
  suffices H : ∀ m : BitVec 6, ((rs.map Prod.snd).foldl (· ||| ·) m).getLsbD j = (m.getLsbD j || rs.any (fun r => r.2.getLsbD j)) by
    simpa [gather] using H 0
  induction rs with
  | nil => simp
  | cons r rs ih => intro m; simp only [List.map_cons, List.foldl_cons, ih, BitVec.getLsbD_or, List.any_cons, Bool.or_assoc]

theorem elemOf_eq (w x i : Nat) (hw : 0 < w) : elemOf w x i = x / 2 ^ (w * i) % 2 ^ w := by
  unfold elemOf bitsAt
  rw [Nat.shiftRight_eq_div_pow, show w * i + w - 1 + 1 - w * i = w by omega]

end Sys2Proof.Machine
end

