-- ==== Sys2Proof/Laws/PerInstr.lean ====
section
/-! SUPPORT. For every constructor of Instr: an encoded instruction is the one that its form and its fields name, and a row without an
encoding has none. -/

namespace Sys2Proof.Laws.Encoding

set_option Elab.async false

/-- The form and the fields of an encoded instruction give it back; a row without an encoding has no packet. -/
def Statement (i : Instr) : Prop :=
  match i.op? with
  | some (op, e) => op.instr e = i
  | none => encode i = none

theorem nop (e : Enc) : Statement (.nop e) := rfl
theorem mov (e : Enc) : Statement (.mov e) := rfl
theorem movi (e : Enc) : Statement (.movi e) := rfl
theorem movh (e : Enc) : Statement (.movh e) := rfl
theorem movs (e : Enc) : Statement (.movs e) := rfl
theorem sel (e : Enc) : Statement (.sel e) := rfl
theorem cmp (e : Enc) : Statement (.cmp e) := rfl
theorem pops (e : Enc) : Statement (.pops e) := rfl
theorem add (e : Enc) : Statement (.add e) := rfl
theorem sub (e : Enc) : Statement (.sub e) := rfl
theorem addc (e : Enc) : Statement (.addc e) := rfl
theorem subc (e : Enc) : Statement (.subc e) := rfl
theorem mul (e : Enc) : Statement (.mul e) := rfl
theorem mulh (e : Enc) : Statement (.mulh e) := rfl
theorem mad (e : Enc) : Statement (.mad e) := rfl
theorem madw (e : Enc) : Statement (.madw e) := rfl
theorem min (e : Enc) : Statement (.min e) := rfl
theorem max (e : Enc) : Statement (.max e) := rfl
theorem abs (e : Enc) : Statement (.abs e) := rfl
theorem neg (e : Enc) : Statement (.neg e) := rfl
theorem lea (e : Enc) : Statement (.lea e) := rfl
theorem and (e : Enc) : Statement (.and e) := rfl
theorem or (e : Enc) : Statement (.or e) := rfl
theorem xor (e : Enc) : Statement (.xor e) := rfl
theorem andn (e : Enc) : Statement (.andn e) := rfl
theorem not (e : Enc) : Statement (.not e) := rfl
theorem shl (e : Enc) : Statement (.shl e) := rfl
theorem shr (e : Enc) : Statement (.shr e) := rfl
theorem sra (e : Enc) : Statement (.sra e) := rfl
theorem rotl (e : Enc) : Statement (.rotl e) := rfl
theorem bfx (e : Enc) : Statement (.bfx e) := rfl
theorem bfi (e : Enc) : Statement (.bfi e) := rfl
theorem clz (e : Enc) : Statement (.clz e) := rfl
theorem popc (e : Enc) : Statement (.popc e) := rfl
theorem brev (e : Enc) : Statement (.brev e) := rfl
theorem add2 (e : Enc) : Statement (.add2 e) := rfl
theorem sub2 (e : Enc) : Statement (.sub2 e) := rfl
theorem mul2 (e : Enc) : Statement (.mul2 e) := rfl
theorem mac2 (e : Enc) : Statement (.mac2 e) := rfl
theorem shrn (e : Enc) : Statement (.shrn e) := rfl
theorem pk2 (e : Enc) : Statement (.pk2 e) := rfl
theorem unpk (e : Enc) : Statement (.unpk e) := rfl
theorem sflg (e : Enc) : Statement (.sflg e) := rfl
theorem fadd (e : Enc) : Statement (.fadd e) := rfl
theorem fsub (e : Enc) : Statement (.fsub e) := rfl
theorem fmul (e : Enc) : Statement (.fmul e) := rfl
theorem ffma (e : Enc) : Statement (.ffma e) := rfl
theorem fmin (e : Enc) : Statement (.fmin e) := rfl
theorem fmax (e : Enc) : Statement (.fmax e) := rfl
theorem fneg (e : Enc) : Statement (.fneg e) := rfl
theorem fabs (e : Enc) : Statement (.fabs e) := rfl
theorem fcmp (e : Enc) : Statement (.fcmp e) := rfl
theorem fcls (e : Enc) : Statement (.fcls e) := rfl
theorem frnd (e : Enc) : Statement (.frnd e) := rfl
theorem frcp (e : Enc) : Statement (.frcp e) := rfl
theorem frsq (e : Enc) : Statement (.frsq e) := rfl
theorem fsqrt (e : Enc) : Statement (.fsqrt e) := rfl
theorem fdiv (e : Enc) : Statement (.fdiv e) := rfl
theorem fex2 (e : Enc) : Statement (.fex2 e) := rfl
theorem flg2 (e : Enc) : Statement (.flg2 e) := rfl
theorem fsin (e : Enc) : Statement (.fsin e) := rfl
theorem fcos (e : Enc) : Statement (.fcos e) := rfl
theorem hadd2 (e : Enc) : Statement (.hadd2 e) := rfl
theorem hmul2 (e : Enc) : Statement (.hmul2 e) := rfl
theorem hfma2 (e : Enc) : Statement (.hfma2 e) := rfl
theorem cvt (e : Enc) : Statement (.cvt e) := rfl
theorem cvpk (e : Enc) : Statement (.cvpk e) := rfl
theorem cvup (e : Enc) : Statement (.cvup e) := rfl
theorem bra (e : Enc) : Statement (.bra e) := rfl
theorem brx (e : Enc) : Statement (.brx e) := rfl
theorem brxRel (e : Enc) : Statement (.brxRel e) := rfl
theorem call (e : Enc) : Statement (.call e) := rfl
theorem callX (e : Enc) : Statement (.callX e) := rfl
theorem ret (e : Enc) : Statement (.ret e) := rfl
theorem exit (e : Enc) : Statement (.exit e) := rfl
theorem vote (e : Enc) : Statement (.vote e) := rfl
theorem matchOp (e : Enc) : Statement (.matchOp e) := rfl
theorem elect (e : Enc) : Statement (.elect e) := rfl
theorem sld (e : Enc) : Statement (.sld e) := rfl
theorem shfl (e : Enc) : Statement (.shfl e) := rfl
theorem lbc (e : Enc) : Statement (.lbc e) := rfl
theorem wrdx (e : Enc) : Statement (.wrdx e) := rfl
theorem wscan (e : Enc) : Statement (.wscan e) := rfl
theorem rgn (e : Enc) : Statement (.rgn e) := rfl
theorem join (e : Enc) : Statement (.join e) := rfl
theorem rgp (e : Enc) : Statement (.rgp e) := rfl
theorem spawn (e : Enc) : Statement (.spawn e) := rfl
theorem ld (e : Enc) : Statement (.ld e) := rfl
theorem st (e : Enc) : Statement (.st e) := rfl
theorem ldc (e : Enc) : Statement (.ldc e) := rfl
theorem ldcinv (e : Enc) : Statement (.ldcinv e) := rfl
theorem prf (e : Enc) : Statement (.prf e) := rfl
theorem fence (e : Enc) : Statement (.fence e) := rfl
theorem atom (e : Enc) : Statement (.atom e) := rfl
theorem cas (e : Enc) : Statement (.cas e) := rfl
theorem red (e : Enc) : Statement (.red e) := rfl
theorem redDet (e : Enc) : Statement (.redDet e) := rfl
theorem binit (e : Enc) : Statement (.binit e) := rfl
theorem barr (e : Enc) : Statement (.barr e) := rfl
theorem bexp (e : Enc) : Statement (.bexp e) := rfl
theorem bwait (e : Enc) : Statement (.bwait e) := rfl
theorem btry (e : Enc) : Statement (.btry e) := rfl
theorem binv (e : Enc) : Statement (.binv e) := rfl
theorem cpy (e : Enc) : Statement (.cpy e) := rfl
theorem cpys (e : Enc) : Statement (.cpys e) := rfl
theorem cpyw (e : Enc) : Statement (.cpyw e) := rfl
theorem lrinv (e : Enc) : Statement (.lrinv e) := rfl
theorem qfence (e : Enc) : Statement (.qfence e) := rfl
theorem put (e : Enc) : Statement (.put e) := rfl
theorem hbld (e : Enc) : Statement (.hbld e) := rfl
theorem hprb (e : Enc) : Statement (.hprb e) := rfl
theorem hlk (e : Enc) : Statement (.hlk e) := rfl
theorem mrg (e : Enc) : Statement (.mrg e) := rfl
theorem scn (e : Enc) : Statement (.scn e) := rfl
theorem hfree (e : Enc) : Statement (.hfree e) := rfl
theorem xenq (e : Enc) : Statement (.xenq e) := rfl
theorem xtake (e : Enc) : Statement (.xtake e) := rfl
theorem tmm (e : Enc) : Statement (.tmm e) := rfl
theorem tmmsp (e : Enc) : Statement (.tmmsp e) := rfl
theorem tgms (e : Enc) : Statement (.tgms e) := rfl
theorem tsacc (e : Enc) : Statement (.tsacc e) := rfl
theorem tzero (e : Enc) : Statement (.tzero e) := rfl
theorem tst (e : Enc) : Statement (.tst e) := rfl
theorem tldac (e : Enc) : Statement (.tldac e) := rfl
theorem ttr (e : Enc) : Statement (.ttr e) := rfl
theorem tscl (e : Enc) : Statement (.tscl e) := rfl
theorem tflush (e : Enc) : Statement (.tflush e) := rfl
theorem trap (e : Enc) : Statement (.trap e) := rfl
theorem tret (e : Enc) : Statement (.tret e) := rfl
theorem brkpt (e : Enc) : Statement (.brkpt e) := rfl
theorem sysr (e : Enc) : Statement (.sysr e) := rfl
theorem sysw (e : Enc) : Statement (.sysw e) := rfl
theorem tmark (e : Enc) : Statement (.tmark e) := rfl
theorem packetFetch (team warp : Nat) : Statement (.packetFetch team warp) := rfl
theorem memoryAccessReturn (team thread : Nat) : Statement (.memoryAccessReturn team thread) := rfl
theorem qWridxWrite (q : Nat) (v : BitVec 32) : Statement (.qWridxWrite q v) := rfl
theorem qEnable (q : Nat) (ctl : BitVec 32) : Statement (.qEnable q ctl) := rfl
theorem qResume (q : Nat) : Statement (.qResume q) := rfl
theorem packetAccept (q : Nat) : Statement (.packetAccept q) := rfl
theorem launch (q : Nat) : Statement (.launch q) := rfl
theorem bundle (q : Nat) : Statement (.bundle q) := rfl
theorem engine (q : Nat) : Statement (.engine q) := rfl
theorem wait (q : Nat) : Statement (.wait q) := rfl
theorem waitEvaluate (q : Nat) : Statement (.waitEvaluate q) := rfl
theorem waitTimeout (q : Nat) : Statement (.waitTimeout q) := rfl
theorem signal (q : Nat) : Statement (.signal q) := rfl
theorem wsload (q : Nat) : Statement (.wsload q) := rfl
theorem xqcfg (q : Nat) : Statement (.xqcfg q) := rfl
theorem invlog (q : Nat) : Statement (.invlog q) := rfl
theorem teamPlace (die grid : Nat) : Statement (.teamPlace die grid) := rfl
theorem crewPlace (die grid : Nat) : Statement (.crewPlace die grid) := rfl
theorem placementStarvation (die grid : Nat) : Statement (.placementStarvation die grid) := rfl
theorem teamFree (team : Nat) : Statement (.teamFree team) := rfl
theorem dieShareReport (die grid : Nat) : Statement (.dieShareReport die grid) := rfl
theorem gridComplete (grid : Nat) : Statement (.gridComplete grid) := rfl
theorem completionWrite (q : Nat) : Statement (.completionWrite q) := rfl
theorem copyPerform (cmd : Nat) : Statement (.copyPerform cmd) := rfl
theorem hbldPerform (cmd : Nat) : Statement (.hbldPerform cmd) := rfl
theorem hprbBuild (cmd : Nat) : Statement (.hprbBuild cmd) := rfl
theorem hlkPerform (cmd : Nat) : Statement (.hlkPerform cmd) := rfl
theorem mrgPerform (cmd : Nat) : Statement (.mrgPerform cmd) := rfl
theorem scnPerform (cmd : Nat) : Statement (.scnPerform cmd) := rfl
theorem hfreeEffect (cmd : Nat) : Statement (.hfreeEffect cmd) := rfl
theorem tileProduct (cmd : Nat) : Statement (.tileProduct cmd) := rfl
theorem tgmsBatch (cmd : Nat) : Statement (.tgmsBatch cmd) := rfl
theorem tsaccPerform (cmd : Nat) : Statement (.tsaccPerform cmd) := rfl
theorem tileMove (cmd : Nat) : Statement (.tileMove cmd) := rfl
theorem tileWholeOp (cmd : Nat) : Statement (.tileWholeOp cmd) := rfl
theorem commandComplete (cmd : Nat) : Statement (.commandComplete cmd) := rfl
theorem windowAgeExpiry (team : Nat) : Statement (.windowAgeExpiry team) := rfl
theorem rwTableWrite (ctx die : Nat) (v : BitVec 64) : Statement (.rwTableWrite ctx die v) := rfl
theorem tileProgWrite (team : Nat) (v : BitVec 64) : Statement (.tileProgWrite team v) := rfl
theorem redArrival (n : Nat) : Statement (.redArrival n) := rfl
theorem epochApply (grid epoch : Nat) : Statement (.epochApply grid epoch) := rfl
theorem trapEntry (team warp : Nat) : Statement (.trapEntry team warp) := rfl
theorem asyncTrapTake (team thread : Nat) : Statement (.asyncTrapTake team thread) := rfl
theorem faultResolve (ctx die : Nat) (rec : BitVec 32) : Statement (.faultResolve ctx die rec) := rfl
theorem faultDecline (ctx die : Nat) (rec : BitVec 32) : Statement (.faultDecline ctx die rec) := rfl
theorem switchReq (core : Nat) (v : BitVec 64) : Statement (.switchReq core v) := rfl
theorem timeSliceExpiry (core : Nat) : Statement (.timeSliceExpiry core) := rfl
theorem contextSwitch (core : Nat) : Statement (.contextSwitch core) := rfl
theorem contextEvict (core slot : Nat) : Statement (.contextEvict core slot) := rfl
theorem contextRestore (core ctx : Nat) : Statement (.contextRestore core ctx) := rfl
theorem tokenAccept (cmd : Nat) : Statement (.tokenAccept cmd) := rfl
theorem firingSlot (die : Nat) : Statement (.firingSlot die) := rfl
theorem batchComplete (xq : Nat) : Statement (.batchComplete xq) := rfl
theorem stop : Statement .stop := rfl
theorem resume : Statement .resume := rfl
theorem step : Statement .step := rfl
theorem setWatch : Statement .setWatch := rfl
theorem clrWatch : Statement .clrWatch := rfl
theorem brkEn : Statement .brkEn := rfl
theorem readReg : Statement .readReg := rfl
theorem readMem : Statement .readMem := rfl
theorem writeReg : Statement .writeReg := rfl
theorem traceCfg : Statement .traceCfg := rfl
theorem replay : Statement .replay := rfl
theorem sampleCfg : Statement .sampleCfg := rfl
theorem delegate : Statement .delegate := rfl
theorem revoke : Statement .revoke := rfl
theorem traceRecordWrite (ctx die : Nat) : Statement (.traceRecordWrite ctx die) := rfl
theorem stallSample (core ctx : Nat) : Statement (.stallSample core ctx) := rfl
theorem ptpSync (port : Nat) : Statement (.ptpSync port) := rfl
theorem ptpFollowUp (port : Nat) (t1 : BitVec 64) : Statement (.ptpFollowUp port t1) := rfl
theorem ptpDelayReq (port : Nat) : Statement (.ptpDelayReq port) := rfl
theorem ptpDelayResp (port : Nat) (t4 : BitVec 64) : Statement (.ptpDelayResp port t4) := rfl
theorem syncIntervalExpiry : Statement .syncIntervalExpiry := rfl
theorem linkIdleExpiry (link : Nat) : Statement (.linkIdleExpiry link) := rfl
theorem linkWake (link : Nat) : Statement (.linkWake link) := rfl
theorem wakeRetry (link : Nat) : Statement (.wakeRetry link) := rfl
theorem heartbeat (link : Nat) : Statement (.heartbeat link) := rfl
theorem heartbeatLost (link : Nat) : Statement (.heartbeatLost link) := rfl
theorem dieDeclaredDead (phys : Nat) : Statement (.dieDeclaredDead phys) := rfl
theorem snoop (die line : Nat) : Statement (.snoop die line) := rfl
theorem writeBackArrive (n : Nat) : Statement (.writeBackArrive n) := rfl
theorem putAck (port win : Nat) (code : BitVec 8) : Statement (.putAck port win code) := rfl
theorem peerPortDown (port : Nat) : Statement (.peerPortDown port) := rfl
theorem powerOnReset : Statement .powerOnReset := rfl
theorem porstN : Statement .porstN := rfl
theorem wrstN : Statement .wrstN := rfl
theorem perstN : Statement .perstN := rfl
theorem boot : Statement .boot := rfl
theorem bootRecordClear : Statement .bootRecordClear := rfl
theorem railFault (die : Nat) : Statement (.railFault die) := rfl
theorem temperatureAlarm (die : Nat) : Statement (.temperatureAlarm die) := rfl
theorem thermtrip (die : Nat) : Statement (.thermtrip die) := rfl
theorem tamperN : Statement .tamperN := rfl
theorem registerWrite (off : BitVec 32) (wide : Bool) (v : BitVec 64) : Statement (.registerWrite off wide v) := rfl
theorem tokenTransfer (cmd : Nat) : Statement (.tokenTransfer cmd) := rfl
theorem putReceive (port win : Nat) (off : BitVec 64) (data : List (BitVec 8)) :
    Statement (.putReceive port win off data) := rfl
theorem hostMemoryAccess (write : Bool) (addr : BitVec 64) (data : List (BitVec 8)) :
    Statement (.hostMemoryAccess write addr data) := rfl

end Sys2Proof.Laws.Encoding
end

