-- ==== Sys2Proof/Laws/Visible.lean ====
section
/-! SUPPORT. What becomes of pending results when a thread moves on: writing those that are visible changes nothing that a reader
sees, and nothing that the thread will hold once all are written. -/

namespace Sys2Proof.Machine

set_option Elab.async false

theorem bit_store (p : BitVec 7) (n k : Nat) (hk : k < 7) (v : Word) :
    Nat.testBit ((if v != 0 then p ||| BitVec.twoPow 7 n else p &&& ~~~(BitVec.twoPow 7 n)).toNat) k =
      if k = n then v != 0 else Nat.testBit p.toNat k := by
  rw [← BitVec.getLsbD, ← BitVec.getLsbD]
  by_cases hn : k = n
  · subst hn
    cases hv : v != 0 <;> simp [hk]
  · cases hv : v != 0 <;> simp [hk, hn]

/-- Storing one result. -/
theorem Thread.store_reg (t : Thread) (tgt : Target) (v : Word) (k : Nat) :
    (t.store tgt v).base (.reg k) = if tgt = .reg k then v else t.base (.reg k) := by
  cases tgt with
  | reg n =>
    simp only [Thread.store, Thread.base, Target.reg.injEq, Table.read_write]
    by_cases h : k = n
    · simp [h]
    · have : ¬ n = k := fun h' => h h'.symm
      simp [h, this]
  | pred n => simp [Thread.store, Thread.base]

theorem one_bne (b : Bool) : ((if b then (1 : Word) else 0) != 0) = b := by cases b <;> rfl

theorem Thread.store_pred (t : Thread) (tgt : Target) (v : Word) (k : Nat) (hk : k < 7) :
    ((t.store tgt v).base (.pred k) != 0) = if tgt = .pred k then v != 0 else t.base (.pred k) != 0 := by
  cases tgt with
  | reg n => rw [if_neg (by simp)]; rfl
  | pred n =>
    show ((if bitAt _ k then (1 : Word) else 0) != 0) = if _ then _ else ((if bitAt _ k then (1 : Word) else 0) != 0)
    rw [one_bne, one_bne, bitAt, bitAt]
    refine (bit_store t.preds n k hk v).trans ?_
    by_cases h : k = n
    · subst h; rw [if_pos rfl, if_pos rfl]
    · rw [if_neg h, if_neg (by simpa using fun h' => h h'.symm)]

theorem Thread.store_pend (t : Thread) (tgt : Target) (v : Word) (ps : List Pend) :
    { (t.store tgt v) with pend := ps } = ({ t with pend := ps } : Thread).store tgt v := by cases tgt <;> rfl

/-- What `settle` leaves of everything that is no register, no predicate and not pending. -/
theorem Thread.settleFrom_rest (t : Thread) (ps : List Pend) :
    t.settleFrom ps = { t with regs := (t.settleFrom ps).regs, preds := (t.settleFrom ps).preds, pend := (t.settleFrom ps).pend } := by
  induction ps generalizing t with
  | nil => rfl
  | cons p ps ih =>
    unfold Thread.settleFrom
    split
    · rw [ih]; cases p.tgt <;> rfl
    · rfl

/-- A fold over the pending results of one target: the last that `shows` holds of. -/
def lastOf (shows : Pend → Bool) (ps : List Pend) (tgt : Target) (v : Word) : Word :=
  ps.foldl (fun v p => if p.tgt == tgt && shows p then p.val else v) v

theorem lastOf_cons (shows : Pend → Bool) (p : Pend) (ps : List Pend) (tgt : Target) (v : Word) :
    lastOf shows (p :: ps) tgt v = lastOf shows ps tgt (if p.tgt == tgt && shows p then p.val else v) := rfl

theorem settle_reg (shows : Pend → Bool) (hs : ∀ p, p.seen = true → shows p = true) (t : Thread) (ps : List Pend) (k : Nat) :
    lastOf shows (t.settleFrom ps).pend (.reg k) ((t.settleFrom ps).base (.reg k)) = lastOf shows ps (.reg k) (t.base (.reg k)) := by
  induction ps generalizing t with
  | nil => rfl
  | cons p ps ih =>
    rw [Thread.settleFrom.eq_def]
    dsimp only
    split
    · rename_i hp
      rw [ih, Thread.store_reg, lastOf_cons, hs p hp, Bool.and_true]
      congr 1
      by_cases h : p.tgt = .reg k <;> simp [h]
    · rfl

theorem lastOf_bool (shows : Pend → Bool) (ps : List Pend) (tgt : Target) (v w : Word) (h : (v != 0) = (w != 0)) :
    (lastOf shows ps tgt v != 0) = (lastOf shows ps tgt w != 0) := by
  induction ps generalizing v w with
  | nil => exact h
  | cons p ps ih =>
    rw [lastOf_cons, lastOf_cons]
    apply ih
    split <;> simp_all

theorem settle_pred (shows : Pend → Bool) (hs : ∀ p, p.seen = true → shows p = true) (t : Thread) (ps : List Pend) (k : Nat) (hk : k < 7) :
    (lastOf shows (t.settleFrom ps).pend (.pred k) ((t.settleFrom ps).base (.pred k)) != 0) =
      (lastOf shows ps (.pred k) (t.base (.pred k)) != 0) := by
  induction ps generalizing t with
  | nil => rfl
  | cons p ps ih =>
    rw [Thread.settleFrom.eq_def]
    dsimp only
    split
    · rename_i hp
      rw [ih, lastOf_cons, hs p hp, Bool.and_true]
      apply lastOf_bool
      rw [Thread.store_pred _ _ _ _ hk]
      by_cases h : p.tgt = .pred k <;> simp [h]
    · rfl

/-- What a reader sees, and what a thread will hold, in terms of `lastOf`. -/
theorem Thread.read_eq (t : Thread) (tgt : Target) (v : Word) : t.read tgt v = lastOf Pend.seen t.pend tgt v := rfl

theorem Thread.final_eq (t : Thread) (tgt : Target) : t.final tgt = lastOf (fun _ => true) t.pend tgt (t.base tgt) := by
  simp only [Thread.final, Thread.last, lastOf, Bool.and_true]

theorem lastOf_map (shows : Pend → Bool) (f : Pend → Pend) (hf : ∀ p, (f p).tgt = p.tgt ∧ (f p).val = p.val) (ps : List Pend) (tgt : Target)
    (v : Word) : lastOf shows (ps.map f) tgt v = lastOf (fun p => shows (f p)) ps tgt v := by
  induction ps generalizing v with
  | nil => rfl
  | cons p ps ih => rw [List.map_cons, lastOf_cons, lastOf_cons, ih, (hf p).1, (hf p).2]

/-- Ageing, landing and the like: the results keep their targets and values, and those that have become visible are written. -/
theorem Thread.mapped_final_reg (t : Thread) (f : Pend → Pend) (hf : ∀ p, (f p).tgt = p.tgt ∧ (f p).val = p.val) (k : Nat) :
    ({ t with pend := t.pend.map f } : Thread).settle.final (.reg k) = t.final (.reg k) := by
  rw [Thread.final_eq, Thread.settle, settle_reg _ (fun _ _ => rfl), lastOf_map _ _ hf, Thread.final_eq]
  rfl

theorem Thread.mapped_final_pred (t : Thread) (f : Pend → Pend) (hf : ∀ p, (f p).tgt = p.tgt ∧ (f p).val = p.val) (k : Nat) (hk : k < 7) :
    (({ t with pend := t.pend.map f } : Thread).settle.final (.pred k) != 0) = (t.final (.pred k) != 0) := by
  rw [Thread.final_eq, Thread.settle, settle_pred _ (fun _ _ => rfl) _ _ _ hk, lastOf_map _ _ hf, Thread.final_eq]
  rfl

theorem Thread.mapped_reg (t : Thread) (f : Pend → Pend) (hf : ∀ p, (f p).tgt = p.tgt ∧ (f p).val = p.val) (k : Nat) :
    ({ t with pend := t.pend.map f } : Thread).settle.reg k = lastOf (fun p => (f p).seen) t.pend (.reg k) (t.base (.reg k)) := by
  rw [Thread.reg, Thread.read_eq, Thread.settle, settle_reg _ (fun _ h => h), lastOf_map _ _ hf]
  rfl

theorem Thread.mapped_pred (t : Thread) (f : Pend → Pend) (hf : ∀ p, (f p).tgt = p.tgt ∧ (f p).val = p.val) (k : Nat) (hk : k < 7) :
    ({ t with pend := t.pend.map f } : Thread).settle.pred k =
      (lastOf (fun p => (f p).seen) t.pend (.pred k) (t.base (.pred k)) != 0) := by
  have h7 : (k == 7) = false := by rw [beq_eq_false_iff_ne]; omega
  rw [Thread.pred, h7, Bool.false_or, Thread.read_eq, Thread.settle, settle_pred _ (fun _ h => h) _ _ _ hk, lastOf_map _ _ hf]
  rfl

theorem Pend.aged_keeps (n : Nat) (p : Pend) : (p.aged n).tgt = p.tgt ∧ (p.aged n).val = p.val := ⟨rfl, rfl⟩

theorem Pend.fix_keeps (p : Pend) : p.fix.tgt = p.tgt ∧ p.fix.val = p.val := by unfold Pend.fix; split <;> exact ⟨rfl, rfl⟩

/-- A thread that moves on at the end of a part keeps what it will hold. -/
theorem Thread.advance_final (th : Thread) (pc : VAddr) (next : Option Nat) (dist : Nat) (jumped : Bool) (now : Nat) :
    (∀ k, (th.advance pc next dist jumped now).final (.reg k) = th.final (.reg k))
    ∧ ∀ k, k < 7 → ((th.advance pc next dist jumped now).final (.pred k) != 0) = (th.final (.pred k) != 0) := by
  have hr : ∀ (a b : Thread), a.regs = b.regs → a.preds = b.preds → a.pend = b.pend → ∀ tgt, a.final tgt = b.final tgt := by
    intro a b h1 h2 h3 tgt
    rw [Thread.final_eq, Thread.final_eq, h3]
    cases tgt <;> simp [Thread.base, h1, h2]
  have key : ∀ tgt, (th.advance pc next dist jumped now).final tgt = (if jumped then (th.age dist).allSeen else th.age dist).final tgt := by
    intro tgt
    unfold Thread.advance
    dsimp only
    split
    · exact hr _ _ rfl rfl rfl tgt
    · split <;> exact hr _ _ rfl rfl rfl tgt
  refine ⟨fun k => ?_, fun k hk => ?_⟩
  · rw [key]
    cases jumped
    · exact th.mapped_final_reg _ (Pend.aged_keeps dist) k
    · exact ((th.age dist).mapped_final_reg _ Pend.fix_keeps k).trans (th.mapped_final_reg _ (Pend.aged_keeps dist) k)
  · rw [key]
    cases jumped
    · exact th.mapped_final_pred _ (Pend.aged_keeps dist) k hk
    · exact ((th.age dist).mapped_final_pred _ Pend.fix_keeps k hk).trans (th.mapped_final_pred _ (Pend.aged_keeps dist) k hk)

end Sys2Proof.Machine
end

