-- ==== Sys2Proof/Tests/Slice0.lean ====
section
/-! SUPPORT. Tests of the model: ill-formed instructions that the check refuses, words of the specification's encodings, single steps on
small states, and a witness for the hypotheses of every statement. Expected results come from the specification's tables and examples, or
from calculation by hand. -/

namespace Sys2Proof.Tests

set_option Elab.async false

open Machine

/-! ### Small states -/

/-- An instruction without a guard, an extension word or a literal. -/
def en (d a b : BitVec 8) : Enc := ⟨7, 0, 0, d, a, b, none, none⟩
/-- The same with an extension word. -/
def ex (d a b : BitVec 8) (x : Ext) : Enc := ⟨7, 0, 0, d, a, b, some x, none⟩
/-- The same with a literal. -/
def el (d a b : BitVec 8) (l : Word) : Enc := ⟨7, 0, 0, d, a, b, none, some l⟩
/-- The same with both. -/
def exl (d a b : BitVec 8) (x : Ext) (l : Word) : Enc := ⟨7, 0, 0, d, a, b, some x, some l⟩
/-- Extension words with a type, with a third operand, and with AUX. -/
def tx (t : BitVec 5) : Ext := { Ext.zero with type := t }
@[inherit_doc tx]
def cx (c : BitVec 8) : Ext := { Ext.zero with c := c }
@[inherit_doc tx]
def ax (a : BitVec 3) : Ext := { Ext.zero with aux := a }
/-- Extension words with a scope, and with a scope and an order. -/
def sx (s : BitVec 3) : Ext := { Ext.zero with scope := s }
@[inherit_doc sx]
def ox (s o : BitVec 3) : Ext := { Ext.zero with scope := s, order := o }

/-- A launch of teams of `n` threads, with 2 KiB of scratchpad, two accumulators and two barriers. -/
def launchOf (n : Nat) : Launch := { fetchLaunch 0x2000 with ntid := (n, 1, 1), spad := 2048, accum := 2, bars := 2 }

/-- The machine after boot with one team of `n` threads on core 0, whose grid runs in context 0, and a page of 1 GiB that may be read,
written and executed at address 0. -/
def placed (n : Nat) : State :=
  let s := State.reset.booted
  let mem := (s.mm.setBytes 0 (bytesOf 8 0x1001)).setBytes 0x1000 (bytesOf 8 0x1F)
  let g := { fetchGrid 0 0x2000 with launch := launchOf n, shares := [⟨0, 0, 1, 1, some 0, none, false, true, false⟩] }
  let s := { s with mm := mem, fe := { s.fe with grids := [g], nextG := 1 } }
  s.placeTeam g 0 0 0

/-- The turn of the team's first warp, in the first slot of the packet at 0x2000. -/
def turn0 : Turn := ⟨0, 0, 0x2000, 0, 0, [], none, 0, true, none, false⟩

/-- That machine when the warp issues, with general registers of every thread. -/
def ready (n : Nat) (regs : Table Word) : State :=
  let s := placed n
  { s with turn := some turn0, wk := { s.wk with teams := s.wk.teams.map (fun t =>
    { t with threads := t.threads.map (fun th => { th with regs := regs }) }) } }

/-- The machine after a step that goes on. -/
def after (o : Host.Outcome State Fault Refusal) : Option State :=
  match o with
  | .next t => some t
  | _ => none

/-- Thread `n` of the team after an instruction. -/
def threadOf (s : State) (op : Op) (e : Enc) (n : Nat) : Option Thread := (after (exec (op.instr e) s)).bind (fun t => t.thread? 0 n)

/-- What an instruction gives thread `n`: the values of some registers. -/
def gives (s : State) (op : Op) (e : Enc) (n : Nat) (outs : List (Nat × Word)) : Bool :=
  match threadOf s op e n with
  | some th => outs.all (fun p => th.final (.reg p.1) == p.2)
  | none => false

/-- What an instruction gives thread `n` in a predicate. -/
def givesP (s : State) (op : Op) (e : Enc) (n k : Nat) (v : Bool) : Bool :=
  match threadOf s op e n with
  | some th => (th.final (.pred k) != 0) == v
  | none => false

/-- The flags that an instruction raises for thread 0. -/
def raises (s : State) (op : Op) (e : Enc) (f : BitVec 6) : Bool :=
  match threadOf s op e 0 with
  | some th => th.flags == f
  | none => false

/-- The instruction issues with its own effect, and `p` holds of it. -/
def issuesWith (s : State) (op : Op) (e : Enc) (p : Iss → Bool) : Bool :=
  match s.iss? op e with
  | some i => i.illegal.isNone && !i.act.isEmpty && i.farLanes.isEmpty && !s.held i && p i
  | none => false

/-- So the hypotheses of the statements about it are met. -/
theorem issuesWith_issues {s : State} {op : Op} {e : Enc} {p : Iss → Bool} (h : issuesWith s op e p = true) :
    ∃ i, s.Issues op e i ∧ p i = true := by
  unfold issuesWith at h
  split at h
  · rename_i i hi
    simp only [Bool.and_eq_true, Bool.not_eq_true', Option.isNone_iff_eq_none] at h
    obtain ⟨⟨⟨⟨h1, h2⟩, h3⟩, h4⟩, h5⟩ := h
    exact ⟨i, ⟨hi, h1, h2, h3, h4⟩, h5⟩
  · exact absurd h (by decide)

/-- Each of some instructions issues. -/
def allIssue (s : State) (l : List (Op × Enc)) : Bool := l.all (fun p => issuesWith s p.1 p.2 (fun _ => true))

/-- So there is an issue of each for the statements to be about. -/
theorem allIssue_issues {s : State} {l : List (Op × Enc)} (h : allIssue s l = true) : ∀ p, p ∈ l → ∃ i, s.Issues p.1 p.2 i := by
  intro p hp
  obtain ⟨i, hi, -⟩ := issuesWith_issues (List.all_eq_true.mp h p hp)
  exact ⟨i, hi⟩

/-! ### Well-formed instructions -/

/-- An instruction that is well formed. -/
theorem test_wf_accepts : (Instr.add (en 1 2 3)).wf = true ∧ (Instr.ld (ex 2 4 0 { tx 4 with scope := 6, order := 1 })).wf = true
    ∧ (Instr.fcmp (ex 6 1 2 (cx 7))).wf = true ∧ (Instr.callX (ex 30 4 0 (ax 1))).wf = true ∧ Instr.boot.wf = true := by decide

/-- One ill-formed instruction for each check: the name that AUX chooses, D, A, B, C, TYPE, RND, SAT, SCOPE, ORDER, CACHE, SPACE, AUX, the
literal, U, and what a form adds (03 R70). -/
theorem test_wf_refuses : (Instr.brx (ex 0 4 0 (ax 1))).wf = false ∧ (Instr.add (en 0xF1 2 3)).wf = false
    ∧ (Instr.add (ex 1 3 2 (tx 4))).wf = false ∧ (Instr.add (en 1 2 0xF5)).wf = false ∧ (Instr.cmp (ex 1 2 3 (cx 10))).wf = false
    ∧ (Instr.add (ex 1 2 3 (tx 0xC))).wf = false ∧ (Instr.fadd (ex 1 2 3 { tx 0 with rnd := 5 })).wf = false
    ∧ (Instr.min (ex 1 2 3 { tx 0 with sat := 1 })).wf = false ∧ (Instr.fence (ex 0 0 0 (ox 6 2))).wf = false
    ∧ (Instr.fence (ex 0 0 0 (ox 1 5))).wf = false ∧ (Instr.add (ex 1 2 3 { tx 0 with cache := 1 })).wf = false
    ∧ (Instr.ld (ex 2 4 0 { tx 0 with space := 4 })).wf = false ∧ (Instr.pops (ex 1 2 3 (ax 4))).wf = false
    ∧ (Instr.bra (en 0 0 0)).wf = false ∧ (Instr.nop (el 0 0 0 1)).wf = false ∧ (Instr.vote ⟨7, 1, 0, 1, 2, 0, none, none⟩).wf = false
    ∧ (Instr.bra (el 0 0 0 8)).wf = false := by decide

/-! ### Decoding -/

/-- What a decoding gives. -/
def got (r : Except DecodeError Instr) : Sum DecodeError Instr :=
  match r with
  | .ok i => .inr i
  | .error d => .inl d

/-- The opcodes of a row of the table of 03 R67, from `base` on, stand for the given forms, whatever the fields. -/
def row (base : Nat) (ops : List Op) : Bool :=
  (ops.zipIdx).all (fun p => decide (got (decodeWords 0x1C0 (BitVec.ofNat 8 (base + p.2) ++ 0x11#8 ++ 0x22#8 ++ 0x33#8) none none)
    = .inr (p.1.instr (en 0x11 0x22 0x33))))

/-- The table of 03 R67. -/
theorem test_opcodes_0_1 : row 0x00 [.nop, .mov, .movi, .movh, .movs, .sel, .cmp, .pops] = true
    ∧ row 0x10 [.add, .sub, .addc, .subc, .mul, .mulh, .mad, .madw, .min, .max, .abs, .neg, .lea] = true := by decide
@[inherit_doc test_opcodes_0_1]
theorem test_opcodes_2_3 : row 0x20 [.and, .or, .xor, .andn, .not, .shl, .shr, .sra, .rotl, .bfx, .bfi, .clz, .popc, .brev] = true
    ∧ row 0x30 [.add2, .sub2, .mul2, .mac2, .shrn, .pk2, .unpk, .sflg] = true := by decide
@[inherit_doc test_opcodes_0_1]
theorem test_opcodes_4_5 : row 0x40 [.fadd, .fsub, .fmul, .ffma, .fmin, .fmax, .fneg, .fabs, .fcmp, .fcls, .frnd] = true
    ∧ row 0x50 [.frcp, .frsq, .fsqrt, .fdiv, .fex2, .flg2, .fsin, .fcos, .hadd2, .hmul2, .hfma2, .cvt, .cvpk, .cvup] = true := by decide
@[inherit_doc test_opcodes_0_1]
theorem test_opcodes_6_7 : row 0x60 [.bra, .brx, .call, .ret, .exit] = true
    ∧ row 0x70 [.vote, .matchOp, .elect, .sld, .shfl, .lbc, .wrdx, .wscan, .rgn, .join, .rgp, .spawn] = true := by decide
@[inherit_doc test_opcodes_0_1]
theorem test_opcodes_8_9 : row 0x80 [.ld, .st, .ldc, .ldcinv, .prf, .fence, .atom, .cas, .red] = true
    ∧ row 0x90 [.binit, .barr, .bexp, .bwait, .btry, .binv] = true := by decide
@[inherit_doc test_opcodes_0_1]
theorem test_opcodes_A_C : row 0xA0 [.cpy, .cpys, .cpyw, .lrinv, .qfence, .put] = true
    ∧ row 0xA8 [.hbld, .hprb, .hlk, .mrg, .scn, .hfree, .xenq, .xtake] = true
    ∧ row 0xB0 [.tmm, .tmmsp, .tgms, .tsacc, .tzero, .tst, .tldac, .ttr, .tscl, .tflush] = true
    ∧ row 0xC0 [.trap, .tret, .brkpt, .sysr, .sysw, .tmark] = true := by decide

/-- The cells of 03 R67 that are reserved. -/
theorem test_opcodes_reserved : ([0x08, 0x0F, 0x1D, 0x1F, 0x2E, 0x2F, 0x38, 0x3F, 0x4B, 0x4F, 0x5E, 0x5F, 0x65, 0x6F, 0x7C, 0x7F, 0x89, 0x8F, 0x96, 0x9F,
    0xA6, 0xA7, 0xBA, 0xBF, 0xC6, 0xCF, 0xD0, 0xDF, 0xE0, 0xEF, 0xF0, 0xFF] : List Nat).all
      (fun n => decide (got (decodeWords 0x1C0 (BitVec.ofNat 8 n ++ 0#24) none none) = .inl .reservedOpcode)) = true := by decide

/-- The forms that share an opcode, told apart by AUX (07 R141, R144; 15 R266). -/
theorem test_aux_forms : got (decodeWords 0x1C0 0x61001B00 (some 1) none) = .inr (.brxRel (ex 0 27 0 (ax 1)))
    ∧ got (decodeWords 0x1C0 0x61001B00 (some 0) none) = .inr (.brx (ex 0 27 0 (ax 0)))
    ∧ got (decodeWords 0x1C0 0x621E0400 (some 1) none) = .inr (.callX (ex 30 4 0 (ax 1)))
    ∧ got (decodeWords 0x1C0 0x88000206 (some 1) none) = .inr (.redDet (ex 0 2 6 (ax 1)))
    ∧ got (decodeWords 0x1C0 0x88000206 (some 0) none) = .inr (.red (ex 0 2 6 (ax 0))) := by decide

/-- 03 R49, R57, R60, field by field: GUARD !p2, STALL 5, U; opcode 0x16, D v8, A v2, B v3; C v4, TYPE i32, RND 1, SAT, SCOPE 2, ORDER 3,
CACHE 6, SPACE 1, AUX 5. -/
theorem test_fields : got (decodeWords (0b1010#4 ++ 0b101#3 ++ 0b1#1 ++ 0b00#2) (0x16#8 ++ 0x08#8 ++ 0x02#8 ++ 0x03#8)
      (some (0x04#8 ++ 0b01000#5 ++ 0b001#3 ++ 0b1#1 ++ 0b010#3 ++ 0b011#3 ++ 0b110#3 ++ 0b001#3 ++ 0b101#3)) (some 0x12345678)) = .inr (.mad ⟨0b1010, 1, 5, 8, 2, 3, some ⟨4, 8, 1, 1, 2, 3, 6, 1, 5⟩, some 0x12345678⟩) := by decide

/-- 05: `movi v7, 0xBEEF`; 06: `fcmp.lt p3, v1, v2`; 07: `bra` with p1 as its guard; 10: `wrdx.add v4, v5`; 15: `cas`; 21: `qfence`; 22: `tzero`;
28: `trap 5`. -/
theorem test_words : got (decodeWords 0x1C0 (0x02#8 ++ 0x07#8 ++ 0xBE#8 ++ 0xEF#8) none none) = .inr (.movi (en 7 0xBE 0xEF))
    ∧ (en 7 0xBE 0xEF).imm16 = 0xBEEF
    ∧ got (decodeWords 0x1C0 (0x48#8 ++ 0x03#8 ++ 0x01#8 ++ 0x02#8) (some (0x02#8 ++ 0#24)) none) = .inr (.fcmp (ex 3 1 2 (cx 2)))
    ∧ got (decodeWords (0b0001#4 ++ 0#6) (0x60#8 ++ 0#24) none (some 0xFFFFFFF0)) = .inr (.bra ⟨1, 0, 0, 0, 0, 0, none, some 0xFFFFFFF0⟩)
    ∧ got (decodeWords 0x1C0 (0x76#8 ++ 0x04#8 ++ 0x05#8 ++ 0#8) none none) = .inr (.wrdx (en 4 5 0))
    ∧ got (decodeWords 0x1C0 (0x87#8 ++ 0x04#8 ++ 0x06#8 ++ 0x08#8) (some (0x09#8 ++ 0b00011#5 ++ 0#4 ++ 0b101#3 ++ 0b100#3 ++ 0#9)) none) = .inr (.cas (ex 4 6 8 ⟨9, 3, 0, 0, 5, 4, 0, 0, 0⟩))
    ∧ got (decodeWords 0x1C0 (0xA4#8 ++ 0#24) (some (0x0F#8 ++ 0#24)) none) = .inr (.qfence (ex 0 0 0 (cx 15)))
    ∧ got (decodeWords 0x1C0 (0xB4#8 ++ 0x03#8 ++ 0#16) none none) = .inr (.tzero (en 3 0 0))
    ∧ got (decodeWords 0x1C0 (0xC0#8 ++ 0#8 ++ 0x05#8 ++ 0#8) none none) = .inr (.trap (en 0 5 0)) := by decide

/-- 03 R50, R51, R69: a slot after an instruction with KIND 11, an extension word in slot 0, a reserved GROUP and a control word with a STALL
on an extension word make a packet illegal; the packet of zeros is legal. -/
theorem test_packets : packetOk false 0 = true ∧ packetOk false 3 = false ∧ packetOk false 1 = false
    ∧ packetOk false (packetWord 0 (0x1C0, 0x10010203) (extCtl, 0) (padCtl, 0)) = true
    ∧ packetOk false (packetWord 0 (0x1C0, 0x10010203) (extCtl ||| 0x008, 0) (padCtl, 0)) = false
    ∧ packetOk false (packetWord 0 (0x1C0, 0x10010203) (litCtl, 0) (litCtl, 0)) = false
    ∧ packetOk false (packetWord 0 (0x1C0, 0x64000000) (0x1C0, 0) (0x1C0, 0)) = false
    ∧ packetOk true (packetWord 0 (0x1C0, 0x10010203) (0x1C0, 0x11010203) (0x1C0, 0)) = false
    ∧ packetOk false (packetWord 0 (0x1C0, 0x10010203) (0x1C0, 0x11010203) (0x1C0, 0)) = true := by decide

/-- A table row with 64 bits carries its extension word in the upper half, and runs as the first instruction. -/
theorem test_table_rows : decodeTableWord 32 0x64000000 = some (.exit (en 0 0 0))
    ∧ (after (step (State.reset.withFetchWord 32 0x10010203))).isSome = true
    ∧ (after (step (State.reset.withFetchWord 32 0x64000000))).any (fun s => (s.thread? 0 0).any (fun th => !th.alive)) = true := by decide

/-! ### Single steps -/

/-- Registers for the arithmetic tests. -/
def nums : State := ready 1 [(1, 0xFFFFFFFF), (2, 1), (3, 0x7FFFFFFF), (4, 0x00000005), (5, 0x00000000), (6, 0x80000000), (7, 3),
  (8, 0xF0F0A5A5), (9, 0x0FF0FFFF), (10, 0x00000804)]

/-- 05 R97 to R103. -/
theorem test_moves : gives nums .mov (ex 20 4 0 (tx 4)) 0 [(20, 5), (21, 0)] = true
    ∧ gives nums .movi (ex 20 0x80 0x01 (tx 8)) 0 [(20, 0xFFFF8001)] = true ∧ gives nums .movi (en 20 0x80 0x01) 0 [(20, 0x8001)] = true
    ∧ gives nums .movh (en 8 0x12 0x34) 0 [(8, 0x1234A5A5)] = true ∧ gives nums .movs (en 20 29 0) 0 [(20, 0x1E0)] = true
    ∧ gives nums .sel (ex 20 4 7 (cx 7)) 0 [(20, 5)] = true ∧ gives nums .sel (ex 20 4 7 (cx 15)) 0 [(20, 3)] = true
    ∧ gives nums .nop (en 0 0 0) 0 [(1, 0xFFFFFFFF)] = true := by decide
/-- 05 R102, R103: signed and unsigned order; a literal compared; `p7 andn p7`. -/
theorem test_compares : givesP nums .cmp (ex 3 1 2 (cx 2)) 0 3 true = true ∧ givesP nums .cmp (ex 3 1 2 (cx 6)) 0 3 false = true
    ∧ givesP nums .cmp (exl 3 4 0 (cx 0) 5) 0 3 true = true ∧ givesP nums .pops (ex 2 7 15 (ax 3)) 0 2 true = true
    ∧ givesP nums .pops (ex 2 7 7 (ax 2)) 0 2 false = true := by decide
/-- 05 R104, 02 R26, R40: wrapping, saturation and its flag; 05 R105 to R109. -/
theorem test_integers : gives nums .add (en 20 1 2) 0 [(20, 0)] = true
    ∧ gives nums .add (ex 20 3 2 { tx 8 with sat := 1 }) 0 [(20, 0x7FFFFFFF)] = true ∧ raises nums .add (ex 20 3 2 { tx 8 with sat := 1 }) 0x20 = true
    ∧ gives nums .sub (ex 20 5 2 { tx 3 with sat := 1 }) 0 [(20, 0)] = true
    ∧ gives nums .sub (en 20 5 2) 0 [(20, 0xFFFFFFFF)] = true ∧ gives nums .mul (en 20 1 4) 0 [(20, 0xFFFFFFFB)] = true
    ∧ gives nums .mulh (ex 20 1 1 (tx 3)) 0 [(20, 0xFFFFFFFE)] = true ∧ gives nums .mulh (en 20 1 1) 0 [(20, 0)] = true
    ∧ gives nums .mad (ex 20 4 7 (cx 2)) 0 [(20, 16)] = true ∧ gives nums .madw (ex 20 1 2 { tx 8 with c := 4 }) 0 [(20, 4), (21, 0)] = true
    ∧ gives nums .min (en 20 1 2) 0 [(20, 0xFFFFFFFF)] = true ∧ gives nums .max (ex 20 1 2 (tx 3)) 0 [(20, 0xFFFFFFFF)] = true
    ∧ gives nums .abs (en 20 6 0) 0 [(20, 0x80000000)] = true ∧ gives nums .abs (ex 20 6 0 { tx 8 with sat := 1 }) 0 [(20, 0x7FFFFFFF)] = true
    ∧ gives nums .neg (en 20 2 0) 0 [(20, 0xFFFFFFFF)] = true := by decide
/-- 05 R107, R109: a carry out in p1, a borrow in from p7, an address. -/
theorem test_carries : gives nums .addc (ex 20 1 2 (cx 0x1F)) 0 [(20, 0)] = true ∧ givesP nums .addc (ex 20 1 2 (cx 0x1F)) 0 1 true = true
    ∧ gives nums .subc (ex 20 5 5 (cx 0x17)) 0 [(20, 0xFFFFFFFF)] = true ∧ givesP nums .subc (ex 20 5 5 (cx 0x17)) 0 1 true = true
    ∧ gives nums .lea (exl 20 4 1 (ax 2) 8) 0 [(20, 9), (21, 0)] = true := by decide
/-- 05 R110 to R114; a shift of the width or more; a field of no bits. -/
theorem test_bits : gives nums .and (en 20 8 9) 0 [(20, 0x00F0A5A5)] = true ∧ gives nums .or (en 20 8 9) 0 [(20, 0xFFF0FFFF)] = true
    ∧ gives nums .xor (en 20 8 9) 0 [(20, 0xFF005A5A)] = true ∧ gives nums .andn (en 20 8 9) 0 [(20, 0xF0000000)] = true
    ∧ gives nums .not (en 20 8 0) 0 [(20, 0x0F0F5A5A)] = true ∧ gives nums .shl (en 20 8 4) 0 [(20, 0x1E14B4A0)] = true
    ∧ gives nums .shl (el 20 8 0 32) 0 [(20, 0)] = true ∧ gives nums .shr (en 20 8 4) 0 [(20, 0x0787852D)] = true
    ∧ gives nums .sra (en 20 8 4) 0 [(20, 0xFF87852D)] = true ∧ gives nums .sra (el 20 6 0 100) 0 [(20, 0xFFFFFFFF)] = true
    ∧ gives nums .rotl (el 20 8 0 36) 0 [(20, 0x0F0A5A5F)] = true ∧ gives nums .bfx (en 20 8 10) 0 [(20, 0x5A)] = true
    ∧ gives nums .bfx (ex 20 8 10 (tx 8)) 0 [(20, 0x5A)] = true ∧ gives nums .bfi (ex 20 4 10 (cx 1)) 0 [(20, 0xFFFFF05F)] = true
    ∧ gives nums .clz (en 20 4 0) 0 [(20, 29)] = true ∧ gives nums .clz (ex 20 4 0 (tx 4)) 0 [(20, 61)] = true
    ∧ gives nums .popc (en 20 8 0) 0 [(20, 16)] = true ∧ gives nums .brev (en 20 4 0) 0 [(20, 0xA0000000)] = true := by decide

/-- Registers for the floating tests: 1.0, 2.0, 3.0, 0.5, infinity, a signalling NaN, 2.5, -0. -/
def flts : State := ready 1 [(1, 0x3F800000), (2, 0x40000000), (3, 0x40400000), (4, 0x3F000000), (5, 0x7F800000), (6, 0x7F800001), (7, 0x40200000),
  (8, 0x80000000), (9, 0), (10, 0x7F7FFFFF), (11, 0x41000000)]

/-- 06 R126 to R131. -/
theorem test_floats : gives flts .fadd (en 20 1 2) 0 [(20, 0x40400000)] = true ∧ gives flts .fsub (en 20 1 2) 0 [(20, 0xBF800000)] = true
    ∧ gives flts .fmul (en 20 3 4) 0 [(20, 0x3FC00000)] = true ∧ gives flts .ffma (ex 20 2 3 (cx 1)) 0 [(20, 0x40E00000)] = true
    ∧ gives flts .fmin (en 20 8 9) 0 [(20, 0x80000000)] = true ∧ gives flts .fmax (en 20 8 9) 0 [(20, 0)] = true
    ∧ gives flts .fneg (en 20 1 0) 0 [(20, 0xBF800000)] = true ∧ gives flts .fabs (en 20 8 0) 0 [(20, 0)] = true
    ∧ givesP flts .fcmp (ex 1 1 2 (cx 2)) 0 1 true = true ∧ givesP flts .fcmp (ex 1 1 6 (cx 7)) 0 1 true = true
    ∧ gives flts .frnd (en 20 7 0) 0 [(20, 0x40000000)] = true
    ∧ raises flts .fadd (en 20 10 10) 0x14 = true ∧ gives flts .fadd (en 20 10 10) 0 [(20, 0x7F800000)] = true := by decide
/-- 06 R132 to R136. -/
theorem test_specials : gives flts .frcp (en 20 2 0) 0 [(20, 0x3F000000)] = true ∧ raises flts .frcp (en 20 9 0) 0x02 = true
    ∧ gives flts .fsqrt (en 20 2 0) 0 [(20, 0x3FB504F3)] = true ∧ gives flts .fdiv (en 20 1 3) 0 [(20, 0x3EAAAAAB)] = true
    ∧ gives flts .fex2 (en 20 1 0) 0 [(20, 0x40000000)] = true ∧ gives flts .flg2 (en 20 11 0) 0 [(20, 0x40400000)] = true
    ∧ gives flts .fsin (en 20 9 0) 0 [(20, 0)] = true ∧ gives flts .fcos (en 20 9 0) 0 [(20, 0x3F800000)] = true
    ∧ gives flts .frsq (en 20 1 0) 0 [(20, 0x3F800000)] = true := by decide +kernel
/-- 06 R119 to R124, R136 to R139. -/
theorem test_packed : gives nums .add2 (en 20 1 2) 0 [(20, 0xFFFF0000)] = true ∧ gives nums .sub2 (en 20 5 2) 0 [(20, 0x0000FFFF)] = true
    ∧ gives nums .mul2 (en 20 4 7) 0 [(20, 15)] = true ∧ gives nums .mac2 (ex 20 1 1 (cx 4)) 0 [(20, 7)] = true
    ∧ gives nums .shrn (exl 20 4 0 { tx 8 with type := 7, rnd := 5 } 1) 0 [(20, 3)] = true ∧ gives nums .pk2 (en 20 4 7) 0 [(20, 0x00030005)] = true
    ∧ gives nums .unpk (ex 20 8 0 (tx 0x16)) 0 [(20, 0xFFFFFFA5)] = true ∧ gives nums .sflg (en 20 0 0) 0 [(20, 0)] = true
    ∧ gives flts .cvt (ex 20 7 0 { tx 8 with c := 0xC, rnd := 1 }) 0 [(20, 2)] = true ∧ gives flts .cvt (ex 20 1 0 { tx 0xA with c := 0xC }) 0 [(20, 0x3C00)] = true
    ∧ gives flts .cvpk (en 20 1 2) 0 [(20, 0x40003C00)] = true := by decide
/-- 06 R136, R139 on the halves 1.0 and 2.0 (0x3C00, 0x4000), and 06 R131: 1.0 is a positive normal number. -/
theorem test_halves : gives (ready 1 [(1, 0x40003C00), (2, 0x3C003C00)]) .hadd2 (en 20 1 2) 0 [(20, 0x42004000)] = true
    ∧ gives (ready 1 [(1, 0x40003C00), (2, 0x3C003C00)]) .hmul2 (en 20 1 2) 0 [(20, 0x40003C00)] = true
    ∧ gives (ready 1 [(1, 0x40003C00), (2, 0x3C003C00)]) .hfma2 (ex 20 1 2 (cx 2)) 0 [(20, 0x42004000)] = true
    ∧ gives (ready 1 [(1, 0x40003C00)]) .cvup (en 20 1 0) 0 [(20, 0x3F800000), (21, 0x40000000)] = true
    ∧ gives flts .fcls (en 20 1 0) 0 [(20, 0x40)] = true := by decide

/-- Four threads in one warp whose v2 holds the lane's own number plus 1, and whose p1 is true in lanes 1 and 3. -/
def four : State :=
  let s := ready 4 []
  { s with wk := { s.wk with teams := s.wk.teams.map (fun t => { t with threads := t.threads.map (fun th =>
    { th with regs := [(2, BitVec.ofNat 32 (th.ltid + 1)), (3, 7)], preds := if th.ltid % 2 = 1 then 2 else 0 }) }) } }

/-- 10 R197 to R205, by hand on the values 1, 2, 3, 4. -/
theorem test_cross_lane : gives four .vote (ex 20 1 0 (ax 3)) 0 [(20, 0xA), (21, 0)] = true ∧ gives four .vote (ex 20 1 0 (ax 4)) 2 [(20, 2)] = true
    ∧ givesP four .vote (ex 2 1 0 (ax 2)) 0 2 false = true ∧ gives four .matchOp (en 20 3 0) 1 [(20, 0xF), (21, 0)] = true
    ∧ gives four .elect (en 20 1 0) 3 [(20, 0)] = true ∧ givesP four .elect (en 20 1 0) 0 1 true = true
    ∧ gives four .sld (exl 20 2 3 (ax 1) 3) 0 [(20, 4)] = true ∧ gives four .sld (exl 20 2 3 (ax 1) 3) 1 [(20, 7)] = true
    ∧ gives four .shfl (exl 20 2 0 (ax 3) 1) 0 [(20, 2)] = true ∧ gives four .shfl (exl 20 2 0 (ax 1) 1) 0 [(20, 1)] = true
    ∧ gives four .lbc (el 20 2 0 2) 0 [(20, 3)] = true ∧ gives four .lbc (el 20 2 0 9) 0 [(20, 0)] = true
    ∧ gives four .wrdx (en 20 2 0) 1 [(20, 10)] = true ∧ gives four .wscan (en 20 2 0) 2 [(20, 6)] = true
    ∧ gives four .wscan (ex 20 2 0 (cx 1)) 2 [(20, 3)] = true ∧ gives four .wscan (ex 20 2 0 (cx 1)) 0 [(20, 0)] = true := by decide +kernel

/-- Where a thread stands after an instruction that ends its packet. -/
def goesTo (s : State) (op : Op) (e : Enc) (n : Nat) (pc : VAddr) : Bool := (threadOf s op e n).any (fun th => th.pc == pc && th.slot == 0)

/-- A thread with 0x4000 in v4 and v5, and 3 in v6. -/
def jumper : State := ready 1 [(4, 0x4000), (6, 3)]

/-- 07 R141 to R145: a displacement from the packet, a register target, a target relative to the packet, the link, the next packet. -/
theorem test_transfers : goesTo jumper .bra (el 0 0 0 0xFFFFFFF0) 0 0x1FF0 = true ∧ goesTo jumper .brx (el 0 4 0 0x10) 0 0x4010 = true
    ∧ goesTo jumper .brxRel (exl 0 6 0 (ax 1) 0x10) 0 0x2040 = true ∧ goesTo jumper .call (el 30 0 0 0x100) 0 0x2100 = true
    ∧ gives jumper .call (el 30 0 0 0x100) 0 [(30, 0x2010), (31, 0)] = true ∧ goesTo jumper .callX (ex 30 4 0 (ax 1)) 0 0x4000 = true
    ∧ goesTo jumper .ret (en 0 4 0) 0 0x4000 = true ∧ goesTo jumper .nop (en 0 0 0) 0 0x2010 = true
    ∧ (threadOf jumper .exit (en 0 0 0) 0).any (fun th => !th.alive) = true := by decide +kernel
/-- An instruction makes its warp trap, with a cause and a DETAIL: the thread goes on at the trap vector, which is 0 after boot. -/
def trapped (s : State) (op : Op) (e : Enc) (cause : BitVec 16) (detail : BitVec 64) : Bool :=
  (after (exec (op.instr e) s)).any (fun t => (t.team? 0).any (fun m =>
    m.traps.any (fun r => r.req.cause == cause && (cause == 0x02 || r.req.detail == detail)) && m.threads.all (fun th => th.pc == 0)))

/-- 10 R206 to R208: a region is opened on the stack; a thread that joins without one traps. -/
theorem test_regions : (threadOf jumper .rgn (el 0 0 0 0x40) 0).any (fun th => th.stack == [⟨0, 0x2040⟩]) = true
    ∧ trapped jumper .join (en 0 0 0) 0x20 1 = true
    ∧ goesTo jumper .rgp (en 0 0 0) 0 0x2010 = true := by decide +kernel

/-- A thread with the address 0x4000 in v4 and v5, a value in v6, and another in v8. -/
def memer : State :=
  let s := ready 1 [(4, 0x4000), (6, 0x11223384), (7, 0x55667788), (8, 0x11223384)]
  { s with mm := s.mm.setBytes 0x4000 (bytesOf 8 0xA1B2C3D4E5F60708) }

/-- The bytes of memory that core 0 sees after an instruction. -/
def holds (s : State) (op : Op) (e : Enc) (a n v : Nat) : Bool :=
  (after (exec (op.instr e) s)).any (fun t => ofBytes ((List.range n).map (fun k => t.seenBy 0 (a + k))) == v)

/-- 07 R151: loads extend by type, and the lowest byte is the one at the address. -/
theorem test_loads : gives memer .ld (en 20 4 0) 0 [(20, 0xE5F60708)] = true ∧ gives memer .ld (ex 20 4 0 (tx 4)) 0 [(20, 0xE5F60708), (21, 0xA1B2C3D4)] = true
    ∧ gives memer .ld (exl 20 4 0 (tx 6) 5) 0 [(20, 0xFFFFFFC3)] = true ∧ gives memer .ld (exl 20 4 0 (tx 1) 5) 0 [(20, 0xC3)] = true
    ∧ gives memer .ldc (exl 20 4 0 (tx 7) 6) 0 [(20, 0xFFFFA1B2)] = true := by decide +kernel
/-- 07 R151, 15 R275 to R277: stores and atomics change their bytes and no others; a compare that fails changes none. -/
theorem test_stores : holds memer .st (ex 0 4 6 (tx 1)) 0x4000 8 0xA1B2C3D4E5F60784 = true ∧ holds memer .st (ex 0 4 6 (tx 4)) 0x4000 8 0x5566778811223384 = true
    ∧ holds memer .atom (ex 20 4 6 { sx 1 with c := 0 }) 0x4000 8 0xA1B2C3D4F7183A8C = true ∧ gives memer .atom (ex 20 4 6 { sx 1 with c := 0 }) 0 [(20, 0xE5F60708)] = true
    ∧ holds memer .cas (ex 20 4 6 { sx 1 with c := 7 }) 0x4000 8 0xA1B2C3D4E5F60708 = true ∧ gives memer .cas (ex 20 4 6 { sx 1 with c := 7 }) 0 [(20, 0xE5F60708)] = true
    ∧ (after (exec (.red (ex 0 4 6 (sx 3))) memer)).any (fun t => t.mm.contribs.map Contrib.addr == [0x4000]) = true
    ∧ (after (exec (.redDet (ex 0 4 6 { sx 3 with c := 8, aux := 1 })) memer)).any (fun t => t.mm.contribs.map Contrib.det == [some (0, 0x11223384)]) = true := by decide +kernel
/-- 07 R152, 26 R410: a load that is not aligned, one beyond 48 bits and one that no page maps; a software trap; `tret` outside a handler. -/
theorem test_faults : trapped (ready 1 [(4, 0x4002)]) .ld (en 20 4 0) 0x11 0x4002 = true
    ∧ trapped (ready 1 [(4, 0x4000), (5, 0x10000)]) .ld (en 20 4 0) 0x10 0x1000000004000 = true
    ∧ trapped (ready 1 [(5, 1)]) .ld (en 20 4 0) 0x12 0x100000000 = true
    ∧ trapped (ready 1 []) .trap (en 0 5 0) 0x60 1 = true ∧ trapped (ready 1 []) .tret (en 0 0 0) 0x02 0 = true := by decide +kernel

/-- A thread with a barrier's place in v4 and its count in v5. -/
def barrer : State := ready 1 [(4, 0x100), (5, 1)]
/-- The same once the barrier is there. -/
def barred : State := ((after (exec (.binit (en 20 4 5)) barrer)).map (fun s =>
  { s with turn := some turn0, wk := { s.wk with teams := s.wk.teams.map (fun t =>
    { t with threads := t.threads.map (fun th => { th with regs := [(4, 0), (5, 0)], pend := [] }) }) } })).getD barrer

/-- 15 R283 to R289: the handle of the first barrier; an arrival gives the phase and completes it; the wait then goes on. -/
theorem test_barriers : gives barrer .binit (en 20 4 5) 0 [(20, 0)] = true
    ∧ (barred.team? 0).any (fun t => (t.barObj 0x100).expect == 1 && (t.barObj 0x100).phase == 0) = true
    ∧ gives barred .barr (en 20 4 0) 0 [(20, 0)] = true
    ∧ (after (exec (.barr (en 20 4 0)) barred)).any (fun s => (s.team? 0).any (fun t => (t.barObj 0x100).phase == 1 && (t.barObj 0x100).arrived == 0)) = true
    ∧ (threadOf barred .bwait (en 0 4 5) 0).any (fun th => th.wait != .run) = true ∧ givesP barred .btry (en 1 4 5) 0 1 false = true
    ∧ (after (exec (.bexp (en 0 4 5)) barred)).isSome = true
    ∧ (after (exec (.binv (en 0 4 0)) barred)).any (fun s => (s.barEntry 0 0).team == none && (s.barEntry 0 0).gen == 1) = true := by decide +kernel

/-! ### Witnesses of the hypotheses: the statements about instructions

Each theorem shows the instructions that a statement is about issuing on a small state, with the field values where its clauses part. -/

theorem witness_MoveCompareResults : ∀ p, p ∈ [(Op.mov, ex 20 4 0 (tx 5)), (.mov, el 20 0 0 1), (.movi, ex 20 0x80 0 (tx 8)), (.movi, en 20 0x80 0), (.movh, en 8 1 2),
    (.sel, ex 20 4 7 (cx 7)), (.sel, ex 20 4 7 (cx 15)), (.cmp, ex 3 1 2 (cx 0)), (.cmp, ex 3 1 2 (cx 1)), (.cmp, ex 3 1 2 (cx 2)), (.cmp, ex 3 1 2 (cx 3)),
    (.cmp, ex 3 1 2 (cx 4)), (.cmp, ex 3 1 2 (cx 5)), (.cmp, ex 3 1 2 (cx 6)), (.cmp, ex 3 1 2 (cx 7)), (.cmp, ex 3 1 2 (cx 8)), (.cmp, ex 7 1 2 (cx 9)),
    (.pops, ex 2 7 15 (ax 0)), (.pops, ex 2 7 15 (ax 1)), (.pops, ex 2 7 15 (ax 2)), (.pops, ex 2 7 15 (ax 3)), (.fcmp, ex 1 1 2 (cx 0)), (.fcmp, ex 1 1 2 (cx 1)),
    (.fcmp, ex 1 1 2 (cx 2)), (.fcmp, ex 1 1 2 (cx 3)), (.fcmp, ex 1 1 2 (cx 4)), (.fcmp, ex 1 1 2 (cx 5)), (.fcmp, ex 1 1 2 (cx 6)), (.fcmp, ex 1 1 2 (cx 7))] →
    ∃ i, nums.Issues p.1 p.2 i := allIssue_issues (by decide)
theorem witness_IntegerResults : ∀ p, p ∈ [(Op.add, en 20 1 2), (.add, ex 0xF0 1 2 { tx 7 with sat := 1 }), (.sub, en 20 1 2), (.mul, en 20 1 2), (.mad, en 20 1 2), (.min, en 20 1 2),
    (.max, en 20 1 2), (.abs, en 20 1 0), (.neg, en 20 1 0), (.mulh, en 20 1 2), (.madw, ex 20 1 2 { tx 3 with sat := 1 }), (.addc, ex 20 1 2 (cx 0x7F)), (.subc, en 20 1 2),
    (.lea, exl 20 4 1 (ax 7) 1)] → ∃ i, nums.Issues p.1 p.2 i := allIssue_issues (by decide)
theorem witness_BitwiseShiftResults : ∀ p, p ∈ [(Op.and, en 20 1 2), (.or, en 20 1 2), (.xor, en 20 1 2), (.andn, en 20 1 2), (.not, en 20 1 0), (.brev, en 20 1 0), (.clz, en 20 1 0),
    (.popc, en 20 1 0), (.shl, el 20 1 0 32), (.shl, ex 20 1 2 { tx 9 with sat := 1, type := 8 }), (.shr, el 20 1 0 32), (.sra, ex 20 4 2 (tx 9)), (.rotl, el 20 1 0 32),
    (.bfx, el 20 1 0 0), (.bfx, exl 20 1 0 (tx 8) 0xFF1F), (.bfi, ex 20 1 2 (cx 3))] → ∃ i, nums.Issues p.1 p.2 i := allIssue_issues (by decide)
theorem witness_PackedResults : ∀ p, p ∈ [(Op.add2, en 20 1 2), (.add2, ex 20 1 2 { tx 0x16 with sat := 1 }), (.sub2, ex 20 1 2 (ax 1)), (.mul2, en 20 1 2), (.mac2, en 20 1 2),
    (.shrn, ex 20 1 2 { tx 7 with rnd := 5 }), (.shrn, ex 20 1 2 (tx 1)), (.shrn, ex 20 2 2 { tx 0x10 with rnd := 4 }), (.shrn, ex 20 4 2 (tx 0x16)), (.pk2, ex 20 1 2 (ax 3)),
    (.pk2, ex 20 1 2 { tx 0 with sat := 1 }), (.unpk, ex 20 1 0 { tx 0x15 with aux := 7 }), (.unpk, ex 20 1 0 { tx 0x16 with aux := 3 })] →
    ∃ i, nums.Issues p.1 p.2 i := allIssue_issues (by decide)
theorem witness_FloatResults : ∀ p, p ∈ [(Op.fadd, en 20 1 2), (.fadd, ex 20 1 2 { tx 0xA with rnd := 4, sat := 1 }), (.fsub, ex 20 1 2 (tx 0xB)), (.fmul, en 20 1 2), (.ffma, en 20 1 2),
    (.fmin, en 20 1 2), (.fmax, en 20 1 2), (.fneg, ex 20 1 0 (tx 0x11)), (.fneg, ex 20 1 0 (tx 0xA)), (.fneg, en 20 1 0), (.fabs, en 20 1 0), (.fcls, ex 20 1 0 (tx 0xF)), (.frnd, en 20 1 0)] →
    ∃ i, flts.Issues p.1 p.2 i := allIssue_issues (by decide)
theorem witness_ConvertedResults : ∀ p, p ∈ [(Op.frcp, en 20 1 0), (.frsq, en 20 1 0), (.fsqrt, en 20 1 0), (.fdiv, en 20 1 2), (.fex2, en 20 1 0), (.flg2, en 20 1 0), (.fsin, en 20 1 0),
    (.fcos, en 20 1 0), (.hadd2, en 20 1 2), (.hmul2, en 20 1 2), (.hfma2, en 20 1 2), (.cvt, ex 20 1 0 { tx 8 with c := 0xC, rnd := 5 }), (.cvt, ex 20 2 0 { tx 0xC with c := 9 }),
    (.cvpk, en 20 1 2), (.cvpk, ex 20 4 8 (tx 0x15)), (.cvup, en 20 1 0), (.cvup, ex 20 1 0 { tx 0x15 with aux := 1 })] →
    ∃ i, flts.Issues p.1 p.2 i := allIssue_issues (by decide)
theorem witness_VoteResults : ∀ p, p ∈ [(Op.vote, ex 2 1 0 (ax 0)), (.vote, ex 2 9 0 (ax 1)), (.vote, ex 2 1 0 (ax 2)), (.vote, ex 20 1 0 (ax 3)), (.vote, ex 20 1 0 (ax 4)),
    (.matchOp, en 20 2 0), (.matchOp, ex 20 2 0 { ax 1 with c := 3 }), (.elect, en 20 1 0), (.lbc, el 20 2 0 2), (.lbc, el 20 2 0 9)] →
    ∃ i, four.Issues p.1 p.2 i := allIssue_issues (by decide)
/-- Of the same instructions some lanes are active and others not: the guard is p1, true in lanes 1 and 3. -/
theorem witness_VoteResults_guarded : ∃ i, four.Issues .vote { ex 20 1 0 (ax 3) with guard := 1 } i ∧ (i.act.length == 2 && i.live.length == 4) = true :=
  issuesWith_issues (by decide)
theorem witness_SlideResults : ∀ p, p ∈ [(Op.sld, exl 20 2 3 (ax 0) 0), (.sld, exl 20 2 3 (ax 1) 255), (.sld, exl 20 2 3 (ax 2) 1), (.sld, exl 20 2 3 (ax 3) 8), (.shfl, exl 20 2 0 (ax 0) 3),
    (.shfl, exl 20 2 0 (ax 1) 1), (.shfl, exl 20 2 0 (ax 2) 4), (.shfl, exl 20 2 0 (ax 3) 1)] → ∃ i, four.Issues p.1 p.2 i := allIssue_issues (by decide)
theorem witness_FoldResults : ∀ p, p ∈ [(Op.wrdx, ex 20 2 0 { ax 0 with sat := 1 }), (.wrdx, ex 20 2 0 (ax 1)), (.wrdx, ex 20 2 0 (ax 2)), (.wrdx, ex 20 2 0 (ax 3)), (.wrdx, ex 20 2 0 (ax 4)),
    (.wrdx, ex 20 2 0 (ax 5)), (.wrdx, ex 20 2 0 { tx 0xC with rnd := 4 }), (.wrdx, ex 20 2 0 { tx 0xC with aux := 2 }), (.wscan, ex 20 2 0 (cx 0)), (.wscan, ex 20 2 0 (cx 1)),
    (.wscan, ex 20 2 0 { tx 0xC with c := 1, aux := 1 })] → ∃ i, four.Issues p.1 p.2 i := allIssue_issues (by decide)
theorem witness_SpecialRegisterResults : (∀ p, p ∈ [(Op.nop, en 0 0 0), (.sflg, en 20 0 0), (.sflg, exl 20 0 0 (ax 1) 0x3F), (.movs, en 20 0 0), (.movs, en 20 14 0), (.movs, en 20 16 0), (.movs, en 20 22 0),
    (.movs, en 20 23 0), (.movs, en 20 24 0), (.movs, en 20 26 0), (.movs, en 20 28 0), (.movs, en 20 30 0)] → ∃ i, nums.Issues p.1 p.2 i)
    ∧ ∃ i, nums.Issues .movs (en 20 0 0) i ∧ ((nums.grid? i.team.grid).isSome && (i.actors 0).length == 1 && (nums.thread? i.team.id 0).isSome) = true :=
  ⟨allIssue_issues (by decide), issuesWith_issues (by decide)⟩
theorem witness_TransferResults : (∀ p, p ∈ [(Op.bra, el 0 0 0 0x10), (.brx, en 0 4 0), (.brxRel, ex 0 6 0 (ax 1)), (.call, el 30 0 0 0x10), (.callX, ex 30 4 0 (ax 1)), (.ret, en 0 4 0)] →
    ∃ i, jumper.Issues p.1 p.2 i) ∧ ∃ i, four.Issues .bra ⟨1, 1, 0, 0, 0, 0, none, some 0x10⟩ i ∧ ((i.actors 0).isEmpty && (i.actors 1).length == 1) = true :=
  ⟨allIssue_issues (by decide), issuesWith_issues (by decide)⟩

/-- A thread in `k` regions, the last of them at this packet. -/
def nested (k : Nat) : State := jumper.updThread 0 0 (fun th => { th with stack := (List.range k).map (fun n => ⟨n, 0x2000⟩) })

theorem witness_RegionResults : (∃ i, jumper.Issues .exit (en 0 0 0) i) ∧ (∃ i, jumper.Issues .rgp (en 0 0 0) i)
    ∧ (∃ i, (nested 15).Issues .rgn (el 0 0 0 0x40) i ∧ i.act.all (fun l => decide (l.th.stack.length < 16)) = true)
    ∧ (∃ i, (nested 16).Issues .rgn (el 0 0 0 0x40) i ∧ i.act.any (fun l => decide (16 ≤ l.th.stack.length)) = true)
    ∧ (∃ i, (nested 1).Issues .join (en 0 0 0) i ∧ i.act.all (fun l => l.th.stack.head?.any (fun r => r.label == i.turn.pc)) = true)
    ∧ ∃ i, (nested 0).Issues .join (en 0 0 0) i ∧ i.act.any (fun l => !((l.th.stack.head?.map Region.label) == some i.turn.pc)) = true := by
  obtain ⟨i1, h1, -⟩ := issuesWith_issues (s := jumper) (op := .exit) (e := en 0 0 0) (p := fun _ => true) (by decide)
  obtain ⟨i2, h2, -⟩ := issuesWith_issues (s := jumper) (op := .rgp) (e := en 0 0 0) (p := fun _ => true) (by decide)
  exact ⟨⟨i1, h1⟩, ⟨i2, h2⟩, issuesWith_issues (by decide), issuesWith_issues (by decide), issuesWith_issues (by decide), issuesWith_issues (by decide)⟩

theorem witness_PartEnd : four.turn = some turn0 ∧ turn0.more = [] ∧ turn0.only = none ∧ turn0.wake = false ∧ four.dbg.stepping = none
    ∧ ∃ tm w, four.team? turn0.team = some tm ∧ tm.warp? turn0.warp = some w ∧ tm.calm = true ∧ (tm.warps.all (fun v => v.stop.isEmpty) && tm.threads.all (fun a => a.wait == .run)) = true
      ∧ (tm.thread? 0).isSome = true ∧ w.lanes.contains (some 0) = true := by
  exact ⟨by decide, by decide, by decide, by decide, by decide, (four.team? 0).get (by decide), (((four.team? 0).get (by decide)).warp? 0).get (by decide), by decide⟩
theorem witness_VisibleResults : ∃ a : Thread, a.pend.map Pend.src = [.fixed 2, .mem 0] :=
  ⟨({ startThread (launchOf 1) 0 0 0 0 with pend := [⟨.reg 1, 5, .fixed 2, false⟩, ⟨.reg 2, 6, .mem 0, false⟩] } : Thread), by decide⟩
theorem witness_FormationResults : ∃ (t : Team) (w : Nat) (ids : List Nat), 0 < w ∧ (t.form w ids none 0).warps.length = 2 ∧ t.threads.length = 4 :=
  ⟨(four.team? 0).get (by decide), 2, [0, 1, 2, 3], by decide, by decide, by decide⟩

/-- Where an instruction's lowest lane finds its place, by its cause where it finds none. -/
def placeIs (s : State) (op : Op) (e : Enc) (r : Sum (BitVec 16) Place) : Bool := issuesWith s op e (fun i => (i.act.head?).any (fun l =>
  match i.place s l with
  | .ok p => r == .inr p
  | .error c => r == .inl c))

/-- A team whose thread has the 64-bit address `a`, with a second page of 1 GiB of the given rights at 2 ^ 30 of its addresses. -/
def at_ (a : Nat) (rights : Nat) : State :=
  let s := ready 1 [(4, BitVec.ofNat 32 a), (5, BitVec.ofNat 32 (a / 2 ^ 32))]
  { s with mm := s.mm.setBytes 0x1008 (bytesOf 8 rights) }

/-- The same inside a trap handler. -/
def handling (a : Nat) : State :=
  let s := at_ a 0
  { s with wk := { s.wk with teams := s.wk.teams.map (fun t => { t with warps := t.warps.map (fun w => { w with trap := some 0 }) }) } }

theorem witness_AccessChecks : placeIs (at_ (2 ^ 48) 0) .ld (en 20 4 0) (.inl 0x10) = true ∧ placeIs (at_ (2 ^ 48 - 1) 0) .ld (en 20 4 0) (.inl 0x11) = true
    ∧ placeIs (at_ (2 ^ 48 - 4) 0) .ld (en 20 4 0) (.inl 0x12) = true ∧ placeIs (at_ (2 ^ 30) 0x13) .ld (en 20 4 0) (.inl 0x13) = true
    ∧ placeIs (at_ (2 ^ 30) 0x17) .ld (en 20 4 0) (.inr (.mem (.phys 0 0))) = true ∧ placeIs (at_ (2 ^ 30) 0x17) .st (en 0 4 6) (.inl 0x13) = true
    ∧ placeIs (at_ (2 ^ 30) 0x1B) .atom (ex 20 4 6 (sx 1)) (.inl 0x13) = true ∧ placeIs (at_ (2 ^ 30) 0x1F) .red (ex 0 4 6 (sx 3)) (.inr (.mem (.phys 0 0))) = true
    ∧ placeIs (at_ 2048 0) .st (ex 0 4 6 { tx 0 with space := 1 }) (.inl 0x14) = true ∧ placeIs (at_ 2045 0) .st (ex 0 4 6 { tx 0 with space := 1 }) (.inl 0x14) = true
    ∧ placeIs (at_ 2042 0) .st (ex 0 4 6 { tx 0 with space := 1 }) (.inl 0x11) = true ∧ placeIs (at_ 2044 0) .st (ex 0 4 6 { tx 0 with space := 1 }) (.inr (.spad 0 2044)) = true
    ∧ placeIs barred .st (exl 0 4 5 { tx 0 with space := 1 } 0x10C) (.inl 0x17) = true ∧ placeIs barred .ld (exl 20 4 0 { tx 0 with space := 1 } 0x10C) (.inr (.spad 0 0x10C)) = true
    ∧ placeIs (handling 0x1000FC) .ld (ex 20 4 0 { tx 0 with space := 1 }) (.inr (.frame 0 0xFC)) = true ∧ placeIs (handling 0x100100) .ld (ex 20 4 0 { tx 0 with space := 1 }) (.inl 0x14) = true
    ∧ placeIs (handling 0x1000FA) .ld (ex 20 4 0 { tx 0 with space := 1 }) (.inl 0x11) = true ∧ placeIs (at_ 0x1000FC 0) .ld (ex 20 4 0 { tx 0 with space := 1 }) (.inl 0x14) = true
    ∧ placeIs (at_ 8 0) .ld (ex 20 4 0 { tx 0 with space := 2, aux := 2 }) (.inl 0x15) = true ∧ placeIs (at_ 8 0) .ld (ex 20 4 0 { tx 0 with space := 2 }) (.inr (.spad 0 8)) = true
    ∧ placeIs (at_ 8 0) .st (ex 0 4 6 { tx 0 with space := 3 }) (.inl 0x16) = true ∧ placeIs (at_ (2 ^ 28) 0) .ld (ex 20 4 0 { tx 0 with space := 3 }) (.inl 0x14) = true
    ∧ placeIs (at_ (2 ^ 28 - 2) 0) .ld (ex 20 4 0 { tx 0 with space := 3 }) (.inl 0x14) = true ∧ placeIs (at_ 2 0) .ld (ex 20 4 0 { tx 0 with space := 3 }) (.inl 0x11) = true
    ∧ placeIs (at_ (2 ^ 28 - 4) 0) .ld (ex 20 4 0 { tx 0 with space := 3 }) (.inr (.ws (2 ^ 28 - 4))) = true := by decide +kernel
/-- A crew member whose share has been given back (08 R158). -/
theorem witness_AccessChecks_freed : ∃ i, (four.updTeam 0 (fun t => { t with freed := true })).Issues .st (ex 0 0xF0 3 { tx 0 with space := 2 }) i ∧ i.team.freed = true :=
  issuesWith_issues (by decide)

/-- Where no L1 holds a dirty byte or an exclusive line and nothing is on its way, every core sees L2. -/
theorem bare_quiet {s : State} (h : (s.mm.l1.all (fun p => p.2.excl.isEmpty && p.2.dirty.isEmpty) && s.mm.wbs.isEmpty
    && s.mm.wf && Table.sorted s.mm.l1 && Table.sorted s.mm.hist) = true) : s.memOk ∧ s.Settled ∧ ∀ c, s.Quiet c := by
  simp only [Bool.and_eq_true, List.isEmpty_iff, List.all_eq_true] at h
  obtain ⟨⟨⟨⟨h1, h2⟩, h3⟩, h4⟩, h5⟩ := h
  have hd : ∀ {c l k ws}, (c, l) ∈ s.mm.l1 → (k, ws) ∈ l.dirty → False := fun hl hk => by
    have := (h1 _ hl).2
    simp_all
  have hm : s.memOk := ⟨h3, h4, h5, fun c l hl => ⟨by rw [show l.dirty = [] from (h1 _ hl).2]; rfl, fun k ws w hk => (hd hl hk).elim⟩, by simp [h2]⟩
  exact ⟨hm, ⟨h2, fun c l hl => (h1 _ hl).1⟩, fun c => ⟨hm, fun c l hl _ => (h1 _ hl).1, fun l k ws hl hk => (hd hl hk).elim, by simp [h2]⟩⟩

theorem witness_LoadResults : (∀ p, p ∈ [(Op.ld, en 20 4 0), (.ld, ex 20 4 0 (tx 5)), (.ld, ex 20 4 0 (tx 6)), (.ld, ex 20 4 0 (ax 1)), (.ld, ex 20 4 0 (ox 6 1)), (.ld, ex 20 4 0 { tx 0 with space := 1 })] →
    ∃ i, memer.Issues p.1 p.2 i) ∧ memer.Settled ∧ memer.Quiet 0 ∧ placeIs memer .ld (en 20 4 0) (.inr (.mem (.phys 0x4000 0))) = true :=
  ⟨allIssue_issues (by decide), (bare_quiet (by decide)).2.1, (bare_quiet (by decide)).2.2 0, by decide⟩
theorem witness_ReadOnlyResults : ∀ p, p ∈ [(Op.ldc, en 20 4 0), (.ldc, ex 20 4 0 (tx 7)), (.ldcinv, en 0 0 0), (.prf, en 0 4 0), (.prf, ex 0 4 0 (ax 2))] → ∃ i, memer.Issues p.1 p.2 i :=
  allIssue_issues (by decide)
theorem witness_StoreResults : (∀ p, p ∈ [(Op.st, en 0 4 6), (.st, ex 0 4 6 (ox 2 2)), (.st, ex 0 4 6 { tx 1 with cache := 5 }), (.st, ex 0 4 6 { tx 4 with space := 1 })] → ∃ i, memer.Issues p.1 p.2 i)
    ∧ memer.Quiet 0 ∧ placeIs memer .st (en 0 4 6) (.inr (.mem (.phys 0x4000 0))) = true ∧ placeIs (at_ (2 ^ 32) 0) .st (en 0 4 6) (.inl 0x12) = true ∧ placeIs (at_ 2 0) .st (en 0 4 6) (.inl 0x11) = true
    ∧ memer.pkg.backed 0x4000 = true ∧ memer.pkg.lostHome 0x4000 = false ∧ placeIs (at_ (2 ^ 30) 0x9F) .st (en 0 4 6) (.inr (.mem (.phys 0 2))) = true :=
  ⟨allIssue_issues (by decide), (bare_quiet (by decide)).2.2 0, by decide +kernel⟩
theorem witness_AtomicResults : ∀ p, p ∈ [(Op.atom, ex 20 4 6 (sx 1)), (.atom, ex 20 4 6 { sx 5 with c := 1, type := 8 }), (.atom, ex 20 4 6 { sx 6 with order := 3 }), (.atom, ex 20 4 6 { sx 2 with c := 7 }),
    (.atom, ex 20 4 6 { sx 2 with c := 2, type := 0xC }), (.atom, ex 20 4 6 { sx 1 with space := 1, c := 6 }), (.cas, ex 20 4 6 { sx 1 with c := 8 }), (.cas, ex 20 4 6 { sx 1 with c := 7, type := 3 })] →
    ∃ i, memer.Issues p.1 p.2 i := allIssue_issues (by decide)
theorem witness_ReductionResults : ∀ p, p ∈ [(Op.red, ex 0 4 6 (sx 1)), (.red, ex 5 4 6 (ox 5 2)), (.redDet, ex 0 4 6 { sx 3 with c := 8, aux := 1 })] → ∃ i, memer.Issues p.1 p.2 i := allIssue_issues (by decide)
theorem witness_FenceResults : (∀ p, p ∈ [(Op.fence, ex 0 0 0 (ox 1 1)), (.fence, ex 0 0 0 (ox 1 2)), (.fence, ex 0 0 0 (ox 3 2)), (.fence, ex 0 0 0 (ox 5 4))] → ∃ i, memer.Issues p.1 p.2 i)
    ∧ (memer.grid? 0).isSome = true ∧ memer.Quiet 0 := ⟨allIssue_issues (by decide), by decide, (bare_quiet (by decide)).2.2 0⟩

/-- The number of engine commands, and of tile commands in the window, that there are after an instruction. -/
def commands (s : State) (op : Op) (e : Enc) : Nat :=
  ((after (exec (op.instr e) s)).map (fun t => t.eng.cmds.length + ((t.team? 0).map (fun m => m.window.length)).getD 0)).getD 0

/-- An instruction makes its warp trap with a cause. -/
def traps (s : State) (op : Op) (e : Enc) (cause : BitVec 16) : Bool :=
  issuesWith s op e (fun _ => true)
  && (after (exec (op.instr e) s)).any (fun t => (t.team? 0).any (fun m => m.traps.any (fun r => r.req.cause == cause)))

/-- An instruction issues, has one performance, and does not trap. -/
def goesOn (s : State) (op : Op) (e : Enc) : Bool :=
  issuesWith s op e (fun i => i.perf.length == 1)
  && (after (exec (op.instr e) s)).any (fun t => t.wk.teams.all (fun m => m.traps.isEmpty && m.threads.all (fun th => th.faults.isEmpty)))

/-- So its statement has a state and an issue to be about. -/
theorem goesOn_issues {s : State} {op : Op} {e : Enc} (h : goesOn s op e = true) : ∃ i, s.Issues op e i ∧ (i.perf.length == 1) = true :=
  issuesWith_issues (Bool.and_eq_true _ _ |>.mp h).1

/-- 15 R286: `binit` of a place that is not aligned, beyond the scratchpad, on another barrier, beyond the quota of two, of no count, of the
largest count and of one more; and of each good one, the issue. -/
theorem witness_BarrierInitResults : (∃ i, barrer.Issues .binit (en 20 4 5) i ∧ (i.perf.length == 1) = true)
    ∧ traps (ready 1 [(4, 8), (5, 1)]) .binit (en 20 4 5) 0x17 = true ∧ traps (ready 1 [(4, 2048), (5, 1)]) .binit (en 20 4 5) 0x14 = true
    ∧ goesOn (ready 1 [(4, 2032), (5, 4095)]) .binit (en 20 4 5) = true ∧ traps (ready 1 [(4, 0), (5, 4096)]) .binit (en 20 4 5) 0x23 = true
    ∧ traps (ready 1 [(4, 0), (5, 0)]) .binit (en 20 4 5) 0x23 = true
    ∧ traps (barred.updThread 0 0 (fun th => { th with regs := [(4, 0x100), (5, 1)] })) .binit (en 20 4 5) 0x17 = true
    ∧ traps { barrer with wk := { barrer.wk with bars := [(0, ⟨0, some 0, 0, [], 0, []⟩), (1, ⟨0, some 0, 16, [], 0, []⟩)] } } .binit (en 20 4 5) 0x22 = true :=
  ⟨goesOn_issues (by decide +kernel), by decide +kernel⟩
/-- A barrier of one arrival: its update with none leaves the phase, with one ends it, and with two holds one. -/
theorem witness_BarrierUpdateResults : ∃ t, barred.team? 0 = some t ∧ ((t.barObj 0x100).expect == 1 && (t.barObj 0x100).arrived == 0 && (t.barObj 0x100).pending == 0) = true
    ∧ ((barred.barUpdate 0 0 0 0 0 0 1).team? 0).any (fun t => (t.barObj 0x100).phase == 0) = true
    ∧ ((barred.barUpdate 0 0 0 1 0 0 1).team? 0).any (fun t => (t.barObj 0x100).phase == 1) = true
    ∧ ((barred.barUpdate 0 0 0 0 0 5 1).team? 0).any (fun t => (t.barObj 0x100).pending == 5) = true
    ∧ ((barred.barUpdate 0 0 0 0 2 3 1).barEntry 0 0).held = [1] := ⟨(barred.team? 0).get (by decide +kernel), by decide +kernel⟩
theorem witness_BarrierArriveResults : (∃ i, barred.Issues .barr (en 20 4 0) i ∧ (i.perf.length == 1) = true)
    ∧ goesOn barred .bexp (en 0 4 5) = true ∧ goesOn barred .bexp (ex 20 4 5 (ax 1)) = true
    ∧ traps (barred.updThread 0 0 (fun th => { th with regs := [(4, 1)] })) .barr (en 20 4 0) 0x21 = true
    ∧ goesOn (barred.updThread 0 0 (fun th => { th with regs := [(4, 0), (5, 0x7FFFFFFF)] })) .bexp (en 0 4 5) = true
    ∧ traps (barred.updThread 0 0 (fun th => { th with regs := [(4, 0), (5, 0x80000000)] })) .bexp (en 0 4 5) 0x23 = true
    ∧ traps (barred.barUpdate 0 0 0 1 0 4 1) .barr (en 20 4 0) 0x23 = true := ⟨goesOn_issues (by decide +kernel), by decide +kernel⟩
theorem witness_BarrierWaitResults : (∃ i, barred.Issues .bwait (en 0 4 5) i ∧ (i.perf.length == 1) = true) ∧ goesOn barred .btry (en 1 4 5) = true
    ∧ goesOn barred .binv (en 0 4 0) = true ∧ goesOn (barred.barUpdate 0 0 0 1 0 0 1) .bwait (en 0 4 5) = true
    ∧ traps barrer .bwait (en 0 5 5) 0x21 = true ∧ traps barrer .binv (en 0 5 0) 0x21 = true
    ∧ traps (barred.updThread 0 0 (fun th => { th with asyncs := th.asyncs })) .btry (en 1 0xF4 5) 0x21 = true
    ∧ barred.barBusy 0 0 = false := ⟨goesOn_issues (by decide +kernel), by decide +kernel⟩

/-! #### Engine commands -/

/-- A layout record of 16 bytes from `base`, one dimension. -/
def layout16 (base : Nat) : BitVec 512 := mkRec [(0, base), (8, 16), (0x30, 15)]
/-- A block of one product of 16 x 2 x 16 elements of two bytes, whose scope is the team's. -/
def block16 : BitVec 512 := mkRec [(0, 0x8000 + 0xA * 2 ^ 54), (8, 0x8800 + 0xA * 2 ^ 54), (0x10, 32), (0x14, 32), (0x18, 16 + 2 * 2 ^ 8 + 16 * 2 ^ 16 + 1 * 2 ^ 40)]
/-- A block of a move of 16 x 16 elements of four bytes. -/
def move16 : BitVec 512 := mkRec [(0, 0x8000 + 8 * 2 ^ 54), (0x10, 64), (0x18, 16 + 16 * 2 ^ 8 + 1 * 2 ^ 40)]
/-- A block of scaled products of 16 x 16 x 16 elements of one byte, into tile 0 with its partial tile 1. -/
def scaled16 : BitVec 512 := mkRec [(0, 0x8000 + 0xD * 2 ^ 54), (8, 0x8800 + 0xD * 2 ^ 54), (0x10, 16), (0x14, 16),
  (0x18, 16 + 16 * 2 ^ 8 + 16 * 2 ^ 16 + 1 * 2 ^ 35 + 2 ^ 38 + 1 * 2 ^ 40), (0x28, 0x9000 + 1 * 2 ^ 48), (0x30, 0x9100 + 1 * 2 ^ 48)]
/-- A block of a gather and scatter through map 0x2001, on one column. -/
def scatter16 : BitVec 512 := mkRec [(0, 0x8000 + 0xA * 2 ^ 54), (8, 0x8800 + 0xA * 2 ^ 54), (0x10, 32), (0x14, 32), (0x18, 1 * 2 ^ 8 + 16 * 2 ^ 16 + 1 * 2 ^ 40),
  (0x20, 4 * 2 ^ 32), (0x28, 0x9000), (0x30, 0x2001)]
/-- A child's record: one team of one thread. -/
def child : Nat := 1 + 2 ^ 8 + 0x3000 * 2 ^ 64 + 2 ^ 128 + 2 ^ 160 + 2 ^ 192 + (1 + 2 ^ 16) * 2 ^ 224 + (1 + 8 * 2 ^ 18 + 2 ^ 23) * 2 ^ 256 + 1 * 2 ^ 320

/-- A thread with registers, those of the records from 0x5000 on in memory that a register names, a table and a map as objects, an expert
queue and a peer window. -/
def user (regs : Table Word) : State :=
  let s := ready 1 regs
  let recs : List (Nat × BitVec 512) := [(0x5000, layout16 0x4000), (0x5040, layout16 0x4100), (0x5080, mkRec [(8, 0x4000), (0x10, 1 + 4 * 2 ^ 32), (0x18, 0x6000)]),
    (0x50C0, mkRec [(8, 0x1000 + 0x1000 * 2 ^ 32), (0x10, 0x6100), (0x18, 2), (0x20, 1 + 2 ^ 8 + 2 ^ 16 + 2 ^ 24 + 2 ^ 32)]), (0x5100, mkRec [(8, 0x4000), (0x10, 0x4100), (0x18, 0x4200)]),
    (0x5140, mkRec [(8, 0x4000), (0x10, 0x4100), (0x18, 1)]), (0x5180, block16), (0x51C0, move16), (0x5200, scaled16), (0x5240, scatter16), (0x5280, mkRec [(0, 1)])]
  let named (a : Nat) : Bool := regs.any (fun p => p.2.toNat == a)
  let cells (a n v : Nat) : List Host.Cell := (bytesOf n v).zipIdx.filterMap (fun p => if p.1 = 0 then none else some ⟨a + p.2, p.1⟩)
  { s with mm := { s.mm with cells := s.mm.cells ++ (recs.filter (fun r => named r.1)).flatMap (fun r => cells r.1 64 r.2.toNat) ++ if named 0x5300 then cells 0x5300 128 child else [] },
           eng := { s.eng with objs := [(0, ⟨0, 0, .table 0x6000 4 0 0, false⟩), (1, ⟨0, 0, .map 0x6100 2 1 true, false⟩)],
                               xqs := [(0, ⟨mkRec [(0, 1 + 2 ^ 9 + 2 ^ 21)], [], some (0, 0), [], [], 0, 0, []⟩)] },
           pkg := { s.pkg with windows := [(3, ⟨1, 0, 0x1000, 0x4800⟩)] } }

theorem witness_QueueEntryResults : ∃ i, (user [(4, 0x5000), (6, 0x5040)]).Issues .cpy (ex 0xF0 4 0 { sx 1 with c := 4 }) i
    ∧ (((user [(4, 0x5000), (6, 0x5040)]).badRecord i (.copy 0) [0x5000, 0x5040]).isNone
      && ((user [(4, 0x5000), (6, 0x5040)]).badRecord i (.copy 0) [0x5000, 0x5001, 0x1000000000000]).any (fun r => r.cause == 0x11 && r.detail == 0x5001)) = true := issuesWith_issues (by decide +kernel)

/-- Each command is accepted, and what refuses one makes its warp trap: a layout that is no layout, a stale barrier, a length of 2 ^ 32,
a window that is not open, a size beyond the limit. -/
theorem witness_CopyResults : (∃ i, (user [(4, 0x5000), (6, 0x5040)]).Issues .cpy (ex 0xF0 4 0 { sx 1 with c := 4 }) i ∧ (i.perf.length == 1) = true)
    ∧ commands (user [(4, 0x5000), (6, 0x5040)]) .cpy (ex 0xF0 4 0 { sx 1 with c := 4 }) = 1 ∧ traps (user [(4, 0x5280), (6, 0x5040)]) .cpy (ex 0xF0 4 0 { sx 1 with c := 4 }) 0x30 = true
    ∧ traps (user [(4, 0x5000), (6, 0x5041)]) .cpy (ex 0xF0 4 0 { sx 1 with c := 4 }) 0x11 = true ∧ traps (user [(4, 0x5000), (6, 0x5040)]) .cpy (ex 0 4 0 { sx 1 with c := 4 }) 0x21 = true
    ∧ commands (user [(4, 0x4000), (6, 0x4100), (8, 16)]) .cpys (ex 0xF0 4 8 (sx 1)) = 1 ∧ commands (user [(4, 0x4000), (6, 0x4100)]) .cpys (ex 0xF0 4 8 (sx 5)) = 1
    ∧ commands (user [(4, 0x4000), (8, 7), (9, 16)]) .cpyw (ex 0xF0 4 8 { sx 2 with c := 9 }) = 1 ∧ traps (user [(4, 0x4000)]) .cpyw (ex 9 4 8 { sx 2 with c := 9 }) 0x21 = true
    ∧ commands (user [(4, 0x4000), (8, 0x1000000), (9, 3)]) .put (ex 0xF0 4 8 { sx 5 with c := 9 }) = 1 ∧ traps (user [(4, 0x4000), (8, 0x1000001), (9, 3)]) .put (ex 0xF0 4 8 { sx 5 with c := 9 }) 0x30 = true
    ∧ traps (user [(4, 0x4000), (8, 1), (9, 4)]) .put (ex 0xF0 4 8 { sx 5 with c := 9 }) 0x30 = true
    ∧ goesOn (user [(4, 0x5000)]) .lrinv (en 0 4 0) = true ∧ traps (user [(4, 0x5020)]) .lrinv (en 0 4 0) 0x11 = true ∧ traps (user [(5, 0x10000)]) .lrinv (en 0 4 0) 0x10 = true
    ∧ commands (user []) .qfence (ex 0 0 0 (cx 15)) = 1 ∧ goesOn (user []) .qfence (ex 0 0 0 (cx 1)) = true := ⟨goesOn_issues (by decide +kernel), by decide +kernel⟩

/-- Of each kind of record one that is accepted, and a free with a table, with no object, and with the table full. -/
theorem witness_CoordinateObjectResults : ((user []).object? 0 0x1000 [1]).isSome = true ∧ (user []).object? 0 0x1001 [1, 2] = none ∧ ((user []).object? 0 0x2001 [1, 2]).isSome = true
    ∧ (user []).freeObj 0 = some 2 ∧ (user []).freeObj 3 = some 0
    ∧ ([1, 2, 3, 4, 5] : List Nat).all (fun op => match (user []).coordAccept 0 0 (mkRec [(0, op), (8, if op = 2 then 0x100000001000 else 0x1000)]) with
        | .ok (h, hit, _) => !hit && h == (if op = 1 then 0x1002 else if op = 2 then 0x2002 else if op = 5 then 0x1000 else 0)
        | .error _ => false) = true
    ∧ ([1, 2, 5] : List Nat).all (fun op => match (user []).coordAccept 1 0 (mkRec [(0, op), (8, 0x1000), (0x28, 0x1000)]) with
        | .error (.stale h) => h == 0x1000
        | _ => false) = true := by decide +kernel

theorem witness_CoordinateResults : (∃ i, (user [(4, 0x5080)]).Issues .hbld (ex 20 4 0xF0 (sx 1)) i ∧ (i.perf.length == 1) = true)
    ∧ commands (user [(4, 0x5080)]) .hbld (ex 20 4 0xF0 (sx 1)) = 1 ∧ gives (user [(4, 0x5080)]) .hbld (ex 20 4 0xF0 (sx 1)) 0 [(20, 0x1002)] = true
    ∧ commands (user [(4, 0x50C0)]) .hprb (ex 20 4 0xF0 (sx 1)) = 1 ∧ gives (user [(4, 0x50C0)]) .hprb (ex 20 4 0xF0 (sx 1)) 0 [(20, 0x2002)] = true
    ∧ commands (user [(4, 0x5100)]) .mrg (ex 0 4 0xF0 (sx 1)) = 1 ∧ commands (user [(4, 0x5140)]) .scn (ex 0 4 0xF0 (sx 5)) = 1
    ∧ commands (user [(4, 0x1000)]) .hfree (ex 0 4 0xF0 (sx 1)) = 1 ∧ traps (user [(4, 0x1002)]) .hfree (ex 0 4 0xF0 (sx 1)) 0x21 = true
    ∧ traps (user [(4, 0x5280)]) .hbld (ex 20 4 0xF0 (sx 1)) 0x33 = true ∧ traps (user [(4, 0x5080)]) .scn (ex 0 4 5 (sx 1)) 0x21 = true
    ∧ traps (user [(4, 0x5081)]) .mrg (ex 0 4 0xF0 (sx 1)) 0x11 = true := ⟨goesOn_issues (by decide +kernel), by decide +kernel⟩
theorem witness_LookupTokenResults : (∃ i, (user [(4, 7), (8, 0x1000)]).Issues .hlk (en 20 4 8) i ∧ (i.perf.length == 1) = true)
    ∧ commands (user [(4, 7), (8, 0x1000)]) .hlk (en 20 4 8) = 1 ∧ traps (user [(4, 7), (8, 0x2001)]) .hlk (en 20 4 8) 0x21 = true
    ∧ traps (user [(4, 0xFFFFFFFF), (5, 0xFFFFFFFF), (8, 0x1000)]) .hlk (en 20 4 8) 0x33 = true ∧ commands (user []) .xenq (ex 0 4 8 (sx 3)) = 1
    ∧ traps (user [(7, 0x80000)]) .xenq (ex 0 4 8 (sx 3)) 0x35 = true ∧ traps (user [(8, 511)]) .xenq (ex 0 4 8 (sx 5)) 0x35 = true ∧ traps (user []) .xtake (en 20 1 0) 0x35 = true
    ∧ commands { user [] with fe := { (user []).fe with grids := (user []).fe.grids.map (fun g => { g with batch := some (0, 0) }) } } .xtake (en 20 1 0) = 1 :=
  ⟨goesOn_issues (by decide +kernel), by decide +kernel⟩
theorem witness_TileResults : (∃ i, (user [(4, 0x5180)]).Issues .tmm (en 0 4 0) i ∧ (i.perf.length == 1) = true) ∧ commands (user [(4, 0x5180)]) .tmm (en 0 4 0) = 1
    ∧ commands (user [(4, 0x51C0)]) .tst (en 0 4 0) = 1 ∧ commands (user [(4, 0x51C0)]) .tldac (en 0 4 0) = 1 ∧ commands (user [(4, 0x5200)]) .tsacc (en 0 4 0) = 1
    ∧ commands (user [(4, 0x5240)]) .tgms (en 0 4 0) = 1 ∧ commands (user []) .tzero (en 1 0 0) = 1 ∧ traps (user []) .tzero (en 2 0 0) 0x31 = true
    ∧ commands (user []) .ttr (en 0 0 0) = 1 ∧ commands (user []) .tscl (el 1 0 0 0x40000000) = 1 ∧ goesOn (user []) .tflush (en 0 0 0) = true
    ∧ traps (user [(4, 0x5000)]) .tmm (en 0 4 0) 0x31 = true ∧ traps (user [(4, 0x5180)]) .tmmsp (en 0 4 8) 0x32 = true ∧ traps (user [(5, 0x10000)]) .tst (en 0 4 0) 0x10 = true :=
  ⟨goesOn_issues (by decide +kernel), by decide +kernel⟩

theorem witness_SystemResults : (∃ i, (user []).Issues .sysr (en 20 0x20 0) i ∧ (i.perf.length == 1) = true) ∧ gives (user []) .sysr (en 20 0x20 0) 0 [(20, 0xE424FF), (21, 0)] = true
    ∧ goesOn (user []) .brkpt (en 0 0 0) = true ∧ goesOn { user [] with dbg := { (user []).dbg with brks := [(0, [5])] } } .brkpt (en 0 0 0) = true
    ∧ goesOn (user []) .tmark (el 0 0 0 7) = true ∧ goesOn ((user []).updCtx 0 0 (fun r => { r with traceCtl := 0xFFFFFFFFFFFFFFF9 })) .tmark (el 0 0 0 7) = true
    ∧ goesOn ((user []).updThread 0 0 (fun th => { th with tcfg := th.tcfg ||| 8 })) .sysw (en 0 8 4) = true ∧ goesOn ((user []).updThread 0 0 (fun th => { th with tcfg := th.tcfg ||| 8 })) .sysr (en 20 0 0) = true :=
  ⟨goesOn_issues (by decide +kernel), by decide +kernel⟩
theorem witness_TrapInstructionResults : (∃ i, (user []).Issues .trap (en 0 5 0) i ∧ i.tmode = false)
    ∧ ∃ i, ((user []).updThread 0 0 (fun th => { th with tcfg := th.tcfg ||| 8 })).Issues .tret (en 0 0 0) i ∧ i.tmode = true :=
  ⟨by
    obtain ⟨i, h, hp⟩ := issuesWith_issues (s := user []) (op := .trap) (e := en 0 5 0) (p := fun i => !i.tmode) (by decide +kernel)
    exact ⟨i, h, by simpa using hp⟩, issuesWith_issues (by decide +kernel)⟩
theorem witness_SpawnResults : (∃ i, (user [(4, 0x5300)]).Issues .spawn (en 20 4 0xF0) i ∧ ((user [(4, 0x5300)]).grid? i.team.grid).any (fun g => g.depth == 0) = true)
    ∧ (after (exec (.spawn (en 20 4 0xF0)) (user [(4, 0x5300)]))).any (fun t => t.fe.grids.map Grid.depth == [0, 1]) = true
    ∧ traps { user [(4, 0x5300)] with fe := { (user []).fe with grids := (user []).fe.grids.map (fun g => { g with depth := 8 }) } } .spawn (en 20 4 0xF0) 0x25 = true
    ∧ traps (user [(4, 0x5300), (8, 5)]) .spawn (en 20 4 8) 0x21 = true ∧ traps (user [(4, 0x5340)]) .spawn (en 20 4 0xF0) 0x11 = true := ⟨issuesWith_issues (by decide +kernel), by decide +kernel⟩

/-! ### Witnesses of the hypotheses: traps, fetches and memory -/

/-- An instruction whose fields are wrong, one that no lane executes, one that goes beyond 48 bits, and one that waits for a load. -/
theorem witness_CheckResults : ((four.iss? .add (en 0xF1 1 2)).any (fun i => i.turn.only.isNone && i.illegal == some none && encodingOk i.nreg i.op i.e == false)) = true
    ∧ ((four.iss? .sysr (en 20 0 0)).any (fun i => i.illegal == some (some 0) && encodingOk i.nreg i.op i.e)) = true
    ∧ ((four.iss? .sysw (en 0 9 4)).any (fun i => i.illegal == some (some 9) && encodingOk i.nreg i.op i.e)) = true
    ∧ ((four.iss? .tret (en 0 0 0)).any (fun i => i.illegal == some none && encodingOk i.nreg i.op i.e && !i.tmode)) = true
    ∧ ((four.iss? .add { en 1 2 3 with guard := 0xF }).any (fun i => i.illegal == none && i.act.isEmpty)) = true
    ∧ (((ready 1 [(4, 0), (5, 0x10000)]).iss? .brx (en 0 4 0)).any (fun i => i.illegal == none && !i.act.isEmpty && i.farLanes.map Lane.lane == [0])) = true
    ∧ (let s := four.updThread 0 0 (fun th => { th with pend := [⟨.reg 2, 5, .mem 0, false⟩] })
      (s.iss? .add (en 1 2 3)).any (fun i => i.illegal == none && !i.act.isEmpty && i.farLanes.isEmpty && s.held i)) = true
    ∧ ((four.team? 0).bind (fun t => t.warp? 0)).isSome = true := by decide +kernel

/-- A trap that a warp has raised. -/
def asks (kind : Nat) (cause : BitVec 16) (o : Offer) : TrapReq := ⟨kind, cause, 0, 0, 0x2000, 0, 0, none, [], none, o, false⟩
/-- Four threads whose warp has raised it, in trap `k` or in none. -/
def asking (k : Option Nat) (r : TrapReq) : State :=
  let s := placed 4
  { s with wk := { s.wk with teams := s.wk.teams.map (fun t => { t with warps := t.warps.map (fun w => { w with want := [r], trap := k }) }) } }

theorem witness_TrapEntryResults : (let s := asking none (asks 0 0x60 .none)
      (s.team? 0).any (fun t => (t.warp? 0).any (fun w => t.id == 0 && w.id == 0 && decide (w.lanes.length ≤ 64) && w.want == [asks 0 0x60 .none] && t.slot == some 0))) = true
    ∧ (after (exec (.trapEntry 0 0) (asking none (asks 0 0x60 .none)))).any (fun t => (t.team? 0).any (fun m => m.traps.length == 1)) = true
    ∧ (after (exec (.trapEntry 0 0) (asking none (asks 1 0x12 .declined)))).any (fun t => (t.team? 0).any (fun m => m.traps.length == 1)) = true
    ∧ (after (exec (.trapEntry 0 0) (asking none (asks 2 0x04 .resolved)))).any (fun t => (t.team? 0).any (fun m => m.traps.isEmpty && m.warps.all (fun w => w.want.isEmpty))) = true
    ∧ (after (exec (.trapEntry 0 0) (asking none (asks 1 0x12 (.sent 3))))).any (fun t => (t.team? 0).any (fun m => m.traps.isEmpty && m.warps.all (fun w => !w.want.isEmpty))) = true
    ∧ (after (exec (.trapEntry 0 0) (asking (some 5) (asks 0 0x60 .none)))).any (fun t => (t.team? 0).any (fun m => m.ended)) = true
    ∧ (after (exec (.trapEntry 0 0) (asking (some 5) (asks 3 0x40 .none)))).any (fun t => (t.team? 0).any (fun m => m.traps.length == 1)) = true := by decide +kernel

/-- A trap frame of four lanes, each its own thread's, without flags. -/
def fourLanes : Table Byte := ((List.range 64).flatMap (fun k =>
  if k < 4 then [(0x80 + 2 * k, BitVec.ofNat 8 k)] else [(0x80 + 2 * k, 0xFF), (0x81 + 2 * k, 0xFF)])).filter (fun p => p.2 != 0)
/-- Four threads in the handler of a software trap, whose frame holds `v` at `off`. -/
def inTrap (off : Nat) (v : Byte) : State :=
  match after (exec (.trapEntry 0 0) (asking none (asks 0 0x60 .none))) with
  | some s => s.updTeam 0 (fun t => { t with traps := t.traps.map (fun r => { r with frame := Table.write 0 fourLanes off v }) })
  | none => placed 4
/-- The machine once that trap is returned from. -/
def returned (off : Nat) (v : Byte) : Option Team := ((inTrap off v).team? 0).bind (fun t => t.traps.head?.bind (fun r => ((inTrap off v).returnTrap 0 r).team? 0))

/-- ACTION 0, 1, 2 and 3; and a LANEMAP that names no thread of the warp in lane 0. -/
theorem witness_TrapReturnResults : (let s := inTrap 5 0
      (s.team? 0).any (fun t => t.traps.any (fun r => r.members.length == 4 && r.members.all (fun q => decide (q.thread < 0xFFFF) && decide (q.lane < 64))))) = true
    ∧ (returned 5 0).any (fun t => t.traps.isEmpty && !t.ended && t.threads.all (fun th => th.alive)) = true
    ∧ (returned 5 1).any (fun t => t.traps.isEmpty && !t.ended && t.threads.all (fun th => th.alive)) = true
    ∧ (returned 5 2).any (fun t => !t.ended && t.threads.all (fun th => !th.alive)) = true
    ∧ (returned 5 3).any (fun t => t.ended) = true ∧ (returned 0x80 9).any (fun t => t.ended) = true := by decide +kernel

/-- A team that is to fetch its first packet, in a legal one, in an illegal one, and at an address that is not aligned or not executable. -/
def fetching (bits : BitVec 128) (pc : VAddr) (rights : Nat) : State :=
  let s := (placed 1).updThread 0 0 (fun th => { th with pc := pc })
  let cells : List Host.Cell := (bytesOf 16 bits.toNat).zipIdx.filterMap (fun p => if p.1 = 0 then none else some (0x2000 + p.2, p.1))
  { s with mm := { s.mm with cells := [(0, 1), (1, 0x10), (0x1000, BitVec.ofNat 8 rights)] ++ cells } }

theorem witness_FetchReturnResults : (let s := fetching 0 0x2000 0x1F
      s.turn == none && (s.team? 0).any (fun t => (t.warp? 0).any (fun w => t.slot == some (s.core t.core).active && s.fetchDue t w && (t.lanesOf w).length == 1))) = true
    ∧ (after (exec (.packetFetch 0 0) (fetching 0 0x2000 0x1F))).any (fun s => s.wk.teams.all (fun t => t.warps.all (fun w => w.packet == some 0))) = true
    ∧ ([(3, 0x2000, 0x1F, 1), (0, 0x2008, 0x1F, 3), (0, 0x2000, 0x0F, 5)] : List (Nat × Nat × Nat × Nat)).all (fun p =>
        (after (exec (.packetFetch 0 0) (fetching (BitVec.ofNat 128 p.1) (BitVec.ofNat 48 p.2.1) p.2.2.1))).any (fun s =>
          s.wk.teams.all (fun t => t.traps.any (fun r => r.req.cause.toNat == p.2.2.2) || t.warps.any (fun w => w.want.any (fun r => r.cause.toNat == p.2.2.2))))) = true := by decide +kernel

/-- A contribution of 1 to the word at 0x4000, plain or of an epoch. -/
def sends (n : Nat) (det : Option (Nat × BitVec 40)) (st : RedState) : Contrib :=
  { n := n, grid := 0, ctx := 0, team := 0, thread := 0, core := 0, index := 0, issue := n, det := det, opcode := 0, type := 3, addr := 0x4000, val := 1, st := st }
/-- A machine on which contributions are on their way, and whose grid has closed one epoch. -/
def sending (cs : List Contrib) : State :=
  let s := placed 1
  { s with mm := { s.mm with contribs := cs }, fe := { s.fe with grids := s.fe.grids.map (fun g => { g with epoch := 1 }) } }

theorem witness_ContributionResults : (sending [sends 0 none .flight]).Settled ∧ (sending []).pkg.backed 0x4000 = true ∧ (∀ x, ((sending []).link x).asleep = false)
    ∧ (after (exec (.redArrival 0) (sending [sends 0 none .flight]))).any (fun s => s.mm.contribs.isEmpty && s.mm.byte 0x4000 == 1) = true
    ∧ (after (exec (.redArrival 1) (sending [sends 0 none .flight, sends 1 none .flight]))).any (fun s => s.mm.contribs.length == 2) = true
    ∧ (after (exec (.redArrival 0) (sending [sends 0 (some (0, 7)) .flight]))).any (fun s => s.mm.contribs.map Contrib.st == [.held]) = true
    ∧ (after (exec (.epochApply 0 0) (sending [sends 0 (some (0, 7)) .held, sends 1 (some (0, 3)) .held]))).any (fun s => s.mm.contribs.isEmpty && s.mm.byte 0x4000 == 2) = true :=
  ⟨(bare_quiet (by decide)).2.1, by decide, fun _ => rfl, by decide +kernel⟩
/-- A dirty store of one byte by a thread of core 0. -/
def dirtyByte (v : Byte) : Write := ⟨0, [0], [], none, 0, [v]⟩
/-- A line that an L1 holds exclusively and dirty, and one whose write-back is on its way. -/
def snooped (wbs : List WriteBack) : State :=
  let s := placed 1
  { s with mm := { s.mm with l1 := [(0, ⟨[], [(0x800, [dirtyByte 5])], [0x40], [], 0, []⟩)], wbs := wbs } }
theorem witness_SnoopWriteBackResults : (after (exec (.snoop 0 0x40) (snooped []))).any (fun s => s.mm.byte 0x4000 == 5 && (s.l1 0).excl.isEmpty) = true
    ∧ ((snooped []).mm.l1.filter (fun e => dieOf e.1 == 0 && e.2.excl.contains 0x40)).length = 1 ∧ (snooped [⟨0, 0, 0x40, [(0x800, [dirtyByte 6])]⟩]).mm.wbs.length = 1
    ∧ after (exec (.snoop 0 0x40) (snooped [⟨0, 0, 0x40, [(0x800, [dirtyByte 6])]⟩])) = some (snooped [⟨0, 0, 0x40, [(0x800, [dirtyByte 6])]⟩])
    ∧ (after (exec (.writeBackArrive 0) (snooped [⟨0, 0, 0x40, [(0x800, [dirtyByte 6])]⟩]))).any (fun s => s.mm.byte 0x4000 == 6 && s.mm.wbs.isEmpty) = true := by decide +kernel

/-! ### Witnesses of the hypotheses: front ends and placement -/

/-- Queue 0 of context 0 with slots from 0x10000 on that hold `bits`, enabled, with `n` slots announced. -/
def queued (bits : Nat) (n : Nat) : State :=
  let s := placed 1
  let cells : List Host.Cell := (bytesOf 128 bits).zipIdx.filterMap (fun p => if p.1 = 0 then none else some (0x10000 + p.2, p.1))
  { s with mm := { s.mm with cells := s.mm.cells ++ cells },
           fe := { s.fe with queues := [(0, ⟨0x10000, true, 6, 0, 0, false, false, 0, BitVec.ofNat 32 n, 0, 0x20000, 0, 0⟩)] } }

/-- What queue 0 has after an event. -/
def queueAfter (s : State) (e : Instr) (p : QReg → Bool) : Bool := (after (exec e s)).any (fun t => p (t.queue 0))

/-- A packet too many, a queue that is halted or not enabled or empty, a packet of one slot of which none is there, one that passes, one whose
KIND is 0; Q_CTL with fields that change while the queue is enabled, with a size of 5, of 6, 16 and 17; a die that is not live. -/
theorem witness_QueueRegisterResults : (queued 5 1).pkg.domLive 0 = true ∧ State.reset.pkg.domLive 0 = false
    ∧ queueAfter (queued 5 65) (.packetAccept 0) (fun r => r.halted && r.err == 4) = true ∧ queueAfter (queued 5 0) (.packetAccept 0) (fun r => !r.halted && r.seq == 0) = true
    ∧ queueAfter (queued 5 1) (.packetAccept 0) (fun r => !r.halted && r.seq == 1 && r.rdidx == 1) = true ∧ queueAfter (queued 0 1) (.packetAccept 0) (fun r => r.halted && r.err == 1) = true
    ∧ queueAfter (queued child 1) (.packetAccept 0) (fun r => !r.halted && r.seq == 0) = true ∧ queueAfter (queued child 2) (.packetAccept 0) (fun r => !r.halted && r.seq == 1 && r.rdidx == 2) = true
    ∧ queueAfter (queued 5 64) (.packetAccept 0) (fun r => r.seq == 1) = true
    ∧ queueAfter (queued 5 1) (.qEnable 0 0x1000D) (fun r => r.ctx == 0) = true ∧ queueAfter (queued 5 1) (.qEnable 0 0xD) (fun r => r.enable) = true
    ∧ queueAfter (queued 5 1) (.qEnable 0 0xC) (fun r => !r.enable) = true
    ∧ ([(0xB, false), (0xD, true), (0x21, true), (0x23, false)] : List (Nat × Bool)).all (fun p => queueAfter State.reset.booted (.qEnable 0 (BitVec.ofNat 32 p.1)) (fun r => r.enable == p.2)) = true
    ∧ queueAfter { queued 5 1 with fe := { (queued 5 1).fe with queues := [(0, { (queued 5 1).queue 0 with halted := true })] } } (.qResume 0) (fun r => !r.halted) = true := by decide +kernel

/-- What the checks of a packet answer in context 0 on die 0: its error code, or 0. -/
def codeOf (p : Nat) : Nat :=
  match State.reset.booted.checkPacket 0 0 3 (BitVec.ofNat 1024 p) with
  | .error f => f.code
  | .ok _ => 0

/-- Every code of 09 R182 that one launch, with one field changed, can meet, and the largest values that none meets. -/
theorem witness_PacketCheckResults : codeOf 0 = 0x01 ∧ codeOf 9 = 0x01 ∧ codeOf 8 ≠ 0x01 ∧ codeOf (child + 2 ^ 11) = 0x02 ∧ codeOf (5 + 2 ^ 10) = 0x02 ∧ codeOf (child + 2 ^ 9) = 0x03 ∧ codeOf (5 + 2 ^ 8) = 0x03
    ∧ codeOf child = 0 ∧ codeOf (child + 2 ^ 600) = 0x02 ∧ codeOf (child + 1024 * 2 ^ 224) = 0x06 ∧ codeOf (child - 2 ^ 128) = 0 ∧ codeOf (child + 22 * 2 ^ 274) = 0 ∧ codeOf (child + 23 * 2 ^ 274) = 0x07
    ∧ codeOf (child + 2 * 2 ^ 279 + 2 * 2 ^ 128) = 0 ∧ codeOf (child + 2 ^ 279) = 0x09 ∧ codeOf (child + 9 * 2 ^ 282) = 0x07 ∧ codeOf (child + 8 * 2 ^ 282) = 0 ∧ codeOf (child + 16 * 2 ^ 304) = 0
    ∧ codeOf (child + 17 * 2 ^ 304) = 0x07 ∧ codeOf (child + 1023 * 2 ^ 224) = 0 ∧ codeOf (child + 1023 * 2 ^ 224 + 2 ^ 274) = 0x08 ∧ codeOf (child - 2 ^ 320) = 0x0A ∧ codeOf (child + 3 * 2 ^ 309) = 0 ∧ codeOf (child + 4 * 2 ^ 309) = 0x0B
    ∧ codeOf 4 = 0 ∧ codeOf (4 + 2 ^ 258) = 0x02 ∧ codeOf (5 + 2 ^ 205) = 0x02 ∧ codeOf (6 + 2 ^ 198 + 2 ^ 256) = 0 ∧ codeOf (6 + 2 ^ 198) = 0x0A ∧ codeOf (6 + 2 ^ 256) = 0x0C := by decide +kernel

/-- A packet of queue 0 whose bits are `bits`, with a LAUNCH as its one member, and 0x4000 as the address of a WAIT, a SIGNAL or a WSLOAD. -/
def pktOf (bits : Nat) : Pkt := ⟨0, 0, 0, BitVec.ofNat 1024 bits, [⟨BitVec.ofNat 1024 child, [], false⟩], 0, 0, false, false, 0, false, 0, false⟩
/-- The machine with that packet, and no team. -/
def holding (p : Pkt) : State :=
  let s := queued 0 0
  { s with fe := { s.fe with pkts := [p], grids := [] }, wk := { s.wk with teams := [] } }

theorem witness_PacketBeginResults : ([1, 2, 3, 4, 5, 6, 7, 8] : List Nat).all (fun k => (holding (pktOf k)).canBegin 0 k == some (pktOf k)) = true
    ∧ (holding { pktOf 4 with begun := true }).waitOf 0 = some { pktOf 4 with begun := true } ∧ (holding { pktOf 5 with begun := true, ended := true }).nextComplete 0 = some { pktOf 5 with begun := true, ended := true }
    ∧ ((holding { pktOf 4 with begun := true, blocked := true }).qPkts 0).find? Pkt.blocked = some { pktOf 4 with begun := true, blocked := true }
    ∧ (after (exec (.launch 0) (holding (pktOf child)))).any (fun t => t.fe.grids.length == 1) = true
    ∧ (after (exec (.wait 0) (holding (pktOf (4 + 0x4000 * 2 ^ 64))))).any (fun t => t.fe.pkts.all (fun p => p.begun && p.ended)) = true
    ∧ (after (exec (.wait 0) (holding (pktOf (4 + 0x4000 * 2 ^ 64 + 2 ^ 128 + 2 ^ 256))))).any (fun t => t.fe.pkts.all (fun p => p.begun && p.ended)) = true
    ∧ (after (exec (.wait 0) (holding (pktOf (4 + 0x4000 * 2 ^ 64 + 2 ^ 128 + 2 ^ 192))))).any (fun t => (t.queue 0).waiting) = true
    ∧ (after (exec (.signal 0) (holding (pktOf (5 + 0x4000 * 2 ^ 64 + 7 * 2 ^ 128))))).any (fun t => t.mm.byte 0x4000 == 7 && t.fe.pkts.all Pkt.ended) = true
    ∧ (after (exec (.signal 0) (holding (pktOf (5 + 2 ^ 40 * 2 ^ 64 + 7 * 2 ^ 128))))).any (fun t => (t.queue 0).err == 5) = true := by decide +kernel

/-- A grid of `n` units on die 0, of which some are placed. -/
def waitingGrid (crew n next : Nat) (f : Share → Share) : State :=
  let s := State.reset.booted
  let g := { fetchGrid 0 0x2000 with launch := { fetchLaunch 0x2000 with nteam := (n, 1, 1), crew := crew }, shares := [f ⟨0, 0, n, next, none, none, false, false, false⟩] }
  { s with fe := { s.fe with grids := [g], nextG := 1 }, clock := { s.clock with time := 200000 } }

theorem witness_PlacementResults : ((waitingGrid 1 2 1 id).nextPlacement 0).any (fun p => p.2.1 == [(0, 0)] && !p.2.2) = true
    ∧ ((waitingGrid 4 4 0 id).nextPlacement 0).any (fun p => p.2.1 == [(0, 0), (1, 0), (2, 0), (3, 0)]) = true ∧ ((waitingGrid 1 2 1 (fun sh => { sh with done := true })).nextPlacement 0).any (fun p => p.2.2) = true
    ∧ ((waitingGrid 1 1 1 id).nextPlacement 0).isNone = true ∧ (waitingGrid 1 2 0 id).fit 0 0 (fetchLaunch 0x2000) = some 0
    ∧ (waitingGrid 1 2 0 id).unitCores { fetchGrid 0 0 with launch := { fetchLaunch 0 with bars := 257 } } ⟨0, 0, 2, 0, none, none, false, false, false⟩ = none
    ∧ (after (exec (.teamPlace 0 0) (waitingGrid 1 2 1 id))).any (fun t => t.wk.teams.length == 1) = true ∧ (after (exec (.crewPlace 0 0) (waitingGrid 4 4 0 id))).any (fun t => t.wk.teams.length == 4) = true
    ∧ (after (exec (.dieShareReport 0 0) (waitingGrid 1 2 2 id))).any (fun t => t.fe.grids.all (fun g => g.shares.all Share.reported)) = true
    ∧ (after (exec (.gridComplete 0) (waitingGrid 1 2 2 (fun sh => { sh with reported := true })))).any (fun t => t.fe.grids.isEmpty) = true
    ∧ (let s := waitingGrid 1 2 0 id
      let big (since : Option Nat) := { s with fe := { s.fe with grids := s.fe.grids.map (fun g => { g with launch := { g.launch with bars := 257 }, shares := g.shares.map (fun sh => { sh with skipped := since }) }) } }
      ([(none, false), (some 100001, false), (some 100000, true)] : List (Option Nat × Bool)).all (fun p =>
        (after (exec (.placementStarvation 0 0) (big p.1))).any (fun t => t.fe.grids.all (fun g => g.shares.all (fun sh => sh.starved == p.2 && sh.skipped.isSome))))) = true
    ∧ (after (exec (.teamFree 0) ((placed 2).updThread 0 0 (fun th => { th with alive := false })))).any (fun t => t.wk.teams.all (fun m => !m.freed)) = true
    ∧ (after (exec (.teamFree 0) (((placed 2).updThread 0 0 (fun th => { th with alive := false })).updThread 0 1 (fun th => { th with alive := false })))).any (fun t => t.wk.teams.isEmpty) = true := by
  decide +kernel

/-- Core 0 with context 0 in its first slot and context 1 in its second, where `f` changes the core. -/
def slots (f : CoreReg → CoreReg) : State :=
  let s := placed 1
  s.updCore 0 (fun c => f { c with ctx1 := some 1 })

/-- Requests for another slot, the active one and an empty one; a slice that has not ended, has ended with nobody ready, and has ended; a
switch that is asked for and none; an eviction with nobody waiting and with one; a restore. -/
theorem witness_ContextResults : (after (exec (.switchReq 0 1) (slots id))).any (fun t => (t.core 0).req == some 1) = true ∧ (after (exec (.switchReq 0 0) (slots id))).any (fun t => (t.core 0).req == none) = true
    ∧ (after (exec (.switchReq 0 2) (slots id))).any (fun t => (t.core 0).req == none) = true ∧ (after (exec (.contextSwitch 0) (slots (fun c => { c with req := some 1 })))).any (fun t => (t.core 0).active == 1) = true
    ∧ (after (exec (.contextSwitch 0) (slots id))).any (fun t => (t.core 0).active == 0) = true ∧ (slots id).switchHeld 0 = false
    ∧ (let sl (n time active : Nat) : State := let s := (slots (fun c => { c with active := active })).updCtx active 0 (fun r => { r with sched := BitVec.ofNat 64 n })
        { s with clock := { s.clock with time := time } }
      ([(0, 5000, 1, none), (2, 1999, 1, none), (2, 2000, 1, some 0), (2, 5000, 0, none)] : List (Nat × Nat × Nat × Option Nat)).all (fun p =>
        (after (exec (.timeSliceExpiry 0) (sl p.1 p.2.1 p.2.2.1))).any (fun t => (t.core 0).req == p.2.2.2))) = true
    ∧ (let full := slots (fun c => { c with ctx2 := some 2, active := 1 })
      let g := { fetchGrid 7 0x2000 with ctx := 3, shares := [⟨0, 0, 1, 0, none, none, false, false, false⟩] }
      (after (exec (.contextEvict 0 0) full)).any (fun t => (t.core 0).ctx0 == some 0)
      && (after (exec (.contextEvict 0 0) { full with fe := { full.fe with grids := full.fe.grids ++ [g] } })).any (fun t => (t.core 0).ctx0 == none && t.wk.teams.all (fun m => m.slot == none))) = true
    ∧ (let out := (slots (fun c => { c with ctx0 := none, active := 1 })).updTeam 0 (fun t => { t with slot := none })
      (after (exec (.contextRestore 0 0) out)).any (fun t => t.wk.teams.all (fun m => m.slot == some 0) && (t.core 0).ctx0 == some 0)) = true
    ∧ (let async (n : Nat) := (placed 4).updThread 0 n (fun th => { th with asyncs := [⟨0, 0x40, 6, 0⟩], alive := n == 0 })
      (after (exec (.asyncTrapTake 0 0) (async 0))).any (fun t => (t.team? 0).any (fun m => m.traps.length == 1)) && (after (exec (.asyncTrapTake 0 1) (async 1))).any (fun t => (t.team? 0).any (fun m => m.ended))) = true := by
  decide +kernel

/-- A load of lane 0 that has met a page fault, offered to system software as record 0 of page 0x40000. -/
def offered (o : Offer) : State :=
  let s := (placed 1).updThread 0 0 (fun th => { th with faults := [⟨0x12, 0, 0x40000000, 0x2000, 0, .ld (en 20 4 0), o, 0, [], false⟩] })
  s.updCtx 0 0 (fun r => { r with faults := [⟨0, 0x40000⟩], faultWidx := 1 })
/-- An engine command that has met one, and a fetch that has. -/
def offeredCmd : State :=
  let s := (placed 1).updCtx 0 0 (fun r => { r with faults := [⟨0, 0x40000⟩], faultWidx := 1 })
  { s with wk := { s.wk with teams := [] },
           eng := { s.eng with cmds := [⟨0, .feCopy 0, 0, 0, 0, 0, none, 0, 0, none, 0, none, 5, none, .copy 0 0 0, .held 0x12 0 0x40000000 (.sent 0), 0, 0, true, false⟩] } }
@[inherit_doc offeredCmd]
def offeredFetch : State :=
  let s := (asking none (asks 2 0x04 (.sent 0)))
  s.updCtx 0 0 (fun r => { r with faults := [⟨0, 2⟩], faultWidx := 1 })

theorem witness_FaultAnswerResults : ((offered (.sent 0)).ctx 0 0).faults.find? (fun x => x.idx == 0) = some ⟨0, 0x40000⟩
    ∧ ((offered (.sent 0)).mm.side.isEmpty && (offered (.sent 0)).eng.cmds.isEmpty && (offered (.sent 0)).pkg.rx.isEmpty && (offered (.sent 0)).wk.teams.all (fun m =>
        m.warps.length == 1 && m.warps.all (fun w => w.redo.isEmpty && w.want.isEmpty && (m.faultsOf w).length == 1))) = true
    ∧ (after (exec (.faultResolve 0 0 0) (offered (.sent 0)))).any (fun t => t.wk.teams.all (fun m => m.warps.all (fun w => w.redo.length == 1) && m.threads.all (fun th => th.faults.isEmpty))) = true
    ∧ (after (exec (.faultDecline 0 0 0) (offered (.sent 0)))).any (fun t => t.wk.teams.all (fun m => m.traps.length == 1)) = true
    ∧ (after (exec (.faultResolve 0 0 0) offeredFetch)).any (fun t => t.wk.teams.all (fun m => m.warps.all (fun w => w.want.isEmpty))) = true
    ∧ (after (exec (.faultDecline 0 0 0) offeredFetch)).any (fun t => t.wk.teams.all (fun m => m.traps.length == 1)) = true
    ∧ (after (exec (.faultResolve 0 0 0) offeredCmd)).any (fun t => t.eng.cmds.all (fun c => c.state == .ready)) = true
    ∧ (after (exec (.faultDecline 0 0 0) offeredCmd)).any (fun t => t.eng.cmds.all (fun c => c.aborted)) = true
    ∧ (let s := { placed 1 with mm := { (placed 1).mm with side := [⟨0, 0, 0, 0, 0, 0, 0x40000000, [1], none, 0, 0, .sent 0, false, 0, 0⟩] } }
      let s := s.updCtx 0 0 (fun r => { r with faults := [⟨0, 0x40000⟩], faultWidx := 1 })
      (after (exec (.faultDecline 0 0 0) s)).any (fun t => t.mm.side.isEmpty && t.wk.teams.all (fun m => m.ended))) = true := by decide +kernel

/-! ### Witnesses of the hypotheses: events of the engines -/

/-- An instruction makes command 0, which may run; the event `ev` then leaves a machine of which `p` holds. -/
def runs (s : State) (op : Op) (e : Enc) (ev : Instr) (p : State → Bool) : Bool :=
  (after (exec (op.instr e) s)).any (fun t => (t.cmd? 0).any (fun c => t.canRun c && !c.begun) && (after (exec ev t)).any p)
/-- The command has been performed. -/
def performed (t : State) : Bool := t.eng.cmds.all (fun c => c.state == .performed && !c.aborted)
/-- A copy of one member packet with the record `cr` and layouts, on core 0. -/
def copying (cr src dst : BitVec 512) : State :=
  let s := user []
  { s with eng := { s.eng with cmds := [⟨0, .feCopy 0, 0, 0, 0, 0, none, 0, 0, none, 0, none, 5, none, .copy cr src dst, .ready, 0, 0, false, false⟩] } }
/-- A build of a map of at most `n` pairs from the table, which holds the key 0 in each of its slots. -/
def mapping (n : Nat) : State :=
  let s := copying 0 0 0
  let cr := mkRec [(8, 0x1000 + 0x1000 * 2 ^ 32), (0x10, 0x6100), (0x18, n), (0x20, 1 + 2 ^ 8 + 2 ^ 16 + 2 ^ 24 + 2 ^ 32)]
  { s with eng := { s.eng with cmds := [⟨0, .coord 0, 0, 0, 0, 0, none, 0, 0, none, 0, none, 5, none, .coord 2 cr 0x2001 false, .ready, 0, 0, false, false⟩] } }
/-- A port that is up. -/
def ported (s : State) : State := { s with pkg := { s.pkg with ports := [(0, ⟨true, false, 0⟩)] } }
/-- What a machine holds at an address. -/
def holdsAt (a : Nat) (v : Byte) (t : State) : Bool := t.mm.byte a == v

/-- Each body of a command is performed; a hash table whose key is new, present, the marker and beyond the fill; a hit on a map that is built;
a put whose port is down, up, and acknowledged; a table, a map and a merge of no record; a completion that is due and one that is not. -/
theorem witness_EngineResults : runs (user [(4, 0x4000), (6, 0x4100), (8, 1)]) .cpys (ex 0xF0 4 8 (sx 1)) (.copyPerform 0) performed = true
    ∧ runs (user [(4, 0x4000), (8, 7), (9, 1)]) .cpyw (ex 0xF0 4 8 { sx 2 with c := 9 }) (.copyPerform 0) (fun t => performed t && holdsAt 0x4000 7 t && holdsAt 0x4004 0 t) = true
    ∧ (let s := copying (mkRec [(0, 3 + 2 ^ 8), (8, 7), (0x10, 0x4000), (0x18, 13)]) 0 0
      (after (exec (.copyPerform 0) { s with eng := { s.eng with cmds := s.eng.cmds.map (fun c => { c with pos := 12 }) } })).any
        (fun t => performed t && holdsAt 0x400C 7 t && holdsAt 0x400D 0 t && holdsAt 0x4000 0 t)) = true
    ∧ runs (user [(4, 0x5000), (6, 0x5040)]) .cpy (ex 0xF0 4 0 { sx 1 with c := 4 }) (.copyPerform 0) performed = true
    ∧ (after (exec (.copyPerform 0) (copying (mkRec [(0, 2 + 2 ^ 12), (8, 0x4000), (0x10, 0x4100)]) 0 0))).any performed = true
    ∧ runs (user [(4, 0x4000), (8, 16), (9, 3)]) .put (ex 0xF0 4 8 { sx 5 with c := 9 }) (.copyPerform 0) (fun t => t.eng.cmds.all Cmd.aborted && (t.port 0).count == 1) = true
    ∧ runs (ported (user [(4, 0x4000), (8, 16), (9, 3)])) .put (ex 0xF0 4 8 { sx 5 with c := 9 }) (.copyPerform 0) (fun t => t.eng.cmds.all (fun c => c.state == .sent) && t.pkg.sends.length == 1) = true
    ∧ runs (user [(4, 0x5080)]) .hbld (ex 20 4 0xF0 (sx 1)) (.hbldPerform 0) (fun t => performed t && (t.tableOf 0 0x1002).count == 1) = true
    ∧ runs (user [(4, 0x50C0)]) .hprb (ex 20 4 0xF0 (sx 1)) (.hprbBuild 0) (fun t => t.eng.cmds.all (fun c => match c.state with
        | .held a b _ _ => a == 0x40 && b == 4
        | _ => false)) = true
    ∧ (after (exec (.hprbBuild 0) (mapping 0x1000))).any performed = true
    ∧ runs (user [(4, 0x5100)]) .mrg (ex 0 4 0xF0 (sx 1)) (.mrgPerform 0) performed = true
    ∧ runs (user [(4, 0x5140)]) .scn (ex 0 4 0xF0 (sx 5)) (.scnPerform 0) performed = true
    ∧ runs (user [(4, 0x1000)]) .hfree (ex 0 4 0xF0 (sx 1)) (.hfreeEffect 0) (fun t => performed t && (t.obj 0 0).gen == 0
        && (after (exec (.commandComplete 0) t)).any (fun u => (u.obj 0 0).gen == 1)) = true
    ∧ runs (user [(4, 7), (8, 0x1000)]) .hlk (en 20 4 8) (.hlkPerform 0) (fun t => performed t && (t.thread? 0 0).any (fun th => th.final (.reg 20) == 0xFFFFFFFF)) = true
    ∧ (after (exec (Op.qfence.instr (ex 0 0 0 (cx 15))) (user []))).any (fun t => (t.cmd? 0).any t.canComplete
        && (after (exec (.commandComplete 0) t)).any (fun u => u.eng.cmds.isEmpty)) = true
    ∧ runs (user [(4, 0x4000), (6, 0x4100), (8, 1)]) .cpys (ex 0xF0 4 8 (sx 1)) (.copyPerform 0) (fun t => (after (exec (.commandComplete 0) t)).any (fun u => u.eng.cmds.isEmpty)) = true
    ∧ runs (user [(4, 0x4000), (6, 0x4100), (8, 16)]) .cpys (ex 0xF0 4 8 (sx 1)) (.commandComplete 0) (fun t => t.eng.cmds.length == 1) = true
    ∧ decodePayload 0 2 2 [5, 6] = some [5, 6] ∧ decodePayload 1 5 4 [1, 9, 8, 7, 6] = some [9, 8, 7, 6] ∧ decodePayload 1 4 4 [1, 9, 8, 7] = none
    ∧ decodePayload 2 2 3 [2, 9] = some [9, 9, 9] ∧ decodePayload 2 2 4 [2, 9] = none
    ∧ mergeValue 0 2 (some 0xFFFFFFFF) (some 2) = 1 ∧ mergeValue 1 0 none (some 0x3F800000) = 0xBF800000 ∧ mergeValue 2 1 (some 0xFFFFFFFF) (some 2) = 0xFFFFFFFF
    ∧ (0, 4, 1) ∈ mapWords [[]] ∧ (inputKey (mkRec [(0x20, 1 + 2 ^ 8 + 2 ^ 16 + 2 ^ 24 + 2 ^ 32)]) 0 5) = some 5
    ∧ (user []).tryFree 0 0 = user [] ∧ (let s := { user [] with eng := { (user []).eng with objs := [(0, ⟨0, 0, .table 0x6000 4 0 0, true⟩)] } }
      ((s.tryFree 0 0).obj 0 0).gen.toNat == 1) = true := by decide +kernel

/-- A window of one tile command that has waited `n` clocks. -/
def windowed (n : Nat) : State :=
  let s := user []
  { s with clock := { s.clock with clk := n }, wk := { s.wk with teams := s.wk.teams.map (fun t =>
    { t with window := [⟨⟨.tzero, 0, 0, none, 1, 0, [], 0, 0⟩, 0, none, 0, false, [], false⟩] }) } }
/-- The machine with a tile command whose record is at `a` in the tile engine. -/
def tiledAt (op : Op) (e : Enc) (a : Nat) : State := (after (exec (op.instr e) (user [(4, BitVec.ofNat 32 a)]))).getD (user [])
@[inherit_doc tiledAt]
def tiled : State := tiledAt .tzero (en 1 0 0) 0
/-- An event changes the tile engine's command 0, to one that has come `n` units far. -/
def unitOf (s : State) (e : Instr) (n : Nat) : Bool :=
  (s.cmd? 0).any (fun c => s.canRun c) && (after (exec e s)).any (fun t => t.eng.cmds.any (fun c => c.pos == n))

theorem witness_TileEventResults : (tiled.cmd? 0).any (fun c => tiled.canRun c && (tiled.cmdTeam c).isSome) = true
    ∧ (after (exec (.tileWholeOp 0) tiled)).any performed = true ∧ ((after (exec (.tileWholeOp 0) tiled)).bind (fun t => after (exec (.commandComplete 0) t))).any (fun t => t.eng.cmds.isEmpty) = true
    ∧ after (exec (.commandComplete 0) tiled) = some tiled ∧ unitOf (tiledAt .tmm (en 0 4 0) 0x5180) (.tileProduct 0) 1 = true ∧ unitOf (tiledAt .tst (en 0 4 0) 0x51C0) (.tileMove 0) 1 = true
    ∧ unitOf (tiledAt .tldac (en 0 4 0) 0x51C0) (.tileMove 0) 1 = true ∧ unitOf (tiledAt .tsacc (en 0 4 0) 0x5200) (.tsaccPerform 0) 1 = true
    ∧ (let s := tiledAt .tgms (en 0 4 0) 0x5240
      (s.cmd? 0).any (fun c => s.canRun c) && (after (exec (.tgmsBatch 0) s)).any performed) = true
    ∧ keptKs 0x4 4 = some [0, 1] ∧ keptKs 0x1 4 = none
    ∧ runs (user []) .xenq (ex 0 4 8 (sx 3)) (.tokenAccept 0) (fun t => performed t && (t.xq 0).tokens.length == 1) = true
    ∧ runs { user [] with fe := { (user []).fe with grids := (user []).fe.grids.map (fun g => { g with batch := some (0, 0) }) } } .xtake (en 20 1 0) (.tokenTransfer 0) performed = true := by decide +kernel

/-- A machine with one token in queue 0, whose configuration allows one to fire. -/
def tokened : State :=
  let s := user []
  { s with eng := { s.eng with xqs := [(0, ⟨mkRec [(0, 1 + 2 ^ 9 + 2 ^ 21)], [], some (0, 0), [⟨5, 0, 0, none⟩], [], 0, 0, []⟩)] } }
/-- A command that a page fault holds. -/
def heldTile : State := { tiled with eng := { tiled.eng with cmds := tiled.eng.cmds.map (fun c => { c with state := .held 0x12 0 0 .none }) } }

/-- A command that has waited 31 clocks and 32; a table of 65 rules, of none and of one; a position that may be written and one beyond the
command; a queue that may fire; a batch without members. -/
theorem witness_WindowFiringResults : ((windowed 31).team? 0).any (fun m => m.id == 0 && m.window.length == 1 && m.window.all (fun w => !w.due && !(windowed 31).replayWaits m w)) = true
    ∧ after (exec (.windowAgeExpiry 0) (windowed 31)) = some (windowed 31) ∧ (after (exec (.windowAgeExpiry 0) (windowed 32))).any (fun t => t.eng.cmds.length == 1 && (t.team? 0).any (fun m => m.window.isEmpty)) = true
    ∧ (let table (v : Nat) (p : CtxReg → Bool) : Bool := (after (exec (.rwTableWrite 0 0 (BitVec.ofNat 64 v)) (user []))).any (fun t => p (t.ctx 0 0))
      table (0x7000 + 65 * 2 ^ 48) (fun r => Nat.testBit r.rwTable.toNat 55) && table 0x7000 (fun r => !Nat.testBit r.rwTable.toNat 55) && table (0x7000 + 2 ^ 48) (fun r => r.rwTable.toNat / 2 ^ 56 == 0xFF && r.rules.isEmpty)) = true
    ∧ (heldTile.tileHead 0).any (fun c => c.id == 0) = true ∧ (after (exec (.tileProgWrite 0 1) heldTile)).any (fun t => t.eng.cmds.all (fun c => c.pos == 1)) = true
    ∧ (after (exec (.tileProgWrite 0 2) heldTile)).any (fun t => t.eng.cmds.all (fun c => c.pos == 0)) = true
    ∧ tokened.pkg.domLive 0 = true ∧ tokened.xquHeld 0 = false ∧ tokened.roomFor [] = true
    ∧ (after (exec (.firingSlot 0) tokened)).any (fun t => (t.xq 0).batches.length == 1 && (t.xq 0).tokens.isEmpty) = true
    ∧ after (exec (.firingSlot 0) (user [])) = some (user [])
    ∧ ((after (exec (.firingSlot 0) tokened)).bind (fun t => after (exec (.batchComplete 0) t))).any (fun t => (t.xq 0).batches.isEmpty) = true := by decide +kernel

/-! ### Witnesses of the hypotheses: debugging, time, links, boot, ports and the host -/

/-- The machine `s` with a debug command in its mailbox under a token with all rights over context 0. -/
def mailed (s : State) (k : Nat) (a0 a1 a2 a3 : Nat) : State :=
  { s with dbg := { s.dbg with caps := [⟨7, 0, 0, 15, none⟩], tokens := [7],
                               mailbox := ⟨BitVec.ofNat 8 k, 1, 7, BitVec.ofNat 64 a0, BitVec.ofNat 64 a1, BitVec.ofNat 64 a2, BitVec.ofNat 64 a3, 9, 0, true⟩ } }
/-- The STATUS that the command ends with. -/
def endsWith (s : State) (e : Instr) (st : Nat) : Bool := (after (exec e s)).any (fun t => !t.dbg.mailbox.busy && t.dbg.mailbox.status.toNat == st && t.dbg.mailbox.seqDone == 1)
/-- The machine after a STOP of the thread's warp. -/
def halting : State := (after (exec .stop (mailed (user []) 1 0 0 0 0))).getD (user [])
/-- The machine once that stop has taken hold. -/
def halted : State := halting.haltWarp 0 0 (fun _ => true)

/-- Every command succeeds, is malformed and is denied; a STOP of each scope, with and without DRAIN; a STEP; each kind of register; each space. -/
theorem witness_DebugResults_stops : ((mailed (user []) 1 0 0 0 0).dbg.cap? 7).isSome = true ∧ ([0, 1, 2, 3, 4, 8, 9, 10, 11, 12] : List Nat).all (fun a => endsWith (mailed halted 1 a 0 0 0) .stop 0) = true ∧ halting.dbg.mailbox.busy = true
    ∧ ([5, 512] : List Nat).all (fun a => endsWith (mailed (user []) 1 a 0 0 0) .stop 2) = true ∧ endsWith { mailed (user []) 1 0 0 0 0 with dbg := { (mailed (user []) 1 0 0 0 0).dbg with caps := [⟨7, 0, 0, 14, none⟩] } } .stop 1 = true
    ∧ endsWith { mailed (user []) 1 0 0 0 0 with dbg := { (mailed (user []) 1 0 0 0 0).dbg with caps := [] } } .stop 1 = true
    ∧ halted.wk.teams.all (fun t => t.threads.all (fun th => th.frozen == [7] && th.pend.isEmpty)) = true
    ∧ endsWith (mailed halted 2 0 0 0 0) .resume 0 = true ∧ endsWith (mailed halted 2 0 0 1 0) .resume 2 = true ∧ endsWith (mailed (user []) 3 0 0 0 0) .step 2 = true
    ∧ (after (exec .step (mailed halted 3 0 0 0 0))).any (fun t => t.dbg.mailbox.busy && t.dbg.stepping.any (fun p => !p.issued)) = true
    ∧ endsWith (mailed halted 3 2 0 0 0) .step 2 = true
    ∧ (let s := mailed halted 3 0 0 0 0
      let p : Stepping := ⟨7, 0, 0, false, 0, 0, 0, [], [], [], true, [0]⟩
      s.stepResult p == some 0 && endsWith { s with dbg := { s.dbg with stepping := some p } } .step 0) = true
    ∧ endsWith (mailed (user []) 4 0x21 (2 ^ 60 + 0x4000 + 2 * 2 ^ 53) 0 0) .setWatch 0 = true ∧ endsWith (mailed (user []) 4 0 (2 ^ 60 + 0x4000 + 15 * 2 ^ 53) 0 0) .setWatch 2 = true
    ∧ endsWith (mailed (user []) 4 0 0 1 0) .setWatch 1 = true ∧ endsWith (mailed (user []) 5 255 0 0 0) .clrWatch 0 = true ∧ endsWith (mailed (user []) 5 256 0 0 0) .clrWatch 2 = true
    ∧ endsWith { mailed (user []) 5 0 0 0 0 with dbg := { (mailed (user []) 5 0 0 0 0).dbg with watches := [(0, ⟨2 ^ 60, 1, 9⟩)] } } .clrWatch 1 = true
    ∧ endsWith (mailed (user []) 6 1 0 0 0) .brkEn 0 = true ∧ endsWith (mailed (user []) 6 2 0 0 0) .brkEn 2 = true := by decide +kernel
@[inherit_doc witness_DebugResults_stops]
theorem witness_DebugResults_reads : ([0, 1, 2, 3, 4, 0x2006, 0x0806] : List Nat).all (fun a => endsWith (mailed halted 7 a 0 0 0) .readReg 0) = true ∧ ([5, 7, 0xFF00, 65536] : List Nat).all (fun a => endsWith (mailed halted 7 a 0 0 0) .readReg 2) = true
    ∧ endsWith (mailed (asking none (asks 0 0x60 .none)) 7 5 0 0x8000 0) .readReg 2 = true ∧ endsWith (mailed (inTrap 0 0) 7 5 0 0x8000 0) .readReg 0 = true
    ∧ ([0, 1, 2, 3] : List Nat).all (fun a => endsWith (mailed halted 8 a 0x100 16 0x8000) .readMem 0) = true ∧ ([4, 0x40000] : List Nat).all (fun a => endsWith (mailed halted 8 a 0x100 16 0x8000) .readMem 2) = true
    ∧ endsWith (mailed halted 8 1 2040 8 0x8000) .readMem 0 = true ∧ endsWith (mailed halted 8 1 2041 8 0x8000) .readMem 2 = true ∧ endsWith (mailed halted 8 2 16376 8 0x8000) .readMem 0 = true
    ∧ endsWith (mailed halted 8 2 16377 8 0x8000) .readMem 2 = true ∧ endsWith (mailed halted 8 0x12 0 8 0x8000) .readMem 2 = true ∧ endsWith (mailed halted 8 3 (2 ^ 28 - 8) 8 0x8000) .readMem 0 = true
    ∧ endsWith (mailed halted 8 3 (2 ^ 28 - 7) 8 0x8000) .readMem 2 = true ∧ endsWith (mailed halted 8 0 0 8 0x8020) .readMem 2 = true
    ∧ ([(0, 2 ^ 32 - 1), (1, 255), (2, 63), (3, 2 ^ 48 - 1)] : List (Nat × Nat)).all (fun p => endsWith (mailed halted 9 p.1 0 p.2 0) .writeReg 0 && endsWith (mailed halted 9 p.1 0 (p.2 + 1) 0) .writeReg 2) = true
    ∧ endsWith (mailed halted 9 4 0 0 0) .writeReg 2 = true ∧ endsWith (mailed halted 9 0x0806 0 0 0) .writeReg 0 = true ∧ endsWith (mailed halted 9 0x0906 0 0 0) .writeReg 2 = true ∧ (halted.thread? 0 0).any (fun th => endsWith (mailed halted 9 4 0 th.tcfg.toNat 0) .writeReg 0) = true ∧ endsWith (mailed (user []) 9 0 0 0 0) .writeReg 2 = true := by decide +kernel
@[inherit_doc witness_DebugResults_stops]
theorem witness_DebugResults_others : endsWith (mailed (user []) 10 3 1 7 0) .traceCfg 0 = true ∧ endsWith (mailed (user []) 10 4 1 7 0) .traceCfg 2 = true ∧ endsWith (mailed (user []) 11 127 0 0 0) .replay 0 = true
    ∧ endsWith (mailed (user []) 11 128 0x8000 1 0) .replay 0 = true ∧ endsWith (mailed (user []) 11 255 0x8001 1 0) .replay 2 = true ∧ endsWith (mailed (user []) 11 256 0 0 0) .replay 2 = true
    ∧ endsWith (mailed (user []) 12 0 1 0 0) .sampleCfg 0 = true ∧ endsWith (mailed (user []) 12 4 1 0 0) .sampleCfg 2 = true
    ∧ endsWith (mailed (user []) 13 0x10F 0 0 0) .delegate 0 = true ∧ endsWith (mailed (user []) 13 0x11F 0 0 0) .delegate 2 = true
    ∧ endsWith { mailed (user []) 13 15 0 0 0 with dbg := { (mailed (user []) 13 15 0 0 0).dbg with caps := [⟨7, 0, 0, 1, none⟩] } } .delegate 1 = true
    ∧ endsWith (mailed (user []) 14 7 0 0 0) .revoke 0 = true ∧ endsWith (mailed (user []) 14 8 0 0 0) .revoke 1 = true ∧ endsWith (mailed (user []) 14 (2 ^ 32) 0 0 0) .revoke 2 = true := by decide +kernel

/-- The machine with a context's records to trace in a ring of `2 ^ lg` records. -/
def tracing (recs : List TraceRec) (ctl ring : Nat) : State :=
  (user []).updCtx 0 0 (fun r => { r with recs := recs, traceCtl := BitVec.ofNat 64 ctl, traceRing := BitVec.ofNat 64 ring })
/-- The machine at a time, whose role in the alignment of timebases is `role`. -/
def timed (role : BitVec 2) (time : Nat) : State :=
  let s := user []
  { s with clock := { s.clock with time := time, sync := { s.clock.sync with role := role } }, pkg := { s.pkg with ports := [(0, ⟨true, false, 0⟩)] } }
/-- A link on which nothing has happened since time 0. -/
def awake : Link := ⟨true, false, 0, 0, 0, none⟩
/-- The machine whose link 0 is as given, and whose links sleep after 1 us. -/
def linked (l : Link) (time : Nat) : State :=
  let s := user []
  { s with clock := { s.clock with time := time }, pkg := { s.pkg with dctl := { s.pkg.dctl with linkIdle := 1 }, links := [(0, l), (1, awake), (2, awake), (3, awake)] } }

theorem witness_TraceTimeLinkResults : (let wrote (s : State) (n : Nat) (lost : Bool) : Bool := (after (exec (.traceRecordWrite 0 0) s)).any (fun t => (t.ctx 0 0).traceWidx.toNat == n && (t.ctx 0 0).traceLost == lost)
      wrote (tracing [] 1 0x8007) 0 false && wrote (tracing [⟨5, false, none, []⟩] 1 0x8007) 1 false && wrote (tracing [⟨5, true, none, []⟩] 1 0x801A) 2 false && wrote (tracing [⟨5, false, none, []⟩] 1 0x8006) 0 true
      && wrote (tracing [⟨5, false, none, []⟩] 1 0x801B) 0 true) = true
    ∧ (let full (mode : Nat) := (tracing [⟨5, false, none, []⟩] (1 + 2 * mode) 0x8007).updCtx 0 0 (fun r => { r with traceWidx := 128 })
      [0, 1, 2].map (fun m => (after (exec (.traceRecordWrite 0 0) (full m))).map (fun t => ((t.ctx 0 0).traceWidx.toNat, (t.ctx 0 0).recs.length))) == [some (128, 0), some (129, 0), some (128, 1)]) = true
    ∧ (let s := (user []).updCtx 0 0 (fun r => { r with sampleCtl := BitVec.ofNat 64 (2 ^ 6 + 8 * 2 ^ 7), traceCtl := 0xFFFFFFFFFFFFFFFF })
      let at_ (n : Nat) := { s with clock := { s.clock with clk := n } }
      (after (exec (.stallSample 0 0) (at_ 255))).any (fun t => t == at_ 255) && (after (exec (.stallSample 0 0) (at_ 256))).any (fun t => t.free == s.free + 1)) = true
    ∧ (after (exec (.ptpSync 0) (timed 2 9))).isSome = true ∧ (after (exec (.ptpFollowUp 0 4) (timed 2 9))).any (fun t => t.clock.sync.t1 == 4 && t.clock.sync.sent.length == 1) = true
    ∧ (after (exec (.ptpDelayReq 0) (timed 1 9))).any (fun t => t.clock.sync.sent.map Prod.fst == [3]) = true ∧ (after (exec (.ptpDelayReq 0) (timed 2 9))).any (fun t => t.clock.sync.sent == []) = true
    ∧ (after (exec .syncIntervalExpiry (timed 1 1000000))).any (fun t => t.clock.sync.sent.length == 2) = true ∧ (after (exec .syncIntervalExpiry (timed 1 999999))).any (fun t => t.clock.sync.sent == []) = true
    := by decide +kernel
@[inherit_doc linked]
theorem witness_TraceTimeLinkResults_links : (after (exec (.linkIdleExpiry 0) (linked awake 1000))).any (fun t => (t.link 0).asleep) = true ∧ (after (exec (.linkIdleExpiry 0) (linked awake 999))).any (fun t => !(t.link 0).asleep) = true
    ∧ (after (exec (.linkWake 0) (linked ⟨true, true, 2, 0, 0, some 5⟩ 9))).any (fun t => t.link 0 == ⟨true, false, 0, 0, 9, none⟩) = true ∧ (after (exec (.linkWake 0) (linked ⟨true, true, 2, 0, 0, none⟩ 9))).any (fun t => (t.link 0).asleep) = true
    ∧ (after (exec (.wakeRetry 0) (linked ⟨true, true, 2, 0, 0, some 5⟩ 12005))).any (fun t => (t.link 0).retries == 3) = true ∧ (after (exec (.wakeRetry 0) (linked ⟨true, true, 2, 0, 0, some 5⟩ 12004))).any (fun t => (t.link 0).retries == 2) = true
    ∧ (after (exec (.wakeRetry 0) (linked ⟨true, true, 3, 0, 0, some 5⟩ 99999))).any (fun t => (t.link 0).retries == 3) = true
    ∧ (linked ⟨true, true, 0, 0, 0, none⟩ 0).linkWanted 0 = false
    ∧ (after (exec (.heartbeat 0) (linked awake 7))).any (fun t => (t.link 0).heard == 7) = true
    ∧ (after (exec (.heartbeatLost 0) (linked awake 999999))).any (fun t => (t.link 0).up) = true ∧ (after (exec (.heartbeatLost 0) (linked awake 1000000))).any (fun t => !(t.link 0).up) = true
    ∧ (linked { awake with up := false } 0).canLose 0 = some 0 ∧ (linked awake 0).canLose 0 = none ∧ (linked { awake with up := false } 0).canLose 2 = none
    ∧ (after (exec (.dieDeclaredDead 0) (linked { awake with up := false } 0))).any (fun t => !t.pkg.domLive 0 && t.pkg.domLive 1 && t.wk.teams.isEmpty) = true
    ∧ Nat.testBit (user []).pkg.enumDies.toNat 4 = true ∧ (user []).pkg.enumDies.toNat / 2 ^ 8 % 8 = 4 := by decide +kernel

theorem witness_BootResetResults : State.reset.pkg.boot = .due 1 ∧ State.reset.pkg.present ∈ ([1, 2, 4] : List Nat) ∧ (user []).pkg.boot = .done
    ∧ (after (exec .powerOnReset (user []))).any (fun t => t.clock.time == 0 && t.pkg.boot == .due 1) = true ∧ (after (exec .porstN (timed 0 5))).any (fun t => t.clock.time == 5 && t.wk.teams.isEmpty && t.pkg.boot == .due 1) = true
    ∧ (after (exec .wrstN (user []))).any (fun t => t.pkg.boot == .due 4) = true ∧ (after (exec (.thermtrip 0) (user []))).any (fun t => t.pkg.clocksOff) = true
    ∧ (let alarm (cfg : BitVec 9) := { user [] with pkg := { (user []).pkg with alarmCfg := cfg } }
      (after (exec .tamperN (alarm 0))).any (fun t => t.wk.teams.length == 1 && t.pkg.alarmN == (user []).pkg.alarmN + 1) && (after (exec .tamperN (alarm 0x10))).any (fun t => t.wk.teams.isEmpty && t.pkg.keyStore)
      && (after (exec .tamperN (alarm 0x20))).any (fun t => t.wk.teams.isEmpty && !t.pkg.keyStore)) = true
    ∧ (BootRun.runOne ⟨user [], [], [], true⟩ 5 0 (fun _ => true)).1 = true ∧ (BootRun.runOne ⟨user [], [], [], true⟩ 5 0 (fun _ => false)).1 = false
    ∧ (let r := BootRun.runOne ⟨user [], [], [], true⟩ 2 0 (fun n => n == 1)
      r.1 && r.2.s.pkg.verFails == 1) = true
    ∧ liveDies [0, 1, 2, 3] [0, 1, 3] = [0, 1, 3] ∧ liveDies [0, 2] [0, 1, 2, 3] = [0, 1] ∧ ([0, 1, 3] : List Nat).Sublist [0, 1, 2, 3] := by decide +kernel

/-- The machine whose port 0 is up and whose window 3 is open for it, with `n` bytes from 0x1000 on in context 0. -/
def opened (n : Nat) : State :=
  let s := ported (user [])
  { s with pkg := { s.pkg with windows := [(3, ⟨3, 0x4000, BitVec.ofNat 64 n, 0x4800⟩)] } }

/-- A put that fits, one that does not, one on a port that is down, one behind another and one at an address without a translation; an
acknowledgment of a put and a rejection; a port that goes down under a put. -/
theorem witness_PeerPortResults : (after (exec (.putReceive 0 3 8 [5]) (opened 9))).any (fun t => t.mm.byte 0x4008 == 5 && t.mm.byte 0x4800 == 1 && t.pkg.acks == [(0, 0)]) = true
    ∧ (after (exec (.putReceive 0 3 9 [5]) (opened 9))).any (fun t => t.mm.byte 0x4009 == 0 && t.pkg.acks == [(0, 0x14)]) = true ∧ after (exec (.putReceive 1 3 8 [5]) (opened 9)) = some (opened 9)
    ∧ (after (exec (.putReceive 0 3 8 [5]) { opened 9 with pkg := { (opened 9).pkg with rx := [⟨⟨0, 3, 0, [1]⟩, 0, .wanted⟩] } })).any (fun t => t.pkg.rx.length == 2) = true
    ∧ (after (exec (.putReceive 0 3 0x40000000 [5]) (opened 0x80000000))).any (fun t => t.pkg.rx.length + t.pkg.acks.length == 1) = true
    ∧ (let sent := (after (exec (.put (ex 0xF0 4 8 { sx 5 with c := 9 })) (ported (user [(4, 0x4000), (8, 16), (9, 3)])))).bind (fun t => after (exec (.copyPerform 0) t))
      sent.any (fun t => (t.cmd? 0).any (fun c => c.state == .sent))
      && (sent.bind (fun t => after (exec (.putAck 0 3 0) t))).any (fun t => performed t && t.mm.byte 0x4800 == 16)
      && (sent.bind (fun t => after (exec (.putAck 0 3 0x14) t))).any (fun t => t.eng.cmds.all (fun c => match c.state with
        | .held a b _ _ => a == 0x40 && b == 6
        | _ => false))
      && (sent.bind (fun t => after (exec (.peerPortDown 0) t))).any (fun t => t.eng.cmds.all Cmd.aborted && (t.port 0).count == 1)) = true := by decide +kernel

/-- The machine while the host's link is up. -/
def hosted : State := { user [] with pkg := { (user []).pkg with hostUp := true } }
/-- What a write of BAR0 by the host leaves. -/
def hostWrites (a : Nat) (wide : Bool) (v : Nat) (p : State → Bool) : Bool := (after (exec (.registerWrite (BitVec.ofNat 32 a) wide (BitVec.ofNat 64 v)) hosted)).any p

theorem witness_HostWindowResults : hosted.pkg.hostUp = true ∧ hosted.pkg.domLive 3 = true
    ∧ (after (exec (.hostMemoryAccess true 0x8000 [1, 2]) hosted)).any (fun t => t.mm.byte 0x8001 == 2) = true ∧ (after (exec (.hostMemoryAccess false 0 [0, 0]) hosted)).any (fun t => t.pkg.hostData == [1, 0x10]) = true
    ∧ after (exec (.hostMemoryAccess true 0x8000 [1, 2]) (user [])) = some (user [])
    ∧ hostWrites 0x1FC0 true 0x123456789 (fun t => (t.queue 127).base == 0x123456000) = true ∧ hostWrites 0x1FC4 false 1 (fun t => (t.queue 127).base == 2 ^ 32) = true
    ∧ hostWrites 0x1FD8 true 0x1000 (fun t => (t.queue 127).errbase == 0x1000) = true ∧ hostWrites 0x1FC8 false 0xD (fun t => (t.queue 127).enable) = true ∧ hostWrites 0x1FD0 false 0 (fun t => t.queue 127 == hosted.queue 127) = true
    ∧ hostWrites 0x10000 true (2 ^ 32 + 2 ^ 48) (fun t => t.pkg.dctl.linkIdle == 1 && t.pkg.dctl.mcVec == 1) = true ∧ hostWrites 0x10004 false 1 (fun t => t.pkg.dctl.linkIdle == 1) = true
    ∧ hostWrites 0x10008 true 0x1001 (fun t => t.pkg.dctl.logBase == 0x1000) = true ∧ hostWrites 0x11000 false 0x203 (fun t => t.dbg.mailbox.cmd == 3 && t.dbg.mailbox.seq == 2) = true
    ∧ hostWrites 0x11038 false 1 (fun t => t.dbg.mailbox.status == 2 && !t.dbg.mailbox.busy) = true ∧ hostWrites 0x11028 true 5 (fun t => t.dbg.mailbox.a3 == 5) = true
    ∧ (after (exec (.registerWrite 0x11038 false 1) { hosted with dbg := { hosted.dbg with mailbox := { hosted.dbg.mailbox with cmd := 14 } } })).any (fun t => t.dbg.mailbox.busy) = true
    ∧ hostWrites 0x127E8 true 5 (fun t => (t.window 63).base == 5) = true ∧ hostWrites 0x12068 true 5 (fun t => t.window 3 == hosted.window 3) = true ∧ hostWrites 0x12060 true 0 (fun t => (t.window 3).w0 == 0) = true
    ∧ hostWrites 0x13000 false 0x0B07 (fun t => t.pkg.bootRecs.isEmpty) = true ∧ hostWrites 0x13400 true 0x1FF (fun t => t.pkg.alarmCfg == 0x125) = true
    ∧ hostWrites 0x27FFC false 7 (fun t => Table.read 0 t.pkg.msix 0x7FFC == 7) = true ∧ hostWrites 0x28000 false 7 (fun t => t == hosted) = true
    ∧ hostWrites 0x200000 true 0x1F (fun t => (t.ctx 0 0).trapVec == 0x10) = true ∧ hostWrites 0x3FF808 true 0x1001 (fun t => (t.ctx 255 3).ptBase == 0x1000) = true
    ∧ hostWrites 0x200060 true 3 (fun t => t.core 0 == hosted.core 0) = true ∧ hostWrites 0x2002F8 true 32 (fun t => (t.core 31).part == 32) = true ∧ hostWrites 0x2002F8 true (16 + 17 * 32) (fun t => t.core 31 == hosted.core 31) = true
    ∧ hostWrites 0x2000C0 true 0xA01 (fun t => t.clock.sync.role == 1 && t.clock.sync.interval == 10) = true ∧ hostWrites 0x2000C0 true 0xB02 (fun t => t.clock.sync.role == 2 && t.clock.sync.interval == 0) = true
    ∧ hostWrites 0x200050 true (2 ^ 20 + 7) (fun t => (t.ctx 0 0).sched == 7) = true ∧ hostWrites 0x200048 true 0 (fun t => (t.ctx 0 0).rules.isEmpty) = true := by decide +kernel

/-! ### Witnesses of the hypotheses: encodings and steps -/

/-- The instruction and the slot of one that is encoded with an extension word and a literal. -/
theorem witness_EncodingRoundTrip : (Instr.mov (en 1 2 0)).wf = true ∧ (encode (Instr.mov (en 1 2 0))).isSome = true
    ∧ ((encode (Instr.shrn (exl 12 10 0 { Ext.zero with rnd := 0, sat := 1, type := 5 } 15))).any (fun p => decodeSlot p.1 p.2 matches .ok _)) = true := by decide +kernel

/-- The machine that is to fetch the packet of one `mov`, the same once it has the packet, within the part, and without a turn. -/
def toFetch : State := State.reset.withFetchWord 32 0x010A0400
@[inherit_doc toFetch]
def latched : State := toFetch.updTeam 0 (fun t => { t with warps := t.warps.map (fun w => { w with packet := some (tablePacket 32 0x010A0400).1 }) })
@[inherit_doc toFetch]
def within : State := { latched with turn := latched.turn.map (fun n => { n with slot := 2, start := 2, begun := true }) }
/-- The machine in which the warp performs that `mov` again. -/
def again : State :=
  let s := within.updTeam 0 (fun t => { t with warps := t.warps.map (fun w => { w with redo := [⟨Instr.mov (en 10 4 0), 0x2000, 2, [0]⟩] }) })
  { s with turn := s.turn.map (fun n => { n with only := some [0] }) }

theorem witness_StepRunsDecoded : toFetch.pkg.clocksOff = false ∧ ({ toFetch with turn := none } : State).pkg.boot = .done ∧ State.reset.turn = none ∧ State.reset.pkg.boot = .due 1
    ∧ toFetch.turn.any (fun n => !n.begun && (toFetch.team? n.team).any (fun t => (t.warp? n.warp).any (fun w => toFetch.fetchDue t w && ({ toFetch with turn := none } : State).fetchDue t w
        && t.slot == some (toFetch.core t.core).active && (t.lanesOf w).length == 1
        && (match ({ toFetch with turn := none } : State).resolve t.ctx (.instr t.core) 0x2000 16 16 .fetch with
          | .ok (.phys pa _) => pa == 0x2000
          | _ => false)))) = true
    ∧ toFetch.badData 0x2000 16 = false ∧ (tablePacket 32 0x010A0400).1.toNat = ofBytes (toFetch.mm.bytes 0x2000 16) ∧ packetOk false (tablePacket 32 0x010A0400).1 = true
    ∧ latched.turn.any (fun n => !n.begun && (latched.team? n.team).any (fun t => (t.warp? n.warp).any (fun w => latched.stall t w == 0 && w.fence.isNone && w.redo.isEmpty && (t.lanesOf w).length == 1))) = true
    ∧ (latched.partFault (tablePacket 32 0x010A0400).1 [2]).isNone = true ∧ (decodeSlot (tablePacket 32 0x010A0400).1 2 matches .ok _) = true
    ∧ within.turn.any (fun n => n.begun && n.only.isNone && n.slot == 2 && (within.team? n.team).any (fun t => (t.warp? n.warp).any (fun w => w.packet.isSome))) = true
    ∧ again.turn.any (fun n => n.begun && n.only.isSome && (again.team? n.team).any (fun t => (t.warp? n.warp).any (fun w => w.redo.any (fun r => r.instr.op?.isSome)))) = true
    ∧ ({ toFetch with pkg := { toFetch.pkg with clocksOff := true }, inputs := [.tamperN] } : State).pkg.clocksOff = true := by decide +kernel

/-- Steps that go on: on a packet, and without a turn, an event or a boot, with memory in its canonical form. -/
theorem witness_StepKeepsMachine : toFetch.memOk ∧ (after (step toFetch)).isSome = true ∧ (after (step { user [] with turn := none })).isSome = true
    ∧ ({ user [] with turn := none } : State).inputs = [] ∧ (user []).pkg.boot = .done
    ∧ (after (step { user [] with inputs := [.tamperN], turn := none, pkg := { (user []).pkg with keyStore := false } })).isSome = true :=
  ⟨(bare_quiet (by decide +kernel)).1, by decide +kernel⟩

/-! ### Witnesses of further clauses -/

/-- A value of each class that the floating results tell apart: infinities, NaNs, zeros, 128, -150 and a half, and the issues of the forms
whose results they part. -/
def classes : State := ready 1 [(1, 0x7F800000), (2, 0xFF800000), (3, 0x7FC00000), (4, 0x7F800001), (5, 0), (6, 0x80000000), (7, 0x43000000),
  (8, 0xC3160000), (9, 0x3F000000), (10, 0x7F000000)]
@[inherit_doc classes]
theorem witness_FloatResults_classes : (∀ p, p ∈ ([1, 2, 3, 4, 5, 6, 7, 8, 9, 10] : List (BitVec 8)).flatMap (fun r => [(Op.fadd, en 20 r 1), (.fsub, en 20 r 3), (.fmul, en 20 r 9),
      (.ffma, ex 20 r 9 (cx 5)), (.fmin, en 20 r 4), (.fmax, en 20 r 6), (.frnd, en 20 r 0), (.fcls, en 20 r 0)]) → ∃ i, classes.Issues p.1 p.2 i)
    ∧ f32.val 0x7F800000 = .inf false ∧ f32.val 0xFF800000 = .inf true ∧ f32.val 0x7FC00000 = .nan false ∧ f32.val 0x7F800001 = .nan true
    ∧ (f32.val 0x80000000 matches .fin true 0 _) ∧ (f32.val 0 matches .fin false 0 _) := ⟨allIssue_issues (by decide), by decide⟩
@[inherit_doc classes]
theorem witness_ConvertedResults_classes : (∀ p, p ∈ ([1, 2, 3, 4, 5, 6, 7, 8, 9, 10] : List (BitVec 8)).flatMap (fun r => [(Op.frcp, en 20 r 0), (.fdiv, en 20 r 5), (.fsqrt, en 20 r 0), (.frsq, en 20 r 0),
      (.fex2, en 20 r 0), (.flg2, en 20 r 0), (.fsin, en 20 r 0), (.fcos, en 20 r 0), (.cvt, ex 20 r 0 { tx 8 with c := 0xC }), (.cvt, ex 20 r 0 { tx 0xA with c := 0xC })]) →
      ∃ i, classes.Issues p.1 p.2 i) ∧ gives classes .frcp (en 20 10 0) 0 [(20, 0x00400000)] = true ∧ raises classes .frcp (en 20 10 0) 0 = true :=
  ⟨allIssue_issues (by decide), by decide⟩

/-- A load that is on its way, which returns. -/
theorem witness_FetchReturnResults_load : (after (exec (.ld (en 20 4 0)) memer)).any (fun t => (t.thread? 0 0).any (fun a => a.pend.any (fun p => p.src == .mem 1)) && t.mm.loads.any (fun y =>
      y.id == 1 && y.team == 0 && y.rcv == [0] && accBytes y.ty == 4 && y.pa % 4 == 0)
    && (after (exec (.memoryAccessReturn 0 0) t)).any (fun u => (u.thread? 0 0).any (fun a => a.pend.isEmpty))) = true := by decide +kernel

/-- A slice whose buffer is full, no spill area, and a warp whose fence waits for the epoch of a contribution that arrives. -/
def crowded : State :=
  let s := sending (sends 0 (some (0, 7)) .flight :: List.replicate 65536 (sends 1 (some (0, 7)) .held))
  s.updTeam 0 (fun t => { t with warps := t.warps.map (fun w => { w with fence := some ⟨0, [0], true, 3, 0x2000, 0, false⟩ }) })
@[inherit_doc crowded]
theorem witness_ContributionResults_kept : 65536 ≤ crowded.mm.contribs.countP (fun x => x.st == .held && crowded.pkg.slice x.addr == crowded.pkg.slice 0x4000)
    ∧ (crowded.team? 0).any (fun t => t.warps.any (fun w => w.fence.any (fun f => f.epoch == 0 && !f.raised) && w.want.isEmpty)) = true := by
  refine ⟨?_, by decide⟩
  show 65536 ≤ (sends 0 (some (0, 7)) .flight :: List.replicate 65536 (sends 1 (some (0, 7)) .held)).countP _
  rw [List.countP_cons, List.countP_replicate, if_pos (by decide)]
  omega

/-- A far transfer in slot 1, behind a fault of the lane in slot 0. -/
theorem witness_CheckResults_met : (let s := (ready 1 [(4, 0), (5, 0x10000)]).updThread 0 0 (fun th => { th with faults := [⟨0x12, 0, 0, 0x2000, 0, .ld (en 20 4 0), .none, 0, [], false⟩] })
      let s := { s with turn := some { turn0 with slot := 1 } }
      (s.iss? .brx (en 0 4 0)).any (fun i => i.illegal == none && !i.act.isEmpty && i.farLanes.map Lane.lane == [0]
        && i.live.any (fun l => l.th.faults.any (fun f => decide (f.slot < i.turn.slot) && f.pc == i.turn.pc)))) = true := by decide +kernel

/-- A configuration of a queue in which a token waits, which takes effect at the next firing slot; and a range that is invalidated. -/
theorem witness_PacketBeginResults_queues : (let s := holding { pktOf 7 with cfg := mkRec [(0, 1 + 2 ^ 9 + 2 ^ 21)] }
      let s := { s with eng := { s.eng with xqs := [(0, ⟨mkRec [(0, 1 + 2 ^ 9)], [], some (0, 0), [⟨5, 0, 0, none⟩], [], 0, 0, []⟩)] } }
      (s.canBegin 0 7).isSome && (after (exec (.xqcfg 0) s)).any (fun t => (t.xq 0).due == [0] && t.fe.pkts.all (fun p => !p.ended)
        && (t.reconfigure 0).fe.pkts.all Pkt.ended && ((t.reconfigure 0).xq 0).due.isEmpty)) = true
    ∧ (holding (pktOf 8)).pkg.doms = [0, 1, 2, 3] ∧ (after (exec (.invlog 0) (holding (pktOf 8)))).any (fun t => t.fe.pkts.all Pkt.ended && (Table.read [] t.mm.invlogs 3).length == 1) = true := by decide +kernel

/-- A launch of priority 3 that waits for the second slot of a core whose active slot has a team of priority 0. -/
theorem witness_ContextResults_trigger : (let s := slots id
      let g := { fetchGrid 7 0x2000 with ctx := 1, launch := { fetchLaunch 0x2000 with prio := 3 }, shares := [⟨0, 0, 1, 0, none, none, false, false, false⟩] }
      let s := { s with fe := { s.fe with grids := s.fe.grids ++ [g] } }
      (s.core 0).req == none && ((s.trigger 0).core 0).req == some 1) = true := by decide +kernel

/-- A side-log entry of an evicted context that system software resolves, and one of a resident context. -/
theorem witness_FaultAnswerResults_side : (let s (stored : Bool) (va : Nat) : State := { placed 1 with mm := { (placed 1).mm with side := [⟨0, 0, 0, 0, 0, 0, BitVec.ofNat 64 va, [1], none, 0, 0, .sent 0, stored, 0, 0⟩] } }
      let f (s : State) (page : Nat) : State := s.updCtx 0 0 (fun r => { r with faults := [⟨0, page⟩], faultWidx := 1 })
      (after (exec (.faultResolve 0 0 0) (f (s true 0x40000000) 0x40000))).any (fun t => t.mm.side.map SideEntry.offer == [.resolved])
      && (after (exec (.faultResolve 0 0 0) (f (s false 0x4000) 4))).any (fun t => t.mm.side.isEmpty && t.seenBy 0 0x4000 == 1)) = true := by decide +kernel

/-- A step that has issued and whose thread waits at a barrier, for its region, for a load or for nothing. -/
theorem witness_DebugResults_steps : (let p : Stepping := ⟨7, 0, 0, false, 0, 0, 0, [], [], [], true, [0]⟩
      let r (w : Wait) (q : List Pend) (p : Stepping) : Option Nat := (halted.updThread 0 0 (fun th => { th with wait := w, pend := q })).stepResult p
      r (.bwait 0 0 0x2000 0) [] p == some 1 && r (.join 0) [] p == some 2 && r (.rgp 0x2000 0) [] p == some 2 && r .run [⟨.reg 1, 0, .mem 0, false⟩] p == none
        && r .run [] { p with issued := false } == none && r .run [] { p with tseqs := [1] } == some 5 && r .run [] { p with tseqs := [1], took := [1] } == some 4
        && r .run [] { p with tseqs := [1], whole := true } == some 6) = true := by decide +kernel

/-- A warp whose thread has an asynchronous trap waiting. -/
theorem witness_StepRunsDecoded_async : (let s := latched.updThread 0 0 (fun th => { th with asyncs := [⟨0, 0x40, 6, 0⟩] })
      let idle : State := { s with turn := none }
      s.turn.any (fun n => !n.begun && (s.team? n.team).any (fun t => (t.warp? n.warp).any (fun w => !s.fetchDue t w && idle.asyncOf t w == some 0)))) = true
    ∧ (let idle : State := { latched with turn := none }
      latched.turn.any (fun n => (latched.team? n.team).any (fun t => (t.warp? n.warp).any (fun w => (idle.asyncOf t w).isNone && latched.stall t w == 0)))) = true
    ∧ (after (exec (.packetFetch 0 0) { toFetch with turn := none })).any (fun u => let idle : State := { u with turn := none }
      (u.team? 0).any (fun t => (t.warp? 0).any (fun w => (idle.asyncOf t w).isNone && u.stall t w == 0 && w.packet.isSome))) = true := by decide +kernel

end Sys2Proof.Tests
end

namespace Sys2Proof

open Machine

/-! ### The encoder and the decoder (03 R47 to R62) -/

theorem Op.op?_instr (op : Op) (e : Enc) : (op.instr e).op? = some (op, e) := by
  cases op <;> rfl

theorem Instr.encoding (i : Instr) : Laws.Encoding.Statement i := by
  cases i <;> rfl

theorem Instr.eq_instr {i : Instr} {op : Op} {e : Enc} (h : i.op? = some (op, e)) : i = op.instr e := by
  have hs := i.encoding
  rw [Laws.Encoding.Statement, h] at hs
  exact hs.symm

theorem encode_eq_some {i : Instr} {ps : BitVec 128 × Nat} (h : encode i = some ps) :
    ∃ op e, i = op.instr e ∧ i.op? = some (op, e) ∧ ps = encodePacket op e := by
  obtain ⟨⟨op, e⟩, ho, hp⟩ := Option.map_eq_some_iff.1 h
  exact ⟨op, e, Instr.eq_instr ho, ho, hp.symm⟩

/-! #### The fields of words and packets -/

theorem extOf_word (x : Ext) : extOf x.word = x := by
  simp (disch := omega) only [extOf, Ext.word, BitVec.extractLsb'_append_eq_of_le, BitVec.extractLsb'_append_eq_of_add_le,
    Nat.reduceSub, Nat.sub_self, BitVec.extractLsb'_eq_self]

theorem word_extOf (w : Word) : (extOf w).word = w := by
  simp (disch := omega) only [extOf, Ext.word, BitVec.extractLsb'_append_extractLsb'_eq_extractLsb']
  exact BitVec.extractLsb'_eq_self

theorem encOf_encoded (op : Op) (e : Enc) : encOf (instrCtl e) (instrWord op e) (e.ext.map Ext.word) e.lit = e := by
  obtain ⟨guard, u, stall, d, a, b, ext, lit⟩ := e
  have hx : (ext.map Ext.word).map extOf = ext := by cases ext <;> simp [extOf_word]
  simp (disch := omega) only [encOf, instrCtl, instrWord, hx, BitVec.extractLsb'_append_eq_of_le,
    BitVec.extractLsb'_append_eq_of_add_le, Nat.reduceSub, Nat.sub_self, BitVec.extractLsb'_eq_self]

theorem instrWord_code (op : Op) (e : Enc) : (instrWord op e).extractLsb' 24 8 = op.code := by
  simp (disch := omega) only [instrWord, BitVec.extractLsb'_append_eq_of_le, Nat.reduceSub, Nat.sub_self, BitVec.extractLsb'_eq_self]

section PacketWord
variable (g : BitVec 2) (s0 s1 s2 : BitVec 10 × Word)

@[simp] theorem slotWord_packetWord_zero : slotWord (packetWord g s0 s1 s2) 0 = s0.2 := by
  simp (disch := omega) only [slotWord, packetWord, BitVec.extractLsb'_append_eq_of_le, BitVec.extractLsb'_append_eq_of_add_le,
    Nat.sub_self, BitVec.extractLsb'_eq_self]

@[simp] theorem slotWord_packetWord_one : slotWord (packetWord g s0 s1 s2) 1 = s1.2 := by
  simp (disch := omega) only [slotWord, packetWord, BitVec.extractLsb'_append_eq_of_le, BitVec.extractLsb'_append_eq_of_add_le,
    Nat.sub_self, BitVec.extractLsb'_eq_self]

@[simp] theorem slotWord_packetWord_two : slotWord (packetWord g s0 s1 s2) 2 = s2.2 := by
  simp (disch := omega) only [slotWord, packetWord, BitVec.extractLsb'_append_eq_of_le, Nat.sub_self, BitVec.extractLsb'_eq_self]

theorem ctlWord_packetWord : ctlWord (packetWord g s0 s1 s2) = g ++ s2.1 ++ s1.1 ++ s0.1 := BitVec.extractLsb'_append_eq_right

@[simp] theorem slotCtl_packetWord_zero : slotCtl (packetWord g s0 s1 s2) 0 = s0.1 := by
  rw [slotCtl, ctlWord_packetWord]
  exact BitVec.extractLsb'_append_eq_right

@[simp] theorem slotCtl_packetWord_one : slotCtl (packetWord g s0 s1 s2) 1 = s1.1 := by
  simp (disch := omega) only [slotCtl, ctlWord_packetWord, BitVec.extractLsb'_append_eq_of_le, BitVec.extractLsb'_append_eq_of_add_le,
    Nat.sub_self, BitVec.extractLsb'_eq_self]

@[simp] theorem slotCtl_packetWord_two : slotCtl (packetWord g s0 s1 s2) 2 = s2.1 := by
  simp (disch := omega) only [slotCtl, ctlWord_packetWord, BitVec.extractLsb'_append_eq_of_le, BitVec.extractLsb'_append_eq_of_add_le,
    Nat.sub_self, BitVec.extractLsb'_eq_self]

@[simp] theorem groupField_packetWord : groupField (packetWord g s0 s1 s2) = g.toNat := by
  simp (disch := omega) only [groupField, ctlWord_packetWord, BitVec.extractLsb'_append_eq_of_le,
    Nat.reduceSub, Nat.sub_self, BitVec.extractLsb'_eq_self]

end PacketWord

/-- The KIND that a slot control holds (03 R49). -/
def ctlKind (c : BitVec 10) : Nat := (c.extractLsb' 0 2).toNat

theorem slotKind_eq (p : BitVec 128) (s : Nat) : slotKind p s = ctlKind (slotCtl p s) := rfl

@[simp] theorem ctlKind_instrCtl (e : Enc) : ctlKind (instrCtl e) = 0 := by
  rw [ctlKind, instrCtl, BitVec.extractLsb'_append_eq_right]
  rfl

@[simp] theorem ctlKind_extCtl : ctlKind extCtl = 1 := by decide
@[simp] theorem ctlKind_litCtl : ctlKind litCtl = 2 := by decide
@[simp] theorem ctlKind_padCtl : ctlKind padCtl = 0 := by decide

/-! #### The packet of an instruction gives it back -/

theorem decodeWords_encoded {op : Op} {e : Enc} (h : opOfCode op.code e.x.aux = some op) :
    decodeWords (instrCtl e) (instrWord op e) (e.ext.map Ext.word) e.lit = .ok (op.instr e) := by
  simp only [decodeWords, encOf_encoded, instrWord_code, h]

theorem decodeSlot_encodePacket {op : Op} {e : Enc} (h : opOfCode op.code e.x.aux = some op) :
    decodeSlot (encodePacket op e).1 (encodePacket op e).2 = .ok (op.instr e) := by
  have hd := decodeWords_encoded h
  unfold encodePacket
  cases hx : e.ext <;> cases hl : e.lit <;> rw [hx, hl] at hd
  · simpa [decodeSlot, slotTail, slotKind_eq] using hd
  · simpa [decodeSlot, slotTail, slotKind_eq] using hd
  · simpa [decodeSlot, slotTail, slotKind_eq] using hd
  · simpa [decodeSlot, slotTail, slotKind_eq] using hd

/-- A never-guarded pad before an instruction slot is no transfer. -/
theorem slotTransfer_pad {p : BitVec 128} {s : Nat} (hs : s ≤ 1) (hc : slotCtl p s = padCtl) (hw : slotWord p s = 0)
    (hk : slotKind p (s + 1) = 0) : slotTransfer p s = false := by
  have hd : decodeSlot p s = .ok (.nop ⟨0xF, 0, 0, 0, 0, 0, none, none⟩) := by
    have ht : slotTail p s = (none, none) := by simp [slotTail, hk]
    rw [decodeSlot, if_pos ⟨by omega, by simp [slotKind_eq, hc]⟩, ht, hc, hw]
    rfl
  rw [slotTransfer, slotInstr, hd]
  rfl

@[simp] theorem slotTransfer_packetWord_zero (g : BitVec 2) (c : BitVec 10) (w : Word) (s2 : BitVec 10 × Word) (h : ctlKind c = 0) :
    slotTransfer (packetWord g (padCtl, 0#32) (c, w) s2) 0 = false :=
  slotTransfer_pad (by omega) (by simp) (by simp) (by simpa [slotKind_eq] using h)

@[simp] theorem slotTransfer_packetWord_one (g : BitVec 2) (s0 : BitVec 10 × Word) (c : BitVec 10) (w : Word) (h : ctlKind c = 0) :
    slotTransfer (packetWord g s0 (padCtl, 0#32) (c, w)) 1 = false :=
  slotTransfer_pad (by omega) (by simp) (by simp) (by simpa [slotKind_eq] using h)

/-- No group of the packet holds two instructions but pads apart, and only pads stand before the last instruction. -/
theorem packetOk_encodePacket (op : Op) (e : Enc) : packetOk true (encodePacket op e).1 = true := by
  have hx : extCtl.extractLsb' 2 8 = 0#8 := rfl
  have hl : litCtl.extractLsb' 2 8 = 0#8 := rfl
  unfold encodePacket
  cases e.ext <;> cases e.lit
  · simp [packetOk, slotKind_eq, groupsOf, groupSlots, pipesOnce]
  · simp [packetOk, slotKind_eq, groupsOf, groupSlots, pipesOnce, hl]
  · simp [packetOk, slotKind_eq, groupsOf, groupSlots, pipesOnce, hx]
  · simp [packetOk, slotKind_eq, groupsOf, groupSlots, pipesOnce, hx, hl]

/-- The number that the `n` lowest bytes of `x` give. -/
theorem foldr_bytes (n x : Nat) :
    ((List.range n).map (fun k => BitVec.ofNat 8 (x / 2 ^ (8 * k)))).foldr (fun b m => b.toNat + 256 * m) 0 = x % 2 ^ (8 * n) := by
  induction n generalizing x with
  | zero => simp [Nat.mod_one]
  | succ n ih =>
    have hstep : ∀ k, x / 2 ^ (8 * (k + 1)) = x / 2 ^ 8 / 2 ^ (8 * k) := fun k => by
      rw [Nat.div_div_eq_div_mul, ← Nat.pow_add, Nat.mul_add, Nat.add_comm]
    rw [List.range_succ_eq_map, List.map_cons, List.map_map, List.foldr_cons]
    simp only [Function.comp_def, Nat.succ_eq_add_one, hstep]
    rw [ih, Nat.mul_add, Nat.add_comm (8 * n), Nat.pow_add, Nat.mod_mul]
    simp

theorem decodeBytes_bytes (p : BitVec 128) (s : Nat) :
    decodeBytes ((List.range 16).map (fun k => BitVec.ofNat 8 (p.toNat / 2 ^ (8 * k)))) s = decodeSlot p s := by
  have hp : packetOfBytes ((List.range 16).map (fun k => BitVec.ofNat 8 (p.toNat / 2 ^ (8 * k)))) = some p := by
    rw [packetOfBytes, if_pos (by simp), foldr_bytes, Nat.mod_eq_of_lt p.isLt, BitVec.ofNat_toNat, BitVec.setWidth_eq]
  rw [decodeBytes, hp]

/-! #### Decoding drops no bit -/

theorem opOfCode_eq_some {code : BitVec 8} {aux : BitVec 3} {op : Op} (h : opOfCode code aux = some op) : op.code = code := by
  have hp := List.find?_some h
  rw [Bool.and_eq_true, beq_iff_eq] at hp
  exact hp.1

theorem decodeSlot_eq_ok {p : BitVec 128} {s : Nat} {i : Instr} (h : decodeSlot p s = .ok i) :
    ∃ op, i = op.instr (encOf (slotCtl p s) (slotWord p s) (slotTail p s).1 (slotTail p s).2) ∧ slotKind p s = 0
      ∧ opOfCode ((slotWord p s).extractLsb' 24 8) (encOf (slotCtl p s) (slotWord p s) (slotTail p s).1 (slotTail p s).2).x.aux = some op := by
  unfold decodeSlot at h
  split at h
  case isTrue hs =>
    simp only [decodeWords] at h
    split at h
    case h_1 op ho => exact ⟨op, (Except.ok.inj h).symm, hs.2, ho⟩
    case h_2 => exact absurd h (by simp)
  case isFalse => exact absurd h (by simp)

theorem instrWord_encOf {op : Op} (c : BitVec 10) (w : Word) (x l : Option Word) (h : op.code = w.extractLsb' 24 8) :
    instrWord op (encOf c w x l) = w := by
  simp (disch := omega) only [instrWord, encOf, h, BitVec.extractLsb'_append_extractLsb'_eq_extractLsb']
  exact BitVec.extractLsb'_eq_self

theorem instrCtl_encOf (c : BitVec 10) (w : Word) (x l : Option Word) (h : ctlKind c = 0) : instrCtl (encOf c w x l) = c := by
  have h0 : (0#2) = c.extractLsb' 0 2 := (BitVec.eq_of_toNat_eq (y := 0#2) h).symm
  simp (disch := omega) only [instrCtl, encOf, h0, BitVec.extractLsb'_append_extractLsb'_eq_extractLsb']
  exact BitVec.extractLsb'_eq_self

/-- The extension word and the literal of a slot are those of the slots that follow it. -/
theorem slotTail_words (p : BitVec 128) (s : Nat) :
    (∀ x, (slotTail p s).1 = some x → s + 1 ≤ 2 ∧ slotWord p (s + 1) = x)
    ∧ ∀ l, (slotTail p s).2 = some l → s + (if (slotTail p s).1.isSome then 2 else 1) ≤ 2
      ∧ slotWord p (s + if (slotTail p s).1.isSome then 2 else 1) = l := by
  unfold slotTail
  split
  case isTrue hx =>
    refine ⟨fun x h => ⟨hx.1, Option.some.inj h⟩, fun l h => ?_⟩
    by_cases hl : s + 2 ≤ 2 ∧ slotKind p (s + 2) = 2
    · rw [if_pos hl] at h
      exact ⟨hl.1, Option.some.inj h⟩
    · rw [if_neg hl] at h
      exact absurd h (by simp)
  case isFalse =>
    split
    case isTrue hl => exact ⟨fun x h => absurd h (by simp), fun l h => ⟨hl.1, Option.some.inj h⟩⟩
    case isFalse => exact ⟨fun x h => absurd h (by simp), fun l h => absurd h (by simp)⟩

theorem named_instr {op : Op} {e : Enc} : (op.instr e).named = true ↔ opOfCode op.code e.x.aux = some op := by
  rw [Instr.named, Op.op?_instr]
  exact beq_iff_eq

/-- Settles O56: the encoder's packet holds the fields where the decoder reads them, and the decoder's fields are all of a slot's bits. -/
theorem encodingRoundTrip : Obligations.EncodingRoundTrip := by
  refine ⟨fun i ps hwf henc => ?_, fun op e h => ?_, fun p s i h => ?_⟩
  · obtain ⟨op, e, rfl, -, rfl⟩ := encode_eq_some henc
    have hd := decodeSlot_encodePacket (named_instr.1 (Bool.and_eq_true_iff.1 hwf).1)
    exact ⟨hd, packetOk_encodePacket op e, (decodeBytes_bytes _ _).trans hd⟩
  · rw [encode, Op.op?_instr] at h
    exact absurd h (by simp)
  · obtain ⟨op, rfl, hk, ho⟩ := decodeSlot_eq_ok h
    have hc := opOfCode_eq_some ho
    obtain ⟨hx, hl⟩ := slotTail_words p s
    refine ⟨op, _, rfl, Op.op?_instr _ _, named_instr.2 (hc ▸ ho), (instrWord_encOf _ _ _ _ hc).symm,
      (instrCtl_encOf _ _ _ _ hk).symm, fun x h => ?_, fun l h => ?_⟩
    · obtain ⟨w, hw, rfl⟩ := Option.map_eq_some_iff.1 h
      rw [word_extOf]
      exact hx w hw
    · simpa [encOf] using hl l h

end Sys2Proof

namespace Sys2Proof.Machine

/-! ### Which pending results a thread reads (03 R64 to R66) -/

/-- A fixed-latency result whose latency a distance of `n` covers. -/
def Pend.coveredBy (n : Nat) (p : Pend) : Bool :=
  match p.src with
  | .fixed d => decide (d ≤ n)
  | .mem _ | .cmd _ => false

/-- A fixed-latency result. -/
def Pend.isFixed (p : Pend) : Bool :=
  match p.src with
  | .fixed _ => true
  | .mem _ | .cmd _ => false

theorem Pend.seen_aged (n : Nat) (p : Pend) : (p.aged n).seen = p.coveredBy n := by
  obtain ⟨tgt, val, src, fresh⟩ := p
  cases src with
  | fixed d =>
    rw [Bool.eq_iff_iff]
    simp [Pend.aged, Pend.seen, Pend.coveredBy, Nat.sub_eq_zero_iff_le]
  | mem id => rfl
  | cmd id => rfl

theorem Pend.seen_fix (p : Pend) : p.fix.seen = p.isFixed := by
  obtain ⟨tgt, val, src, fresh⟩ := p
  cases src with
  | fixed d => rfl
  | mem id => cases fresh <;> rfl
  | cmd id => cases fresh <;> rfl

theorem Thread.age_reg (a : Thread) (n k : Nat) :
    (a.age n).reg k = lastOf (Pend.coveredBy n) a.pend (.reg k) (Table.read 0 a.regs k) := by
  rw [Thread.age, Thread.mapped_reg _ _ (Pend.aged_keeps n)]
  simp only [Pend.seen_aged]
  rfl

theorem Thread.age_pred (a : Thread) (n k : Nat) (hk : k < 7) :
    (a.age n).pred k = (lastOf (Pend.coveredBy n) a.pend (.pred k) (if Nat.testBit a.preds.toNat k then 1 else 0) != 0) := by
  rw [Thread.age, Thread.mapped_pred _ _ (Pend.aged_keeps n) k hk]
  simp only [Pend.seen_aged]
  rfl

theorem Thread.allSeen_reg (a : Thread) (k : Nat) :
    a.allSeen.reg k = lastOf Pend.isFixed a.pend (.reg k) (Table.read 0 a.regs k) := by
  rw [Thread.allSeen, Thread.mapped_reg _ _ Pend.fix_keeps]
  simp only [Pend.seen_fix]
  rfl

theorem Thread.allSeen_pred (a : Thread) (k : Nat) (hk : k < 7) :
    a.allSeen.pred k = (lastOf Pend.isFixed a.pend (.pred k) (if Nat.testBit a.preds.toNat k then 1 else 0) != 0) := by
  rw [Thread.allSeen, Thread.mapped_pred _ _ Pend.fix_keeps k hk]
  simp only [Pend.seen_fix]
  rfl

/-- Settles O14: ageing makes the covered results visible, a transfer or a formation the fixed-latency ones. -/
theorem visibleResults : Obligations.VisibleResults := fun a n =>
  ⟨a.age_reg n, a.age_pred n, rfl, a.allSeen_reg, a.allSeen_pred⟩

end Sys2Proof.Machine

namespace Sys2Proof

/-- Settles O57: each word is decoded by evaluation. -/
theorem writtenWords : Obligations.WrittenWords := by
  unfold Obligations.WrittenWords
  and_intros <;> rfl

end Sys2Proof

namespace Sys2Proof.Machine

/-! ### What a step runs (03 R53, R54, R69, R71; 26 R418; 31 R499, R505, R506) -/

theorem Instr.startsClocks_iff (i : Instr) : Machine.Instr.startsClocks i = true ↔ i = .powerOnReset ∨ i = .porstN := by
  rw [Instr.startsClocks, Bool.or_eq_true, beq_iff_eq, beq_iff_eq]

section Step
variable {s : State}

theorem step_clocksOff_start {i : Instr} {rest : List Instr} (hc : s.pkg.clocksOff = true) (hi : s.inputs = i :: rest)
    (h : i = .powerOnReset ∨ i = .porstN) : step s = exec i { s with inputs := rest } := by
  unfold step
  rw [hc, hi]
  exact if_pos ((Instr.startsClocks_iff i).2 h)

theorem step_clocksOff_stopped (hc : s.pkg.clocksOff = true)
    (h : ∀ i rest, s.inputs = i :: rest → i ≠ .powerOnReset ∧ i ≠ .porstN) : step s = .fault .clocksStopped := by
  unfold step
  rw [hc]
  cases hi : s.inputs with
  | nil => rfl
  | cons i rest => exact if_neg (fun hs => not_or.2 (h i rest hi) ((Instr.startsClocks_iff i).1 hs))

theorem step_turn {n : Turn} (hc : s.pkg.clocksOff = false) (ht : s.turn = some n) : step s = s.takeTurn n := by
  unfold step
  rw [hc, ht]
  cases s.inputs <;> rfl

theorem step_boot {k : Nat} (hc : s.pkg.clocksOff = false) (ht : s.turn = none) (hb : s.pkg.boot = .due k) : step s = exec .boot s := by
  unfold step
  rw [hc, ht, hb]
  cases s.inputs <;> rfl

theorem step_input {i : Instr} {rest : List Instr} (hc : s.pkg.clocksOff = false) (ht : s.turn = none)
    (hb : ∀ k, s.pkg.boot ≠ .due k) (hi : s.inputs = i :: rest) : step s = exec i { s with inputs := rest } := by
  unfold step
  rw [hc, ht, hi]
  cases hp : s.pkg.boot with
  | due k => exact absurd hp (hb k)
  | done => rfl
  | stopped => rfl

theorem step_schedule (hc : s.pkg.clocksOff = false) (ht : s.turn = none) (hb : ∀ k, s.pkg.boot ≠ .due k) (hi : s.inputs = []) :
    step s = .next s.schedule := by
  unfold step
  rw [hc, ht, hi]
  cases hp : s.pkg.boot with
  | due k => exact absurd hp (hb k)
  | done => rfl
  | stopped => rfl

end Step

theorem State.team?_id {s : State} {k : Nat} {t : Team} (h : s.team? k = some t) : t.id = k := by
  simpa using List.find?_some h

theorem Team.warp?_id {t : Team} {k : Nat} {w : Warp} (h : t.warp? k = some w) : w.id = k := by
  simpa using List.find?_some h

section Turn
variable {s : State} {n : Turn} {t : Team} {w : Warp}

theorem State.takeTurn_eq (ht : s.team? n.team = some t) (hw : t.warp? n.warp = some w) :
    s.takeTurn n = if n.begun then s.issueSlot w n
      else if s.fetchDue t w then (settled s (exec (.packetFetch n.team n.warp) { s with turn := none })).tryPart n
      else s.tryPart n := by
  rw [State.takeTurn, ht, Option.bind_some, hw, Option.map_some]

theorem State.issueSlot_eq {i : Instr} (h : turnInstr w n = some i) :
    s.issueSlot w n = exec i { s with turn := some { n with begun := true } } := by
  rw [State.issueSlot, h]

theorem turnInstr_packet {p : BitVec 128} {i : Instr} (ho : n.only = none) (hp : w.packet = some p) (hd : decodeSlot p n.slot = .ok i) :
    turnInstr w n = some i := by
  rw [turnInstr, ho, hp]
  simp [slotInstr, hd, Except.toOption]

theorem turnInstr_redo {r : Redo} {rs : List Redo} (ho : n.only ≠ none) (hr : w.redo = r :: rs) (hi : r.instr.op? ≠ none) :
    turnInstr w n = some r.instr := by
  rw [turnInstr, if_pos (Option.isSome_iff_ne_none.2 ho), hr]
  exact if_pos (Option.isSome_iff_ne_none.2 hi)

theorem State.begun_turn (ht : s.turn = some n) (hb : n.begun = true) : { s with turn := some { n with begun := true } } = s := by
  rw [show ({ n with begun := true } : Turn) = n by rw [← hb], ← ht]

theorem State.tryPart_async {k : Nat} (ht : s.team? n.team = some t) (hw : t.warp? n.warp = some w)
    (ha : ({ s with turn := none } : State).asyncOf t w = some k) :
    s.tryPart n = exec (.asyncTrapTake t.id k) { s with turn := none } := by
  simp only [State.tryPart, ht, hw, ha]

theorem State.tryPart_stalled (ht : s.team? n.team = some t) (hw : t.warp? n.warp = some w)
    (ha : ({ s with turn := none } : State).asyncOf t w = none) (hs : s.stall t w ≠ 0) : s.tryPart n = .next { s with turn := none } := by
  simp only [State.tryPart, ht, hw, ha, hs, if_false]

theorem State.tryPart_begins {m : Turn} (ht : s.team? n.team = some t) (hw : t.warp? n.warp = some w)
    (ha : ({ s with turn := none } : State).asyncOf t w = none) (hs : s.stall t w = 0) (hm : nextTurn t w = some m) :
    s.tryPart n = s.beginPart t w m := by
  simp only [State.tryPart, ht, hw, ha, hs, hm, if_true]

/-- The turn of a warp that has nothing to perform again is the part that its packet holds for its lowest lane. -/
theorem nextTurn_part {p : BitVec 128} {l : Lane} {ls : List Lane} (hr : w.redo = []) (hp : w.packet = some p) (hl : t.lanesOf w = l :: ls) :
    nextTurn t w = some ⟨t.id, w.id, l.th.pc, l.th.slot, l.th.slot, (partOf p l.th.slot).1, (partOf p l.th.slot).2.1,
      (partOf p l.th.slot).2.2, false, none, false⟩ := by
  simp only [nextTurn, hr, hp, hl]

theorem State.endFence_none (hf : w.fence = none) : s.endFence t w = s := by rw [State.endFence, hf]

/-- A part that begins: its checks are made, and its first slot issues or it traps. -/
theorem State.beginPart_eq {p : BitVec 128} (hf : w.fence = none) (ho : n.only = none) (hp : w.packet = some p) :
    s.beginPart t w n = match ({ s with turn := some n } : State).partFault p (n.slot :: n.more) with
      | some (cause, slot, detail) =>
        if cause = 6 ∧ ({ s with turn := some n } : State).faultsBelow w n slot then
          (({ s with turn := some n } : State).startStep n).issueSlot w n
        else .next (({ s with turn := some n } : State).rejectPart
          (if mixedGroup p n.slot then { n with next := groupAfter p n.slot } else n) cause slot detail 0 .none)
      | none => (({ s with turn := some n } : State).startStep n).issueSlot w n := by
  rw [State.beginPart, State.endFence_none hf]
  split
  next q _ hq => obtain rfl : q = p := Option.some.inj (hq.symm.trans hp); rfl
  next h => exact absurd hp (h p ho)

theorem State.beginPart_trap {p : BitVec 128} {c : BitVec 16} {slot : Nat} {d : Option Nat} (hf : w.fence = none) (ho : n.only = none)
    (hp : w.packet = some p) (hc : ({ s with turn := some n } : State).partFault p (n.slot :: n.more) = some (c, slot, d))
    (hn : ¬(c = 6 ∧ ({ s with turn := some n } : State).faultsBelow w n slot = true)) :
    s.beginPart t w n = .next (({ s with turn := some n } : State).rejectPart
      (if mixedGroup p n.slot then { n with next := groupAfter p n.slot } else n) c slot d 0 .none) := by
  rw [State.beginPart_eq hf ho hp, hc]
  exact if_neg hn

theorem State.beginPart_issue {p : BitVec 128} {i : Instr} (hf : w.fence = none) (ho : n.only = none) (hp : w.packet = some p)
    (hc : ∀ c slot d, ({ s with turn := some n } : State).partFault p (n.slot :: n.more) = some (c, slot, d) →
      c = 6 ∧ ({ s with turn := some n } : State).faultsBelow w n slot = true)
    (hd : decodeSlot p n.slot = .ok i) :
    s.beginPart t w n = exec i { (({ s with turn := some n } : State).startStep n) with turn := some { n with begun := true } } := by
  have hi : (({ s with turn := some n } : State).startStep n).issueSlot w n =
      exec i { (({ s with turn := some n } : State).startStep n) with turn := some { n with begun := true } } :=
    State.issueSlot_eq (turnInstr_packet ho hp hd)
  rw [State.beginPart_eq hf ho hp, ← hi]
  split
  next c slot d h => exact if_pos (hc c slot d h)
  next => rfl

end Turn

theorem State.startStep_idle {s : State} {n : Turn} (h : s.dbg.stepping = none) : (s.startStep n).dbg.stepping = none := by
  rw [State.startStep]
  simp [h]

/-- Settles O58: the cases of `step`, of a turn and of a part that begins. -/
theorem stepRunsDecoded : Obligations.StepRunsDecoded := by
  intro s
  refine ⟨fun hc => ⟨fun i rest hi h => step_clocksOff_start hc hi h, step_clocksOff_stopped hc⟩, fun hc ht => ⟨fun ⟨k, hb⟩ => step_boot hc ht hb,
    fun hb => ⟨fun i rest hi => step_input hc ht hb hi, step_schedule hc ht hb⟩⟩, ?_⟩
  intro n t w hc hn ht hw
  have hid := State.team?_id ht
  have hwid := Team.warp?_id hw
  intro begins tries
  have htries : ∀ v : State, step s = v.tryPart n → tries v := by
    intro v hv t w ht hw
    refine ⟨fun k ha => hv.trans (State.tryPart_async ht hw ha), fun ha =>
      ⟨fun hs => hv.trans (State.tryPart_stalled ht hw ha hs), fun hs hf hr p l ls hp hl => ?_⟩⟩
    have hstep := hv.trans (State.tryPart_begins ht hw ha hs (nextTurn_part hr hp hl))
    exact ⟨fun c slot d hx hne => hstep.trans (State.beginPart_trap hf rfl hp hx hne), fun hx i hd =>
      ⟨_, hstep.trans (State.beginPart_issue hf rfl hp hx hd), rfl, State.startStep_idle⟩⟩
  have hturn : step s = s.takeTurn n := step_turn hc hn
  rw [State.takeTurn_eq ht hw] at hturn
  refine ⟨fun hb ho p i hp hd => ?_, fun hb ho r rs hr hi => ?_, fun hb hf => ?_, fun hb hf => ?_⟩
  · rw [hturn, if_pos hb, State.issueSlot_eq (turnInstr_packet ho hp hd), State.begun_turn hn hb]
  · rw [hturn, if_pos hb, State.issueSlot_eq (turnInstr_redo ho hr hi), State.begun_turn hn hb]
  · refine htries s ?_
    rw [hturn, hb, hf]
    rfl
  · refine ⟨_, rfl, htries _ ?_⟩
    rw [hturn, hb, hf, hid, hwid]
    rfl

end Sys2Proof.Machine

namespace Sys2Proof.Machine

/-! ### A thread that moves on (03 R54, R64; 07 R143) -/

/-- Ageing and the like change registers, predicates and pending results alone. -/
theorem Thread.age_rest (a : Thread) (n : Nat) :
    a.age n = { a with regs := (a.age n).regs, preds := (a.age n).preds, pend := (a.age n).pend } :=
  Thread.settleFrom_rest _ _

theorem Thread.allSeen_rest (a : Thread) :
    a.allSeen = { a with regs := a.allSeen.regs, preds := a.allSeen.preds, pend := a.allSeen.pend } :=
  Thread.settleFrom_rest _ _

theorem Thread.allSeen_final (a : Thread) :
    (∀ k, a.allSeen.final (.reg k) = a.final (.reg k)) ∧ ∀ k, k < 7 → (a.allSeen.final (.pred k) != 0) = (a.final (.pred k) != 0) :=
  ⟨a.mapped_final_reg _ Pend.fix_keeps, a.mapped_final_pred _ Pend.fix_keeps⟩

section Advance
variable (a : Thread) (pc : VAddr) (next : Option Nat) (dist : Nat) (jumped : Bool) (now : Nat)

/-- The results of a thread that moves on by a distance. -/
def Thread.aged : Thread := if jumped then (a.age dist).allSeen else a.age dist

theorem Thread.aged_rest : a.aged dist jumped =
    { a with regs := (a.aged dist jumped).regs, preds := (a.aged dist jumped).preds, pend := (a.aged dist jumped).pend } := by
  unfold Thread.aged
  cases jumped
  · exact a.age_rest dist
  · exact (a.age dist).allSeen_rest.trans (by rw [a.age_rest dist]; rfl)

/-- A thread whose results have aged moves on: to its transfer target, to the next part, or to the next packet. -/
def Thread.moved : Thread :=
  match a.next with
  | some T => { a with lastIssue := now, pc := T, slot := 0, next := none }
  | none =>
    match next with
    | some k => { a with lastIssue := now, pc := pc, slot := k }
    | none => { a with lastIssue := now, pc := pc + 16, slot := 0 }

theorem Thread.advance_eq : a.advance pc next dist jumped now = (a.aged dist jumped).moved pc next now := rfl

theorem Thread.moved_rest : a.moved pc next now = { a with
    pc := (a.moved pc next now).pc, slot := (a.moved pc next now).slot, next := none, lastIssue := now } := by
  unfold Thread.moved
  split
  next => rfl
  next h => cases next <;> simp [← h]

theorem Thread.moved_target {T : VAddr} (h : a.next = some T) : (a.moved pc next now).pc = T ∧ (a.moved pc next now).slot = 0 := by
  simp [Thread.moved, h]

theorem Thread.moved_stays (h : a.next = none) :
    (a.moved pc next now).pc = (if next.isSome then pc else pc + 16) ∧ (a.moved pc next now).slot = next.getD 0 := by
  unfold Thread.moved
  rw [h]
  cases next <;> exact ⟨rfl, rfl⟩

/-- What a thread that moves on keeps. -/
theorem Thread.advance_rest : a.advance pc next dist jumped now = { a with
    pc := (a.advance pc next dist jumped now).pc, slot := (a.advance pc next dist jumped now).slot, next := none
    regs := (a.advance pc next dist jumped now).regs, preds := (a.advance pc next dist jumped now).preds
    pend := (a.advance pc next dist jumped now).pend, lastIssue := now } := by
  rw [Thread.advance_eq]
  have hb := a.aged_rest dist jumped
  have hc := (a.aged dist jumped).moved_rest pc next now
  generalize (a.aged dist jumped).moved pc next now = c at hc ⊢
  generalize a.aged dist jumped = b at hb hc
  rw [hc, hb]

theorem Thread.aged_next : (a.aged dist jumped).next = a.next := by rw [a.aged_rest dist jumped]

theorem Thread.advance_target {T : VAddr} (h : a.next = some T) :
    (a.advance pc next dist jumped now).pc = T ∧ (a.advance pc next dist jumped now).slot = 0 :=
  Thread.moved_target _ pc next now ((a.aged_next dist jumped).trans h)

theorem Thread.advance_stays (h : a.next = none) :
    (a.advance pc next dist jumped now).pc = (if next.isSome then pc else pc + 16)
    ∧ (a.advance pc next dist jumped now).slot = next.getD 0 :=
  Thread.moved_stays _ pc next now ((a.aged_next dist jumped).trans h)

theorem Thread.advance_ltid : (a.advance pc next dist jumped now).ltid = a.ltid := by rw [a.advance_rest]

end Advance

/-! ### A team with nothing to trap or to stop for -/

/-- No lane of a team has met a fault, no warp has raised a trap or is about to stop, and no thread of `ids` waits. -/
structure Team.Rests (t : Team) (ids : List Nat) : Prop where
  faults : ∀ a, a ∈ t.threads → a.faults = []
  wait   : ∀ a, a ∈ t.threads → ids.contains a.ltid = true → a.wait = .run
  want   : ∀ v, v ∈ t.warps → v.want = []
  stop   : ∀ v, v ∈ t.warps → v.stop = []

theorem Team.thread?_mem {t : Team} {n : Nat} {a : Thread} (h : t.thread? n = some a) : a ∈ t.threads := List.mem_of_find?_eq_some h

theorem Team.thread?_ltid {t : Team} {n : Nat} {a : Thread} (h : t.thread? n = some a) : a.ltid = n := by
  simpa using List.find?_some h

theorem Team.warp?_mem {t : Team} {k : Nat} {w : Warp} (h : t.warp? k = some w) : w ∈ t.warps := List.mem_of_find?_eq_some h

/-- A live lane holds a thread of the team that its warp lists. -/
theorem Team.lanesOf_mem {t : Team} {w : Warp} {l : Lane} (h : l ∈ t.lanesOf w) : l.th ∈ t.threads ∧ some l.th.ltid ∈ w.lanes := by
  obtain ⟨q, hq, rfl⟩ := List.mem_map.1 h
  obtain ⟨⟨o, k⟩, hp, hx⟩ := List.mem_filterMap.1 hq
  cases ho : o.bind t.thread? with
  | none => simp [ho] at hx
  | some th =>
    obtain ⟨n, rfl, hn⟩ := Option.bind_eq_some_iff.1 ho
    simp only [ho, Option.ite_none_right_eq_some, Option.some.injEq] at hx
    obtain ⟨-, rfl⟩ := hx
    exact ⟨Team.thread?_mem hn, (Team.thread?_ltid hn).symm ▸ (List.mem_zipIdx hp).2.2 ▸ List.getElem_mem _⟩

section Rests
variable {t : Team} {ids : List Nat}

theorem Team.Rests.faultsOf (h : t.Rests ids) (w : Warp) : t.faultsOf w = [] := by
  rw [Team.faultsOf, List.flatMap_eq_nil_iff]
  intro l hl
  rw [h.faults _ (Team.lanesOf_mem hl).1, List.map_nil]

/-- Threads that are updated and keep their faults and waits. -/
theorem Team.Rests.updThreads (h : t.Rests ids) (ns : List Nat) (f : Thread → Thread)
    (hf : ∀ a, (f a).ltid = a.ltid ∧ (f a).faults = a.faults ∧ (a.wait = .run → (f a).wait = .run)) : (t.updThreads ns f).Rests ids where
  faults := by
    intro a ha
    obtain ⟨b, hb, rfl⟩ := List.mem_map.1 ha
    split
    · rw [(hf b).2.1, h.faults b hb]
    · exact h.faults b hb
  wait := by
    intro a ha hi
    obtain ⟨b, hb, rfl⟩ := List.mem_map.1 ha
    split at hi
    case isTrue hc =>
      rw [if_pos hc]
      exact (hf b).2.2 (h.wait b hb ((hf b).1 ▸ hi))
    case isFalse hc =>
      rw [if_neg hc]
      exact h.wait b hb hi
  want := h.want
  stop := h.stop

theorem Team.Rests.updWarp (h : t.Rests ids) (k : Nat) (f : Warp → Warp)
    (hf : ∀ v, v.want = [] → v.stop = [] → (f v).want = [] ∧ (f v).stop = []) : (t.updWarp k f).Rests ids where
  faults := h.faults
  wait := h.wait
  want := by
    intro v hv
    obtain ⟨w, hw, rfl⟩ := List.mem_map.1 hv
    split
    · exact (hf w (h.want w hw) (h.stop w hw)).1
    · exact h.want w hw
  stop := by
    intro v hv
    obtain ⟨w, hw, rfl⟩ := List.mem_map.1 hv
    split
    · exact (hf w (h.want w hw) (h.stop w hw)).2
    · exact h.stop w hw

theorem Team.warpOf?_mem {n : Nat} {w : Warp} (h : t.warpOf? n = some w) : w ∈ t.warps := List.mem_of_find?_eq_some h

theorem Team.Rests.haltsOf (h : t.Rests ids) (ths : List Thread) : t.haltsOf ths = [] := by
  have : ths.flatMap (fun th => ((t.warpOf? th.ltid).map Warp.stop).getD []) = [] := by
    rw [List.flatMap_eq_nil_iff]
    intro th _
    cases hw : t.warpOf? th.ltid with
    | none => rfl
    | some w => exact h.stop w (Team.warpOf?_mem hw)
  rw [Team.haltsOf, this]
  rfl

theorem Thread.formed_keeps (a : Thread) : ({ a.allSeen with wait := .run } : Thread).ltid = a.ltid
    ∧ ({ a.allSeen with wait := .run } : Thread).faults = a.faults
    ∧ (a.wait = .run → ({ a.allSeen with wait := .run } : Thread).wait = .run) := by
  rw [a.allSeen_rest]
  exact ⟨rfl, rfl, fun _ => rfl⟩

/-- A formation raises no trap and no stop. -/
theorem Team.Rests.form (h : t.Rests ids) (width : Nat) (ns : List Nat) (lines : Option (List (Nat × Nat))) (due : Nat) :
    (t.form width ns lines due).Rests ids := by
  have ht := h.updThreads ns (fun a => { a.allSeen with wait := .run }) Thread.formed_keeps
  have hw : ∀ v, v ∈ (t.form width ns lines due).warps → v.want = [] ∧ v.stop = [] := by
    intro v hv
    rcases List.mem_append.1 hv with hk | hn
    · obtain ⟨x, hx, rfl⟩ := List.mem_map.1 (List.mem_filter.1 hk).1
      exact ⟨h.want x hx, h.stop x hx⟩
    · obtain ⟨x, -, rfl⟩ := List.mem_map.1 hn
      refine ⟨?_, h.haltsOf _⟩
      cases ho : x.1.head?.bind (fun th => t.warpOf? th.ltid) with
      | none => rfl
      | some o =>
        obtain ⟨th, -, hth⟩ := Option.bind_eq_some_iff.1 ho
        exact h.want o (Team.warpOf?_mem hth)
  exact ⟨ht.faults, ht.wait, fun v hv => (hw v hv).1, fun v hv => (hw v hv).2⟩

end Rests

section RestsState
variable {s : State} {t : Team} {ids : List Nat} {team : Nat}

theorem State.takeFaults_rests (ht : s.team? team = some t) (h : t.Rests ids) (k : Nat) : s.takeFaults team k = s := by
  rw [State.takeFaults, ht]
  dsimp only
  cases hw : t.warp? k with
  | none => rfl
  | some w => exact if_pos ⟨by rw [h.faultsOf w]; rfl, h.want w (Team.warp?_mem hw)⟩

theorem State.foldl_takeFaults_rests (ht : s.team? team = some t) (h : t.Rests ids) (ks : List Nat) :
    ks.foldl (fun s k => s.takeFaults team k) s = s := by
  induction ks with
  | nil => rfl
  | cons k ks ih => rw [List.foldl_cons, State.takeFaults_rests ht h, ih]

theorem State.haltWarp_rests (ht : s.team? team = some t) (h : t.Rests ids) (k : Nat) (p : Halt → Bool) : s.haltWarp team k p = s := by
  rw [State.haltWarp, ht, Option.bind_some]
  cases hw : t.warp? k with
  | none => rfl
  | some w =>
    rw [Option.map_some, h.stop w (Team.warp?_mem hw)]
    rfl

theorem State.takeStops_rests (ht : s.team? team = some t) (h : t.Rests ids) (ns : List Nat) : s.takeStops team ns = s := by
  rw [State.takeStops, ht]
  dsimp only
  generalize t.warps.filter _ = ws
  induction ws with
  | nil => rfl
  | cons w ws ih => rw [List.foldl_cons, State.haltWarp_rests ht h, ih]

theorem State.anyWaits_rests (ht : s.team? team = some t) (h : t.Rests ids) : s.anyWaits team ids = false := by
  rw [State.anyWaits, ht, Option.any_some, List.any_eq_false]
  intro a ha
  cases hc : ids.contains a.ltid with
  | false => simp
  | true => simp [h.wait a ha hc]

/-- A warp that is regrouped stays as it is, or its running threads form new warps. -/
theorem State.regroup_cases {w : Warp} (ht : s.team? team = some t) {k : Nat} (hw : t.warp? k = some w) :
    s.regroup team k = s ∨ ∃ ns, (∀ n, n ∈ ns → some n ∈ w.lanes) ∧ s.regroup team k = s.form team ns w.lines w.due := by
  rw [State.regroup, ht]
  dsimp only
  rw [hw]
  dsimp only
  split
  · exact .inl rfl
  · refine .inr ⟨_, fun n hn => ?_, rfl⟩
    obtain ⟨a, ha, rfl⟩ := List.mem_map.1 hn
    obtain ⟨l, hl, rfl⟩ := List.mem_map.1 (List.mem_filter.1 ha).1
    exact (Team.lanesOf_mem hl).2

theorem State.form_eq (ht : s.team? team = some t) (ns : List Nat) (lines : Option (List (Nat × Nat))) (due : Nat) :
    s.form team ns lines due = s.updTeam team (fun x => x.form (s.width t) ns lines due) := by
  rw [State.form, ht]

end RestsState

/-! ### The end of a part -/

/-- The threads `ids` of a team move on at the end of a part, and its warp waits for its next issue. -/
def Team.partEnded (tm : Team) (t : Turn) (ids : List Nat) (jumped done : Bool) (now : Nat) : Team :=
  (tm.updThreads ids (fun th => th.advance t.pc t.next (1 + t.stall) jumped now)).updWarp t.warp
    (fun w => { w with packet := if t.next.isSome then w.packet else none, due := max w.due (now + 1 + t.stall)
                       mid := !done, stop := w.stop.map Halt.passed })

/-- A turn whose part has issued is over. -/
def State.turnOver (s : State) : State := { s with turn := none, issueN := s.issueN + 1 }

/-- Without a STEP in progress nothing is kept of a part that has issued. -/
theorem State.stepped_idle {s : State} (h : s.dbg.stepping = none) (team : Nat) (ids : List Nat) : s.stepped team ids = s := by
  obtain ⟨mm, fe, wk, eng, ctxs, cores, ⟨caps, drains, watches, brks, stepping, mailbox, replays, tokens⟩, clock, pkg, turn, inputs, issueN, free⟩ := s
  obtain rfl : stepping = none := h
  rfl

section PartEnd
variable {s : State} {t : Turn} {tm : Team} {w : Warp}

theorem Team.Rests.partEnded {ids : List Nat} (h : tm.Rests ids) (ns : List Nat) (jumped done : Bool) (now : Nat) :
    (tm.partEnded t ns jumped done now).Rests ids :=
  (h.updThreads ns _ (fun a => by rw [a.advance_rest]; exact ⟨rfl, rfl, fun h => h⟩)).updWarp _ _
    (fun v hw hs => ⟨hw, by simp [hs]⟩)

/-- The end of a part: its threads move on; then formation, what ends waits, and stops. -/
theorem State.endPart_eq (ho : t.only = none) (ht : s.team? t.team = some tm) (hw : tm.warp? t.warp = some w) :
    ∃ jumped done : Bool, ∃ u : State, u = ((s.turnOver.updTeam t.team (fun x =>
        x.partEnded t (w.lanes.filterMap id) jumped done s.clock.clk)).stepped t.team (w.lanes.filterMap id)).afterPart t.team t.warp
      ∧ s.endPart t = (let v := if t.wake || (done && u.anyWaits t.team (w.lanes.filterMap id)) then (u.settle t.team).updTeam t.team Team.retire else u
        if done then v.takeStops t.team (w.lanes.filterMap id) else v) := by
  have ht' : ({ s with turn := none, issueN := s.issueN + 1 } : State).team? t.team = some tm := ht
  refine ⟨tm.threads.any (fun a => (w.lanes.filterMap id).contains a.ltid && a.next.isSome), groupDone w.packet t.start t.next, _, rfl, ?_⟩
  simp only [State.endPart, ht', Option.bind_some, hw, ho, Option.isNone_none, Bool.true_and]
  rfl

/-- In a team with nothing to trap or to stop for, and where nothing waits, only a formation follows. -/
theorem State.endPart_rests (ho : t.only = none) (ht : s.team? t.team = some tm) (hw : tm.warp? t.warp = some w) (hk : t.wake = false)
    (h : tm.Rests (w.lanes.filterMap id)) (hs : s.dbg.stepping = none) : ∃ jumped done : Bool, ∃ v : State,
      v = s.turnOver.updTeam t.team (fun x => x.partEnded t (w.lanes.filterMap id) jumped done s.clock.clk)
      ∧ (s.endPart t = v ∨ ∃ width ns lines due, (∀ n, n ∈ ns → some n ∈ w.lanes)
        ∧ s.endPart t = v.updTeam t.team (fun x => x.form width ns lines due)) := by
  obtain ⟨jumped, done, u, hu, he⟩ := State.endPart_eq (s := s) ho ht hw
  refine ⟨jumped, done, _, rfl, ?_⟩
  generalize hv : s.turnOver.updTeam t.team (fun x => x.partEnded t (w.lanes.filterMap id) jumped done s.clock.clk) = v at hu
  have hstep : v.stepped t.team (w.lanes.filterMap id) = v := by
    have hd : v.dbg.stepping = none := by rw [← hv]; exact hs
    exact State.stepped_idle hd _ _
  have hv1 : v.team? t.team = some (tm.partEnded t (w.lanes.filterMap id) jumped done s.clock.clk) := by
    rw [← hv, State.updTeam_team _ _ _ _ (by intro x; rfl), if_pos rfl, show s.turnOver.team? t.team = some tm from ht, Option.map_some]
  have hr := h.partEnded (t := t) (w.lanes.filterMap id) jumped done s.clock.clk
  obtain ⟨w', hw', hl⟩ : ∃ w', (tm.partEnded t (w.lanes.filterMap id) jumped done s.clock.clk).warp? t.warp = some w' ∧ w'.lanes = w.lanes := by
    have hm : (tm.partEnded t (w.lanes.filterMap id) jumped done s.clock.clk).warp? t.warp = (tm.warp? t.warp).map _ :=
      find_map_same _ _ _ (fun x => by split <;> rfl)
    rw [hm, hw]
    refine ⟨_, rfl, ?_⟩
    dsimp only
    split <;> rfl
  generalize tm.partEnded t (w.lanes.filterMap id) jumped done s.clock.clk = tm' at hv1 hr hw'
  -- what follows a formation, or its absence, changes nothing
  have hend : ∀ (x : State) (y : Team), v.regroup t.team t.warp = x → x.team? t.team = some y → y.Rests (w.lanes.filterMap id) → s.endPart t = x := by
    intro x y hx hy hr
    have hux : u = x := by
      rw [hu, hstep, State.afterPart, hv1, Option.bind_some, hw']
      dsimp only
      rw [hx, hy]
      exact State.foldl_takeFaults_rests hy hr _
    rw [he, hux, hk, State.anyWaits_rests hy hr, Bool.and_false]
    simp only [Bool.or_false, Bool.false_eq_true, if_false]
    split
    · exact State.takeStops_rests hy hr _
    · rfl
  rcases State.regroup_cases hv1 hw' with hg | ⟨ns, hns, hg⟩
  · exact .inl (hend _ _ hg hv1 hr)
  · rw [State.form_eq hv1] at hg
    refine .inr ⟨v.width tm', ns, w'.lines, w'.due, fun n hn => hl ▸ hns n hn,
      hend _ _ hg ?_ (hr.form (v.width tm') ns w'.lines w'.due)⟩
    rw [State.updTeam_team _ _ _ _ (by intro x; rfl), if_pos rfl, hv1, Option.map_some]

end PartEnd

theorem Team.partEnded_thread (tm : Team) (t : Turn) (ids : List Nat) (jumped done : Bool) (now n : Nat) :
    (tm.partEnded t ids jumped done now).thread? n =
      (tm.thread? n).map (fun a => if ids.contains n then a.advance t.pc t.next (1 + t.stall) jumped now else a) :=
  Team.updThreads_thread tm ids _ n (fun a => a.advance_ltid _ _ _ _ _)

theorem Team.form_thread (t : Team) (width : Nat) (ns : List Nat) (lines : Option (List (Nat × Nat))) (due n : Nat) :
    (t.form width ns lines due).thread? n =
      (t.thread? n).map (fun a => if ns.contains n then { a.allSeen with wait := .run } else a) :=
  Team.updThreads_thread t ns _ n (fun a => a.formed_keeps.1)

theorem contains_filterMap_id (ls : List (Option Nat)) (n : Nat) : (ls.filterMap id).contains n = true ↔ some n ∈ ls := by
  simp

/-- A thread that has moved on and that a formation may have taken into a new warp. -/
theorem Thread.advance_formed (a b : Thread) (t : Turn) (jumped : Bool) (now : Nat) (hw : a.wait = .run) (formed : Bool)
    (hb : b = a.advance t.pc t.next (1 + t.stall) jumped now) (c : Thread) (hc : c = if formed then { b.allSeen with wait := .run } else b) :
    c = { a with pc := c.pc, slot := c.slot, next := none, regs := c.regs, preds := c.preds, pend := c.pend, lastIssue := now }
    ∧ c.pc = b.pc ∧ c.slot = b.slot
    ∧ (∀ k, c.final (.reg k) = a.final (.reg k)) ∧ ∀ k, k < 7 → (c.final (.pred k) != 0) = (a.final (.pred k) != 0) := by
  obtain ⟨hr, hp⟩ := a.advance_final t.pc t.next (1 + t.stall) jumped now
  have hrest := a.advance_rest t.pc t.next (1 + t.stall) jumped now
  rw [← hb] at hr hp hrest
  cases formed with
  | false =>
    obtain rfl : c = b := hc
    exact ⟨hrest, rfl, rfl, hr, hp⟩
  | true =>
    obtain ⟨hr', hp'⟩ := b.allSeen_final
    have hall := b.allSeen_rest
    obtain rfl : c = { b.allSeen with wait := .run } := hc
    refine ⟨?_, by rw [hall], by rw [hall], fun k => (hr' k).trans (hr k), fun k hk => (hp' k hk).trans (hp k hk)⟩
    generalize b.allSeen = x at hall
    rw [hall, hrest, ← hw]

theorem Team.rests_of_calm {t : Team} {ids : List Nat} (hc : t.calm = true) (hs : ∀ v, v ∈ t.warps → v.stop = [])
    (hw : ∀ a, a ∈ t.threads → ids.contains a.ltid = true → a.wait = .run) : t.Rests ids := by
  simp only [Team.calm, Bool.and_eq_true, List.all_eq_true, List.isEmpty_iff] at hc
  exact ⟨hc.1, hw, hc.2, hs⟩

/-- The threads of a team at rest after the end of a part: those of the warp have moved on, and a formation may have taken some of them. -/
theorem State.endPart_threads {s : State} {t : Turn} {tm : Team} {w : Warp} (ho : t.only = none) (ht : s.team? t.team = some tm)
    (hw : tm.warp? t.warp = some w) (hk : t.wake = false) (h : tm.Rests (w.lanes.filterMap id)) (hs : s.dbg.stepping = none) :
    ∃ (jumped : Bool) (ns : List Nat), (∀ n, n ∈ ns → some n ∈ w.lanes)
      ∧ s.endPart t = { s with wk := { s.wk with teams := (s.endPart t).wk.teams }, turn := none, issueN := s.issueN + 1 }
      ∧ (∀ k, k ≠ t.team → (s.endPart t).team? k = s.team? k)
      ∧ ∀ n, (s.endPart t).thread? t.team n = ((tm.thread? n).map (fun a =>
            if (w.lanes.filterMap id).contains n then a.advance t.pc t.next (1 + t.stall) jumped s.clock.clk else a)).map
          (fun b => if ns.contains n then { b.allSeen with wait := .run } else b) := by
  obtain ⟨jumped, done, v, hv, he⟩ := State.endPart_rests ho ht hw hk h hs
  have hteam : v.team? t.team = some (tm.partEnded t (w.lanes.filterMap id) jumped done s.clock.clk) := by
    rw [hv, State.updTeam_team _ _ _ _ (by intro x; rfl), if_pos rfl, show s.turnOver.team? t.team = some tm from ht, Option.map_some]
  have hother : ∀ k, k ≠ t.team → v.team? k = s.team? k := fun k hk => by
    rw [hv, State.updTeam_team _ _ _ _ (by intro x; rfl), if_neg hk]
    rfl
  rcases he with he | ⟨width, ns, lines, due, hns, he⟩
  · refine ⟨jumped, [], fun n hn => absurd hn (by simp), by rw [he, hv]; rfl, fun k hk => by rw [he, hother k hk], fun n => ?_⟩
    rw [he, State.thread?, hteam, Option.bind_some, Team.partEnded_thread]
    simp only [List.contains_nil, Bool.false_eq_true, if_false, Option.map_id']
  · refine ⟨jumped, ns, hns, by rw [he, hv]; rfl, fun k hk => ?_, fun n => ?_⟩
    · rw [he, State.updTeam_team _ _ _ _ (by intro x; rfl), if_neg hk, hother k hk]
    · rw [he, State.thread?, State.updTeam_team _ _ _ _ (by intro x; rfl), if_pos rfl, hteam, Option.map_some, Option.bind_some,
        Team.form_thread, Team.partEnded_thread]

/-- Settles O13: the threads of the warp move on (`Thread.advance`), and what follows the part is at most a formation. -/
theorem partEnd : Obligations.PartEnd := by
  intro s t tm w hturn hmore ho hk ht hw hcalm hstop hwait hstep
  have hr : tm.Rests (w.lanes.filterMap id) :=
    Team.rests_of_calm hcalm hstop (fun a ha hi => hwait a ha ((contains_filterMap_id _ _).1 hi))
  have hfin : s.endPart t = s.finishSlot := by rw [State.finishSlot, hturn]; dsimp only; rw [hmore]
  obtain ⟨jumped, ns, hns, hrest, hother, hthr⟩ := State.endPart_threads ho ht hw hk hr hstep
  refine ⟨_, hfin, hrest, hother, fun n a ha => ?_⟩
  rw [hthr, ha, Option.map_some, Option.map_some]
  refine ⟨fun hn => ?_, fun hn => ?_⟩
  · have h1 : ¬(w.lanes.filterMap id).contains n = true := fun h => hn ((contains_filterMap_id _ _).1 h)
    have h2 : ¬ns.contains n = true := fun h => hn (hns n (List.contains_iff_mem.1 h))
    rw [if_neg h1, if_neg h2]
  · rw [if_pos ((contains_filterMap_id _ _).2 hn)]
    have hrun : a.wait = .run := hwait a (Team.thread?_mem ha) ((Team.thread?_ltid ha).symm ▸ hn)
    obtain ⟨hkeep, hpc, hslot, hregs, hpreds⟩ := a.advance_formed _ t jumped s.clock.clk hrun (ns.contains n) rfl _ rfl
    refine ⟨_, rfl, hkeep, fun T hT => ?_, fun hN => ⟨fun k hk => ?_, fun hk => ?_⟩, hregs, hpreds⟩
    · obtain ⟨h1, h2⟩ := a.advance_target t.pc t.next (1 + t.stall) jumped s.clock.clk hT
      exact ⟨hpc.trans h1, hslot.trans h2⟩
    · obtain ⟨h1, h2⟩ := a.advance_stays t.pc t.next (1 + t.stall) jumped s.clock.clk hN
      rw [hpc, hslot, h1, h2, hk]
      exact ⟨rfl, rfl⟩
    · obtain ⟨h1, h2⟩ := a.advance_stays t.pc t.next (1 + t.stall) jumped s.clock.clk hN
      rw [hpc, hslot, h1, h2, hk]
      exact ⟨rfl, rfl⟩

end Sys2Proof.Machine

namespace Sys2Proof.Machine

/-! ### Instructions that trap, wait or do nothing before their own effect (03 R55, R70, R71; 07 R146) -/

/-- Every instruction issues through the checks that all share. -/
theorem exec_instr (op : Op) (e : Enc) (s : State) : ∃ body, exec (op.instr e) s = issued op e body s :=
  match op with
  | .nop => ⟨_, execNop.eq_1 e s⟩
  | .mov => ⟨_, execMov.eq_1 e s⟩
  | .movi => ⟨_, execMovi.eq_1 e s⟩
  | .movh => ⟨_, execMovh.eq_1 e s⟩
  | .movs => ⟨_, execMovs.eq_1 e s⟩
  | .sel => ⟨_, execSel.eq_1 e s⟩
  | .cmp => ⟨_, execCmp.eq_1 e s⟩
  | .pops => ⟨_, execPops.eq_1 e s⟩
  | .add => ⟨_, execAdd.eq_1 e s⟩
  | .sub => ⟨_, execSub.eq_1 e s⟩
  | .addc => ⟨_, execAddc.eq_1 e s⟩
  | .subc => ⟨_, execSubc.eq_1 e s⟩
  | .mul => ⟨_, execMul.eq_1 e s⟩
  | .mulh => ⟨_, execMulh.eq_1 e s⟩
  | .mad => ⟨_, execMad.eq_1 e s⟩
  | .madw => ⟨_, execMadw.eq_1 e s⟩
  | .min => ⟨_, execMin.eq_1 e s⟩
  | .max => ⟨_, execMax.eq_1 e s⟩
  | .abs => ⟨_, execAbs.eq_1 e s⟩
  | .neg => ⟨_, execNeg.eq_1 e s⟩
  | .lea => ⟨_, execLea.eq_1 e s⟩
  | .and => ⟨_, execAnd.eq_1 e s⟩
  | .or => ⟨_, execOr.eq_1 e s⟩
  | .xor => ⟨_, execXor.eq_1 e s⟩
  | .andn => ⟨_, execAndn.eq_1 e s⟩
  | .not => ⟨_, execNot.eq_1 e s⟩
  | .shl => ⟨_, execShl.eq_1 e s⟩
  | .shr => ⟨_, execShr.eq_1 e s⟩
  | .sra => ⟨_, execSra.eq_1 e s⟩
  | .rotl => ⟨_, execRotl.eq_1 e s⟩
  | .bfx => ⟨_, execBfx.eq_1 e s⟩
  | .bfi => ⟨_, execBfi.eq_1 e s⟩
  | .clz => ⟨_, execClz.eq_1 e s⟩
  | .popc => ⟨_, execPopc.eq_1 e s⟩
  | .brev => ⟨_, execBrev.eq_1 e s⟩
  | .add2 => ⟨_, execAdd2.eq_1 e s⟩
  | .sub2 => ⟨_, execSub2.eq_1 e s⟩
  | .mul2 => ⟨_, execMul2.eq_1 e s⟩
  | .mac2 => ⟨_, execMac2.eq_1 e s⟩
  | .shrn => ⟨_, execShrn.eq_1 e s⟩
  | .pk2 => ⟨_, execPk2.eq_1 e s⟩
  | .unpk => ⟨_, execUnpk.eq_1 e s⟩
  | .sflg => ⟨_, execSflg.eq_1 e s⟩
  | .fadd => ⟨_, execFadd.eq_1 e s⟩
  | .fsub => ⟨_, execFsub.eq_1 e s⟩
  | .fmul => ⟨_, execFmul.eq_1 e s⟩
  | .ffma => ⟨_, execFfma.eq_1 e s⟩
  | .fmin => ⟨_, execFmin.eq_1 e s⟩
  | .fmax => ⟨_, execFmax.eq_1 e s⟩
  | .fneg => ⟨_, execFneg.eq_1 e s⟩
  | .fabs => ⟨_, execFabs.eq_1 e s⟩
  | .fcmp => ⟨_, execFcmp.eq_1 e s⟩
  | .fcls => ⟨_, execFcls.eq_1 e s⟩
  | .frnd => ⟨_, execFrnd.eq_1 e s⟩
  | .frcp => ⟨_, execFrcp.eq_1 e s⟩
  | .frsq => ⟨_, execFrsq.eq_1 e s⟩
  | .fsqrt => ⟨_, execFsqrt.eq_1 e s⟩
  | .fdiv => ⟨_, execFdiv.eq_1 e s⟩
  | .fex2 => ⟨_, execFex2.eq_1 e s⟩
  | .flg2 => ⟨_, execFlg2.eq_1 e s⟩
  | .fsin => ⟨_, execFsin.eq_1 e s⟩
  | .fcos => ⟨_, execFcos.eq_1 e s⟩
  | .hadd2 => ⟨_, execHadd2.eq_1 e s⟩
  | .hmul2 => ⟨_, execHmul2.eq_1 e s⟩
  | .hfma2 => ⟨_, execHfma2.eq_1 e s⟩
  | .cvt => ⟨_, execCvt.eq_1 e s⟩
  | .cvpk => ⟨_, execCvpk.eq_1 e s⟩
  | .cvup => ⟨_, execCvup.eq_1 e s⟩
  | .bra => ⟨_, execBra.eq_1 e s⟩
  | .brx => ⟨_, execBrx.eq_1 e s⟩
  | .brxRel => ⟨_, execBrxRel.eq_1 e s⟩
  | .call => ⟨_, execCall.eq_1 e s⟩
  | .callX => ⟨_, execCallX.eq_1 e s⟩
  | .ret => ⟨_, execRet.eq_1 e s⟩
  | .exit => ⟨_, execExit.eq_1 e s⟩
  | .vote => ⟨_, execVote.eq_1 e s⟩
  | .matchOp => ⟨_, execMatchOp.eq_1 e s⟩
  | .elect => ⟨_, execElect.eq_1 e s⟩
  | .sld => ⟨_, execSld.eq_1 e s⟩
  | .shfl => ⟨_, execShfl.eq_1 e s⟩
  | .lbc => ⟨_, execLbc.eq_1 e s⟩
  | .wrdx => ⟨_, execWrdx.eq_1 e s⟩
  | .wscan => ⟨_, execWscan.eq_1 e s⟩
  | .rgn => ⟨_, execRgn.eq_1 e s⟩
  | .join => ⟨_, execJoin.eq_1 e s⟩
  | .rgp => ⟨_, execRgp.eq_1 e s⟩
  | .spawn => ⟨_, execSpawn.eq_1 e s⟩
  | .ld => ⟨_, execLd.eq_1 e s⟩
  | .st => ⟨_, execSt.eq_1 e s⟩
  | .ldc => ⟨_, execLdc.eq_1 e s⟩
  | .ldcinv => ⟨_, execLdcinv.eq_1 e s⟩
  | .prf => ⟨_, execPrf.eq_1 e s⟩
  | .fence => ⟨_, execFence.eq_1 e s⟩
  | .atom => ⟨_, execAtom.eq_1 e s⟩
  | .cas => ⟨_, execCas.eq_1 e s⟩
  | .red => ⟨_, execRed.eq_1 e s⟩
  | .redDet => ⟨_, execRedDet.eq_1 e s⟩
  | .binit => ⟨_, execBinit.eq_1 e s⟩
  | .barr => ⟨_, execBarr.eq_1 e s⟩
  | .bexp => ⟨_, execBexp.eq_1 e s⟩
  | .bwait => ⟨_, execBwait.eq_1 e s⟩
  | .btry => ⟨_, execBtry.eq_1 e s⟩
  | .binv => ⟨_, execBinv.eq_1 e s⟩
  | .cpy => ⟨_, execCpy.eq_1 e s⟩
  | .cpys => ⟨_, execCpys.eq_1 e s⟩
  | .cpyw => ⟨_, execCpyw.eq_1 e s⟩
  | .lrinv => ⟨_, execLrinv.eq_1 e s⟩
  | .qfence => ⟨_, execQfence.eq_1 e s⟩
  | .put => ⟨_, execPut.eq_1 e s⟩
  | .hbld => ⟨_, execHbld.eq_1 e s⟩
  | .hprb => ⟨_, execHprb.eq_1 e s⟩
  | .hlk => ⟨_, execHlk.eq_1 e s⟩
  | .mrg => ⟨_, execMrg.eq_1 e s⟩
  | .scn => ⟨_, execScn.eq_1 e s⟩
  | .hfree => ⟨_, execHfree.eq_1 e s⟩
  | .xenq => ⟨_, execXenq.eq_1 e s⟩
  | .xtake => ⟨_, execXtake.eq_1 e s⟩
  | .tmm => ⟨_, execTmm.eq_1 e s⟩
  | .tmmsp => ⟨_, execTmmsp.eq_1 e s⟩
  | .tgms => ⟨_, execTgms.eq_1 e s⟩
  | .tsacc => ⟨_, execTsacc.eq_1 e s⟩
  | .tzero => ⟨_, execTzero.eq_1 e s⟩
  | .tst => ⟨_, execTst.eq_1 e s⟩
  | .tldac => ⟨_, execTldac.eq_1 e s⟩
  | .ttr => ⟨_, execTtr.eq_1 e s⟩
  | .tscl => ⟨_, execTscl.eq_1 e s⟩
  | .tflush => ⟨_, execTflush.eq_1 e s⟩
  | .trap => ⟨_, execTrap.eq_1 e s⟩
  | .tret => ⟨_, execTret.eq_1 e s⟩
  | .brkpt => ⟨_, execBrkpt.eq_1 e s⟩
  | .sysr => ⟨_, execSysr.eq_1 e s⟩
  | .sysw => ⟨_, execSysw.eq_1 e s⟩
  | .tmark => ⟨_, execTmark.eq_1 e s⟩

section Issued
variable {s : State} {op : Op} {e : Enc} {i : Iss}

theorem exec_illegal (h : s.iss? op e = some i) (ho : i.turn.only = none) {x : Option Nat} (hx : i.illegal = some x) :
    exec (op.instr e) s = .next (s.rejectPart i.turn 2 i.turn.slot x 0 .none) := by
  obtain ⟨body, hb⟩ := exec_instr op e s
  rw [hb]
  simp only [issued, h, ho, Option.isSome_none, Bool.false_eq_true, if_false, hx]

/-- What an instruction whose checks hold does. -/
theorem exec_legal (h : s.iss? op e = some i) (ho : i.turn.only = none) (hx : i.illegal = none) : ∃ body : State,
    exec (op.instr e) s = if i.act.isEmpty then .next s.finishSlot
      else if !i.farLanes.isEmpty then
        (if i.metFault then .next s.finishSlot else .next (s.rejectPart i.turn 6 i.turn.slot (some (laneMask i.farLanes)) 0 .none))
      else if s.held i then .next { s with turn := none }
      else .next body := by
  obtain ⟨body, hb⟩ := exec_instr op e s
  refine ⟨(body i s).finishSlot, ?_⟩
  rw [hb]
  simp only [issued, h, ho, Option.isSome_none, Bool.false_eq_true, if_false, hx]

theorem exec_idle (h : s.iss? op e = some i) (ho : i.turn.only = none) (hx : i.illegal = none) (ha : i.act = []) :
    exec (op.instr e) s = .next s.finishSlot := by
  obtain ⟨body, hb⟩ := exec_legal h ho hx
  simp only [hb, ha, List.isEmpty_nil, if_true]

theorem exec_far (h : s.iss? op e = some i) (ho : i.turn.only = none) (hx : i.illegal = none) (ha : i.act ≠ []) (hf : i.farLanes ≠ []) :
    exec (op.instr e) s = if i.metFault then .next s.finishSlot
      else .next (s.rejectPart i.turn 6 i.turn.slot (some (laneMask i.farLanes)) 0 .none) := by
  obtain ⟨body, hb⟩ := exec_legal h ho hx
  rw [hb, if_neg (by simpa using ha), if_pos (by simpa using hf)]

theorem exec_held (h : s.iss? op e = some i) (ho : i.turn.only = none) (hx : i.illegal = none) (ha : i.act ≠ []) (hf : i.farLanes = [])
    (hh : s.held i = true) : exec (op.instr e) s = .next { s with turn := none } := by
  obtain ⟨body, hb⟩ := exec_legal h ho hx
  rw [hb, if_neg (by simpa using ha), if_neg (by simp [hf]), if_pos hh]

end Issued

theorem Iss.metFault_iff (i : Iss) :
    i.metFault = true ↔ ∃ l f, l ∈ i.live ∧ f ∈ l.th.faults ∧ f.slot < i.turn.slot ∧ f.pc = i.turn.pc := by
  simp only [Iss.metFault, Iss.pc, List.any_eq_true, Bool.and_eq_true, decide_eq_true_eq, beq_iff_eq]
  exact ⟨fun ⟨l, hl, f, hf, h⟩ => ⟨l, f, hl, hf, h⟩, fun ⟨l, f, hl, hf, h⟩ => ⟨l, hl, f, hf, h⟩⟩

theorem testBit_maskOf (bits : List Nat) (k : Nat) : Nat.testBit (maskOf bits) k = bits.contains k := by
  suffices H : ∀ m : Nat, Nat.testBit (bits.foldl (fun m k => m ||| (1 <<< k)) m) k = (Nat.testBit m k || bits.contains k) by
    simpa [maskOf] using H 0
  induction bits with
  | nil => simp
  | cons b bs ih =>
    intro m
    have hb : decide (b = k) = (k == b) := by rw [Bool.eq_iff_iff, decide_eq_true_eq, beq_iff_eq, eq_comm]
    rw [List.foldl_cons, ih, Nat.testBit_or, List.contains_cons, Bool.or_assoc, Nat.shiftLeft_eq, Nat.one_mul, Nat.testBit_two_pow, hb]

/-- The mask of the lanes whose transfer goes to no address of 48 bits (07 R146). -/
theorem testBit_farLanes {i : Iss} (hf : i.farLanes ≠ []) (k : Nat) :
    Nat.testBit (laneMask i.farLanes) k = true ↔ ∃ l T, (l, T) ∈ i.targets ∧ 2 ^ 48 ≤ T ∧ l.lane = k := by
  have ht : i.farLanes = (i.targets.filter (fun p => decide (2 ^ 48 ≤ p.2))).map Prod.fst := by
    unfold Iss.farLanes at hf ⊢
    split at hf
    case isTrue h => rw [if_pos h]
    case isFalse => exact absurd rfl hf
  rw [laneMask, testBit_maskOf, ht, List.contains_iff_mem]
  simp only [List.mem_map, List.mem_filter, decide_eq_true_eq]
  constructor
  · rintro ⟨l, ⟨⟨_, T⟩, ⟨hp, hT⟩, rfl⟩, rfl⟩
    exact ⟨_, T, hp, hT, rfl⟩
  · rintro ⟨l, T, hp, hT, rfl⟩
    exact ⟨l, ⟨(l, T), ⟨hp, hT⟩, rfl⟩, rfl⟩

/-! #### Illegal instructions (03 R70; 28 R455, R458) -/

section Illegal
variable {i : Iss}

theorem Iss.illegal_encoding (h : encodingOk i.nreg i.op i.e = false) : i.illegal = some none := by
  rw [Iss.illegal, h]
  rfl

theorem Iss.illegal_tret (ho : i.op = .tret) (ht : i.tmode = false) : i.illegal = some none := by
  simp [Iss.illegal, ho, ht]

theorem Iss.illegal_sysr (h : encodingOk i.nreg i.op i.e = true) (ho : i.op = .sysr) (hr : (sysRights i.e.a.toNat i.tmode).1 = false) :
    i.illegal = some (some i.e.a.toNat) := by
  rw [Iss.illegal, h, ho]
  simp [hr]

theorem Iss.illegal_sysw (h : encodingOk i.nreg i.op i.e = true) (ho : i.op = .sysw) (hr : (sysRights i.e.a.toNat i.tmode).2 = false) :
    i.illegal = some (some i.e.a.toNat) := by
  rw [Iss.illegal, h, ho]
  simp [hr]

end Illegal

theorem sysRights_unreadable {a : BitVec 8} {tmode : Bool}
    (h : (a = 0x00 ∧ tmode = false) ∨ a ∉ [0x00, 0x08, 0x09, 0x20, 0x21, 0x22, 0x23]) : (sysRights a.toNat tmode).1 = false := by
  rcases h with ⟨rfl, rfl⟩ | h
  · rfl
  · simp only [List.mem_cons, List.not_mem_nil, or_false, not_or] at h
    rw [sysRights, if_neg (by bv_omega), if_neg (by bv_omega), if_neg (by bv_omega)]

theorem sysRights_unwritable {a : BitVec 8} {tmode : Bool} (h : a ≠ 0x08 ∨ tmode = false) : (sysRights a.toNat tmode).2 = false := by
  unfold sysRights
  split
  · rfl
  · split
    next h8 => exact h.resolve_left (fun h => h (BitVec.eq_of_toNat_eq h8))
    next => split <;> rfl

/-! #### A part that traps (03 R69, R70; 26 R412) -/

/-- The turn of a part that traps: a transfer whose target faults ends its packet. -/
def Turn.rejected (n : Turn) (c : BitVec 16) : Turn := if c = 6 then { n with next := none } else n

/-- The threads of a part that has no effect stand after it. -/
def Team.passed (tm : Team) (n : Turn) (ids : List Nat) (done : Bool) (now : Nat) : Team :=
  (tm.updThreads ids (fun th => ({ th with next := none } : Thread).advance n.pc n.next (1 + n.stall) false now)).updWarp n.warp
    (fun w => { w with packet := if n.next.isSome then w.packet else none, due := now + 1 + n.stall, mid := !done })

section Reject
variable {s : State} {n : Turn} {tm : Team} {w : Warp}

theorem Turn.rejected_next (n : Turn) (c : BitVec 16) : (n.rejected c).next = if c = 6 then none else n.next := by
  unfold Turn.rejected
  split <;> rfl

theorem Turn.rejected_rest (n : Turn) (c : BitVec 16) : n.rejected c = { n with next := (n.rejected c).next } := by
  unfold Turn.rejected
  split <;> rfl

/-- The state in which a part that has no effect raises its trap. -/
def State.passed (s : State) (n : Turn) (w : Warp) (kind : Nat) : State :=
  ((if kind = 2 then s.drew.turnOver
    else s.drew.turnOver.updTeam n.team (fun x => x.passed n (w.lanes.filterMap id) (groupDone w.packet n.start n.next) s.clock.clk)).stepped
      n.team (w.lanes.filterMap id))

theorem State.rejectPart_eq (ht : s.team? n.team = some tm) (hw : tm.warp? n.warp = some w) (c : BitVec 16) (slot kind : Nat) (d : Option Nat)
    (o : Offer) : s.rejectPart n c slot d kind o = ((s.passed (n.rejected c) w kind).raiseTrap n.team n.warp
        ⟨kind, c, 0, BitVec.ofNat 64 (d.getD s.unstated), n.pc, slot, n.start, none, [], none, o, w.mid⟩).takeStops n.team (w.lanes.filterMap id) := by
  have ht' : ∀ v : Option Turn, ({ s.drew with turn := v, issueN := s.issueN + 1 } : State).team? n.team = some tm := fun _ => ht
  by_cases hc : c = 6
  · simp only [State.rejectPart, State.passed, Turn.rejected, hc, if_true, ht', Option.bind_some, hw]
    rfl
  · simp only [State.rejectPart, State.passed, Turn.rejected, hc, if_false, ht', Option.bind_some, hw]
    rfl

theorem State.passed_rest (s : State) (n : Turn) (w : Warp) (kind : Nat) : s.passed n w kind = { s with
    wk := { s.wk with teams := (s.passed n w kind).wk.teams }, turn := none, issueN := s.issueN + 1, free := s.free + 1
    dbg := (s.passed n w kind).dbg } := by
  unfold State.passed
  split <;> rfl

theorem State.passed_team {k : Nat} (hk : k ≠ n.team) (kind : Nat) : (s.passed n w kind).team? k = s.team? k := by
  unfold State.passed
  split
  · rfl
  · exact (State.updTeam_team _ _ _ _ (by intro x; rfl)).trans (if_neg hk)

theorem Team.passed_thread (tm : Team) (n : Turn) (ids : List Nat) (done : Bool) (now k : Nat) :
    (tm.passed n ids done now).thread? k = (tm.thread? k).map (fun a =>
      if ids.contains k then ({ a with next := none } : Thread).advance n.pc n.next (1 + n.stall) false now else a) :=
  Team.updThreads_thread tm ids _ k (fun a => ({ a with next := none } : Thread).advance_ltid _ _ _ _ _)

/-- The threads of a part that traps: those of a trapping fetch, and those outside the warp, are as they were. -/
theorem State.passed_thread (ht : s.team? n.team = some tm) {k : Nat} {a : Thread} (ha : tm.thread? k = some a) (kind : Nat) :
    (s.passed n w kind).thread? n.team k = some (if kind ≠ 2 ∧ some k ∈ w.lanes then
      ({ a with next := none } : Thread).advance n.pc n.next (1 + n.stall) false s.clock.clk else a) := by
  unfold State.passed
  by_cases hk : kind = 2
  · rw [if_pos hk, if_neg (fun h => h.1 hk), ← ha]
    show (s.team? n.team).bind _ = _
    rw [ht, Option.bind_some]
  · rw [if_neg hk]
    show ((s.drew.turnOver.updTeam _ _).team? n.team).bind _ = _
    rw [State.updTeam_team _ _ _ _ (by intro x; rfl), if_pos rfl, show s.drew.turnOver.team? n.team = some tm from ht, Option.map_some,
      Option.bind_some, Team.passed_thread, ha, Option.map_some]
    simp only [contains_filterMap_id, hk, ne_eq, not_false_eq_true, true_and]

/-- A thread that stands after a part without effect holds what it held. -/
theorem Thread.passed_keeps (a : Thread) (n : Turn) (now : Nat) (b : Thread)
    (hb : b = ({ a with next := none } : Thread).advance n.pc n.next (1 + n.stall) false now) :
    (∀ j, b.final (.reg j) = a.final (.reg j)) ∧ (∀ j, j < 7 → (b.final (.pred j) != 0) = (a.final (.pred j) != 0)) ∧ b.flags = a.flags
    ∧ b.pc = (if n.next.isSome then n.pc else n.pc + 16) ∧ b.slot = n.next.getD 0 ∧ b.lastIssue = now := by
  obtain ⟨hr, hp⟩ := ({ a with next := none } : Thread).advance_final n.pc n.next (1 + n.stall) false now
  obtain ⟨hpc, hslot⟩ := ({ a with next := none } : Thread).advance_stays n.pc n.next (1 + n.stall) false now rfl
  have hrest := ({ a with next := none } : Thread).advance_rest n.pc n.next (1 + n.stall) false now
  rw [← hb] at hr hp hpc hslot hrest
  exact ⟨hr, hp, by rw [hrest], hpc, hslot, by rw [hrest]⟩

end Reject

/-- Settles O36: the branches of `issued`, the illegal encodings and modes, and what a rejected part leaves. -/
theorem checkResults : Obligations.CheckResults := by
  intro s op e i n c slot kind d o
  refine ⟨fun h ho => ⟨fun x hx => exec_illegal h ho hx, exec_idle h ho, fun hx ha hf hm => ?_, fun hx ha hf hm => ?_, exec_held h ho⟩,
    Iss.illegal_encoding, fun h => ⟨Iss.illegal_tret, fun hop hr => Iss.illegal_sysr h hop (sysRights_unreadable hr),
      fun hop hr => Iss.illegal_sysw h hop (sysRights_unwritable hr)⟩, fun tm w ht hw => ?_⟩
  · rw [exec_far h ho hx ha hf, if_pos ((Iss.metFault_iff i).2 hm)]
  · exact ⟨laneMask i.farLanes, by rw [exec_far h ho hx ha hf, if_neg (fun hm' => hm ((Iss.metFault_iff i).1 hm'))], testBit_farLanes hf⟩
  · have hteam : (n.rejected c).team = n.team := by rw [n.rejected_rest c]
    have hpc : (n.rejected c).pc = n.pc := by rw [n.rejected_rest c]
    refine ⟨_, d.getD s.unstated, by cases d <;> simp, State.rejectPart_eq ht hw c slot kind d o, State.passed_rest _ _ _ _,
      fun k hk => State.passed_team (hteam ▸ hk) kind, fun k a ha => ?_⟩
    have hthread := State.passed_thread (w := w) (n := n.rejected c) (hteam ▸ ht) ha kind
    rw [hteam] at hthread
    by_cases hk : kind ≠ 2 ∧ some k ∈ w.lanes
    · obtain ⟨hr, hp, hfl, hpc', hslot, hnow⟩ := a.passed_keeps (n.rejected c) s.clock.clk _ rfl
      rw [if_pos hk] at hthread
      exact ⟨_, hthread, hr, hp, hfl, fun _ _ => ⟨hpc'.trans (by rw [hpc, n.rejected_next c]),
        hslot.trans (by rw [n.rejected_next c]), hnow⟩, fun h =>
        h.elim (fun h2 => absurd h2 hk.1) (fun hn => absurd hk.2 hn)⟩
    · rw [if_neg hk] at hthread
      exact ⟨a, hthread, fun _ => rfl, fun _ _ => rfl, rfl, fun h1 h2 => absurd ⟨h1, h2⟩ hk, fun _ => rfl⟩

end Sys2Proof.Machine

namespace Sys2Proof.Machine

/-! ### Moves, selection and comparisons (05 R98 to R103; 06 R129) -/

theorem wrapInt_toSigned {w : Nat} (v : Nat) (x : BitVec w) : wrapInt v (toSigned w x.toNat) = (x.signExtend v).toNat := by
  rw [wrapInt_eq, toSigned_eq, BitVec.ofNat_toNat, BitVec.setWidth_eq]
  rfl

/-- An upper half put over a lower one (05 R99). -/
theorem toNat_halves (h : BitVec 16) (x : Word) :
    (h ++ x.extractLsb' 0 16 : Word).toNat = h.toNat * 2 ^ 16 + lowBits 16 x.toNat := by
  rw [BitVec.toNat_append, ← Nat.shiftLeft_add_eq_or_of_lt (BitVec.isLt _), Nat.shiftLeft_eq]
  rfl

/-- A predicate operand chooses by whether the predicate is as its negate bit. -/
theorem Lane.ite_psrc {α : Type} (l : Lane) (c : BitVec 8) (x y : α) : (if l.psrc c.toNat then x else y)
    = if l.th.pred (c.toNat % 8) = Nat.testBit c.toNat 3 then y else x := by
  rw [l.psrc_eq]
  cases l.th.pred (c.toNat % 8) <;> cases Nat.testBit c.toNat 3 <;> rfl

/-- The integer condition that each code names (05 R102). -/
theorem intCond_iff (c : BitVec 8) (w x y : Nat) :
    (c = 0 → (intCond c.toNat w x y ↔ x % 2 ^ w = y % 2 ^ w)) ∧ (c = 1 → (intCond c.toNat w x y ↔ x % 2 ^ w ≠ y % 2 ^ w))
    ∧ (c = 2 → (intCond c.toNat w x y ↔ toSigned w x < toSigned w y)) ∧ (c = 3 → (intCond c.toNat w x y ↔ toSigned w x ≤ toSigned w y))
    ∧ (c = 4 → (intCond c.toNat w x y ↔ toSigned w y < toSigned w x)) ∧ (c = 5 → (intCond c.toNat w x y ↔ toSigned w y ≤ toSigned w x))
    ∧ (c = 6 → (intCond c.toNat w x y ↔ x % 2 ^ w < y % 2 ^ w)) ∧ (c = 7 → (intCond c.toNat w x y ↔ x % 2 ^ w ≤ y % 2 ^ w))
    ∧ (c = 8 → (intCond c.toNat w x y ↔ y % 2 ^ w < x % 2 ^ w)) ∧ (c = 9 → (intCond c.toNat w x y ↔ y % 2 ^ w ≤ x % 2 ^ w)) := by
  refine ⟨?_, ?_, ?_, ?_, ?_, ?_, ?_, ?_, ?_, ?_⟩ <;> rintro rfl
  · exact beq_iff_eq
  · exact bne_iff_ne
  all_goals exact decide_eq_true_iff

/-- The floating condition that each code names (06 R129). -/
theorem Fmt.compare_iff (f : Fmt) (c : BitVec 8) (a b : Nat) :
    let u := f.val a
    let v := f.val b
    let r := (f.compare c.toNat a b).1
    (c = 0 → (r ↔ u.eq v)) ∧ (c = 1 → (r ↔ ¬u.eq v)) ∧ (c = 2 → (r ↔ u.lt false v)) ∧ (c = 3 → (r ↔ u.lt false v ∨ u.eq v))
    ∧ (c = 4 → (r ↔ v.lt false u)) ∧ (c = 5 → (r ↔ v.lt false u ∨ u.eq v)) ∧ (c = 6 → (r ↔ ¬(u.isNan ∨ v.isNan)))
    ∧ (c = 7 → (r ↔ u.isNan ∨ v.isNan)) := by
  refine ⟨?_, ?_, ?_, ?_, ?_, ?_, ?_, ?_⟩ <;> rintro rfl <;> simp [Fmt.compare]

theorem sigNV_pair (u v : FVal) : sigNV [u, v] = if u = .nan true ∨ v = .nan true then fNV else 0 := by
  simp [sigNV]

/-- The flags that a floating comparison raises: equality and the test for order are quiet (06 R129). -/
theorem Fmt.compare_flags (f : Fmt) (c : BitVec 8) (a b : Nat) :
    let u := f.val a
    let v := f.val b
    (c ∈ [0, 1, 6, 7] → (f.compare c.toNat a b).2 = if u = .nan true ∨ v = .nan true then fNV else 0)
    ∧ (c ∈ [2, 3, 4, 5] → (f.compare c.toNat a b).2 = if u.isNan ∨ v.isNan then fNV else 0) := by
  simp only [List.mem_cons, List.not_mem_nil, or_false]
  constructor
  · rintro (rfl | rfl | rfl | rfl) <;> exact sigNV_pair _ _
  · rintro (rfl | rfl | rfl | rfl) <;> simp [Fmt.compare]

/-- Settles O1: each form gives every lane one result, in registers (`outAt_dst`) or in a predicate (`outAt_dstP`). -/
theorem moveCompareResults : Obligations.MoveCompareResults := by
  intro s e
  refine ⟨results_of (execMov.eq_1 e s) (fun l => outAt_dst _ _ _) (fun _ => rfl), ?_, ?_, ?_, ?_, ?_, ?_⟩
  · refine results_of (execMovi.eq_1 e s) (fun _ => ?_) (fun _ => rfl)
    rw [outAt_dst, wrapInt_toSigned]
  · refine results_of (execMovh.eq_1 e s) (fun l => ?_) (fun _ => rfl)
    rw [outAt_dst, toNat_halves]
  · refine results_of (execSel.eq_1 e s) (fun l => ?_) (fun _ => rfl)
    rw [outAt_dst, l.ite_psrc]
  · exact ⟨_, results_of (execCmp.eq_1 e s) (fun l => outAt_dstP _ _) (fun _ => rfl), fun l => intCond_iff _ _ _ _⟩
  · refine ⟨_, results_of (execPops.eq_1 e s) (fun l => outAt_dstP _ _) (fun _ => rfl), fun l => ?_⟩
    refine ⟨fun h => ?_, fun h => ?_, fun h => ?_, fun h => ?_⟩ <;> simp only [h, l.psrc_eq] <;> rfl
  · refine ⟨_, _, results_of (execFcmp.eq_1 e s) (fun l => outAt_dstP _ _) (fun _ => rfl), fun l => ?_⟩
    obtain ⟨h0, h1, h2, h3, h4, h5, h6, h7⟩ := (fmtIn 0xC e).compare_iff e.x.c (l.src 1 e.a.toNat) (l.opB .fcmp e 1 3)
    obtain ⟨hq, hs⟩ := (fmtIn 0xC e).compare_flags e.x.c (l.src 1 e.a.toNat) (l.opB .fcmp e 1 3)
    exact ⟨h0, h1, h2, h3, h4, h5, h6, h7, fun h => ⟨fun hn => (hq h).trans (if_pos hn), fun hn => (hq h).trans (if_neg hn)⟩,
      fun h => ⟨fun hn => (hs h).trans (if_pos hn), fun hn => (hs h).trans (if_neg hn)⟩⟩

end Sys2Proof.Machine

namespace Sys2Proof.Machine

/-! ### Integer arithmetic (05 R104 to R109) -/

/-- An exact result narrowed once into the destination (05 R93, R104). -/
theorem results_intRes {s : State} {op : Op} {e : Enc} {v : Lane → Int}
    (hx : exec (op.instr e) s = issued op e (alu (fun l => intRes (typeOf 8 e) e (v l))) s) : ∃ r : Lane → Nat × BitVec 6,
      (∀ l, Narrowed (typeOf 8 e) (e.x.sat == 1) (v l) (r l))
      ∧ s.Results op e (fun l => toRegs e.d (typeRegs (typeOf 8 e)) (r l).1) (fun l => (r l).2) :=
  ⟨_, fun _ => narrow_narrowed _ _ _, results_of hx (fun _ => outAt_dst _ _ _) (fun _ => rfl)⟩

theorem natAbs_ite (x : Int) : (x.natAbs : Int) = if x < 0 then -x else x := by
  split <;> omega

theorem int_two_pow_pos (n : Nat) : (0 : Int) < 2 ^ n := Int.pow_pos (by decide)

theorem int_two_pow_le {m n : Nat} (h : m ≤ n) : (2 : Int) ^ m ≤ 2 ^ n := by
  rw [← pow_cast, ← pow_cast]
  exact Int.ofNat_le.2 (Nat.pow_le_pow_right (by decide) h)

/-- The product of two numbers of a signed type: it lies within the square of the type's least value. -/
theorem natAbs_mul_le {a b : Int} {m : Nat} (ha : -(m : Int) ≤ a ∧ a ≤ m) (hb : -(m : Int) ≤ b ∧ b ≤ m) :
    (a * b).natAbs ≤ m * m := by
  rw [Int.natAbs_mul]
  exact Nat.mul_le_mul (by omega) (by omega)

/-- The upper half of the product of two values of a type is a value of it. -/
theorem upper_range (sg : Bool) (w : Nat) (a b : Int) (hw : 0 < w) (ha : intMin sg w ≤ a ∧ a ≤ intMax sg w)
    (hb : intMin sg w ≤ b ∧ b ≤ intMax sg w) : intMin sg w ≤ a * b / 2 ^ w ∧ a * b / 2 ^ w ≤ intMax sg w := by
  have hp := int_two_pow_pos w
  unfold intMin intMax at *
  cases sg
  case false =>
    simp only [Bool.false_eq_true, if_false] at *
    have hm : a * b ≤ (2 ^ w - 1) * 2 ^ w := Int.mul_le_mul ha.2 (by omega) hb.1 (by omega)
    rw [Int.sub_mul, Int.one_mul] at hm
    exact ⟨Int.ediv_nonneg (Int.mul_nonneg ha.1 hb.1) (Int.le_of_lt hp), Int.le_sub_one_of_lt (Int.ediv_lt_of_lt_mul hp (by omega))⟩
  case true =>
    have h2 : (2 : Int) ^ w = 2 * 2 ^ (w - 1) := by rw [← Int.pow_succ', Nat.sub_add_cancel hw]
    have hm := Nat.two_pow_pos (w - 1)
    simp only [if_true, ← pow_cast (w - 1)] at *
    generalize 2 ^ (w - 1) = m at *
    have hab := natAbs_mul_le (a := a) (b := b) (m := m) (by omega) (by omega)
    have hmm : (m : Int) * (2 * m) = 2 * ((m * m : Nat) : Int) := by rw [Int.natCast_mul, Int.mul_left_comm]
    have hpos : 0 < m * m := Nat.mul_pos hm hm
    generalize m * m = q at *
    refine ⟨Int.le_ediv_of_mul_le hp ?_, Int.le_sub_one_of_lt (Int.ediv_lt_of_lt_mul hp ?_)⟩
    · rw [h2, Int.neg_mul, hmm]
      omega
    · rw [h2, hmm]
      omega

theorem readInt_upper (sg : Bool) (w x y : Nat) (hw : 0 < w) :
    readInt sg w (wrapInt w (readInt sg w x * readInt sg w y / 2 ^ w)) = readInt sg w x * readInt sg w y / 2 ^ w := by
  obtain ⟨h1, h2⟩ := upper_range sg w _ _ hw (readInt_range sg w x) (readInt_range sg w y)
  exact readInt_wrap sg w _ hw h1 h2

theorem carryIn_eq (e : Enc) (l : Lane) :
    carryIn e l = ((if l.th.pred (e.x.c.toNat % 8) = Nat.testBit e.x.c.toNat 3 then 0 else 1 : Nat) : Int) := by
  rw [carryIn, l.ite_psrc]
  split <;> rfl

theorem intA_u32 (e : Enc) (l : Lane) : intA 3 e l = (l.src 1 e.a.toNat % 2 ^ 32 : Nat) := rfl

theorem intB_u32 (op : Op) (e : Enc) (l : Lane) : intB op 3 e l = (l.opB op e 1 3 % 2 ^ 32 : Nat) := rfl

/-- A result with its carry-out, which is the later of the two (05 R107). -/
theorem outAt_carryRes (e : Enc) (v : Int) (co : Bool) (tgt : Target) :
    outAt (carryRes e v co).outs tgt = (toPred (e.x.c >>> 4) co tgt).or (toRegs e.d 1 (wrapInt 32 v) tgt) := by
  have hc : (e.x.c >>> 4).toNat = e.x.c.toNat / 16 := by simp [Nat.shiftRight_eq_div_pow]
  have hp : outAt [(.pred (e.x.c.toNat / 16 % 8), if co then 1 else 0)] = toPred (e.x.c >>> 4) co := by
    rw [← outAt_dstP, dstP, hc]
  rw [carryRes, outAt_append, hp, outAt_dst]

/-- The sum of two 32-bit numbers and a carry. -/
theorem add_carry (u v c : Nat) : ((2 : Int) ^ 32 ≤ u + v + c ↔ 2 ^ 32 ≤ u + v + c) ∧ wrapInt 32 (u + v + c) = (u + v + c) % 2 ^ 32 := by
  unfold wrapInt
  omega

/-- The difference of two 32-bit numbers and a borrow. -/
theorem sub_borrow (u v c : Nat) (hv : v < 2 ^ 32) (hc : c ≤ 1) :
    ((u : Int) - v - c < 0 ↔ u < v + c) ∧ wrapInt 32 (u - v - c) = (2 ^ 33 + u - v - c) % 2 ^ 32 := by
  unfold wrapInt
  omega

/-- An address: a base, a shifted index and an offset, modulo 2^64 (05 R109). -/
theorem wrapInt_address (base n : Nat) (ix : Int) (k : Word) : wrapInt 64 (base + ix * 2 ^ n + toSigned 32 k.toNat)
    = (BitVec.ofNat 64 base + (BitVec.ofInt 64 ix <<< n) + k.signExtend 64).toNat := by
  have hp : BitVec.ofNat 64 (2 ^ n) = BitVec.twoPow 64 n := BitVec.eq_of_toNat_eq (by rw [BitVec.toNat_ofNat, BitVec.toNat_twoPow])
  have hs : BitVec.ofInt 64 (ix * 2 ^ n) = BitVec.ofInt 64 ix <<< n := by
    rw [BitVec.shiftLeft_eq_mul_twoPow, BitVec.ofInt_mul, ← pow_cast, BitVec.ofInt_natCast, hp]
  rw [wrapInt_eq, toSigned_eq, BitVec.ofInt_add, BitVec.ofInt_add, hs, BitVec.ofInt_natCast, BitVec.ofNat_toNat, BitVec.setWidth_eq]
  rfl

/-- Settles O2: the exact results are narrowed once (`results_intRes`); the upper half of a product is in range, carries are those of the exact
sum and difference. -/
theorem integerResults : Obligations.IntegerResults := by
  refine ⟨fun s e => ?_, fun s e => ?_⟩
  · refine ⟨results_intRes (execAdd.eq_1 e s), results_intRes (execSub.eq_1 e s), results_intRes (execMul.eq_1 e s),
      results_intRes (execMad.eq_1 e s), results_intRes (execMin.eq_1 e s), results_intRes (execMax.eq_1 e s), ?_,
      results_intRes (execNeg.eq_1 e s)⟩
    simp only [← natAbs_ite]
    exact results_intRes (execAbs.eq_1 e s)
  · refine ⟨⟨_, results_of (execMulh.eq_1 e s) (fun l => outAt_dst _ _ _) (fun _ => rfl), fun l =>
        ⟨wrapInt_lt _ _, readInt_upper _ _ _ _ (typeWidth_pos _)⟩⟩,
      ⟨_, results_of (execMadw.eq_1 e s) (fun l => outAt_dst _ _ _) (fun _ => rfl), fun l => narrow_narrowed _ _ _⟩, ?_, ?_, ?_⟩
    · refine results_of (execAddc.eq_1 e s) (fun l => funext fun tgt => ?_) (fun _ => rfl)
      rw [outAt_carryRes, carryIn_eq, intA_u32, intB_u32, (add_carry _ _ _).2, decide_eq_decide.2 (add_carry _ _ _).1]
    · refine results_of (execSubc.eq_1 e s) (fun l => funext fun tgt => ?_) (fun _ => rfl)
      obtain ⟨hb, hd⟩ := sub_borrow (l.src 1 e.a.toNat % 2 ^ 32) _ _ (Nat.mod_lt (l.opB .subc e 1 3) (Nat.two_pow_pos 32))
        (show (if l.th.pred (e.x.c.toNat % 8) = Nat.testBit e.x.c.toNat 3 then 0 else 1) ≤ 1 by split <;> omega)
      rw [outAt_carryRes, carryIn_eq, intA_u32, intB_u32, hd, decide_eq_decide.2 hb]
    · refine results_of (execLea.eq_1 e s) (fun l => ?_) (fun _ => rfl)
      rw [outAt_dst, litInt, wrapInt_address]

end Sys2Proof.Machine

namespace Sys2Proof.Machine

/-! ### Bit patterns (05 R110 to R114) -/

theorem testBit_lowBits (w x j : Nat) : Nat.testBit (lowBits w x) j = (decide (j < w) && Nat.testBit x j) :=
  Nat.testBit_mod_two_pow x w j

theorem lowBits_lt (w x : Nat) : lowBits w x < 2 ^ w := Nat.mod_lt _ (Nat.two_pow_pos w)

theorem testBit_invert (w x j : Nat) (hj : j < w) : Nat.testBit (invert w x) j = !Nat.testBit x j := by
  rw [invert, Nat.sub_sub, Nat.add_comm 1, Nat.testBit_two_pow_sub_succ (lowBits_lt w x), testBit_lowBits]
  simp [hj]

theorem testBit_reverseBits (w x j : Nat) (hj : j < w) : Nat.testBit (reverseBits w x) j = Nat.testBit x (w - 1 - j) := by
  rw [reverseBits, testBit_maskOf, Bool.eq_iff_iff, List.contains_iff_mem, List.mem_map]
  simp only [List.mem_filter, List.mem_range]
  constructor
  · rintro ⟨k, ⟨hk, hx⟩, rfl⟩
    rwa [show w - 1 - (w - 1 - k) = k by omega]
  · exact fun hx => ⟨w - 1 - j, ⟨by omega, hx⟩, by omega⟩

/-- The bits above the leading one are zeros. -/
theorem leadingZeros_spec (w x : Nat) : leadingZeros w x ≤ w
    ∧ (∀ j, w - leadingZeros w x ≤ j → j < w → Nat.testBit x j = false)
    ∧ (leadingZeros w x < w → Nat.testBit x (w - 1 - leadingZeros w x) = true) := by
  have hbit (j : Nat) (hj : j < w) : Nat.testBit x j = Nat.testBit (lowBits w x) j := by simp [testBit_lowBits, hj]
  unfold leadingZeros
  split
  case isTrue h =>
    refine ⟨Nat.le_refl w, fun j _ hj => ?_, fun hw => absurd hw (Nat.lt_irrefl w)⟩
    rw [hbit j hj, h, Nat.zero_testBit]
  case isFalse h =>
    have htop : (lowBits w x).log2 < w := (Nat.log2_lt h).2 (lowBits_lt w x)
    refine ⟨by omega, fun j hl hj => ?_, fun _ => ?_⟩
    · rw [hbit j hj]
      exact Nat.testBit_lt_two_pow ((Nat.log2_lt h).1 (by omega))
    · rw [show w - 1 - (w - 1 - (lowBits w x).log2) = (lowBits w x).log2 by omega, hbit _ htop]
      exact Nat.testBit_log2 h

/-! ### Shifts, the rotation and the bit fields (05 R111 to R113) -/

theorem typeWidth_le (ty : Nat) : typeWidth ty ≤ 128 := by unfold typeWidth; grind

theorem typeRegs_le (ty : Nat) : 32 * typeRegs ty ≤ 128 := by unfold typeRegs; grind

/-- A result narrows as another one does that is congruent to it and lies beyond the range on the same side. -/
theorem Narrowed.of_beyond {ty : Nat} {sat : Bool} {v u : Int} {r : Nat × BitVec 6} (h : Narrowed ty sat u r)
    (hd : (2 ^ typeWidth ty : Int) ∣ v - u)
    (hs : v = u ∨ (v < intMin (isSigned ty) (typeWidth ty) ∧ u < intMin (isSigned ty) (typeWidth ty))
      ∨ (intMax (isSigned ty) (typeWidth ty) < v ∧ intMax (isSigned ty) (typeWidth ty) < u)) : Narrowed ty sat v r := by
  obtain ⟨hr, hlo, hhi, hwrap, hsat⟩ := h
  refine ⟨hr, hlo, hhi, fun h => ⟨?_, (hwrap h).2⟩, fun h => ?_⟩
  · have := Int.dvd_add hd (hwrap h).1
    rwa [show v - u + (u - readInt (isSigned ty) (max 32 (typeWidth ty)) r.1) = v - readInt (isSigned ty) (max 32 (typeWidth ty)) r.1 by
      omega] at this
  · obtain ⟨hx, hf⟩ := hsat h
    generalize readInt _ _ _ = x at *
    refine ⟨by omega, hf.trans ?_⟩
    congr 1
    rw [eq_iff_iff]
    omega

theorem range_within_quad (sg : Bool) (w : Nat) (hw : w ≤ 128) : -(2 ^ 128 : Int) < intMin sg w ∧ intMax sg w < 2 ^ 128 := by
  have h1 : (2 : Int) ^ w ≤ 2 ^ 128 := int_two_pow_le hw
  have h2 : (2 : Int) ^ (w - 1) ≤ 2 ^ 127 := int_two_pow_le (by omega)
  unfold intMin intMax
  cases sg <;> simp only [Bool.false_eq_true, if_false, if_true] <;> omega

/-- What a nonzero number becomes that is shifted left by 128 or more: it is beyond the range of every type. -/
theorem mul_two_pow_beyond (x : Int) {k : Nat} (hk : 128 ≤ k) : (x < 0 → x * 2 ^ k ≤ -2 ^ 128) ∧ (0 < x → 2 ^ 128 ≤ x * 2 ^ k) := by
  have hp : (2 : Int) ^ 128 ≤ 2 ^ k := int_two_pow_le hk
  have h0 : (0 : Int) ≤ 2 ^ k := Int.le_of_lt (int_two_pow_pos k)
  constructor
  · intro hx
    have h : x * 2 ^ k ≤ -1 * 2 ^ k := Int.mul_le_mul_of_nonneg_right (by omega) h0
    omega
  · intro hx
    have h : 1 * 2 ^ k ≤ x * 2 ^ k := Int.mul_le_mul_of_nonneg_right (by omega) h0
    omega

theorem two_pow_dvd_mul (x : Int) {m n : Nat} (h : m ≤ n) : (2 : Int) ^ m ∣ x * 2 ^ n := by
  rw [← pow_cast, ← pow_cast]
  exact Int.dvd_mul_of_dvd_right (Int.ofNat_dvd.2 (Nat.pow_dvd_pow 2 h))

/-- A left shift by 128 or more narrows as the shift by 128 does. -/
theorem Narrowed.of_shift {ty : Nat} {sat : Bool} {x : Int} {n : Nat} {r : Nat × BitVec 6} (h : Narrowed ty sat (x * 2 ^ min 128 n) r) :
    Narrowed ty sat (x * 2 ^ n) r := by
  rcases Nat.le_total n 128 with hn | hn
  · rwa [Nat.min_eq_right hn] at h
  rw [Nat.min_eq_left hn] at h
  have hw := typeWidth_le ty
  obtain ⟨hlo, hhi⟩ := range_within_quad (isSigned ty) (typeWidth ty) hw
  obtain ⟨hneg, hpos⟩ := mul_two_pow_beyond x hn
  obtain ⟨hneg', hpos'⟩ := mul_two_pow_beyond x (Nat.le_refl 128)
  refine h.of_beyond (Int.dvd_sub (two_pow_dvd_mul x (Nat.le_trans hw hn)) (two_pow_dvd_mul x hw)) ?_
  rcases Int.lt_trichotomy x 0 with hx | hx | hx
  · exact .inr (.inl ⟨Int.lt_of_le_of_lt (hneg hx) hlo, Int.lt_of_le_of_lt (hneg' hx) hlo⟩)
  · exact .inl (by rw [hx, Int.zero_mul, Int.zero_mul])
  · exact .inr (.inr ⟨Int.lt_of_lt_of_le hhi (hpos hx), Int.lt_of_lt_of_le hhi (hpos' hx)⟩)

/-- A right shift by 128 or more leaves nothing of a source. -/
theorem testBit_shr (x n j : Nat) (hx : x < 2 ^ 128) : Nat.testBit (x / 2 ^ min 128 n) j = Nat.testBit x (j + n) := by
  rw [Nat.testBit_div_two_pow]
  rcases Nat.le_total n 128 with hn | hn
  · rw [Nat.min_eq_right hn]
  · have above (k : Nat) (hk : 128 ≤ k) : Nat.testBit x k = false :=
      Nat.testBit_lt_two_pow (Nat.lt_of_lt_of_le hx (Nat.pow_le_pow_right (by omega) hk))
    rw [above _ (by omega), above _ (by omega)]

theorem Lane.src_lt_quad (l : Lane) (ty code : Nat) : l.src (typeRegs ty) code < 2 ^ 128 :=
  Nat.lt_of_lt_of_le (l.src_lt _ code (typeRegs_pos ty)) (Nat.pow_le_pow_right (by omega) (typeRegs_le ty))

/-- An arithmetic right shift by the width or more leaves the sign. -/
theorem ediv_two_pow_of_le {t : Int} {m n : Nat} (h1 : -2 ^ m ≤ t) (h2 : t < 2 ^ m) (hn : m ≤ n) :
    t / 2 ^ n = if t < 0 then -1 else 0 := by
  have hp : (2 : Int) ^ m ≤ 2 ^ n := int_two_pow_le hn
  split
  · rw [Int.ediv_eq_iff_of_pos (int_two_pow_pos n)]
    omega
  · exact Int.ediv_eq_zero_of_lt (by omega) (by omega)

theorem toSigned_sra (w x n : Nat) (hw : 0 < w) (h128 : w ≤ 128) :
    toSigned w (wrapInt w (toSigned w x / 2 ^ min 128 n)) = toSigned w x / 2 ^ n := by
  obtain ⟨h1, h2⟩ := toSigned_range w x
  have hs : toSigned w x / 2 ^ min 128 n = toSigned w x / 2 ^ n := by
    rcases Nat.le_total n 128 with hn | hn
    · rw [Nat.min_eq_right hn]
    · rw [Nat.min_eq_left hn, ediv_two_pow_of_le h1 h2 (by omega), ediv_two_pow_of_le h1 h2 (by omega)]
  have hp := int_two_pow_pos n
  have hm : 2 ^ (w - 1) * 1 ≤ (2 : Int) ^ (w - 1) * 2 ^ n := Int.mul_le_mul_of_nonneg_left (by omega) (Int.le_of_lt (int_two_pow_pos _))
  rw [Int.mul_one] at hm
  rw [hs]
  refine readInt_wrap true w _ hw (Int.le_ediv_of_mul_le hp ?_) (Int.le_sub_one_of_lt (Int.ediv_lt_of_lt_mul hp ?_))
  · rw [intMin, if_pos rfl, Int.neg_mul]
    omega
  · omega

theorem testBit_rotl (w x n j : Nat) (hj : j < w) : Nat.testBit (rotl w x n) j = Nat.testBit x ((j + (w - n % w)) % w) := by
  have hk : n % w < w := Nat.mod_lt n (by omega)
  generalize hkk : n % w = k at *
  have hup : lowBits w (x * 2 ^ k) = 2 ^ k * (x % 2 ^ (w - k)) := by
    rw [lowBits, Nat.mul_comm x, ← Nat.mul_mod_mul_left, ← Nat.pow_add, Nat.add_sub_cancel' (Nat.le_of_lt hk)]
  have hlow : lowBits w x / 2 ^ (w - k) < 2 ^ k := by
    rw [Nat.div_lt_iff_lt_mul (Nat.two_pow_pos _), ← Nat.pow_add, Nat.add_sub_cancel' (Nat.le_of_lt hk)]
    exact lowBits_lt w x
  rw [rotl, hkk, hup, Nat.testBit_two_pow_mul_add _ hlow]
  split
  · rw [Nat.testBit_div_two_pow, testBit_lowBits, Nat.mod_eq_of_lt (by omega)]
    simp [show j + (w - k) < w by omega]
  · rw [Nat.testBit_mod_two_pow, show j + (w - k) = j - k + w by omega, Nat.add_mod_right, Nat.mod_eq_of_lt (by omega)]
    simp [show j - k < w - k by omega]

/-- A pattern of `w` bits shifted right by `p`: beyond its width it is filled with its sign or with zeros. -/
theorem testBit_wrapInt_shifted (sg : Bool) {w : Nat} (x p : Nat) {v j : Nat} (hw : 0 < w) (hj : j < v) :
    Nat.testBit (wrapInt v (readInt sg w x / 2 ^ p)) j = if p + j < w then Nat.testBit x (p + j) else sg && Nat.testBit x (w - 1) := by
  cases sg
  · rw [readInt, if_neg Bool.false_ne_true, wrapInt, ← pow_cast, ← pow_cast, ← Int.natCast_ediv, ← Int.natCast_emod, Int.toNat_natCast,
      Nat.testBit_mod_two_pow, Nat.testBit_div_two_pow, testBit_lowBits, Nat.add_comm j]
    by_cases h : p + j < w <;> simp [h, hj]
  · have hs : toSigned w x / 2 ^ p = ((BitVec.ofNat w x).sshiftRight p).toInt := by
      rw [toSigned_eq, BitVec.toInt_sshiftRight, Int.shiftRight_eq_div_pow, pow_cast]
    rw [readInt, if_pos rfl, hs, wrapInt_eq, BitVec.testBit_toNat, ← BitVec.signExtend, BitVec.getLsbD_signExtend]
    have hbit (k : Nat) (hk : k < w) : ((BitVec.ofNat w x).sshiftRight p).getLsbD k
        = if p + k < w then Nat.testBit x (p + k) else Nat.testBit x (w - 1) := by
      rw [BitVec.getLsbD_sshiftRight, BitVec.msb_eq_getLsbD_last, BitVec.getLsbD_ofNat, BitVec.getLsbD_ofNat]
      rw [decide_eq_false (show ¬w ≤ k by omega), decide_eq_true (Nat.sub_one_lt_of_lt hw), Bool.not_false, Bool.true_and, Bool.true_and]
      split
      case isTrue h => rw [decide_eq_true h, Bool.true_and]
      case isFalse => rfl
    rw [BitVec.msb_eq_getLsbD_last, hbit _ (Nat.sub_one_lt_of_lt hw), Bool.true_and, decide_eq_true hj, Bool.true_and]
    split
    case isTrue h => exact hbit j h
    case isFalse h =>
      rw [if_neg (show ¬p + j < w by omega), ite_eq_right_iff]
      intro hp
      rw [show p + (w - 1) = w - 1 by omega]

/-- The bits of an extracted field (05 R112). -/
theorem testBit_extractField (sg : Bool) (w x pos len j : Nat) (hw : 0 < w) (hj : j < w) :
    let f (j : Nat) : Bool := if pos + j < w then Nat.testBit x (pos + j) else sg && Nat.testBit x (w - 1)
    Nat.testBit (extractField sg w x pos len) j
      = if j < min len w then f j else sg && decide (0 < min len w) && f (min len w - 1) := by
  intro f
  unfold extractField
  generalize min len w = m
  have hfield (k : Nat) (hk : k < m) : Nat.testBit (wrapInt m (readInt sg w x / 2 ^ pos)) k = f k := testBit_wrapInt_shifted sg x pos hw hk
  rcases Nat.eq_zero_or_pos m with rfl | hpos
  · simp
  · have := testBit_wrapInt_shifted sg (wrapInt m (readInt sg w x / 2 ^ pos)) 0 hpos hj
    rw [Int.pow_zero, Int.ediv_one, Nat.zero_add, hfield _ (Nat.sub_one_lt_of_lt hpos)] at this
    dsimp only
    rw [if_neg (by omega), this]
    by_cases h : j < m
    · rw [if_pos h, if_pos h, hfield j h]
    · simp [h, hpos]

/-- The bits of a pattern with a field inserted (05 R113). -/
theorem testBit_insertField (w x base pos len j : Nat) (hj : j < w) : Nat.testBit (insertField w x base pos len) j
    = if pos ≤ j ∧ j < pos + min len w then Nat.testBit x (j - pos) else Nat.testBit base j := by
  have hmask : Nat.testBit ((2 ^ min len w - 1) * 2 ^ pos % 2 ^ w) j = decide (pos ≤ j ∧ j < pos + min len w) := by
    rw [Nat.testBit_mod_two_pow, Nat.testBit_mul_two_pow, Nat.testBit_two_pow_sub_one, Bool.eq_iff_iff]
    simp only [Bool.and_eq_true, decide_eq_true_iff]
    omega
  rw [insertField, Nat.testBit_or, Nat.testBit_and, Nat.testBit_and, testBit_invert _ _ _ hj, hmask, Nat.testBit_mul_two_pow]
  by_cases h : pos ≤ j ∧ j < pos + min len w <;> simp [h]

theorem bitsAt_byte (x : Nat) : bitsAt x 7 0 = x % 2 ^ 8 ∧ bitsAt x 15 8 = x / 2 ^ 8 % 2 ^ 8 :=
  ⟨rfl, by rw [bitsAt, Nat.shiftRight_eq_div_pow]⟩

/-- The results of a form whose result has the bits `f`. -/
theorem results_bits {s : State} {op : Op} {e : Enc} {n w : Nat} {r : Lane → Nat} {f : Lane → Nat → Bool}
    (hx : exec (op.instr e) s = issued op e (alu (fun l => { outs := dst e.d n (r l) })) s)
    (hf : ∀ l j, j < w → Nat.testBit (r l) j = f l j) :
    ∃ r : Lane → Nat, s.Results op e (fun l => toRegs e.d n (r l)) (fun _ => 0) ∧ ∀ l j, j < w → Nat.testBit (r l) j = f l j :=
  ⟨r, results_of hx (fun _ => outAt_dst _ _ _) (fun _ => rfl), hf⟩

/-- The results of a bitwise form that makes each bit by `g` (05 R110). -/
theorem results_bitwise {s : State} {op : Op} {e : Enc} {f : Nat → Nat → Nat} (g : Bool → Bool → Bool)
    (hx : exec (op.instr e) s = issued op e (bitwise op f e) s)
    (hf : ∀ x y j, j < typeWidth (typeOf 3 e) → Nat.testBit (f x y) j = g (Nat.testBit x j) (Nat.testBit y j)) :
    ∃ r : Lane → Nat, s.Results op e (fun l => toRegs e.d (typeRegs (typeOf 3 e)) (r l)) (fun _ => 0)
      ∧ ∀ l j, j < typeWidth (typeOf 3 e) → Nat.testBit (r l) j
        = g (Nat.testBit (l.src (typeRegs (typeOf 3 e)) e.a.toNat) j) (Nat.testBit (l.opB op e (typeRegs (typeOf 3 e)) (typeOf 3 e)) j) :=
  results_bits (by unfold bitwise at hx; exact hx) (fun _ j hj => hf _ _ j hj)

/-- Settles O3: the bits of each form's result (`results_bits`), the leading zeros, and shifts, whose amounts the model cuts at 128. -/
theorem bitwiseShiftResults : Obligations.BitwiseShiftResults := by
  refine ⟨fun s e => ?_, fun s e => ?_⟩
  · refine ⟨results_bitwise and (execAnd.eq_1 e s) fun x y j _ => Nat.testBit_and x y j,
      results_bitwise or (execOr.eq_1 e s) fun x y j _ => Nat.testBit_or x y j,
      results_bitwise xor (execXor.eq_1 e s) fun x y j _ => Nat.testBit_xor x y j,
      results_bitwise (fun x y => x && !y) (execAndn.eq_1 e s) fun x y j hj => ?_,
      results_bits (execNot.eq_1 e s) fun l j hj => testBit_invert _ _ j hj,
      results_bits (execBrev.eq_1 e s) fun l j hj => testBit_reverseBits _ _ j hj,
      ⟨_, results_of (execClz.eq_1 e s) (fun _ => outAt_dst _ _ _) (fun _ => rfl), fun l => leadingZeros_spec _ _⟩,
      results_of (execPopc.eq_1 e s) (fun l => ?_) (fun _ => rfl)⟩
    · rw [Nat.testBit_and, testBit_invert _ _ j hj]
    · rw [outAt_dst, List.countP_eq_length_filter]
      rfl
  · refine ⟨⟨_, results_of (execShl.eq_1 e s) (fun _ => outAt_dst _ _ _) (fun _ => rfl), fun l => (narrow_narrowed _ _ _).of_shift⟩,
      results_bits (execShr.eq_1 e s) fun l j _ => testBit_shr _ _ j (l.src_lt_quad _ _),
      ⟨_, results_of (execSra.eq_1 e s) (fun _ => outAt_dst _ _ _) (fun _ => rfl), fun l =>
        ⟨wrapInt_lt _ _, toSigned_sra _ _ _ (typeWidth_pos _) (typeWidth_le _)⟩⟩,
      results_bits (execRotl.eq_1 e s) fun l j hj => testBit_rotl _ _ _ j hj,
      results_bits (execBfx.eq_1 e s) fun l j hj => ?_, results_bits (execBfi.eq_1 e s) fun l j hj => ?_⟩
    · obtain ⟨hp, hl⟩ := bitsAt_byte (amount .bfx e l)
      rw [hp, hl]
      exact testBit_extractField _ _ _ _ _ _ (typeWidth_pos _) hj
    · obtain ⟨hp, hl⟩ := bitsAt_byte (amount .bfi e l)
      rw [hp, hl]
      exact testBit_insertField _ _ _ _ _ _ hj

end Sys2Proof.Machine

namespace Sys2Proof.Machine

/-! ### Special registers and the sticky flags (05 R97, R101; 06 R124) -/

theorem testBit_laneMask (ls : List Lane) (k : Nat) : Nat.testBit (laneMask ls) k = ls.any (fun l => l.lane == k) := by
  rw [laneMask, testBit_maskOf, Bool.eq_iff_iff, List.contains_iff_mem, List.mem_map, List.any_eq_true]
  simp only [beq_iff_eq]

theorem specialWide_iff (a : BitVec 8) : specialWide a.toNat ↔ a = 16 ∨ a = 24 ∨ a = 26 ∨ a = 30 := by
  simp [specialWide, ← BitVec.toNat_inj, or_assoc]

/-- What an instruction that writes registers alone gives. -/
theorem alu_gave_dst (code : BitVec 8) (n : Nat) (v : Lane → Nat) (i : Iss) (s : State) :
    s.Gave (alu (fun l => { outs := dst code n (v l) }) i s) i.team.id i.givers (fun l => toRegs code n (v l)) (fun _ => 0) := by
  simpa only [outAt_dst] using alu_gave (fun l => { outs := dst code n (v l) }) i s

section Grid
variable {s : State} {i : Iss} {g : Grid} {l : Lane}

/-- The special registers that speak of the grid (01 R19). -/
theorem State.special_grid (hg : s.grid? i.team.grid = some g) {k : Nat} (hk : k ≤ 11) : s.special i l k =
    if k ≤ 2 then indexIn g.launch.ntid l.th.ltid k else if k ≤ 5 then extentOf g.launch.ntid (k - 3)
    else if k ≤ 8 then indexIn g.launch.nteam i.team.index (k - 6) else extentOf g.launch.nteam (k - 9) := by
  simp only [State.special, hg, Option.map_some, Option.getD_some, if_pos hk]

theorem State.special_depth (hg : s.grid? i.team.grid = some g) : s.special i l 22 = g.depth := by
  simp [State.special, hg]

theorem State.special_argAt (hg : s.grid? i.team.grid = some g) : s.special i l 30 = g.argAt := by
  simp [State.special, hg]

end Grid

theorem wsPhase_eq (time : Nat) :
    wsPhase time = time % 25600 + 2 ^ 15 * (time % 25600 / 1600) + if time % 25600 % 1600 < 400 then 2 ^ 19 else 0 := by
  simp only [wsPhase]
  split <;> omega

theorem State.timeAt_near (s : State) (die : Nat) : s.timeAt die ≤ s.clock.time ∧ s.clock.time ≤ s.timeAt die + 4 := by
  unfold State.timeAt
  omega

section Sflg
variable (e : Enc) (i : Iss)

/-- The flags that `sflg` clears in a lane: none without `.clr`. -/
def sflgMask (l : Lane) : BitVec 6 := if e.x.aux.toNat = 1 then BitVec.ofNat 6 (l.opB .sflg e 1 3) else 0

/-- What `sflg` does in one active lane. -/
def sflgLane (s : State) (l : Lane) : State :=
  (s.give i [l] { outs := dst e.d 1 (s.flagsOf i l).toNat } i.src).updThread i.team.id l.th.ltid
    (fun th => { th with flags := th.flags &&& ~~~sflgMask e l })

/-- The same for its thread: it reads its flags and has some cleared. -/
def Thread.sflg (a : Thread) (l : Lane) : Thread :=
  { a.push (dst e.d 1 a.flags.toNat) i.src with flags := a.flags &&& ~~~sflgMask e l }

theorem exec_sflg (s : State) : exec (.sflg e) s = issued .sflg e (fun i s => i.act.foldl (sflgLane e i) s) s :=
  execSflg.eq_1 e s

theorem Thread.sflg_rest (a : Thread) (l : Lane) :
    a.sflg e i l = { a with pend := (a.sflg e i l).pend, flags := (a.sflg e i l).flags } := rfl

theorem Thread.sflg_final (a : Thread) (l : Lane) (tgt : Target) :
    (a.sflg e i l).final tgt = (toRegs e.d 1 a.flags.toNat tgt).getD (a.final tgt) := by
  rw [← outAt_dst, ← a.push_final _ i.src]
  cases tgt <;> rfl

theorem Thread.sflg_flags (a : Thread) (l : Lane) : (a.sflg e i l).flags
    = if e.x.aux = 1 then a.flags &&& ~~~(BitVec.ofNat 6 (l.opB .sflg e 1 3)) else a.flags := by
  have h1 : e.x.aux.toNat = 1 ↔ e.x.aux = 1 := by rw [← BitVec.toNat_inj]; rfl
  show a.flags &&& ~~~sflgMask e l = _
  simp only [sflgMask, h1]
  split
  · rfl
  · exact (congrArg _ BitVec.not_zero).trans BitVec.and_allOnes

theorem sflgLane_team (s : State) (l : Lane) {k : Nat} (hk : k ≠ i.team.id) : (sflgLane e i s l).team? k = s.team? k := by
  rw [sflgLane, State.updThread, State.updTeam_team _ _ _ _ (by intro x; rfl), if_neg hk, State.give,
    State.updTeam_team _ _ _ _ (by intro x; rfl), if_neg hk]

theorem sflgLane_thread (s : State) (l : Lane) (n : Nat) : (sflgLane e i s l).thread? i.team.id n
    = (s.thread? i.team.id n).map (fun a => if l.th.ltid = n then a.sflg e i l else a) := by
  rw [sflgLane, State.updThread_thread _ _ _ _ _ _ (by intro x; rfl), State.give_thread, if_pos rfl]
  cases hs : s.thread? i.team.id n with
  | none => simp
  | some a =>
    by_cases hn : l.th.ltid = n
    · subst hn
      simp [State.flagsOf, hs, Thread.sflg, Thread.raise, Thread.push]
    · simp [hn, Ne.symm hn]

theorem foldl_sflgLane_rest (ls : List Lane) (s : State) :
    ls.foldl (sflgLane e i) s = { s with wk := { s.wk with teams := (ls.foldl (sflgLane e i) s).wk.teams } } := by
  induction ls generalizing s with
  | nil => rfl
  | cons l ls ih =>
    rw [List.foldl_cons, ih]
    rfl

theorem foldl_sflgLane_team (ls : List Lane) (s : State) {k : Nat} (hk : k ≠ i.team.id) :
    (ls.foldl (sflgLane e i) s).team? k = s.team? k := by
  induction ls generalizing s with
  | nil => rfl
  | cons l ls ih => rw [List.foldl_cons, ih, sflgLane_team e i s l hk]

/-- The lanes of a thread act on it in turn. -/
theorem foldl_sflgLane_thread (ls : List Lane) (s : State) (n : Nat) : (ls.foldl (sflgLane e i) s).thread? i.team.id n
    = (s.thread? i.team.id n).map (fun a => (ls.filter (fun m => m.th.ltid == n)).foldl (fun a l => a.sflg e i l) a) := by
  induction ls generalizing s with
  | nil => simp
  | cons l ls ih =>
    rw [List.foldl_cons, ih, sflgLane_thread, Option.map_map, List.filter_cons]
    congr 1
    funext a
    by_cases hn : l.th.ltid = n <;> simp [hn]

end Sflg

/-- Settles O10: `sflg` acts on each thread once for its active lane (`foldl_sflgLane_thread`), `movs` gives what `State.special` reads. -/
theorem specialRegisterResults : Obligations.SpecialRegisterResults := by
  intro s e i
  refine ⟨fun hi => ?_, fun hi => exec_next (j := .nop e) (execNop.eq_1 e s) hi, fun hi => ?_⟩
  · refine ⟨_, exec_next (exec_sflg e s) hi, foldl_sflgLane_rest e i _ s, fun k hk => foldl_sflgLane_team e i _ s hk,
      fun n a ha hn => ?_, fun n a l ha hn => ?_⟩ <;> rw [Iss.actors] at hn
    · rw [foldl_sflgLane_thread, ha, hn]
      rfl
    · refine ⟨a.sflg e i l, ?_, a.sflg_rest e i l, a.sflg_final e i l, a.sflg_flags e i l⟩
      rw [foldl_sflgLane_thread, ha, hn]
      rfl
  · refine ⟨_, fun l => s.special i l e.a.toNat, exec_next (j := .movs e) (execMovs.eq_1 e s) hi, ?_, fun l => ?_⟩
    · simp only [← specialWide_iff]
      exact alu_gave_dst _ _ _ i s
    · refine ⟨fun h => by rw [h]; rfl, fun h => by rw [h]; rfl, fun h => by rw [h]; rfl, fun h k => by rw [h]; exact testBit_laneMask _ _,
        fun h => by rw [h]; rfl, fun h => by rw [h]; rfl, fun h => by rw [h]; rfl, fun h => by rw [h]; rfl,
        fun h => ⟨_, rfl, by rw [h]; exact wsPhase_eq _⟩, fun h => by rw [h]; exact s.timeAt_near _, fun h => by rw [h]; rfl,
        fun th hth h => ?_, fun h => by rw [h]; rfl, fun g hg => ?_⟩
      · rw [h]
        show (s.flagsOf i l).toNat = _
        rw [State.flagsOf, hth]
        rfl
      · refine ⟨?_, ?_, ?_, ?_, ?_, ?_, ?_, ?_, ?_, ?_, ?_, ?_, fun h => by rw [h]; exact State.special_depth hg,
          fun h => by rw [h]; exact State.special_argAt hg⟩
        all_goals
          intro h
          rw [h]
          exact State.special_grid hg (by decide)

end Sys2Proof.Machine

namespace Sys2Proof.Machine

/-! ### What a formation makes of the threads it is given (08 R163 to R166) -/

section Dedup
variable {α : Type} [DecidableEq α]

/-- An element joins a list where it is not in it yet: one step of `dedup`. -/
theorem dedup_foldl (l acc : List α) (h : acc.Nodup) :
    (l.foldl (fun acc x => if acc.contains x then acc else acc ++ [x]) acc).Nodup
    ∧ ∀ x, x ∈ l.foldl (fun acc x => if acc.contains x then acc else acc ++ [x]) acc ↔ x ∈ acc ∨ x ∈ l := by
  induction l generalizing acc with
  | nil => exact ⟨h, by simp⟩
  | cons y l ih =>
    rw [List.foldl_cons]
    by_cases hy : y ∈ acc
    · obtain ⟨hn, hm⟩ := ih acc h
      rw [if_pos (by simpa using hy)]
      refine ⟨hn, fun x => (hm x).trans ?_⟩
      simp only [List.mem_cons]
      constructor
      · exact Or.imp_right .inr
      · rintro (hx | rfl | hx)
        · exact .inl hx
        · exact .inl hy
        · exact .inr hx
    · have hacc : (acc ++ [y]).Nodup :=
        List.nodup_append.2 ⟨h, by simp, fun a ha b hb e => hy (List.mem_singleton.1 hb ▸ e ▸ ha)⟩
      obtain ⟨hn, hm⟩ := ih (acc ++ [y]) hacc
      rw [if_neg (by simpa using hy)]
      exact ⟨hn, fun x => (hm x).trans (by simp [or_assoc])⟩

theorem dedup_nodup (l : List α) : (dedup l).Nodup := (dedup_foldl l [] List.nodup_nil).1

@[simp] theorem mem_dedup {l : List α} {x : α} : x ∈ dedup l ↔ x ∈ l :=
  ((dedup_foldl l [] List.nodup_nil).2 x).trans (by simp)

end Dedup

section Chunks
variable {α : Type} {w n : Nat} {l : List α}

theorem chunks_flatten (hw : 0 < w) (h : l.length ≤ n) : (chunks w n l).flatten = l := by
  induction n generalizing l with
  | zero => rw [List.length_eq_zero_iff.1 (Nat.le_zero.1 h)]; rfl
  | succ n ih =>
    rw [chunks]
    split
    case isTrue he => rw [List.isEmpty_iff.1 he]; rfl
    case isFalse he =>
      rw [List.flatten_cons, ih (by rw [List.length_drop]; omega), List.take_append_drop]

theorem mem_chunks (hw : 0 < w) {c : List α} (h : c ∈ chunks w n l) : c ≠ [] ∧ c.length ≤ w ∧ c.Sublist l := by
  induction n generalizing l with
  | zero => exact absurd h (by simp [chunks])
  | succ n ih =>
    rw [chunks] at h
    split at h
    case isTrue => exact absurd h (by simp)
    case isFalse he =>
      rcases List.mem_cons.1 h with rfl | h
      · have hne : l.take w ≠ [] := fun h => (List.take_eq_nil_iff.1 h).elim (Nat.ne_of_gt hw) fun h => he (List.isEmpty_iff.2 h)
        exact ⟨hne, List.length_take_le _ _, List.take_sublist _ _⟩
      · obtain ⟨hne, hlen, hsub⟩ := ih h
        exact ⟨hne, hlen, hsub.trans (List.drop_sublist _ _)⟩

end Chunks

/-- A list cut by the keys of its elements holds the same elements. -/
theorem flatMap_filter_key_perm {α β : Type} [BEq β] [LawfulBEq β] (key : α → β) (ks : List β) (hk : ks.Nodup) (l : List α)
    (h : ∀ a, a ∈ l → key a ∈ ks) : (ks.flatMap (fun k => l.filter (fun a => key a == k))).Perm l := by
  induction ks generalizing l with
  | nil =>
    have : l = [] := List.eq_nil_iff_forall_not_mem.2 fun a ha => List.not_mem_nil (h a ha)
    rw [this]; rfl
  | cons k ks ih =>
    obtain ⟨hnot, hks⟩ := List.nodup_cons.1 hk
    -- the pieces of the other keys are those of the list without this key's elements
    have hrest : ks.flatMap (fun j => l.filter (fun a => key a == j))
        = ks.flatMap (fun j => (l.filter (fun a => !(key a == k))).filter (fun a => key a == j)) := by
      rw [List.flatMap_def, List.flatMap_def]
      refine congrArg List.flatten (List.map_congr_left fun j hj => ?_)
      rw [List.filter_filter]
      refine List.filter_congr fun a _ => ?_
      by_cases ha : key a = j
      · have : key a ≠ k := fun e => hnot (e ▸ ha ▸ hj)
        simp [ha, ha ▸ this]
      · simp [ha]
    rw [List.flatMap_cons, hrest]
    refine .trans (.append_left _ (ih hks _ fun a ha => ?_)) (List.filter_append_perm _ _)
    obtain ⟨hal, hak⟩ := List.mem_filter.1 ha
    exact (List.mem_cons.1 (h a hal)).resolve_left (by simpa using hak)

/-- The elements of numbered lists are those of the lists. -/
theorem zipIdx_flatMap_map_fst {α β : Type} (f : α → β) (ls : List (List α)) :
    ls.zipIdx.flatMap (fun p => p.1.map f) = ls.flatten.map f := by
  rw [List.map_flatten, ← List.zipIdx_map_fst 0 ls, List.map_map, List.zipIdx_map_fst]
  rfl

section Packs
variable {w : Nat} {ts : List Thread}

/-- A pack is a run of threads that resume at one place, in the order of the formation, and no more than the width. -/
theorem mem_packs (hw : 0 < w) {p : List Thread} (h : p ∈ packs w ts) :
    p ≠ [] ∧ p.length ≤ w ∧ p.Sublist ts ∧ ∀ a b, a ∈ p → b ∈ p → a.at = b.at := by
  obtain ⟨k, -, hp⟩ := List.mem_flatMap.1 h
  obtain ⟨hne, hlen, hsub⟩ := mem_chunks hw hp
  have hat : ∀ a, a ∈ p → a.at = k := fun a ha => by simpa using (List.mem_filter.1 (hsub.subset ha)).2
  exact ⟨hne, hlen, hsub.trans List.filter_sublist, fun a b ha hb => (hat a ha).trans (hat b hb).symm⟩

/-- Each thread of a formation is in one pack. -/
theorem packs_flatten_perm (hw : 0 < w) (ts : List Thread) : (packs w ts).flatten.Perm ts := by
  have hflat : (packs w ts).flatten = (dedup (ts.map Thread.at)).flatMap (fun k => ts.filter (fun t => t.at == k)) := by
    rw [packs, ← List.flatMap_id, List.flatMap_assoc, List.flatMap_def, List.flatMap_def]
    exact congrArg List.flatten (List.map_congr_left fun k _ => List.flatMap_id.trans (chunks_flatten hw (Nat.le_refl _)))
  rw [hflat]
  exact flatMap_filter_key_perm _ _ (dedup_nodup _) _ fun a ha => mem_dedup.2 (List.mem_map_of_mem ha)

end Packs

/-- Settles O15: the new warps are the packs of the running threads (`mem_packs`, `packs_flatten_perm`), the old ones lose them. -/
theorem formationResults : Obligations.FormationResults := by
  intro t w due ids hw
  refine ⟨_, _, rfl, fun v hv => ?_, ?_, ?_, fun v hv => ?_, fun n a ha => ?_⟩
  · -- a new warp
    obtain ⟨⟨p, k⟩, hp, rfl⟩ := List.mem_map.1 hv
    obtain ⟨hne, hlen, hsub, hat⟩ := mem_packs hw (List.fst_mem_of_mem_zipIdx hp)
    refine ⟨rfl, by simpa using hne, by simpa using hlen, p, rfl, hsub.trans List.filter_sublist, fun a b ha hb => ?_⟩
    exact Prod.mk.inj (hat a b ha hb)
  · -- the lanes of the new warps
    rw [List.flatMap_map]
    exact (List.Perm.of_eq (zipIdx_flatMap_map_fst _ _)).trans ((packs_flatten_perm hw _).map _)
  · -- the numbers of the new warps
    rw [List.pairwise_map, List.pairwise_iff_getElem]
    intro i j hi hj hij
    simp only [List.getElem_zipIdx]
    omega
  · -- a warp that keeps some of its lanes
    obtain ⟨hm, hany⟩ := List.mem_filter.1 hv
    obtain ⟨x, -, rfl⟩ := List.mem_map.1 hm
    obtain ⟨o, ho, hsome⟩ := List.any_eq_true.1 hany
    obtain ⟨n, rfl⟩ := Option.isSome_iff_exists.1 hsome
    refine ⟨⟨n, ho⟩, fun m hm => ?_⟩
    obtain ⟨o, -, hbind⟩ := List.mem_map.1 hm
    obtain ⟨k, -, hk⟩ := Option.bind_eq_some_iff.1 hbind
    split at hk
    case isTrue => exact absurd hk (by simp)
    case isFalse hc => simpa [Option.some.inj hk] using hc
  · -- a thread of the team
    rw [Team.form_thread, ha]
    refine ⟨_, rfl, ?_⟩
    by_cases hn : n ∈ ids
    · rw [List.contains_iff_mem.2 hn, if_pos hn]
      exact congrArg (fun b : Thread => { b with wait := .run }) a.allSeen_rest
    · rw [Bool.eq_false_iff.2 fun h => hn (List.contains_iff_mem.1 h), if_neg hn]
      rfl

end Sys2Proof.Machine

namespace Sys2Proof.Machine

/-! ### A grid's completion where two contributions have one number (08 R174; 13 R235; 15 R280) -/

/-- An ordered contribution of grid 1 to its epoch 0, with number 0, on its way. -/
def orderedRed : Contrib where
  n := 0
  grid := 1
  ctx := 0
  team := 0
  thread := 0
  core := 0
  index := 0
  issue := 0
  det := some (0, 0)
  opcode := 0
  type := 0
  addr := 0
  val := 0
  st := .flight

/-- A plain contribution of grid 0 with the same number. -/
def plainRed : Contrib := { orderedRed with grid := 0, det := none }

/-- An ordered contribution of grid 1 that its slice's buffer holds. -/
def heldRed : Contrib := { orderedRed with n := 1, st := .held }

/-- A team of grid 1 whose warp waits in the fence that closed epoch 0. -/
def fencingTeam : Team :=
  let t := startTeam (fetchGrid 1 0x2000) 0 0 0 0 0 0 0
  { t with warps := t.warps.map (fun w => { w with fence := some ⟨0, [0], false, 3, 0x2000, 0, false⟩ }) }

/-- Grid 0, with nothing left to place, whose launch names no die. -/
def drainedGrid : Grid :=
  { fetchGrid 0 0x2000 with launch := { fetchLaunch 0x2000 with diemask := 0 } }

/-- The machine with that grid and team, and these contributions. -/
def contributed (cs : List Contrib) : State :=
  { State.reset with
    mm := { State.reset.mm with contribs := cs }
    fe := { State.reset.fe with grids := [drainedGrid] }
    wk := { State.reset.wk with teams := [fencingTeam] } }

/-- Where no context's registers have been written, no record is made. -/
theorem State.emit_reset {s : State} (h : s.ctxs = []) (ctx core : Nat) (k : RecKind) (arg : Nat) (payload : List Nat) (wide : Bool)
    (team : Option (Nat × Nat)) : s.emit ctx core k arg payload wide team = s := by
  have hoff : bitAt CtxReg.reset.traceCtl.toNat 0 = false := by decide
  have htraces : s.traces ctx (dieOf core) k = false := by
    rw [State.traces, State.ctx, h]
    simp [Table.read, Table.look, hoff]
  rw [State.emit, htraces]
  rfl

/-- With the slice's buffer full and no spill area, an ordered contribution is kept, and the fence that closed its epoch faults. -/
theorem State.holdRed_full {s : State} {c : Contrib}
    (hfull : 65536 ≤ (s.mm.contribs.filter (fun x => x.st == .held && s.pkg.slice x.addr == s.pkg.slice c.addr)).length)
    (hspill : bitsAt (s.ctx c.ctx (dieOf c.core)).spillSize.toNat 31 0 = 0) :
    s.holdRed c = State.overflow { s with mm := { s.mm with
      contribs := s.mm.contribs.map (fun x => if x.n = c.n then { x with st := .kept } else x) } } c.grid ((c.det.map Prod.fst).getD 0) := by
  rw [State.holdRed]
  dsimp only
  rw [if_neg (Nat.not_lt.2 hfull), hspill, if_neg (Nat.not_lt_zero _)]

/-- Without an ordered contribution of a grid up to an epoch, none is applied. -/
theorem State.applyEpochs_wk {s : State} {grid epoch : Nat}
    (h : ∀ c, c ∈ s.mm.contribs → c.grid ≠ grid ∨ c.det = none) : (s.applyEpochs grid epoch).wk = s.wk := by
  have hnone : s.mm.contribs.filter (fun c => c.grid == grid && c.det.any (fun p => decide (p.1 ≤ epoch))) = [] :=
    List.filter_eq_nil_iff.2 fun c hc => by rcases h c hc with hg | hd <;> simp [*]
  rw [State.applyEpochs]
  dsimp only
  rw [hnone]
  rfl

section SameNumber
variable {held : List Contrib} (hheld : ∀ c, c ∈ held → c = heldRed)
include hheld

theorem filter_heldRed (p : Contrib → Bool) : held.filter p = if p heldRed then held else [] := by
  split
  case isTrue hp => exact List.filter_eq_self.2 fun c hc => hheld c hc ▸ hp
  case isFalse hp => exact List.filter_eq_nil_iff.2 fun c hc => hheld c hc ▸ hp

theorem filter_sameNumber (p : Contrib → Bool) : (orderedRed :: plainRed :: held).filter p
    = (if p orderedRed then [orderedRed] else []) ++ (if p plainRed then [plainRed] else []) ++ if p heldRed then held else [] := by
  rw [List.filter_cons, List.filter_cons, filter_heldRed hheld]
  split <;> split <;> rfl

/-- The plain contribution of grid 0 is to arrive, and its number finds the ordered one of grid 1. -/
theorem forceReds_sameNumber : (contributed (orderedRed :: plainRed :: held)).forceReds (fun c => c.grid == 0)
    = (contributed (orderedRed :: plainRed :: held)).holdRed orderedRed := by
  have hlast : (contributed (orderedRed :: plainRed :: held)).mm.contribs.filter (fun c => c.st == .flight && c.grid == 0) = [plainRed] :=
    filter_sameNumber hheld _
  have hall : (contributed (orderedRed :: plainRed :: held)).mm.contribs.filter
      (fun c => c.st == .flight && decide (c.n ≤ plainRed.n) && (c.grid == 0 || c.det.isNone)) = [plainRed] :=
    filter_sameNumber hheld _
  rw [State.forceReds, hlast]
  dsimp only [List.getLast?_singleton]
  rw [hall]
  rfl

/-- The slice's buffer is full and there is no spill area: the ordered contribution is kept, and its closing fence faults. -/
theorem holdRed_sameNumber (hlen : 65536 ≤ held.length) : ∃ kept : List Contrib,
    (contributed (orderedRed :: plainRed :: held)).holdRed orderedRed = (contributed kept).overflow 1 0
    ∧ ∀ c, c ∈ kept → c.grid ≠ 0 ∨ c.det = none := by
  have hbuffer : (contributed (orderedRed :: plainRed :: held)).mm.contribs.filter (fun x => x.st == .held
      && (contributed (orderedRed :: plainRed :: held)).pkg.slice x.addr
        == (contributed (orderedRed :: plainRed :: held)).pkg.slice orderedRed.addr) = held :=
    (filter_sameNumber hheld _).trans (by simp [orderedRed, plainRed, heldRed])
  refine ⟨(orderedRed :: plainRed :: held).map (fun x => if x.n = orderedRed.n then { x with st := .kept } else x), ?_, fun c hc => ?_⟩
  · exact State.holdRed_full (hbuffer.symm ▸ hlen) (by rfl)
  · obtain ⟨x, hx, rfl⟩ := List.mem_map.1 hc
    have hx' : x.grid ≠ 0 ∨ x.det = none := by
      rcases List.mem_cons.1 hx with rfl | hx
      · exact .inl (by decide)
      rcases List.mem_cons.1 hx with rfl | hx
      · exact .inr rfl
      · exact .inl (hheld x hx ▸ by decide)
    split <;> exact hx'

/-- The completion of grid 0 raises the overflow fault in the team of grid 1. -/
theorem endGrid_sameNumber (hlen : 65536 ≤ held.length) :
    ((contributed (orderedRed :: plainRed :: held)).endGrid drainedGrid).wk.teams.flatMap (fun t => t.warps.map Warp.fence)
      = [some ⟨0, [0], false, 3, 0x2000, 0, true⟩] := by
  obtain ⟨kept, hkept, hmine⟩ := holdRed_sameNumber hheld hlen
  have hrel : ((contributed (orderedRed :: plainRed :: held)).releaseGrid drainedGrid).wk = ((contributed kept).overflow 1 0).wk := by
    show (State.applyEpochs (State.emit (State.forceReds (contributed _) (fun c => c.grid == 0)) _ _ _ _ _ _ _) 0 0).wk = _
    rw [(forceReds_sameNumber hheld).trans hkept, State.emit_reset rfl, State.applyEpochs_wk hmine]
  show ((contributed _).releaseGrid drainedGrid).wk.teams.flatMap _ = _
  rw [hrel]
  rfl

end SameNumber

/-- Refutes O45: the statement speaks of every state, and a contribution arrives by its number. In a state, which no run reaches, where
an ordered one of grid 1 has the number of a plain one of grid 0, and the slice's buffer is full, the completion of grid 0 raises the
overflow fault in a team of grid 1, where the statement has it change memory, trace records, packets and grids alone. -/
theorem not_placementResults : ¬ Obligations.PlacementResults := by
  intro h
  have hend := endGrid_sameNumber (held := List.replicate 65536 heldRed) (fun c hc => List.eq_of_mem_replicate hc)
    (Nat.le_of_eq List.length_replicate.symm)
  generalize orderedRed :: plainRed :: List.replicate 65536 heldRed = cs at hend
  obtain ⟨-, -, -, -, -, hgrid⟩ := h (contributed cs) 0 0
  obtain ⟨-, -, hready⟩ := hgrid drainedGrid rfl
  have hshares : ∀ sh, sh ∈ drainedGrid.shares → sh.reported = true := by decide
  have hchild : ∀ g p, g ∈ [drainedGrid] → g.parent = some p → p.grid ≠ 0 := fun g p hg hp => by
    rw [List.mem_singleton.1 hg] at hp
    exact absurd (show none = some p from hp) (by simp)
  have hteams : ∀ m, m ∈ [fencingTeam] → m.grid ≠ 0 := by decide
  obtain ⟨u, v, t, hexec, hu, -, hv, -, -, hdone⟩ := hready ⟨hshares, hchild, hteams⟩
  obtain rfl : (contributed cs).endGrid drainedGrid = t := Host.Outcome.next.inj hexec
  have hwk : ((contributed cs).endGrid drainedGrid).wk = (contributed cs).wk := by
    rw [(hdone rfl rfl).1, hv, hu]
  rw [hwk] at hend
  -- the fence of the team has not raised its fault in the state before
  exact absurd (show [fencingTeam].flatMap (fun t => t.warps.map Warp.fence) = _ from hend) (by decide)

end Sys2Proof.Machine
